-- ==== Sys2Proof/Word.lean ====
section
/-!
DEFINITION. The words of the machine (spec/00 R11, spec/01 R16, spec/02 R47): a byte, a vector word, a scalar word, an
instruction word and a set of lanes.
-/
namespace Sys2Proof

/-- A byte of memory or of scratchpad. -/
abbrev Byte := BitVec 8

/-- A vector or shade register of one lane (R47, R193). -/
abbrev W32 := BitVec 32

/-- A scalar register (R49). -/
abbrev W64 := BitVec 64

/-- An instruction word (R16). -/
abbrev W96 := BitVec 96

/-- A set of lanes; bit l is lane l (R25, R50). -/
abbrev Mask := BitVec 8

/-- Lane `l` is in the set. -/
def Mask.has (m : Mask) (l : Nat) : Bool := m.toNat.testBit l

/-- The set that holds lane `l` alone. -/
def Mask.single (l : Nat) : Mask := BitVec.ofNat 8 (2 ^ l)

end Sys2Proof
end

