-- ==== Sys2Proof/Syntax.lean ====
section
/-!
DEFINITION. The instructions and events of the CX880: one constructor of `Instr` for each row of spec/opcode_table.json.
An instruction carries its modifier, typed (its chapter's MOD assignment), and an `Insn` with its operands, guard and
hints (spec/01 R17, R18, R25, R30-R35). An event carries the names of the things it acts on.
-/
namespace Sys2Proof

/-- Element types (R26). -/
inductive Ty
  | s8 | s16 | s32 | s64 | n8 | n16 | n32 | n64 | f16 | bf16 | f32 | f16x2 | bf16x2 | f8a | f8b
  deriving DecidableEq, Repr

/-- Rounding modes (R27). -/
inductive Rnd
  | rne | rtz | rdn | rup | rna
  deriving DecidableEq, Repr

/-- Scopes (R29). -/
inductive Scope
  | grp | blk | clu | die | pkg | fab | sys
  deriving DecidableEq, Repr

/-- Readings of the top-exponent codes (R97). -/
inductive Reading
  | ieee | finite | nanOnly
  deriving DecidableEq, Repr

/-- Special registers (R24). -/
inductive Special
  | laneid | grpid | blkid | chordid | cardid | link | clock | ticks | pts | fflags | ctxid
  | caps0 | caps1 | caps2 | caps3
  deriving DecidableEq, Repr

/-- Rank tags of a shade operand (R18). -/
inductive Rank
  | resolve | l | g | b
  deriving DecidableEq, Repr

/-- An operand field after decoding (R18, R21, R23). `imm32` is the LONG form, `imm29` the class 101 without LONG. -/
inductive Opnd
  | unused
  | v (r : BitVec 8)
  | s (r : BitVec 7)
  | h (k : BitVec 5) (t : Rank)
  | p (r : BitVec 3)
  | imm (n : BitVec 9)
  | imm29 (n : BitVec 29)
  | imm32 (n : BitVec 32)
  | const (bank : BitVec 4) (off : BitVec 16)
  | spec (x : Special)
  deriving DecidableEq, Repr

/-- What X holds when no immediate or constant claims it (R22): nothing, a displacement (R16), a fourth operand, a
fourth operand with LOP3's table (R124), or the offset, shift and scope of a memory operand (R143). -/
inductive XField
  | none
  | disp (d : BitVec 20)
  | opnd (o : Opnd)
  | lut (o : Opnd) (t : BitVec 8)
  | mem (off : BitVec 14) (sh : BitVec 3) (scope : BitVec 3)
  deriving DecidableEq, Repr

/-- The guard field (R25). -/
structure Guard where
  p : BitVec 3
  neg : Bool
  deriving DecidableEq, Repr

/-- The hint field (R30, R31, R34): bit k-1 of `wait` is token tk, `set` 0 sets none. -/
structure Hints where
  wait : BitVec 7
  set : BitVec 3
  stall : BitVec 5
  yield : Bool
  deriving DecidableEq, Repr

/-- The operands, guard and hints of one instruction (R17). -/
structure Insn where
  a : Opnd
  b : Opnd
  c : Opnd
  x : XField
  g : Guard
  h : Hints
  deriving DecidableEq, Repr

/-- Integer comparisons (R81). -/
inductive Cmp
  | eq | ne | lt | le | gt | ge
  deriving DecidableEq, Repr

/-- Float comparisons (R82). -/
inductive FCmp
  | eq | ne | lt | le | gt | ge | num | nan
  deriving DecidableEq, Repr

/-- Results of VOTE (R87). -/
inductive VoteKind
  | ballot | count | lead | some | every | same
  deriving DecidableEq, Repr

/-- Operations of REDUX and SCAN (R90) and of collectives (R437). -/
inductive RedOp
  | add | min | max | and | or | xor
  deriving DecidableEq, Repr

/-- Kinds of MATCH (R91). -/
inductive MatchKind
  | peers | lead | unit
  deriving DecidableEq, Repr

/-- Operations of ATOM and ATOMS (R229, R328). -/
inductive AtomOp
  | add | min | max | and | or | xor | exch | cas
  deriving DecidableEq, Repr

/-- Orders of ATOM (R328). -/
inductive AtomOrder
  | relaxed | acq | rel | ar | sc
  deriving DecidableEq, Repr

/-- Address spaces of LD and ST (R154). -/
inductive Space
  | global | priv | pin
  deriving DecidableEq, Repr

/-- Access widths (R145). -/
inductive Width
  | b8 | b16 | b32 | b64 | b128 | b256
  deriving DecidableEq, Repr

/-- Cache policies of LD, ST and LDNR (R154); of copies without `nol1` (R233). -/
inductive CachePol
  | dflt | stream | nol1 | keep
  deriving DecidableEq, Repr

/-- Orders of LD (R154). -/
inductive LdOrder
  | plain | acq | sc | ro
  deriving DecidableEq, Repr

/-- Orders of ST (R154). -/
inductive StOrder
  | plain | rel | sc
  deriving DecidableEq, Repr

/-- Targets of PREF (R163). -/
inductive PrefTarget
  | l1 | slice | ro
  deriving DecidableEq, Repr

/-- Operations of CCTL (R164). -/
inductive CctlOp
  | wb | wbinv | invro | wbAll | wbinvAll | invroAll
  deriving DecidableEq, Repr

/-- Kinds of FENCE (R332). -/
inductive FenceKind
  | ar | acq | rel | sc
  deriving DecidableEq, Repr

/-- Paths named by PFENCE (R333). -/
inductive PfencePath
  | ro | plane | all
  deriving DecidableEq, Repr

/-- Modes of HDROP (R208). -/
inductive DropMode
  | l | g | all
  deriving DecidableEq, Repr

/-- Engine classes of WAITC (R226). -/
inductive Engine
  | copy | harp | pub | consort | page
  deriving DecidableEq, Repr

/-- Targets of POST (R418). -/
inductive PostTarget
  | self | next | prev
  deriving DecidableEq, Repr

/-- Group sizes (R100, R268). -/
inductive GSize
  | g32 | g64 | g128
  deriving DecidableEq, Repr

/-- Source formats of HALIGN (R272). -/
inductive AlignFmt
  | f16 | bf16 | f8a | f8b
  deriving DecidableEq, Repr

/-- Kinds of A rows (R245, R273). -/
inductive AKind
  | n8 | s8 | a16
  deriving DecidableEq, Repr

/-- Formats of HACCST (R275). -/
inductive AccFmt
  | f32 | f16 | bf16 | s8 | n8
  deriving DecidableEq, Repr

/-- Kinds of collective (R437). -/
inductive ColKind
  | allreduce | reduce | broadcast | allgather | barrier
  deriving DecidableEq, Repr

/-- PSET and ISET (R81, R122): type, comparison and, for ISET, MASK. -/
structure CmpMod where
  ty : Ty
  cmp : Cmp
  deriving DecidableEq, Repr

/-- ISET (R122). -/
structure IsetMod where
  ty : Ty
  cmp : Cmp
  mask : Bool
  deriving DecidableEq, Repr

/-- FPSET (R82). -/
structure FpsetMod where
  ty : Ty
  cmp : FCmp
  u : Bool
  ftz : Bool
  deriving DecidableEq, Repr

/-- VOTE (R87). -/
structure VoteMod where
  kind : VoteKind
  neg : Bool
  deriving DecidableEq, Repr

/-- SHFL (R88). -/
structure ShflMod where
  wrap : Bool
  vp : Bool
  w64 : Bool
  deriving DecidableEq, Repr

/-- BCAST (R89). -/
structure BcastMod where
  first : Bool
  w64 : Bool
  deriving DecidableEq, Repr

/-- REDUX and SCAN (R90); `excl` is false in REDUX. -/
structure RedMod where
  ty : Ty
  op : RedOp
  ftz : Bool
  excl : Bool
  deriving DecidableEq, Repr

/-- MATCH (R91). -/
structure MatchMod where
  kind : MatchKind
  w64 : Bool
  pp : Bool
  deriving DecidableEq, Repr

/-- Integer arithmetic (R119, R120, R121). -/
structure IntMod where
  ty : Ty
  sat : Bool
  deriving DecidableEq, Repr

/-- DP4 (R120). -/
structure Dp4Mod where
  ty : Ty
  sat : Bool
  sb : Bool
  sc : Bool
  deriving DecidableEq, Repr

/-- SEL (R122) and FSET (R131): type and NOT. -/
structure NotMod where
  ty : Ty
  inv : Bool
  deriving DecidableEq, Repr

/-- LEA (R123). -/
structure LeaMod where
  ty : Ty
  sh : BitVec 5
  deriving DecidableEq, Repr

/-- Shifts (R125). -/
structure ShiftMod where
  ty : Ty
  wrap : Bool
  deriving DecidableEq, Repr

/-- FADD, FSUB, FMUL and FFMA (R129). -/
structure FMod where
  ty : Ty
  rnd : Rnd
  ftz : Bool
  sat : Bool
  deriving DecidableEq, Repr

/-- Float opcodes with FTZ alone (R129). -/
structure FtzMod where
  ty : Ty
  ftz : Bool
  deriving DecidableEq, Repr

/-- FRND (R129, R132). -/
structure FrndMod where
  ty : Ty
  rnd : Rnd
  ftz : Bool
  exact : Bool
  deriving DecidableEq, Repr

/-- FRCP, FSQRT and FDIV (R129). -/
structure FdivMod where
  ty : Ty
  rnd : Rnd
  ftz : Bool
  deriving DecidableEq, Repr

/-- CVT (R137): types, reading, and the controls that its C field carries. -/
structure CvtMod where
  dst : Ty
  src : Ty
  rd : Reading
  rnd : Rnd
  ftz : Bool
  sat : Bool
  deriving DecidableEq, Repr

/-- QNT (R139); DQNT (R140) with `rnd` RNE. -/
structure QntMod where
  sgn : Bool
  nib : Bool
  rnd : Rnd
  rd : Reading
  deriving DecidableEq, Repr

/-- LD (R154). -/
structure LdMod where
  space : Space
  width : Width
  sx : Bool
  cache : CachePol
  order : LdOrder
  deriving DecidableEq, Repr

/-- ST (R154). -/
structure StMod where
  space : Space
  width : Width
  cache : CachePol
  order : StOrder
  deriving DecidableEq, Repr

/-- LDC, LDS and STS (R159, R161). -/
structure WidthMod where
  width : Width
  sx : Bool
  deriving DecidableEq, Repr

/-- LDNR (R160). -/
structure LdnrMod where
  width : Width
  sx : Bool
  cache : CachePol
  ro : Bool
  p : BitVec 3
  deriving DecidableEq, Repr

/-- ATOM (R328). -/
structure AtomMod where
  ty : Ty
  op : AtomOp
  order : AtomOrder
  deriving DecidableEq, Repr

/-- RED (R330). -/
structure RedOpMod where
  ty : Ty
  op : RedOp
  rel : Bool
  deriving DecidableEq, Repr

/-- ATOMS (R229). -/
structure AtomsMod where
  ty : Ty
  op : AtomOp
  noret : Bool
  deriving DecidableEq, Repr

/-- FENCE (R332). -/
structure FenceMod where
  kind : FenceKind
  scope : Scope
  deriving DecidableEq, Repr

/-- BCOPY, BCOPY2 and BGATH (R233): direction, and the barrier that counts, if any. -/
structure CopyMod where
  store : Bool
  cnt : Option (BitVec 6)
  cache : CachePol
  deriving DecidableEq, Repr

/-- HPLANE.RAW (R268). -/
structure PlaneMod where
  slot : Bool
  pm1 : BitVec 4
  gsel : GSize
  rd : Reading
  deriving DecidableEq, Repr

/-- HALIGN (R272). -/
structure HalignMod where
  fmt : AlignFmt
  gsel : GSize
  rd : Reading
  deriving DecidableEq, Repr

/-- HMMA (R273). -/
structure HmmaMod where
  slot : Bool
  kind : AKind
  rd : Reading
  fresh : Bool
  deriving DecidableEq, Repr

/-- HACCST (R275). -/
structure HaccstMod where
  fmt : AccFmt
  clr : Bool
  rnd : Rnd
  rd : Reading
  deriving DecidableEq, Repr

/-- CONSORT (R437). -/
structure ConsortMod where
  kind : ColKind
  rop : RedOp
  ty : Option Ty
  deriving DecidableEq, Repr

/-- Visibility points (R316, R317): a party's own, a core, a cluster, a die, the package, the domain, the system, a
core's read-only cache, a die's plane partition. -/
inductive Point
  | grp (q : Nat) | blk (core : Nat) | clu (c : Nat) | die (d : Nat) | pkg | fab | sys
  | ro (core : Nat) | pl (n : Nat)
  deriving DecidableEq, Repr

/-- One step of the device: an instruction that a party issues, or an event of one of its agents. -/
inductive Instr
  -- control (spec/03)
  | nop (i : Insn)
  | bra (join : Bool) (i : Insn)
  | brx (join : Bool) (i : Insn)
  | call (i : Insn)
  | callx (i : Insn)
  | ret (i : Insn)
  | exit (i : Insn)
  | yield (i : Insn)
  | trap (i : Insn)
  | brz (i : Insn)
  | mset (i : Insn)
  | msave (i : Insn)
  | mrest (i : Insn)
  -- predicates (spec/03)
  | pset (m : CmpMod) (i : Insn)
  | fpset (m : FpsetMod) (i : Insn)
  | plop (lut : BitVec 8) (i : Insn)
  | pmov (inv : Bool) (i : Insn)
  | pmovPack (i : Insn)
  | pmovUnpack (i : Insn)
  -- group-wide (spec/03)
  | vote (m : VoteMod) (i : Insn)
  | shfl (m : ShflMod) (i : Insn)
  | bcast (m : BcastMod) (i : Insn)
  | redux (m : RedMod) (i : Insn)
  | scan (m : RedMod) (i : Insn)
  | matchOp (m : MatchMod) (i : Insn)
  -- integer (spec/05)
  | iadd (m : IntMod) (i : Insn)
  | isub (m : IntMod) (i : Insn)
  | imul (m : IntMod) (i : Insn)
  | imulh (ty : Ty) (i : Insn)
  | imad (m : IntMod) (i : Insn)
  | imadw (m : IntMod) (i : Insn)
  | idiv (m : IntMod) (i : Insn)
  | irem (ty : Ty) (i : Insn)
  | imin (ty : Ty) (i : Insn)
  | imax (ty : Ty) (i : Insn)
  | iabs (m : IntMod) (i : Insn)
  | ineg (m : IntMod) (i : Insn)
  | iset (m : IsetMod) (i : Insn)
  | sel (m : NotMod) (i : Insn)
  | lea (m : LeaMod) (i : Insn)
  | dp4 (m : Dp4Mod) (i : Insn)
  | and (ty : Ty) (i : Insn)
  | or (ty : Ty) (i : Insn)
  | xor (ty : Ty) (i : Insn)
  | not (ty : Ty) (i : Insn)
  | lop3 (ty : Ty) (i : Insn)
  | shl (m : ShiftMod) (i : Insn)
  | shr (m : ShiftMod) (i : Insn)
  | sar (m : ShiftMod) (i : Insn)
  | rol (ty : Ty) (i : Insn)
  | fshl (ty : Ty) (i : Insn)
  | popc (ty : Ty) (i : Insn)
  | clz (ty : Ty) (i : Insn)
  | ctz (ty : Ty) (i : Insn)
  | brev (ty : Ty) (i : Insn)
  | bfx (ty : Ty) (i : Insn)
  | bfi (ty : Ty) (i : Insn)
  | mov (ty : Ty) (i : Insn)
  | movi (hi : Bool) (i : Insn)
  | prmt (i : Insn)
  -- floating point (spec/05)
  | fadd (m : FMod) (i : Insn)
  | fsub (m : FMod) (i : Insn)
  | fmul (m : FMod) (i : Insn)
  | ffma (m : FMod) (i : Insn)
  | fmin (m : FtzMod) (i : Insn)
  | fmax (m : FtzMod) (i : Insn)
  | fneg (ty : Ty) (i : Insn)
  | fabs (ty : Ty) (i : Insn)
  | fset (m : NotMod) (i : Insn)
  | frnd (m : FrndMod) (i : Insn)
  | fcls (m : FtzMod) (i : Insn)
  | fclsOne (m : FtzMod) (i : Insn)
  | frcp (m : FdivMod) (i : Insn)
  | frsq (m : FtzMod) (i : Insn)
  | fsqrt (m : FdivMod) (i : Insn)
  | fdiv (m : FdivMod) (i : Insn)
  | fex2 (m : FtzMod) (i : Insn)
  | flg2 (m : FtzMod) (i : Insn)
  | fsin (m : FtzMod) (i : Insn)
  | fcos (m : FtzMod) (i : Insn)
  | ftnh (m : FtzMod) (i : Insn)
  -- conversions (spec/05)
  | cvt (m : CvtMod) (i : Insn)
  | qnt (m : QntMod) (i : Insn)
  | dqnt (m : QntMod) (i : Insn)
  -- shade (spec/09)
  | hmov (clr : Bool) (i : Insn)
  | unison (i : Insn)
  | unisonB (i : Insn)
  | hpeek (all : Bool) (i : Insn)
  | hdrop (m : DropMode) (i : Insn)
  -- memory (spec/06)
  | ld (m : LdMod) (i : Insn)
  | st (m : StMod) (i : Insn)
  | ldc (m : WidthMod) (i : Insn)
  | ldnr (m : LdnrMod) (i : Insn)
  | lds (m : WidthMod) (i : Insn)
  | sts (w : Width) (i : Insn)
  | pref (t : PrefTarget) (i : Insn)
  | cctl (op : CctlOp) (i : Insn)
  -- atomics and fences (spec/15, spec/10)
  | atom (m : AtomMod) (i : Insn)
  | red (m : RedOpMod) (i : Insn)
  | fence (m : FenceMod) (i : Insn)
  | pfence (p : PfencePath) (i : Insn)
  | atoms (m : AtomsMod) (i : Insn)
  -- line locks (spec/16)
  | lock (sc : Scope) (i : Insn)
  | trylock (sc : Scope) (i : Insn)
  | unlock (sc : Scope) (i : Insn)
  | lkqry (i : Insn)
  -- publication (spec/17)
  | objnew (zero : Bool) (i : Insn)
  | stref (rel : Bool) (i : Insn)
  | publish (sc : Scope) (i : Insn)
  | tagrd (line : Bool) (i : Insn)
  -- translation (spec/14)
  | pagereq (w : Bool) (i : Insn)
  -- barriers, queues, counters, the Bridge (spec/10)
  | barSync (i : Insn)
  | barArr (i : Insn)
  | barWait (i : Insn)
  | barExp (i : Insn)
  | qinit (depthM1 : BitVec 8) (i : Insn)
  | qinitOff (i : Insn)
  | qpush (i : Insn)
  | qpop (i : Insn)
  | qtryPop (p : BitVec 3) (i : Insn)
  | qtryPush (p : BitVec 3) (i : Insn)
  | waitc (cls : Engine) (i : Insn)
  | bcopy (m : CopyMod) (i : Insn)
  | bcopy2 (m : CopyMod) (i : Insn)
  | bgath (m : CopyMod) (i : Insn)
  /-- Chunk `chunk` of the `copy`-th copy in flight of party `q` lands (R235). -/
  | chunkLand (q copy chunk : Nat)
  -- chord barriers (spec/14)
  | cbarSync (i : Insn)
  | cbarArr (i : Insn)
  | cbarWait (i : Insn)
  -- POST (spec/19)
  | post (t : PostTarget) (i : Insn)
  -- the Harp (spec/12)
  | hplaneWin (slot : Bool) (i : Insn)
  | hplaneRaw (m : PlaneMod) (i : Insn)
  | halign (m : HalignMod) (i : Insn)
  | hmma (m : HmmaMod) (i : Insn)
  | haccld (i : Insn)
  | haccst (m : HaccstMod) (i : Insn)
  | hzero (i : Insn)
  | htest (i : Insn)
  | htestFlags (i : Insn)
  /-- The oldest queued Harp operation of block `blk` completes (R243). -/
  | harpOpComplete (blk : Nat)
  -- the fabric (spec/21), system registers (spec/08)
  | consort (m : ConsortMod) (i : Insn)
  | cnsqry (i : Insn)
  | rdsr (n : BitVec 10) (i : Insn)
  | wrsr (n : BitVec 10) (i : Insn)
  -- pipeline events
  /-- The load numbered `n` of party `q` returns (R320, R31). -/
  | loadReturn (q n : Nat)
  /-- The variable-latency arithmetic result numbered `n` of party `q` is written (R118). -/
  | variableLatencyResult (q n : Nat)
  -- the ordering machine (spec/15)
  /-- The buffer entry numbered `n` of party `q` is performed, on the scratchpad path when `sp` (R321). -/
  | perform (q n : Nat) (sp : Bool)
  /-- Write `w`, visible at `pt`, becomes visible at its parent (R319). -/
  | propagate (w : Nat) (pt : Point)
  /-- `pt` takes the latest write of byte `a` from its parent (R319). -/
  | fill (pt : Point) (a : Nat)
  /-- Entry `n` of the combining buffer of cluster `c` drains (R306). -/
  | combiningDrain (c n : Nat)
  -- line locks (spec/16)
  | lockRequestArrival (n : Nat)
  | unlockPerformed (q n : Nat)
  | lockStatusArrival (n : Nat)
  | lockDeadline (line gid : Nat)
  | lockProbeSend (line gid : Nat)
  | probeArrival (n : Nat)
  -- publication (spec/17)
  | walkStep (q : Nat)
  | publishComplete (q : Nat)
  | pagereqComplete (q : Nat)
  -- collectives (spec/21)
  | collectiveRun (n : Nat)
  | collectiveComplete (n rank : Nat)
  | collectiveTimeout (n rank : Nat)
  -- the home-die directory (spec/18)
  | readS (d line : Nat)
  | readM (d line : Nat)
  | upgrade (d line : Nat)
  | fwdS (line : Nat)
  | fwdM (line : Nat)
  | invMsg (d line : Nat)
  | missMsg (line : Nat)
  | doneMsg (line : Nat)
  | wbReq (d line : Nat)
  | wbGrant (d line : Nat)
  | wbCancel (d line : Nat)
  | wbData (d line : Nat)
  | backInv (d line : Nat)
  | invAck (d line : Nat)
  | entryMerge (d base : Nat)
  -- issue throttle (spec/08)
  | epochEnd (core : Nat)
  | throttleEntry (core oct : Nat)
  -- placement, retirement, slices (spec/19)
  | chordPlace (chord : Nat)
  | blockRetire (blk : Nat)
  | cardExamine (card : Nat)
  | sliceEnd (part : Nat)
  | resume (chord : Nat)
  | contextTermination (ctx : Nat)
  | faultRecordWrite (part : Nat)
  | feSubmit (part : Nat) (v : W64)
  | fqHeadWrite (part : Nat) (v : BitVec 16)
  | fqOvfClear (part : Nat)
  | partWrite (part : Nat) (v : BitVec 128)
  | wayWalkEnd (part : Nat)
  | prismWrite (n : Nat) (v : BitVec 256) (zbase : Bool)
  | registerWrite (off : Nat) (v : W64)
  -- device commands (spec/21)
  | inval | notice | refuse | pin | unpin | free | assign | flush | retire | terminate | selftest
  -- the mailbox (spec/21)
  | attest | faults
  -- reliability, links, boot, power (spec/20, spec/21)
  | scrub (line : Nat)
  | portFailure (port : Nat)
  | laneSpare (port lane : Nat)
  | linkDown (port : Nat)
  | boot
  | powerLoss
  | planeLineRead (blk : Nat)
  | standbyRequest
  | auxiliaryRailLoss
  | auxiliaryRailReturn
  deriving DecidableEq, Repr

/-- What reaches the device from outside, or happens in a unit at a moment no rule fixes (spec/06 R164, spec/08 R183,
spec/18 R392, spec/20 R430, spec/21 R433-R458). -/
inductive Input
  /-- The host or the management complex stores bytes at the SYS point under key ID `key` (R434, R446). -/
  | store (key pa : Nat) (bytes : List Byte)
  /-- Another package stores bytes in pooled memory that it shares with this one: visible at the FAB point (R316, R434). -/
  | poolStore (key pa : Nat) (bytes : List Byte)
  /-- The management complex loads or stores `n` bytes at an offset of its register space (R450). -/
  | mgmtLoad (off n : Nat) | mgmtStore (off n : Nat) (v : W64)
  /-- The host loads `n` bytes at an offset of BAR0 or, with `bar2`, of BAR2; it stores 64 bits at an offset of BAR0 (R446). -/
  | hostLoad (bar2 : Bool) (off n : Nat) | hostStore (off : Nat) (v : W64)
  /-- The host writes bytes of the mailbox request at REQ offset `off` (R447). -/
  | mbxReq (off : Nat) (bytes : List Byte)
  /-- The host writes H2D (R447). -/
  | mbxRing (seq : W64)
  /-- The device OS begins to serve the request, and sets BUSY (R447). -/
  | mbxTake
  /-- The device OS answers a request whose code the device does not define; codes from 0x8000 are its own (R448). -/
  | mbxOther (status : Nat) (payload : List Byte)
  /-- The device OS starts or stops serving the mailbox (R447). -/
  | mbxReady (on : Bool)
  /-- The device takes a command whose OP is unassigned (R453). -/
  | badCommand
  /-- The management complex claims an interrupt source (R453). -/
  | claimIrq (src : Nat)
  /-- A replacement: an entry leaves a TLB, a walk cache, an L1, a read-only cache (R298, R299). -/
  | tlbEvict (c n : Nat) | walkEvict (c n : Nat) | l1Evict (core n : Nat) | roEvict (core n : Nat)
  /-- A memory device reports the line poisoned (R392). -/
  | poison (line : Nat)
  /-- An uncorrectable error arises in a dirty line of its home slice, in a way of that slice (R430). -/
  | sliceError (line : Nat) (way : Nat)
  /-- An uncorrectable error is found by a scrub or a transfer in a word that a party owns (R430). -/
  | partyError (q : Nat)
  /-- The instruction that a party's fragment comes to receives a word with an uncorrectable error (R430). -/
  | accessError (q : Nat) (slot : Bool) (lane : Nat)
  /-- An uncorrectable error arises in a line of an L1 (R430). -/
  | l1Error (core n : Nat)
  /-- Both copies of a protected table are bad (R430). -/
  | tableError
  /-- A unit corrects a single-bit error (R430, R454). -/
  | corrected (unit : Nat)
  /-- A sub-array (16 is the spare) of a core's Harp becomes faulty or good (R256, R257). -/
  | harpFault (core sub : Nat) (bad : Bool)
  /-- A lane of a Synor Link port passes the error threshold (R433). -/
  | laneError (port lane : Nat)
  /-- A Synor Link port works again after a reset of its link (R433). -/
  | portUp (port : Nat)
  /-- A rank on another package issues its collective: its descriptor's fields and its source elements (R439). -/
  | remoteRank (comm seq rank kind rop ty count root : Nat) (src : List W64)
  /-- The context of a rank on another package is terminated (R441). -/
  | remoteAbort (comm seq rank : Nat)
  /-- The management complex sets whether a rank of a communicator runs on this package (R435). -/
  | rankMap (comm rank : Nat) (here : Bool)
  /-- The oldest Harp operation of a block reads or writes chunk `chunk` of its scratchpad bytes (R255). -/
  | harpStep (blk chunk : Nat)
  /-- The clock of some cores is withheld for `n` cycles (R7, R419). -/
  | withhold (cores : List Nat) (n : Nat)
  /-- The 48 V input is applied (R458). -/
  | power48
  /-- A copy of an S or E line is dropped by a die (R379). -/
  | dropLine (d line : Nat)
  /-- A spare cluster or slice is needed at the next reset (R432). -/
  | unitFailed (slice : Bool) (d : Nat)
  deriving DecidableEq, Repr, Inhabited

/-- What moves next: a party's fragment issues, an event occurs, or an input arrives. -/
inductive Move
  | issue (q : Nat) (slot : Bool)
  | event (i : Instr)
  | input (a : Input)
  deriving DecidableEq, Repr, Inhabited

/-- A move, and the core cycles that pass before it. -/
structure Pick where
  after : Nat
  move : Move
  deriving DecidableEq, Repr, Inhabited

end Sys2Proof
end

