-- ==== Sys2Proof/Config.lean ====
section
/-!
DEFINITION. What the spec leaves open. Every constant here is opaque: no proof can see its value, so whatever is proved
holds for every value of it. A free value is drawn by its number, which the state counts in its field `draws`.
-/
namespace Sys2Proof.Config

/-- The n-th free value (log entry 1): each choice that the spec leaves to the device is one of these, taken modulo the
number of choices. -/
opaque free : Nat → Nat

/-- The free value of a draw at a location: a choice that is one for every reader of a byte (log entries 1 and 9). -/
opaque freeAt : Nat → Nat → Nat

/-- The next move where the schedule names none (log entry 2): which agent acts, and how many cycles pass before it. -/
opaque pick : Nat → Pick

/-- The approximations of R135 by opcode, type, FTZ and input code, before the bounds of R135 are put on them
(log entry 3, R136). -/
opaque approx : Nat → Nat → Bool → Nat → Nat

/-- SHAKE256 with a 64-byte output (R455; log entry 4). -/
opaque shake256 : List Byte → BitVec 512

/-- Falcon-1024: key, digest, signature accepted (R455). -/
opaque falconVerify : List Byte → BitVec 512 → List Byte → Bool

/-- Falcon-1024: the 1,280-byte signature of the device identity key over a digest (R457). -/
opaque falconSign : BitVec 512 → List Byte

/-- The boot flash, byte by byte (R456). -/
opaque flash : Nat → Byte

/-- The vendor key digest in the fuses (R455). -/
opaque vendorDigest : BitVec 512

/-- The minimum security version in the fuses (R455). -/
opaque minSvn : Nat

/-- The digests by which later boot stages extend MEAS1 and MEAS3 to MEAS7 (R455). -/
opaque stageDigest : Nat → BitVec 512

/-- The first stage accepts the device OS (R455). -/
opaque osGood : Bool

/-- The bytes of a save area that the device lays out for itself (R422), by block, area and offset. -/
opaque saveByte : Nat → Nat → Nat → Byte

/-- The set of a home die's directory, among 16 banks of 512 sets, that an entry of a base address takes (R380; log entry
25). -/
opaque dirSet : Nat → Nat

/-- Which of a context's pinned ways holds a pinned line (R405; log entry 60). -/
opaque pinSlot : Nat → Nat

/-- Whether QNT raises IV for a scale that is a quiet NaN, by the zero point: R102 says that it does not, R139 that it does (log
entry 61). -/
opaque quietScaleIv : Int → Bool

/-- The way in which a die's slices hold a line, by 4·line + die, taken modulo 24 (R404; log entry 60). -/
opaque lineWay : Nat → Nat

end Sys2Proof.Config
end

