-- ==== Sys2Proof/Machine/Numbers.lean ====
section
/-!
DEFINITION. Number formats (spec/04): the element types, the exact values of float codes under their readings, and the
integer helpers Int, Wrap, Clamp and Pat of spec/05 R116.
-/
namespace Sys2Proof.Machine

/-! ### Types (R26, R93) -/

/-- The width w of a type in bits (R93, R94). -/
def tyWidth : Ty → Nat
  | .s8 | .n8 | .f8a | .f8b => 8
  | .s16 | .n16 | .f16 | .bf16 => 16
  | .s32 | .n32 | .f32 | .f16x2 | .bf16x2 => 32
  | .s64 | .n64 => 64

/-- S types (R93). -/
def tySigned : Ty → Bool
  | .s8 | .s16 | .s32 | .s64 => true
  | _ => false

/-- Integer types (R93). -/
def tyInt : Ty → Bool
  | .s8 | .s16 | .s32 | .s64 | .n8 | .n16 | .n32 | .n64 => true
  | _ => false

/-- F16X2 and BF16X2 (R96). -/
def tyX2 : Ty → Bool
  | .f16x2 | .bf16x2 => true
  | _ => false

/-- F8A and F8B (R97). -/
def tyF8 : Ty → Bool
  | .f8a | .f8b => true
  | _ => false

/-- The type of one element (R96). -/
def tyElem : Ty → Ty
  | .f16x2 => .f16
  | .bf16x2 => .bf16
  | t => t

/-- A 64-bit operand (R115). -/
def tyWide (t : Ty) : Bool := tyWidth t == 64

/-! ### Integers (R93, R116) -/

/-- The smallest value of an integer type (R93). -/
def tyLo (t : Ty) : Int := if tySigned t then -(2 ^ (tyWidth t - 1) : Nat) else 0

/-- The largest value of an integer type (R93). -/
def tyHi (t : Ty) : Int := if tySigned t then (2 ^ (tyWidth t - 1) : Nat) - 1 else (2 ^ tyWidth t : Nat) - 1

/-- The w-bit pattern `p` read with sign. -/
def sext (w p : Nat) : Int := if 2 * (p % 2 ^ w) < 2 ^ w then (p % 2 ^ w : Nat) else (p % 2 ^ w : Nat) - (2 ^ w : Nat)

/-- Int (R116): the low w bits of `v` read in the type. -/
def tyVal (t : Ty) (v : Nat) : Int := if tySigned t then sext (tyWidth t) v else (v % 2 ^ tyWidth t : Nat)

/-- Pat (R116): the w-bit pattern of `n`. -/
def pat (w : Nat) (n : Int) : Nat := (n % (2 ^ w : Nat)).toNat

/-- Wrap (R116). -/
def tyWrap (t : Ty) (n : Int) : Int := tyVal t (pat (tyWidth t) n)

/-- Clamp (R116). -/
def tyClamp (t : Ty) (n : Int) : Int := if n < tyLo t then tyLo t else if tyHi t < n then tyHi t else n

/-- The 32-bit register image of a result of a type (R93, R96): extended by sign for S types, by zeros otherwise. -/
def reg32 (t : Ty) (p : Nat) : W32 := BitVec.ofInt 32 (if tyInt t then tyVal t p else (p % 2 ^ tyWidth t : Nat))

/-- The 64-bit scalar image of a result of a type (R20). -/
def reg64 (t : Ty) (p : Nat) : W64 := BitVec.ofInt 64 (if tyInt t then tyVal t p else (p % 2 ^ tyWidth t : Nat))

/-! ### Float formats (R94) -/

/-- A float format: fraction bits, exponent bits, bias (R94). -/
structure Fmt where
  m : Nat
  eb : Nat
  bias : Nat
  deriving DecidableEq, Repr

def fmtF32 : Fmt := ⟨23, 8, 127⟩
def fmtF16 : Fmt := ⟨10, 5, 15⟩
def fmtBF16 : Fmt := ⟨7, 8, 127⟩
def fmtF8A : Fmt := ⟨3, 4, 7⟩
def fmtF8B : Fmt := ⟨2, 5, 15⟩

/-- The format of a float type's element; integer types have none and take F32's here. -/
def tyFmt : Ty → Fmt
  | .f16 | .f16x2 => fmtF16
  | .bf16 | .bf16x2 => fmtBF16
  | .f8a => fmtF8A
  | .f8b => fmtF8B
  | _ => fmtF32

/-- emin (R94). -/
def fmtEmin (f : Fmt) : Int := 1 - (f.bias : Int)

/-- The sign bit's weight. -/
def fmtSign (f : Fmt) : Nat := 2 ^ (f.eb + f.m)

/-- The magnitude code whose exponent is all ones and whose fraction is 0: the infinity of R95. -/
def fmtInf (f : Fmt) : Nat := (2 ^ f.eb - 1) * 2 ^ f.m

/-- The magnitude code of Max(fmt, rd) (R99). -/
def fmtMax (f : Fmt) : Reading → Nat
  | .ieee => fmtInf f - 1
  | .finite => 2 ^ (f.eb + f.m) - 1
  | .nanOnly => 2 ^ (f.eb + f.m) - 2

/-- The canonical NaN (R108). The finite-only reading has none and R109 gives it +0. -/
def fmtNaN (f : Fmt) : Reading → Nat
  | .ieee => fmtInf f + 2 ^ (f.m - 1)
  | .finite => 0
  | .nanOnly => 2 ^ (f.eb + f.m) - 1

/-- The value of a code: a NaN (signalling or quiet), an infinity, a zero, or ±n·2^q with n nonzero. -/
inductive FVal
  | nan (signalling : Bool)
  | inf (neg : Bool)
  | zero (neg : Bool)
  | num (neg : Bool) (n : Nat) (q : Int)
  deriving DecidableEq, Repr

/-- The value of the code `c` (R94, R95, R97). -/
def fval (f : Fmt) (rd : Reading) (c : Nat) : FVal :=
  let neg := c.testBit (f.eb + f.m)
  let mag := c % 2 ^ (f.eb + f.m)
  let e := mag / 2 ^ f.m
  let fr := mag % 2 ^ f.m
  if mag = 0 then .zero neg
  else if rd = .ieee ∧ e = 2 ^ f.eb - 1 then
    (if fr = 0 then .inf neg else .nan (decide (fr < 2 ^ (f.m - 1))))
  else if rd = .nanOnly ∧ mag = 2 ^ (f.eb + f.m) - 1 then .nan false
  else if e = 0 then .num neg fr (fmtEmin f - f.m)
  else .num neg (2 ^ f.m + fr) ((e : Int) - f.bias - f.m)

/-- FTZ on an input: a subnormal reads as zero of the same sign (R106). -/
def fvalFtz (f : Fmt) (rd : Reading) (ftz : Bool) (c : Nat) : FVal :=
  if ftz ∧ c % 2 ^ (f.eb + f.m) < 2 ^ f.m then .zero (c.testBit (f.eb + f.m)) else fval f rd c

/-- Negation of a value; a NaN stays. -/
def fvalNeg : FVal → FVal
  | .nan sg => .nan sg
  | .inf n => .inf (!n)
  | .zero n => .zero (!n)
  | .num n k q => .num (!n) k q

/-- A value is a signalling NaN. -/
def fvalSNaN : FVal → Bool
  | .nan true => true
  | _ => false

/-- A value is a NaN. -/
def fvalNaN : FVal → Bool
  | .nan _ => true
  | _ => false

/-- The code of a zero or an infinity of sign `neg` from its magnitude code. -/
def signed (f : Fmt) (neg : Bool) (mag : Nat) : Nat := (if neg then fmtSign f else 0) + mag

/-- The order of two finite or infinite values, zeros equal: -1, 0 or 1. -/
def fcmp (a b : FVal) : Int :=
  let scaled : FVal → Int → Int := fun v q0 => match v with
    | .num neg n q => let k : Int := ((n * 2 ^ (q - q0).toNat : Nat) : Int); if neg then -k else k
    | _ => 0
  let ex : FVal → Int := fun v => match v with | .num _ _ q => q | _ => 0
  match a, b with
  | .inf na, .inf nb => (if na = nb then 0 else if na then -1 else 1)
  | .inf na, _ => (if na then -1 else 1)
  | _, .inf nb => (if nb then 1 else -1)
  | _, _ =>
    let q0 := min (ex a) (ex b)
    let x := scaled a q0
    let y := scaled b q0
    if x < y then -1 else if x = y then 0 else 1

end Sys2Proof.Machine
end

