-- ==== Sys2Proof/Machine/Flags.lean ====
section
/-!
DEFINITION. Rounding and the floating-point flags (spec/04 R103-R111): every flag computation of the device. A result is
a code with the flags it raises; the flags are the five low bits of %fflags.
-/
namespace Sys2Proof.Machine

/-- The flags NX, UF, OF, DZ, IV as bits 0 to 4 (R111). -/
abbrev FFlags := BitVec 5

def flNone : FFlags := 0
def flNX : FFlags := 1
def flUF : FFlags := 2
def flOF : FFlags := 4
def flDZ : FFlags := 8
def flIV : FFlags := 16

/-- A code and the flags its computation raises. -/
structure FRes where
  code : Nat
  fl : FFlags
  deriving DecidableEq, Repr

/-- IV where `b` holds. -/
def ivIf (b : Bool) : FFlags := if b then flIV else flNone

/-- A magnitude halved at a binary point: `t2` is the floor of 2t, `ex` says that 2t is an integer. -/
structure Halves where
  t2 : Nat
  ex : Bool
  deriving DecidableEq, Repr

/-- t is an integer. -/
def Halves.exact (h : Halves) : Bool := h.ex && h.t2 % 2 == 0

/-- RoundInt (R103). -/
def roundInt (h : Halves) (mode : Rnd) (neg : Bool) : Nat :=
  let lo := h.t2 / 2
  if h.exact then lo
  else match mode with
    | .rne => if h.t2 % 2 = 0 ∨ (h.ex ∧ lo % 2 = 0) then lo else lo + 1
    | .rna => if h.t2 % 2 = 0 then lo else lo + 1
    | .rtz => lo
    | .rdn => if neg then lo + 1 else lo
    | .rup => if neg then lo else lo + 1

/-- The halves of n·2^s. -/
def halvesDyadic (n : Nat) (s : Int) : Halves :=
  let k := s + 1
  if 0 ≤ k then ⟨n * 2 ^ k.toNat, true⟩
  else ⟨n / 2 ^ (-k).toNat, n % 2 ^ (-k).toNat == 0⟩

/-- The halves of (n/d)·2^s. -/
def halvesQuot (n d : Nat) (s : Int) : Halves :=
  let k := s + 1
  let num := if 0 ≤ k then n * 2 ^ k.toNat else n
  let den := if 0 ≤ k then d else d * 2 ^ (-k).toNat
  ⟨num / den, num % den == 0⟩

/-- The integer square root of `n`, bit by bit from bit `k - 1` of the root. -/
def isqrtFrom : Nat → Nat → Nat → Nat
  | 0, _, r => r
  | k + 1, n, r => if (r + 2 ^ k) * (r + 2 ^ k) ≤ n then isqrtFrom k n (r + 2 ^ k) else isqrtFrom k n r

/-- The floor of the square root. -/
def isqrt (n : Nat) : Nat := isqrtFrom (n.log2 / 2 + 1) n 0

/-- The halves of √(n·2^q)·2^s. -/
def halvesSqrt (n : Nat) (q s : Int) : Halves :=
  let k := q + 2 * s + 2
  if 0 ≤ k then
    let v := n * 2 ^ k.toNat
    ⟨isqrt v, isqrt v * isqrt v == v⟩
  else
    let v := n / 2 ^ (-k).toNat
    ⟨isqrt v, isqrt v * isqrt v == v && n % 2 ^ (-k).toNat == 0⟩

/-- floor(log2(n/d)). -/
def floorLog2Quot (n d : Nat) : Int :=
  let k : Int := (n.log2 : Int) - (d.log2 : Int)
  let num := if 0 ≤ k then n else n * 2 ^ (-k).toNat
  let den := if 0 ≤ k then d * 2 ^ k.toNat else d
  if den ≤ num then k else k - 1

/-- Overflow (R104). -/
def overflow (f : Fmt) (mode : Rnd) (rd : Reading) (neg : Bool) : FRes :=
  let inf := match rd, mode with
    | .ieee, .rne | .ieee, .rna => true
    | .ieee, .rdn => neg
    | .ieee, .rup => !neg
    | _, _ => false
  ⟨signed f neg (if inf then fmtInf f else fmtMax f rd), flOF ||| flNX⟩

/-- Round (R103) of a nonzero magnitude of sign `neg` whose floor(log2) is `e`; `at_ q` gives the halves of the magnitude
divided by 2^q. -/
def roundWith (f : Fmt) (mode : Rnd) (rd : Reading) (ftz neg : Bool) (e : Int) (at_ : Int → Halves) : FRes :=
  let q := max e (fmtEmin f) - f.m
  let h := at_ q
  let n := roundInt h mode neg
  let mag := (q - (fmtEmin f - f.m)).toNat * 2 ^ f.m + n
  if fmtMax f rd < mag then overflow f mode rd neg
  else
    let nx := if h.exact then flNone else flNX
    let uf := if e < fmtEmin f ∧ ¬ h.exact then flUF else flNone
    if ftz ∧ 0 < mag ∧ mag < 2 ^ f.m then ⟨signed f neg 0, flUF ||| flNX⟩
    else ⟨signed f neg mag, nx ||| uf⟩

/-- Round of ±n·2^q. -/
def roundDyadic (f : Fmt) (mode : Rnd) (rd : Reading) (ftz neg : Bool) (n : Nat) (q : Int) : FRes :=
  roundWith f mode rd ftz neg ((n.log2 : Int) + q) (fun p => halvesDyadic n (q - p))

/-- Round of ±(n/d)·2^q. -/
def roundQuot (f : Fmt) (mode : Rnd) (rd : Reading) (ftz neg : Bool) (n d : Nat) (q : Int) : FRes :=
  roundWith f mode rd ftz neg (floorLog2Quot n d + q) (fun p => halvesQuot n d (q - p))

/-- Round of √(n·2^q). -/
def roundSqrt (f : Fmt) (mode : Rnd) (rd : Reading) (ftz : Bool) (n : Nat) (q : Int) : FRes :=
  roundWith f mode rd ftz false (((n.log2 : Int) + q).fdiv 2) (fun p => halvesSqrt n q (-p))

/-- Round of an exact integer multiple k·2^q, nonzero. -/
def roundInt2 (f : Fmt) (mode : Rnd) (rd : Reading) (ftz : Bool) (k q : Int) : FRes :=
  roundDyadic f mode rd ftz (decide (k < 0)) k.natAbs q

/-- The zero that an exact zero sum of operands of opposite sign takes (R105). -/
def cancelSign (mode : Rnd) : Bool := mode == .rdn

/-- A value as k·2^q, zeros and specials as 0. -/
def fvalDyadic : FVal → Int × Int
  | .num neg n q => (if neg then -(n : Int) else n, q)
  | _ => (0, 0)

/-- The sign of a value. -/
def fvalSign : FVal → Bool
  | .nan _ => false
  | .inf n | .zero n | .num n _ _ => n

/-- The exact sum of two finite values, as k·2^q. -/
def sumDyadic (a b : Int × Int) : Int × Int :=
  if a.1 = 0 then b else if b.1 = 0 then a
  else
    let q := min a.2 b.2
    (a.1 * (2 ^ (a.2 - q).toNat : Nat) + b.1 * (2 ^ (b.2 - q).toNat : Nat), q)

/-- The sum of two values under R105 and R110, rounded once (R130). -/
def fAdd (f : Fmt) (mode : Rnd) (ftz : Bool) (a b : FVal) : FRes :=
  match a, b with
  | .nan sa, _ => ⟨fmtNaN f .ieee, ivIf (sa || fvalSNaN b)⟩
  | _, .nan sb => ⟨fmtNaN f .ieee, ivIf sb⟩
  | .inf na, .inf nb => if na = nb then ⟨signed f na (fmtInf f), flNone⟩ else ⟨fmtNaN f .ieee, flIV⟩
  | .inf na, _ => ⟨signed f na (fmtInf f), flNone⟩
  | _, .inf nb => ⟨signed f nb (fmtInf f), flNone⟩
  | _, _ =>
    let v := sumDyadic (fvalDyadic a) (fvalDyadic b)
    if v.1 = 0 then
      (if fvalSign a = fvalSign b then ⟨signed f (fvalSign a) 0, flNone⟩ else ⟨signed f (cancelSign mode) 0, flNone⟩)
    else roundInt2 f mode .ieee ftz v.1 v.2

/-- The product of two values (R130). -/
def fMul (f : Fmt) (mode : Rnd) (ftz : Bool) (a b : FVal) : FRes :=
  let sg := fvalSign a != fvalSign b
  match a, b with
  | .nan sa, _ => ⟨fmtNaN f .ieee, ivIf (sa || fvalSNaN b)⟩
  | _, .nan sb => ⟨fmtNaN f .ieee, ivIf sb⟩
  | .inf _, .zero _ | .zero _, .inf _ => ⟨fmtNaN f .ieee, flIV⟩
  | .inf _, _ | _, .inf _ => ⟨signed f sg (fmtInf f), flNone⟩
  | .zero _, _ | _, .zero _ => ⟨signed f sg 0, flNone⟩
  | .num _ n q, .num _ k p => roundDyadic f mode .ieee ftz sg (n * k) (q + p)

/-- The fused multiply-add b·c + x, rounded once (R130). An invalid product is invalid beside a quiet NaN. -/
def fFma (f : Fmt) (mode : Rnd) (ftz : Bool) (b c x : FVal) : FRes :=
  let sg := fvalSign b != fvalSign c
  let inval := match b, c with
    | .inf _, .zero _ | .zero _, .inf _ => true
    | _, _ => false
  if fvalNaN b || fvalNaN c || fvalNaN x then
    ⟨fmtNaN f .ieee, ivIf (fvalSNaN b || fvalSNaN c || fvalSNaN x || inval)⟩
  else if inval then ⟨fmtNaN f .ieee, flIV⟩
  else match b, c, x with
    | .inf _, _, .inf nx | _, .inf _, .inf nx =>
      if sg = nx then ⟨signed f sg (fmtInf f), flNone⟩ else ⟨fmtNaN f .ieee, flIV⟩
    | .inf _, _, _ | _, .inf _, _ => ⟨signed f sg (fmtInf f), flNone⟩
    | _, _, .inf nx => ⟨signed f nx (fmtInf f), flNone⟩
    | _, _, _ =>
      let db := fvalDyadic b
      let dc := fvalDyadic c
      let v := sumDyadic (db.1 * dc.1, db.2 + dc.2) (fvalDyadic x)
      if v.1 = 0 then
        (if sg = fvalSign x then ⟨signed f sg 0, flNone⟩ else ⟨signed f (cancelSign mode) 0, flNone⟩)
      else roundInt2 f mode .ieee ftz v.1 v.2

/-- The quotient of two values (R134). -/
def fDiv (f : Fmt) (mode : Rnd) (ftz : Bool) (b c : FVal) : FRes :=
  let sg := fvalSign b != fvalSign c
  match b, c with
  | .nan sa, _ => ⟨fmtNaN f .ieee, ivIf (sa || fvalSNaN c)⟩
  | _, .nan sb => ⟨fmtNaN f .ieee, ivIf sb⟩
  | .zero _, .zero _ | .inf _, .inf _ => ⟨fmtNaN f .ieee, flIV⟩
  | .inf _, _ => ⟨signed f sg (fmtInf f), flNone⟩
  | _, .inf _ => ⟨signed f sg 0, flNone⟩
  | .num _ _ _, .zero _ => ⟨signed f sg (fmtInf f), flDZ⟩
  | .zero _, .num _ _ _ => ⟨signed f sg 0, flNone⟩
  | .num _ n q, .num _ d p => roundQuot f mode .ieee ftz sg n d (q - p)

/-- The reciprocal (R134). -/
def fRcp (f : Fmt) (mode : Rnd) (ftz : Bool) (b : FVal) : FRes := fDiv f mode ftz (.num false 1 0) b

/-- The square root (R134). -/
def fSqrt (f : Fmt) (mode : Rnd) (ftz : Bool) : FVal → FRes
  | .nan sg => ⟨fmtNaN f .ieee, ivIf sg⟩
  | .zero n => ⟨signed f n 0, flNone⟩
  | .inf false => ⟨fmtInf f, flNone⟩
  | .inf true => ⟨fmtNaN f .ieee, flIV⟩
  | .num true _ _ => ⟨fmtNaN f .ieee, flIV⟩
  | .num false n q => roundSqrt f mode .ieee ftz n q

/-- The exact code of a finite value of the format. -/
def fvalCode (f : Fmt) (rd : Reading) : FVal → Nat
  | .nan _ => fmtNaN f rd
  | .inf n => signed f n (fmtInf f)
  | .zero n => signed f n 0
  | .num neg n q => (roundDyadic f .rne rd false neg n q).code

/-- minimumNumber (`mx` false) and maximumNumber (`mx` true) (R110, R131): -0 below +0. -/
def fMinMax (f : Fmt) (mx : Bool) (a b : FVal) : FRes :=
  let fl := ivIf (fvalSNaN a || fvalSNaN b)
  match a, b with
  | .nan _, .nan _ => ⟨fmtNaN f .ieee, fl⟩
  | .nan _, v | v, .nan _ => ⟨fvalCode f .ieee v, fl⟩
  | .zero na, .zero nb => ⟨signed f (if mx then na && nb else na || nb) 0, fl⟩
  | _, _ => ⟨fvalCode f .ieee (if (fcmp a b ≤ 0) = (mx = false) then a else b), fl⟩

/-- RoundF32 and its kin on a value: specials by R109, a zero keeps its sign, a finite value is rounded (R138). -/
def fConv (f : Fmt) (mode : Rnd) (rd : Reading) (ftz : Bool) : FVal → FRes
  | .nan sg => ⟨fmtNaN f rd, match rd with | .finite => flIV | _ => ivIf sg⟩
  | .inf n => match rd with
    | .ieee => ⟨signed f n (fmtInf f), flNone⟩
    | .finite => ⟨signed f n (fmtMax f rd), flIV⟩
    | .nanOnly => ⟨fmtNaN f rd, flIV⟩
  | .zero n => ⟨signed f n 0, flNone⟩
  | .num neg n q => roundDyadic f mode rd ftz neg n q

/-- An exact integer in a float format (R138): 0 gives +0. -/
def fOfInt (f : Fmt) (mode : Rnd) (rd : Reading) (ftz : Bool) (n : Int) : FRes :=
  if n = 0 then ⟨0, flNone⟩ else roundInt2 f mode rd ftz n 0

/-- RoundInt of a finite magnitude n·2^q, with its exactness. -/
def roundNum (n : Nat) (q : Int) (mode : Rnd) (neg : Bool) : Nat × Bool :=
  let h := halvesDyadic n q
  (roundInt h mode neg, h.exact)

/-- ToInt (R107): the integer and its flags. -/
def fToInt (t : Ty) (mode : Rnd) : FVal → Int × FFlags
  | .nan _ => (0, flIV)
  | .inf false => (tyHi t, flIV)
  | .inf true => (tyLo t, flIV)
  | .zero _ => (0, flNone)
  | .num neg k q =>
    let r := roundNum k q mode neg
    let n : Int := if neg then -(r.1 : Int) else r.1
    if tyHi t < n then (tyHi t, flIV)
    else if n < tyLo t then (tyLo t, flIV)
    else (n, if r.2 then flNone else flNX)

/-- FRND (R132): rounding to an integral value in the type. -/
def fRnd (f : Fmt) (mode : Rnd) (exact : Bool) : FVal → FRes
  | .nan sg => ⟨fmtNaN f .ieee, ivIf sg⟩
  | .inf n => ⟨signed f n (fmtInf f), flNone⟩
  | .zero n => ⟨signed f n 0, flNone⟩
  | .num neg k q =>
    let r := roundNum k q mode neg
    let fl := if exact && !r.2 then flNX else flNone
    if r.1 = 0 then ⟨signed f neg 0, fl⟩ else ⟨(roundDyadic f .rne .ieee false neg r.1 0).code, fl⟩

/-- The class of a code (R133). -/
def fClass (f : Fmt) (ftz : Bool) (c : Nat) : Nat :=
  let sub := c % fmtSign f < 2 ^ f.m
  match fvalFtz f .ieee ftz c with
  | .nan true => 0
  | .nan false => 1
  | .inf true => 2
  | .num true _ _ => if sub then 4 else 3
  | .zero true => 5
  | .zero false => 6
  | .num false _ _ => if sub then 7 else 8
  | .inf false => 9

/-- SAT of a float result (R130). -/
def fSat (f : Fmt) (sat : Bool) (r : FRes) : FRes :=
  if sat then
    match fval f .ieee r.code with
    | .nan _ => ⟨0, r.fl⟩
    | v => if fcmp v (.zero false) ≤ 0 then ⟨0, r.fl⟩
           else if 0 < fcmp v (.num false 1 0) then ⟨f.bias * 2 ^ f.m, r.fl⟩ else r
  else r

/-- A float comparison (R82): the result and its flags. -/
def fCompare (c : FCmp) (u : Bool) (a b : FVal) : Bool × FFlags :=
  let un := fvalNaN a || fvalNaN b
  let sg := fvalSNaN a || fvalSNaN b
  let ord := match c with | .lt | .le | .gt | .ge => true | _ => false
  let r := fcmp a b
  let res := match c with
    | .num => !un
    | .nan => un
    | .eq => if un then u else decide (r = 0)
    | .ne => if un then true else decide (r ≠ 0)
    | .lt => if un then u else decide (r < 0)
    | .le => if un then u else decide (r ≤ 0)
    | .gt => if un then u else decide (0 < r)
    | .ge => if un then u else decide (0 ≤ r)
  (res, ivIf (sg || (ord && !u && un)))

/-- An integer comparison (R81). -/
def iCompare (c : Cmp) (a b : Int) : Bool :=
  match c with
  | .eq => decide (a = b)
  | .ne => decide (a ≠ b)
  | .lt => decide (a < b)
  | .le => decide (a ≤ b)
  | .gt => decide (b < a)
  | .ge => decide (b ≤ a)

/-- Two elements of a packed type computed apart, their flags ORed (R96). -/
def packed (x2 : Bool) (f : Nat → FRes) (lo hi : Nat) : FRes :=
  if x2 then
    let a := f lo
    let b := f hi
    ⟨a.code + b.code * 65536, a.fl ||| b.fl⟩
  else f lo

/-- Op of R90, and the operations of atomics and collectives (R230, R329, R440): an integer result wraps, MIN and MAX
compare by type, float ADD rounds in RNE, float MIN and MAX follow R110. -/
def combine (t : Ty) (op : RedOp) (ftz : Bool) (a b : Nat) : FRes :=
  if tyInt t then
    let x := tyVal t a
    let y := tyVal t b
    let r : Int := match op with
      | .add => x + y
      | .min => if x ≤ y then x else y
      | .max => if x ≤ y then y else x
      | .and => ((a &&& b : Nat) : Int)
      | .or => ((a ||| b : Nat) : Int)
      | .xor => ((a ^^^ b : Nat) : Int)
    ⟨pat (tyWidth t) r, flNone⟩
  else
    let f := tyFmt t
    let x := fvalFtz f .ieee ftz a
    let y := fvalFtz f .ieee ftz b
    match op with
    | .min => fMinMax f false x y
    | .max => fMinMax f true x y
    | _ => fAdd f .rne ftz x y

/-- The new value of an atomic (R230, R329): `x` the operand, or the compare value of CAS with `swap` beside it. -/
def atomNew (t : Ty) (op : AtomOp) (old x swap : Nat) : FRes :=
  let w := tyWidth t
  match op with
  | .add => combine t .add false old x
  | .min => combine t .min false old x
  | .max => combine t .max false old x
  | .and => combine t .and false old x
  | .or => combine t .or false old x
  | .xor => combine t .xor false old x
  | .exch => ⟨x % 2 ^ w, flNone⟩
  | .cas => ⟨if old % 2 ^ w = x % 2 ^ w then swap % 2 ^ w else old, flNone⟩

/-! ### Immediates (R21) -/

/-- An integer in a float type, both elements of a packed type. -/
def intCode (t : Ty) (n : Int) : FRes :=
  let r := fOfInt (tyFmt t) .rne .ieee false n
  if tyX2 t then ⟨r.code * 65537, r.fl⟩ else r

/-- The pattern of an immediate read in a type; 0 for an operand that is none. -/
def immPat (t : Ty) : Opnd → Nat
  | .imm n => if tyInt t then pat (tyWidth t) n.toInt else (intCode t n.toInt).code
  | .imm29 n => pat (tyWidth t) n.toInt
  | .imm32 n => if t = .s64 then pat 64 n.toInt else n.toNat % 2 ^ tyWidth t
  | _ => 0

/-- An immediate is legal in its read type: exact, with the unused bits of the LONG form zero. -/
def immLegal (t : Ty) : Opnd → Bool
  | .imm n => tyInt t || (intCode t n.toInt).fl == 0
  | .imm29 _ => tyInt t
  | .imm32 n => tyInt t || n.toNat < 2 ^ tyWidth t
  | _ => true

end Sys2Proof.Machine
end

