-- ==== Sys2Proof/Machine/Shapes.lean ====
section
/-!
DEFINITION. The shape of each instruction: which operand classes each field takes, what X carries, which guards and
tokens are legal (the encoding tables of spec/01, 03, 05, 06, 09, 10, 12, 14-17, 19, 21), and which modifiers an opcode
lists. The decoder and the well-formedness of instructions both read it.
-/
namespace Sys2Proof.Machine

/-- What the issuing stream may name (R18, R37, R38, R178, R264, R288). -/
structure Env where
  bow : Bool
  vregs : Nat
  shade : Nat
  barriers : Nat
  queues : Nat
  /-- The block holds a Harp. -/
  harp : Bool
  /-- The chord has two or more blocks. -/
  multi : Bool
  deriving DecidableEq, Repr

/-- Operand classes as bits of `Pos.allow`: vector, scalar, shade, predicate, short immediate, 29-bit immediate, constant,
special, LONG immediate, writable special. -/
def aV := 1
def aS := 2
def aH := 4
def aP := 8
def aI := 16
def aL := 32
def aC := 64
def aX := 128
def aLong := 1024
def aW := 256

/-- A class of `m`. -/
def allows (m c : Nat) : Bool := m / c % 2 == 1

/-- What one operand field takes: its classes, its read type, the registers a vector or scalar spans and their alignment,
whether it is a destination, whether a shade must carry tag 00, the bounds of a short immediate. -/
structure Pos where
  allow : Nat
  rt : Ty := .n32
  run : Nat := 1
  align : Nat := 1
  srun : Nat := 1
  salign : Nat := 1
  dst : Bool := false
  tag0 : Bool := false
  lo : Int := -256
  hi : Int := 255
  deriving DecidableEq, Repr

/-- A field that must be zero (R19). -/
def posNone : Pos := { allow := 0 }

/-- What X carries (R22): nothing of its own, a displacement, a fourth operand, a fourth operand with LOP3's table, the
offset of a memory operand with or without an index shift, LDC's. -/
inductive XShape
  | none
  | disp
  | opnd (p : Pos)
  | lut (p : Pos)
  | mem (sh : Bool)
  | ldc
  deriving DecidableEq, Repr

/-- The scope field of X: none allowed (a nonzero one is a bad operand, or a bad modifier in STREF), or a scope of the
range. -/
inductive ScopeUse
  | zero
  | zeroMod
  | range (lo hi : Nat)
  deriving DecidableEq, Repr

/-- The shape of an instruction. -/
structure Shape where
  a : Pos := posNone
  b : Pos := posNone
  c : Pos := posNone
  x : XShape := .none
  scope : ScopeUse := .zero
  /-- The result is per lane, so that a scalar A needs uniform sources in the group stream (R20). -/
  perLane : Bool := false
  /-- The guard field must be 0b0111. -/
  fullGuard : Bool := false
  /-- SET may name a token (R31). -/
  mayset : Bool := false
  deriving DecidableEq, Repr

def clsAny : Nat := aV + aS + aH + aI + aL + aLong + aC + aX
def clsB : Nat := aV + aS + aH + aX + aI + aC
def clsX : Nat := aV + aS + aH + aX + aI

/-- Shades are no operands of a 64-bit type (R115). -/
def noShade (t : Ty) (m : Nat) : Nat := if tyWide t && allows m aH then m - aH else m

/-- A source of a type (R114, R115). -/
def src (m : Nat) (t : Ty) : Pos :=
  { allow := noShade t m, rt := t, run := if tyWide t then 2 else 1, align := if tyWide t then 2 else 1 }

/-- A destination of a type (R114, R115). -/
def dst (t : Ty) : Pos := { src (aV + aS + aH) t with dst := true }

/-- A scalar, or a short immediate within bounds. -/
def sOrImm (lo hi : Int) : Pos := { allow := aS + aI, rt := .n64, lo := lo, hi := hi }

def sOnly : Pos := { allow := aS, rt := .n64 }
def pSrc : Pos := { allow := aP }
def pDst : Pos := { allow := aP, dst := true }
def hTag0 : Pos := { allow := aH, tag0 := true }

/-- Bytes of a width (R145). -/
def widthBytes : Width → Nat
  | .b8 => 1 | .b16 => 2 | .b32 => 4 | .b64 => 8 | .b128 => 16 | .b256 => 32

/-- Vector registers of a width. -/
def widthRegs (w : Width) : Nat := (widthBytes w + 3) / 4

/-- Scalar registers of a width. -/
def widthScalars (w : Width) : Nat := (widthBytes w + 7) / 8

/-- The data register of a load or store (R145, R154). -/
def dataPos (w : Width) (store : Bool) : Pos :=
  { allow := aV + aS + (if w = .b32 then aH else 0) + (if store then aI else 0), rt := .s64,
    run := widthRegs w, align := widthRegs w, srun := widthScalars w, salign := widthScalars w, dst := !store }

/-- The base of a memory operand (R143): `wide` in the global and pin spaces, `imm` but in the global space. -/
def basePos (wide imm : Bool) : Pos :=
  { allow := aV + aS + (if imm then aI else 0), run := if wide then 2 else 1, align := if wide then 2 else 1 }

/-- The index of a memory operand (R143). -/
def indexPos : Pos := { allow := aV + aS + aI }

/-- The old value of an atomic (R229, R328). -/
def oldPos (t : Ty) : Pos := dst t

/-- The operand value of an atomic, a run for CAS (R229, R328). -/
def atomPos (t : Ty) (cas : Bool) : Pos :=
  if cas then
    { allow := aV + aS, rt := t, run := if tyWide t then 4 else 2, align := if tyWide t then 4 else 1, srun := 2 }
  else src (aV + aS + aH + aI) t

/-- Unary integer and float shapes: A and B; of F8A and F8B only MOV accepts an immediate (R21). -/
def shUn (d s : Ty) : Shape := { a := dst d, b := src (if tyF8 s then clsB - aI else clsB) s, perLane := true }

/-- Binary shapes: A, B and C of one type. -/
def shBin (d s : Ty) : Shape := { a := dst d, b := src clsB s, c := src clsAny s, perLane := true }

/-- Shapes with a fourth operand, whose C is neither a long immediate nor a constant (R22). -/
def shTern (d s x : Ty) : Shape :=
  { a := dst d, b := src clsB s, c := src clsX s, x := .opnd (src clsX x), perLane := true }

/-- W of IMADW (R120). -/
def wideOf (t : Ty) : Ty := if tySigned t then .s64 else .n64

/-- Memory shapes in the global space, with A. -/
def shMem (a : Pos) : Shape := { a := a, b := basePos true false, c := indexPos, x := .mem true }

/-- `[sB + offset]` (R342, R368, R418, R437). -/
def shSb (a c : Pos) : Shape := { a := a, b := sOnly, c := c, x := .mem false }

def anyInt : Pos := { allow := aS + aI, rt := .s64 }

/-- The shape of an instruction; `long` says that its word sets LONG. Events have none and get the empty shape. -/
def shapeOf (long : Bool) (env : Env) : Instr → Shape
  | .nop _ | .ret _ | .exit _ | .yield _ | .mset _ => {}
  | .bra join _ =>
    let p : Pos := if join then { allow := aI } else posNone
    { b := p, c := p, x := .disp }
  | .brx join _ => { b := { allow := aS + aX, rt := .n64 }, x := if join then .disp else .none }
  | .call _ | .brz _ => { x := .disp }
  | .callx _ => { b := { allow := aS + aX, rt := .n64 } }
  | .trap _ => { c := { allow := aI + aLong } }
  | .msave _ => { a := { allow := aS, dst := true }, fullGuard := true }
  | .mrest i =>
    if long then { c := { allow := aLong, rt := .n64 }, fullGuard := true }
    else match i.c with
      | .imm29 _ => { c := { allow := aL, rt := .n64 }, fullGuard := true }
      | _ => { b := { allow := aS + aI, rt := .n64 }, fullGuard := true }
  | .pset m _ => { a := pDst, b := src (aV + aS + aH + aX) m.ty, c := src clsAny m.ty }
  | .fpset m _ => { a := pDst, b := src (aV + aS + aH + aX) m.ty, c := src clsAny m.ty }
  | .plop _ _ => { a := pDst, b := pSrc, c := pSrc, x := .opnd pSrc }
  | .pmov _ _ => { a := pDst, b := pSrc }
  -- PACK's destination and UNPACK's source are no shades: R84's table, not R20 (log entry 29)
  | .pmovPack _ => { a := { allow := if env.bow then aV + aS else aV, dst := true } }
  | .pmovUnpack _ => { b := { allow := aV + aS + aI + aX } }
  | .vote m _ =>
    match m.kind with
    | .some | .every | .same => { a := pDst, b := pSrc }
    | _ => { a := { allow := aV + aS, dst := true }, b := pSrc }
  | .shfl m _ =>
    let t : Ty := if m.w64 then .n64 else .n32
    { a := { src aV t with dst := true }, b := src (aV + aH) t, c := { allow := aV + aS + aI + aL + aC, rt := .n32 },
      x := if m.vp then .opnd pDst else .none }
  | .bcast m _ =>
    let t : Ty := if m.w64 then .n64 else .n32
    { a := { src (aV + aS) t with dst := true }, b := src (aV + aH) t,
      c := if m.first then posNone else { allow := aS + aI + aL, rt := .n32 } }
  | .redux m _ => { a := { src (aV + aS) m.ty with dst := true }, b := src (aV + aH) m.ty }
  | .scan m _ => { a := { src aV m.ty with dst := true }, b := src (aV + aH) m.ty }
  | .matchOp m _ =>
    { a := { allow := if m.kind = .unit then aV + aS else aV, dst := true },
      b := src (aV + aH) (if m.w64 then .n64 else .n32), x := if m.pp then .opnd pDst else .none }
  | .iadd m _ | .isub m _ | .imul m _ => shBin m.ty m.ty
  | .imulh t _ => shBin t t
  | .imad m _ => shTern m.ty m.ty m.ty
  | .imadw m _ => shTern (wideOf m.ty) m.ty (wideOf m.ty)
  | .idiv m _ => { shBin m.ty m.ty with mayset := true }
  | .irem t _ => { shBin t t with mayset := true }
  | .imin t _ | .imax t _ => shBin t t
  | .iabs m _ | .ineg m _ => shUn m.ty m.ty
  | .iset m _ => shBin .n32 m.ty
  | .sel m _ => { shBin m.ty m.ty with x := .opnd pSrc }
  | .lea m _ => { a := dst .n64, b := src clsB .n64, c := src clsAny m.ty, perLane := true }
  | .dp4 m _ => shTern m.ty m.ty m.ty
  | .and t _ | .or t _ | .xor t _ => shBin t t
  | .not t _ => shUn t t
  | .lop3 t _ => { shTern t t t with x := .lut (src clsX t) }
  | .shl m _ | .shr m _ | .sar m _ => { shBin m.ty m.ty with c := src clsAny .n32 }
  | .rol t _ => { shBin t t with c := src clsAny .n32 }
  | .fshl t _ => shTern t t .n32
  | .popc t _ | .clz t _ | .ctz t _ => shUn .n32 t
  | .brev t _ => shUn t t
  | .bfx t _ => { shBin t t with c := src clsAny .n32 }
  | .bfi t _ => shTern t t .n32  -- the control word is 32 bits, whatever the type (log entry 29)
  | .mov t _ => { a := { dst t with allow := noShade t (aV + aS + aH) + aW }, c := src clsAny t, perLane := true }
  | .movi _ _ => { a := { dst .n64 with allow := aV + aS + aW }, c := { allow := aLong, rt := .n32 }, perLane := true }
  | .prmt _ => shTern .n32 .n32 .n32
  | .fadd m _ | .fsub m _ | .fmul m _ => shBin m.ty m.ty
  | .ffma m _ => shTern m.ty m.ty m.ty
  | .fmin m _ | .fmax m _ => shBin m.ty m.ty
  | .fneg t _ | .fabs t _ => shUn t t
  | .fset m _ => { a := dst m.ty, b := pSrc, perLane := true }
  | .frnd m _ => shUn m.ty m.ty
  | .fcls m _ => { a := pDst, b := src clsB m.ty, c := src clsAny .n32 }
  | .fclsOne m _ => shUn .n32 m.ty
  | .frcp m _ | .fsqrt m _ => { shUn m.ty m.ty with mayset := true }
  | .frsq m _ | .fex2 m _ | .flg2 m _ | .fsin m _ | .fcos m _ | .ftnh m _ => { shUn m.ty m.ty with mayset := true }
  | .fdiv m _ => { shBin m.ty m.ty with mayset := true }
  | .cvt m _ => shUn m.dst m.src
  | .qnt m _ =>
    { a := { allow := aV + aH + (if env.bow then aS else 0), dst := true },
      b := { allow := aV, rt := .f32, run := if m.nib then 8 else 4 }, c := src clsAny .n32, perLane := true }
  | .dqnt m _ =>
    { a := { allow := aV, run := if m.nib then 8 else 4, dst := true }, b := src clsB .n32, c := src clsAny .n32,
      perLane := true }
  | .hmov _ _ => { a := { allow := aH, dst := true }, c := src clsAny .n32 }
  | .unison _ => { a := pDst, b := hTag0, fullGuard := true }
  | .unisonB _ => { a := pDst, b := hTag0 }
  | .hpeek all _ => { a := { allow := aS + aV, dst := true }, b := if all then posNone else hTag0 }
  | .hdrop _ _ => { b := hTag0 }
  | .ld m _ =>
    { a := dataPos m.width false, b := basePos (m.space != .priv) (m.space != .global), c := indexPos, x := .mem true,
      scope := if m.order = .acq ∨ m.order = .sc then .range 0 6 else .zero, perLane := true, mayset := true }
  | .st m _ =>
    { a := dataPos m.width true, b := basePos (m.space != .priv) (m.space != .global), c := indexPos, x := .mem true,
      scope := if m.order = .plain then .zero else .range 0 6 }
  | .ldc m _ =>
    { a := dataPos m.width false, b := { allow := aC }, c := indexPos, x := .ldc, perLane := true, mayset := true }
  | .ldnr m _ => { shMem (dataPos m.width false) with perLane := true, mayset := true }
  | .lds m _ =>
    { a := dataPos m.width false, b := basePos false true, c := indexPos, x := .mem true, perLane := true,
      mayset := true }
  | .sts w _ => { a := dataPos w true, b := basePos false true, c := indexPos, x := .mem true }
  | .pref _ _ => shMem posNone
  | .cctl op _ =>
    match op with
    | .wb | .wbinv | .invro => shMem posNone
    | _ => {}
  | .atom m _ =>
    { a := oldPos m.ty, b := basePos true false, c := atomPos m.ty (m.op == .cas), x := .mem false,
      scope := .range 0 6, perLane := true, mayset := true }
  | .red m _ =>
    { b := basePos true false, c := atomPos m.ty false, x := .mem false, scope := .range 0 6 }
  | .fence _ _ | .pfence _ _ => {}
  | .atoms m _ =>
    { a := if m.noret then posNone else oldPos m.ty, b := basePos false true, c := atomPos m.ty (m.op == .cas),
      x := .mem false, perLane := true, mayset := true }
  | .lock _ _ =>
    { shSb { allow := aS, dst := true } (sOrImm 0 255) with fullGuard := true, mayset := true }
  | .trylock _ _ => { shSb { allow := aS, dst := true } posNone with mayset := true }
  | .unlock _ _ => shSb posNone posNone
  | .lkqry _ => { shSb { allow := aS, dst := true } posNone with mayset := true }
  | .objnew _ _ => shMem { allow := aV + aS + aI }
  | .stref rel _ =>
    { shMem { allow := aV + aS + aI, rt := .n64, run := 2, align := 2, lo := 0, hi := 0 } with
      scope := if rel then .range 1 6 else .zeroMod }
  | .publish _ _ => shSb posNone (sOrImm 0 0)
  | .tagrd _ _ => { shMem { allow := aV + aS, dst := true } with perLane := true, mayset := true }
  | .pagereq _ _ => { b := sOnly, c := sOrImm 1 16 }
  | .barSync _ | .barArr _ =>
    { b := { allow := aI, lo := 0, hi := (env.barriers : Int) - 1 }, c := sOrImm 1 65, fullGuard := true }
  | .barWait _ => { b := { allow := aI, lo := 0, hi := (env.barriers : Int) - 1 }, fullGuard := true }
  | .barExp _ =>
    { b := { allow := aI, lo := 0, hi := (env.barriers : Int) - 1 }, c := sOrImm 1 65, x := .opnd anyInt,
      fullGuard := true }
  | .qinit _ _ =>
    { b := { allow := aI, lo := 0, hi := (env.queues : Int) - 1 }, c := { allow := aS + aI + aL + aLong, rt := .s32 } }
  | .qinitOff _ => { b := { allow := aI, lo := 0, hi := (env.queues : Int) - 1 } }
  | .qpush _ =>
    { b := { allow := aI, lo := 0, hi := (env.queues : Int) - 1 },
      c := { allow := aS + aI + aL + aLong + aC, rt := .n64 }, fullGuard := true }
  | .qpop _ =>
    { a := { src (aV + aS) .n64 with dst := true }, b := { allow := aI, lo := 0, hi := (env.queues : Int) - 1 },
      fullGuard := true, mayset := true }
  | .qtryPop _ _ =>
    { a := { src (aV + aS) .n64 with dst := true }, b := { allow := aI, lo := 0, hi := (env.queues : Int) - 1 },
      fullGuard := true, mayset := true }
  | .qtryPush _ _ =>
    { b := { allow := aI, lo := 0, hi := (env.queues : Int) - 1 },
      c := { allow := aS + aI + aL + aLong + aC, rt := .n64 }, fullGuard := true, mayset := true }
  | .waitc _ _ => { b := sOrImm 0 63 }
  | .bcopy _ _ => { b := sOnly, c := sOrImm (-256) 255, x := .opnd anyInt }
  | .bcopy2 _ _ | .bgath _ _ =>
    { b := sOnly, c := sOrImm (-256) 255, x := .opnd { allow := aS, rt := .n64, srun := 2, salign := 2 } }
  | .cbarSync _ | .cbarArr _ => { b := { allow := aI, lo := 0, hi := 1 }, c := sOrImm 1 255, fullGuard := true }
  | .cbarWait _ => { b := { allow := aI, lo := 0, hi := 1 }, fullGuard := true }
  | .post _ _ => shSb posNone posNone
  | .hplaneWin _ _ | .hplaneRaw _ _ => { b := sOnly }
  | .halign _ _ | .hmma _ _ | .haccld _ => { a := anyInt, b := anyInt, c := anyInt, x := .opnd anyInt }
  | .haccst m _ =>
    { a := anyInt, b := anyInt, c := anyInt, x := .opnd (if m.fmt = .s8 ∨ m.fmt = .n8 then sOnly else anyInt) }
  | .hzero _ => { a := anyInt, b := anyInt }
  | .htest _ | .htestFlags _ => { b := anyInt }
  | .consort _ _ => shSb posNone posNone
  | .cnsqry _ => { shSb { allow := aS, dst := true } posNone with mayset := true }
  | .rdsr _ _ => { a := { allow := aS + aV, dst := true }, mayset := true }
  | .wrsr _ _ => { b := { allow := aS + aI, rt := .n32 } }
  | _ => {}

/-- The operands, guard and hints of an instruction; events have none. -/
def insnOf : Instr → Option Insn
  | .nop i | .bra _ i | .brx _ i | .call i | .callx i | .ret i | .exit i | .yield i | .trap i | .brz i | .mset i
  | .msave i | .mrest i | .pset _ i | .fpset _ i | .plop _ i | .pmov _ i | .pmovPack i | .pmovUnpack i | .vote _ i
  | .shfl _ i | .bcast _ i | .redux _ i | .scan _ i | .matchOp _ i | .iadd _ i | .isub _ i | .imul _ i | .imulh _ i
  | .imad _ i | .imadw _ i | .idiv _ i | .irem _ i | .imin _ i | .imax _ i | .iabs _ i | .ineg _ i | .iset _ i | .sel _ i
  | .lea _ i | .dp4 _ i | .and _ i | .or _ i | .xor _ i | .not _ i | .lop3 _ i | .shl _ i | .shr _ i | .sar _ i
  | .rol _ i | .fshl _ i | .popc _ i | .clz _ i | .ctz _ i | .brev _ i | .bfx _ i | .bfi _ i | .mov _ i | .movi _ i
  | .prmt i | .fadd _ i | .fsub _ i | .fmul _ i | .ffma _ i | .fmin _ i | .fmax _ i | .fneg _ i | .fabs _ i | .fset _ i
  | .frnd _ i | .fcls _ i | .fclsOne _ i | .frcp _ i | .frsq _ i | .fsqrt _ i | .fdiv _ i | .fex2 _ i | .flg2 _ i
  | .fsin _ i | .fcos _ i | .ftnh _ i | .cvt _ i | .qnt _ i | .dqnt _ i | .hmov _ i | .unison i | .unisonB i | .hpeek _ i
  | .hdrop _ i | .ld _ i | .st _ i | .ldc _ i | .ldnr _ i | .lds _ i | .sts _ i | .pref _ i | .cctl _ i | .atom _ i
  | .red _ i | .fence _ i | .pfence _ i | .atoms _ i | .lock _ i | .trylock _ i | .unlock _ i | .lkqry i | .objnew _ i
  | .stref _ i | .publish _ i | .tagrd _ i | .pagereq _ i | .barSync i | .barArr i | .barWait i | .barExp i | .qinit _ i
  | .qinitOff i | .qpush i | .qpop i | .qtryPop _ i | .qtryPush _ i | .waitc _ i | .bcopy _ i | .bcopy2 _ i | .bgath _ i
  | .cbarSync i | .cbarArr i | .cbarWait i | .post _ i | .hplaneWin _ i | .hplaneRaw _ i | .halign _ i | .hmma _ i
  | .haccld i | .haccst _ i | .hzero i | .htest i | .htestFlags i | .consort _ i | .cnsqry i | .rdsr _ i | .wrsr _ i =>
    some i
  | _ => none

/-! ### Modifiers that an opcode lists -/

def isInt (t : Ty) : Bool := tyInt t
def is3264 : Ty → Bool
  | .s32 | .n32 | .s64 | .n64 => true
  | _ => false
def isF : Ty → Bool
  | .f32 | .f16 | .bf16 => true
  | _ => false
def isFx : Ty → Bool
  | .f32 | .f16 | .bf16 | .f16x2 | .bf16x2 => true
  | _ => false
def is32 : Ty → Bool
  | .s32 | .n32 => true
  | _ => false
def isAtomTy : Ty → Bool
  | .s32 | .n32 | .s64 | .n64 | .f32 => true
  | _ => false
def isSub (w : Width) : Bool := w == .b8 || w == .b16

/-- An operation and a type that REDUX, SCAN and RED admit (R90, R330). -/
def redOk (t : Ty) (o : RedOp) : Bool :=
  isAtomTy t && (t != .f32 || o == .add || o == .min || o == .max)

/-- An operation and a type that ATOM and ATOMS admit (R229, R328). -/
def atomOk (t : Ty) (o : AtomOp) : Bool :=
  isAtomTy t && (t != .f32 || (o != .and && o != .or && o != .xor))

/-- ORDER and SPACE of LD combine (R154). -/
def ldOk (m : LdMod) : Bool :=
  (!m.sx || isSub m.width) &&
  match m.order with
  | .plain => true
  | .ro => m.space == .global
  | _ => m.space != .priv

/-- RD counts only for F8 types (R137). -/
def cvtModOk (m : CvtMod) : Bool :=
  (m.rd == .ieee || tyF8 m.dst || tyF8 m.src) && (tyX2 m.dst == tyX2 m.src)

/-- The controls in CVT's C field (R137). -/
def cvtCtlOk (m : CvtMod) : Bool :=
  (!m.sat || (tyInt m.dst && tyInt m.src)) && (!m.ftz || !(tyInt m.dst && tyInt m.src))

/-- System register numbers (R188). -/
def srListed (n : Nat) : Bool := n < 4 || n == 8 || n == 0x10 || n == 0x18 || n == 0x19

/-- ROP and TYPE of a collective (R437). -/
def consortOk (m : ConsortMod) : Bool :=
  match m.kind, m.ty with
  | .barrier, none => m.rop == .add
  | .barrier, some _ => false
  | _, none => false
  | k, some t =>
    (is3264 t || isF t) && (!isF t || m.rop == .add || m.rop == .min || m.rop == .max) &&
    ((k != .broadcast && k != .allgather) || m.rop == .add)

/-- The modifier of the instruction is one that its opcode lists. -/
def modOk : Instr → Bool
  | .pset m _ => isInt m.ty
  | .fpset m _ => isF m.ty && !(m.u && (m.cmp == .num || m.cmp == .nan))
  | .redux m _ => redOk m.ty m.op && (!m.ftz || m.ty == .f32) && !m.excl
  | .scan m _ => redOk m.ty m.op && (!m.ftz || m.ty == .f32)
  | .iadd m _ | .isub m _ | .imul m _ | .imad m _ | .idiv m _ | .ineg m _ => isInt m.ty
  | .iabs m _ => isInt m.ty && tySigned m.ty
  | .imulh t _ | .irem t _ | .imin t _ | .imax t _ | .and t _ | .or t _ | .xor t _ | .not t _ | .rol t _ | .popc t _
  | .clz t _ | .ctz t _ | .brev t _ | .bfx t _ | .bfi t _ => isInt t
  | .imadw m _ => is32 m.ty
  | .dp4 m _ => is32 m.ty
  | .iset m _ => isInt m.ty
  | .sel m _ => is3264 m.ty
  | .lea m _ => is3264 m.ty
  | .lop3 t _ | .fshl t _ => is3264 t
  | .shl m _ | .shr m _ | .sar m _ => isInt m.ty
  | .fadd m _ | .fsub m _ | .fmul m _ | .ffma m _ => isFx m.ty
  | .fmin m _ | .fmax m _ => isFx m.ty
  | .fneg t _ | .fabs t _ => isFx t || tyF8 t
  | .fset m _ => isFx m.ty
  | .frnd m _ => isFx m.ty
  | .fcls m _ | .fclsOne m _ => isF m.ty
  | .frcp m _ | .fsqrt m _ | .fdiv m _ => isF m.ty
  | .frsq m _ | .fex2 m _ | .flg2 m _ | .fsin m _ | .fcos m _ | .ftnh m _ => isF m.ty
  | .cvt m _ => cvtModOk m
  | .qnt m _ => !(m.sgn && m.nib)
  | .dqnt m _ => !(m.sgn && m.nib) && m.rnd == .rne
  | .ld m _ => ldOk m
  | .st m _ => m.order == .plain || m.space != .priv
  | .ldc m _ | .lds m _ => !m.sx || isSub m.width
  | .ldnr m _ => !m.sx || isSub m.width
  | .atom m _ => atomOk m.ty m.op
  | .red m _ => redOk m.ty m.op
  | .atoms m _ => atomOk m.ty m.op
  | .lock sc _ | .trylock sc _ | .unlock sc _ | .publish sc _ => sc != .grp
  | .bcopy m _ | .bcopy2 m _ => !(m.store && m.cnt.isSome) && m.cache != .nol1
  | .bgath m _ => !m.store && m.cache != .nol1
  | .halign m _ => m.rd == .ieee || m.fmt == .f8a || m.fmt == .f8b
  | .hmma m _ => m.rd == .ieee || m.kind != .a16
  | .haccst m _ =>
    (m.fmt != .f32 || m.rnd == .rne) && (m.rd == .ieee || m.fmt == .s8 || m.fmt == .n8)
  | .consort m _ => consortOk m
  | .rdsr n _ | .wrsr n _ => srListed n.toNat
  | _ => true

/-! ### Operands -/

/-- A special register is 64 bits wide (R24). -/
def specialWide : Special → Bool
  | .cardid | .link | .clock | .ticks | .pts => true
  | _ => false

/-- An operand that supplies a value of its own to each lane (R20). -/
def perLaneOpnd : Opnd → Bool
  | .v _ | .h _ _ | .p _ | .spec .laneid | .spec .fflags => true
  | _ => false

/-- An operand may stand in a field (R18-R24). -/
def opndOk (env : Env) (p : Pos) : Opnd → Bool
  | .unused => p.allow == 0
  | .v r => allows p.allow aV && !env.bow && r.toNat + p.run ≤ env.vregs && r.toNat % p.align == 0
  | .s r => allows p.allow aS && r.toNat + p.srun ≤ 96 && r.toNat % p.salign == 0
  | .h k t =>
    allows p.allow aH && k.toNat < env.shade && (!env.bow || t == .resolve || t == .b) &&
    !(p.dst && !env.bow && t == .b) && (!p.tag0 || t == .resolve)
  | .p _ => allows p.allow aP
  | .imm n => allows p.allow aI && immLegal p.rt (.imm n) && p.lo ≤ n.toInt && n.toInt ≤ p.hi
  | .imm29 n => allows p.allow aL && immLegal p.rt (.imm29 n)
  | .imm32 n => allows p.allow aLong && immLegal p.rt (.imm32 n)
  | .const _ off => allows p.allow aC && off.toNat % (tyWidth p.rt / 8) == 0
  | .spec x =>
    (allows p.allow aX && (!tyWide p.rt || specialWide x)) ||
    (allows p.allow aW && ((x == .link && tyWide p.rt) || (x == .fflags && tyWidth p.rt == 32)))

/-- X as the shape wants it. -/
def xOk (env : Env) (sh : Shape) : XField → Bool
  | .none => sh.x == .none
  | .disp _ => sh.x == .disp
  | .opnd o => match sh.x with
    | .opnd p => opndOk env p o
    | _ => false
  | .lut o _ => match sh.x with
    | .lut p => opndOk env p o
    | _ => false
  | .mem _ s sc =>
    (match sh.x with
     | .mem shift => if shift then s.toNat ≤ 4 else s == 0
     | .ldc => s.toNat ≤ 4
     | _ => false) &&
    (match sh.scope with
     | .range lo hi => lo ≤ sc.toNat && sc.toNat ≤ hi
     | _ => sc == 0)

/-- An operand claims X for itself (R22). -/
def claimsX : Opnd → Bool
  | .imm29 _ | .imm32 _ | .const _ _ => true
  | _ => false

/-- The operands of `i` that are sources (R20). -/
def srcOpnds (i : Insn) : List Opnd :=
  [i.b, i.c] ++ (match i.x with | .opnd o => [o] | .lut o _ => [o] | _ => [])

/-- Special rules of single opcodes about their operands: R70's `A`, `B` of a branch that may only name %link, the pair of
%link and %fflags with MOV's type (R127), CBAR's chord (R288), LDC's bank, whose word holds no offset beside it (R159), a
copy's barrier (R233). -/
def opcRule (env : Env) : Instr → Bool
  | .brx _ i | .callx i => match i.b with
    | .spec x => x == .link
    | _ => true
  | .mov t i => match i.a with
    | .spec .link => t == .s64 || t == .n64
    | .spec .fflags => true
    | _ => true
  | .cbarSync _ | .cbarArr _ | .cbarWait _ => env.multi
  | .ldc _ i => match i.b with
    | .const _ off => off == 0
    | _ => true
  | .bcopy m _ | .bcopy2 m _ | .bgath m _ => match m.cnt with
    | some b => b.toNat < env.barriers
    | none => true
  | _ => true

/-- A scalar destination of a per-lane result needs uniform sources in the group stream (R20); so does %link. -/
def uniformOk (env : Env) (sh : Shape) (i : Insn) : Bool :=
  env.bow || !sh.perLane ||
  match i.a with
  | .s _ | .spec .link => !((srcOpnds i).any perLaneOpnd)
  | _ => true

/-- The operands of an instruction are legal (R18-R25 and the tables of its chapter). -/
def operandsOk (env : Env) (ins : Instr) (i : Insn) : Bool :=
  let long := match i.c with | .imm32 _ => true | _ => false
  let sh := shapeOf long env ins
  opndOk env sh.a i.a && opndOk env sh.b i.b && opndOk env sh.c i.c && xOk env sh i.x &&
  !(claimsX i.b && claimsX i.c) && (!(claimsX i.c) || i.x == .none || match ins with | .sel _ _ => long | _ => false) &&
  (!(claimsX i.b) || i.x == .none || sh.x == .ldc) &&
  (!sh.fullGuard || (i.g.p == 7 && !i.g.neg)) && uniformOk env sh i && opcRule env ins

/-- The hints are legal (R35). -/
def hintOk (env : Env) (ins : Instr) (i : Insn) : Bool :=
  i.h.set == 0 || (shapeOf false env ins).mayset

/-- The issuing stream accepts the instruction (R37, R38, R203, R264). -/
def streamOk (env : Env) : Instr → Bool
  | .mset _ | .msave _ | .mrest _ | .vote _ _ | .shfl _ _ | .bcast _ _ | .redux _ _ | .scan _ _ | .matchOp _ _
  | .unison _ => !env.bow
  | .unisonB _ => env.bow
  | .hmov clr _ => !clr || env.bow
  | .hdrop m _ => m == .all || !env.bow
  | .hplaneWin _ _ | .hplaneRaw _ _ | .halign _ _ | .hmma _ _ | .haccld _ | .haccst _ _ | .hzero _ | .htest _
  | .htestFlags _ => env.bow && env.harp
  | _ => true

end Sys2Proof.Machine
end

