-- ==== Sys2Proof/WellFormed.lean ====
section
/-!
DEFINITION. When an instruction is one that a word can encode and a stream may issue (spec/01 R18-R25, R35-R39). Events
are never well-formed: no word encodes them.
-/
namespace Sys2Proof

/-- The instruction is legal in the stream `env`: accepted there, its modifier listed, its operands and hints legal. -/
def WellFormed (env : Machine.Env) (ins : Instr) : Bool :=
  match Machine.insnOf ins with
  | none => false
  | some i =>
    Machine.streamOk env ins && Machine.modOk ins && Machine.operandsOk env ins i && Machine.hintOk env ins i &&
    (match ins with | .cvt m _ => Machine.cvtCtlOk m | _ => true) &&
    (match ins, i.c with | .movi _ _, .imm32 _ => true | .movi _ _, _ => false | _, _ => true)

end Sys2Proof
end

