-- ==== Sys2Proof/Decode.lean ====
section
/-!
DEFINITION. Decoding and encoding of the 96-bit instruction word (spec/01 R16-R29, R37-R40 and the encoding tables of
each chapter). Decoding is total: a word that is no legal instruction is rejected under the name of the fault that R39
gives it, the checks made in R39's order.
-/
namespace Sys2Proof

open Machine

/-- Why a word is no legal instruction, in the order of the checks (R39, R40). -/
inductive Illegal
  | opcode | context | modifier | operand | hint
  deriving DecidableEq, Repr

/-! ### Codes of the modifier fields -/

/-- Type codes (R26). -/
def tyOf : Nat → Option Ty
  | 0 => some .s8 | 1 => some .s16 | 2 => some .s32 | 3 => some .s64 | 4 => some .n8 | 5 => some .n16 | 6 => some .n32
  | 7 => some .n64 | 8 => some .f16 | 9 => some .bf16 | 10 => some .f32 | 12 => some .f16x2 | 13 => some .bf16x2
  | 14 => some .f8a | 15 => some .f8b | _ => none

def tyCode : Ty → Nat
  | .s8 => 0 | .s16 => 1 | .s32 => 2 | .s64 => 3 | .n8 => 4 | .n16 => 5 | .n32 => 6 | .n64 => 7 | .f16 => 8 | .bf16 => 9
  | .f32 => 10 | .f16x2 => 12 | .bf16x2 => 13 | .f8a => 14 | .f8b => 15

/-- Rounding codes (R27). -/
def rndOf : Nat → Option Rnd
  | 0 => some .rne | 1 => some .rtz | 2 => some .rdn | 3 => some .rup | 4 => some .rna | _ => none

def rndCode : Rnd → Nat
  | .rne => 0 | .rtz => 1 | .rdn => 2 | .rup => 3 | .rna => 4

/-- Scope codes (R29). -/
def scopeOf : Nat → Option Scope
  | 0 => some .grp | 1 => some .blk | 2 => some .clu | 3 => some .die | 4 => some .pkg | 5 => some .fab | 6 => some .sys
  | _ => none

def scopeCode : Scope → Nat
  | .grp => 0 | .blk => 1 | .clu => 2 | .die => 3 | .pkg => 4 | .fab => 5 | .sys => 6

/-- Codes of Cmp (R81). -/
def cmpOf : Nat → Option Cmp
  | 0 => some .eq | 1 => some .ne | 2 => some .lt | 3 => some .le | 4 => some .gt | 5 => some .ge | _ => none

def cmpCode : Cmp → Nat
  | .eq => 0 | .ne => 1 | .lt => 2 | .le => 3 | .gt => 4 | .ge => 5

/-- Codes of FCmp (R82). -/
def fcmpOf : Nat → Option FCmp
  | 0 => some .eq | 1 => some .ne | 2 => some .lt | 3 => some .le | 4 => some .gt | 5 => some .ge | 6 => some .num | 7 => some .nan | _ => none

def fcmpCode : FCmp → Nat
  | .eq => 0 | .ne => 1 | .lt => 2 | .le => 3 | .gt => 4 | .ge => 5 | .num => 6 | .nan => 7

/-- Codes of RedOp (R90). -/
def redOpOf : Nat → Option RedOp
  | 0 => some .add | 1 => some .min | 2 => some .max | 3 => some .and | 4 => some .or | 5 => some .xor | _ => none

def redOpCode : RedOp → Nat
  | .add => 0 | .min => 1 | .max => 2 | .and => 3 | .or => 4 | .xor => 5

/-- Codes of MatchKind (R91). -/
def matchKindOf : Nat → Option MatchKind
  | 0 => some .peers | 1 => some .lead | 2 => some .unit | _ => none

def matchKindCode : MatchKind → Nat
  | .peers => 0 | .lead => 1 | .unit => 2

/-- Codes of AtomOp (R229). -/
def atomOpOf : Nat → Option AtomOp
  | 0 => some .add | 1 => some .min | 2 => some .max | 3 => some .and | 4 => some .or | 5 => some .xor | 6 => some .exch | 7 => some .cas | _ => none

def atomOpCode : AtomOp → Nat
  | .add => 0 | .min => 1 | .max => 2 | .and => 3 | .or => 4 | .xor => 5 | .exch => 6 | .cas => 7

/-- Codes of AtomOrder (R328). -/
def atomOrderOf : Nat → Option AtomOrder
  | 0 => some .relaxed | 1 => some .acq | 2 => some .rel | 3 => some .ar | 4 => some .sc | _ => none

def atomOrderCode : AtomOrder → Nat
  | .relaxed => 0 | .acq => 1 | .rel => 2 | .ar => 3 | .sc => 4

/-- Codes of Space (R154). -/
def spaceOf : Nat → Option Space
  | 0 => some .global | 1 => some .priv | 2 => some .pin | _ => none

def spaceCode : Space → Nat
  | .global => 0 | .priv => 1 | .pin => 2

/-- Codes of Width (R145). -/
def widthOf : Nat → Option Width
  | 0 => some .b8 | 1 => some .b16 | 2 => some .b32 | 3 => some .b64 | 4 => some .b128 | 5 => some .b256 | _ => none

def widthCode : Width → Nat
  | .b8 => 0 | .b16 => 1 | .b32 => 2 | .b64 => 3 | .b128 => 4 | .b256 => 5

/-- Codes of CachePol (R154). -/
def cacheOf : Nat → Option CachePol
  | 0 => some .dflt | 1 => some .stream | 2 => some .nol1 | 3 => some .keep | _ => none

def cacheCode : CachePol → Nat
  | .dflt => 0 | .stream => 1 | .nol1 => 2 | .keep => 3

/-- Codes of LdOrder (R154). -/
def ldOrderOf : Nat → Option LdOrder
  | 0 => some .plain | 1 => some .acq | 2 => some .sc | 3 => some .ro | _ => none

def ldOrderCode : LdOrder → Nat
  | .plain => 0 | .acq => 1 | .sc => 2 | .ro => 3

/-- Codes of StOrder (R154). -/
def stOrderOf : Nat → Option StOrder
  | 0 => some .plain | 1 => some .rel | 2 => some .sc | _ => none

def stOrderCode : StOrder → Nat
  | .plain => 0 | .rel => 1 | .sc => 2

/-- Codes of PrefTarget (R163). -/
def prefOf : Nat → Option PrefTarget
  | 0 => some .l1 | 1 => some .slice | 2 => some .ro | _ => none

def prefCode : PrefTarget → Nat
  | .l1 => 0 | .slice => 1 | .ro => 2

/-- Codes of CctlOp (R164). -/
def cctlOf : Nat → Option CctlOp
  | 0 => some .wb | 1 => some .wbinv | 2 => some .invro | 3 => some .wbAll | 4 => some .wbinvAll | 5 => some .invroAll | _ => none

def cctlCode : CctlOp → Nat
  | .wb => 0 | .wbinv => 1 | .invro => 2 | .wbAll => 3 | .wbinvAll => 4 | .invroAll => 5

/-- Codes of FenceKind (R332). -/
def fenceOf : Nat → Option FenceKind
  | 0 => some .ar | 1 => some .acq | 2 => some .rel | 3 => some .sc | _ => none

def fenceCode : FenceKind → Nat
  | .ar => 0 | .acq => 1 | .rel => 2 | .sc => 3

/-- Codes of PfencePath (R333). -/
def pfenceOf : Nat → Option PfencePath
  | 0 => some .ro | 1 => some .plane | 2 => some .all | _ => none

def pfenceCode : PfencePath → Nat
  | .ro => 0 | .plane => 1 | .all => 2

/-- Codes of DropMode (R208). -/
def dropOf : Nat → Option DropMode
  | 0 => some .l | 1 => some .g | 2 => some .all | _ => none

def dropCode : DropMode → Nat
  | .l => 0 | .g => 1 | .all => 2

/-- Codes of Engine (R226). -/
def engineOf : Nat → Option Engine
  | 0 => some .copy | 1 => some .harp | 2 => some .pub | 3 => some .consort | 4 => some .page | _ => none

def engineCode : Engine → Nat
  | .copy => 0 | .harp => 1 | .pub => 2 | .consort => 3 | .page => 4

/-- Codes of PostTarget (R418). -/
def postOf : Nat → Option PostTarget
  | 0 => some .self | 1 => some .next | 2 => some .prev | _ => none

def postCode : PostTarget → Nat
  | .self => 0 | .next => 1 | .prev => 2

/-- Codes of GSize (R268). -/
def gsizeOf : Nat → Option GSize
  | 0 => some .g32 | 1 => some .g64 | 2 => some .g128 | _ => none

def gsizeCode : GSize → Nat
  | .g32 => 0 | .g64 => 1 | .g128 => 2

/-- Codes of AlignFmt (R272). -/
def alignFmtOf : Nat → Option AlignFmt
  | 0 => some .f16 | 1 => some .bf16 | 2 => some .f8a | 3 => some .f8b | _ => none

def alignFmtCode : AlignFmt → Nat
  | .f16 => 0 | .bf16 => 1 | .f8a => 2 | .f8b => 3

/-- Codes of AKind (R273). -/
def aKindOf : Nat → Option AKind
  | 0 => some .n8 | 1 => some .s8 | 2 => some .a16 | _ => none

def aKindCode : AKind → Nat
  | .n8 => 0 | .s8 => 1 | .a16 => 2

/-- Codes of AccFmt (R275). -/
def accFmtOf : Nat → Option AccFmt
  | 0 => some .f32 | 1 => some .f16 | 2 => some .bf16 | 3 => some .s8 | 4 => some .n8 | _ => none

def accFmtCode : AccFmt → Nat
  | .f32 => 0 | .f16 => 1 | .bf16 => 2 | .s8 => 3 | .n8 => 4

/-- Codes of ColKind (R437). -/
def colKindOf : Nat → Option ColKind
  | 0 => some .allreduce | 1 => some .reduce | 2 => some .broadcast | 3 => some .allgather | 4 => some .barrier | _ => none

def colKindCode : ColKind → Nat
  | .allreduce => 0 | .reduce => 1 | .broadcast => 2 | .allgather => 3 | .barrier => 4

/-- Codes of Reading (R97). -/
def readingOf : Nat → Option Reading
  | 0 => some .ieee | 1 => some .finite | 2 => some .nanOnly | _ => none

def readingCode : Reading → Nat
  | .ieee => 0 | .finite => 1 | .nanOnly => 2

/-- Codes of Rank (R18). -/
def rankOf : Nat → Option Rank
  | 0 => some .resolve | 1 => some .l | 2 => some .g | 3 => some .b | _ => none

def rankCode : Rank → Nat
  | .resolve => 0 | .l => 1 | .g => 2 | .b => 3

/-- Special register indices (R24). -/
def specialOf : Nat → Option Special
  | 0 => some .laneid | 1 => some .grpid | 2 => some .blkid | 3 => some .chordid | 4 => some .cardid | 5 => some .link
  | 6 => some .clock | 7 => some .ticks | 8 => some .pts | 9 => some .fflags | 10 => some .ctxid | 16 => some .caps0
  | 17 => some .caps1 | 18 => some .caps2 | 19 => some .caps3 | _ => none

def specialCode : Special → Nat
  | .laneid => 0 | .grpid => 1 | .blkid => 2 | .chordid => 3 | .cardid => 4 | .link => 5 | .clock => 6 | .ticks => 7
  | .pts => 8 | .fflags => 9 | .ctxid => 10 | .caps0 => 16 | .caps1 => 17 | .caps2 => 18 | .caps3 => 19

/-- Bits `lo` to `lo + n - 1` of `m`. -/
def fld (m lo n : Nat) : Nat := m / 2 ^ lo % 2 ^ n

/-- Bit `k` of `m`. -/
def flag (m k : Nat) : Bool := m / 2 ^ k % 2 == 1

/-- A flag as its bit. -/
def bit1 (b : Bool) (k : Nat) : Nat := if b then 2 ^ k else 0

/-- The modifier of a copy (R233); BARRIER is zero where CNT is 0. -/
def copyModOf (m : Nat) : Option CopyMod :=
  if !flag m 1 && fld m 2 6 != 0 then none
  else match fld m 8 2 with
  | 0 => some ⟨flag m 0, copyCnt m, .dflt⟩
  | 1 => some ⟨flag m 0, copyCnt m, .stream⟩
  | 2 => some ⟨flag m 0, copyCnt m, .keep⟩
  | _ => none
where
  copyCnt (m : Nat) : Option (BitVec 6) := if flag m 1 then some (BitVec.ofNat 6 (fld m 2 6)) else none

/-- BARRIER is zero where CNT is 0 (R233). -/
def copyBits (m : CopyMod) : Nat :=
  bit1 m.store 0 + (match m.cnt with | some b => 2 + 4 * b.toNat | none => 0) +
  256 * (match m.cache with | .dflt => 0 | .stream => 1 | _ => 2)

/-- The opcode gives MOD bit 9 the meaning LONG (R28). -/
def longOpc (opc : Nat) : Bool :=
  [0x8, 0xc, 0x10, 0x11, 0x40, 0x41, 0x42, 0x43, 0x46, 0x47, 0x48, 0x49, 0x4c, 0x4d, 0x4e, 0x50, 0x51, 0x52, 0x55, 0x56, 0x57, 0x58, 0x5e, 0x60, 0x61, 0x100, 0x101, 0x102, 0x104, 0x105, 0x10a, 0x113, 0x121, 0x122, 0x180, 0x242, 0x243, 0x245].contains opc

/-- The instruction that an opcode and its modifier bits name (R37 and each chapter's MOD assignment): `m` is MOD without
LONG, `aPred` says that A is a predicate (R87), `c` is the C field (R137). None where the modifier is reserved or
unassigned. -/
def headOf (opc m : Nat) (long aPred : Bool) (c : Nat) : Option (Insn → Instr) :=
  match opc with
  | 0x0 =>
    if m &&& 0x3ff ≠ 0 then none else some .nop
  | 0x1 =>
    if m &&& 0x3fe ≠ 0 then none else some (.bra (flag m 0))
  | 0x2 =>
    if m &&& 0x3fe ≠ 0 then none else some (.brx (flag m 0))
  | 0x3 =>
    if m &&& 0x3ff ≠ 0 then none else some .call
  | 0x4 =>
    if m &&& 0x3ff ≠ 0 then none else some .callx
  | 0x5 =>
    if m &&& 0x3ff ≠ 0 then none else some .ret
  | 0x6 =>
    if m &&& 0x3ff ≠ 0 then none else some .exit
  | 0x7 =>
    if m &&& 0x3ff ≠ 0 then none else some .yield
  | 0x8 =>
    if m &&& 0x3ff ≠ 0 then none else some .trap
  | 0x9 =>
    if m &&& 0x3ff ≠ 0 then none else some .brz
  | 0xa =>
    if m &&& 0x3ff ≠ 0 then none else some .mset
  | 0xb =>
    if m &&& 0x3ff ≠ 0 then none else some .msave
  | 0xc =>
    if m &&& 0x3ff ≠ 0 then none else some .mrest
  | 0x10 =>
    if m &&& 0x380 ≠ 0 then none else match tyOf (fld m 0 4), cmpOf (fld m 4 3) with
    | some t, some c => some (.pset ⟨t, c⟩)
    | _, _ => none
  | 0x11 =>
    if m &&& 0x200 ≠ 0 then none else match tyOf (fld m 0 4), fcmpOf (fld m 4 3) with
    | some t, some c => some (.fpset ⟨t, c, flag m 7, flag m 8⟩)
    | _, _ => none
  | 0x12 =>
    if m &&& 0x300 ≠ 0 then none else some (.plop (BitVec.ofNat 8 m))
  | 0x13 =>
    match fld m 0 2 with
    | 0 => if 8 ≤ m then none else some (.pmov (flag m 2))
    | 1 => if m = 1 then some .pmovPack else none
    | 2 => if m = 2 then some .pmovUnpack else none
    | _ => none
  | 0x20 =>
    if 32 ≤ m then none
    else if aPred then
      (match fld m 0 2, fld m 3 2 with
       | 0, 0 => some (.vote ⟨.some, flag m 2⟩)
       | 0, 1 => some (.vote ⟨.every, flag m 2⟩)
       | 0, 2 => some (.vote ⟨.same, flag m 2⟩)
       | _, _ => none)
    else
      (match fld m 3 2, fld m 0 2 with
       | 0, 0 => some (.vote ⟨.ballot, flag m 2⟩)
       | 0, 1 => some (.vote ⟨.count, flag m 2⟩)
       | 0, 2 => some (.vote ⟨.lead, flag m 2⟩)
       | _, _ => none)
  | 0x21 =>
    if m &&& 0x3f8 ≠ 0 then none else some (.shfl ⟨flag m 0, flag m 1, flag m 2⟩)
  | 0x22 =>
    if m &&& 0x3fc ≠ 0 then none else some (.bcast ⟨flag m 0, flag m 1⟩)
  | 0x23 =>
    if m &&& 0x300 ≠ 0 then none else match tyOf (fld m 0 4), redOpOf (fld m 4 3) with
    | some t, some o => some (.redux ⟨t, o, flag m 7, false⟩)
    | _, _ => none
  | 0x24 =>
    if m &&& 0x200 ≠ 0 then none else match tyOf (fld m 0 4), redOpOf (fld m 4 3) with
    | some t, some o => some (.scan ⟨t, o, flag m 7, flag m 8⟩)
    | _, _ => none
  | 0x25 =>
    if m &&& 0x3f0 ≠ 0 then none else match matchKindOf (fld m 0 2) with
    | some k => some (.matchOp ⟨k, flag m 2, flag m 3⟩)
    | _ => none
  | 0x40 =>
    if m &&& 0x3e0 ≠ 0 then none else match tyOf (fld m 0 4) with
    | some t => some (.iadd ⟨t, flag m 4⟩)
    | _ => none
  | 0x41 =>
    if m &&& 0x3e0 ≠ 0 then none else match tyOf (fld m 0 4) with
    | some t => some (.isub ⟨t, flag m 4⟩)
    | _ => none
  | 0x42 =>
    if m &&& 0x3e0 ≠ 0 then none else match tyOf (fld m 0 4) with
    | some t => some (.imul ⟨t, flag m 4⟩)
    | _ => none
  | 0x43 =>
    if m &&& 0x3f0 ≠ 0 then none else match tyOf (fld m 0 4) with
    | some t => some (.imulh t)
    | _ => none
  | 0x44 =>
    if m &&& 0x3e0 ≠ 0 then none else match tyOf (fld m 0 4) with
    | some t => some (.imad ⟨t, flag m 4⟩)
    | _ => none
  | 0x45 =>
    if m &&& 0x3e0 ≠ 0 then none else match tyOf (fld m 0 4) with
    | some t => some (.imadw ⟨t, flag m 4⟩)
    | _ => none
  | 0x46 =>
    if m &&& 0x3e0 ≠ 0 then none else match tyOf (fld m 0 4) with
    | some t => some (.idiv ⟨t, flag m 4⟩)
    | _ => none
  | 0x47 =>
    if m &&& 0x3f0 ≠ 0 then none else match tyOf (fld m 0 4) with
    | some t => some (.irem t)
    | _ => none
  | 0x48 =>
    if m &&& 0x3f0 ≠ 0 then none else match tyOf (fld m 0 4) with
    | some t => some (.imin t)
    | _ => none
  | 0x49 =>
    if m &&& 0x3f0 ≠ 0 then none else match tyOf (fld m 0 4) with
    | some t => some (.imax t)
    | _ => none
  | 0x4a =>
    if m &&& 0x3e0 ≠ 0 then none else match tyOf (fld m 0 4) with
    | some t => some (.iabs ⟨t, flag m 4⟩)
    | _ => none
  | 0x4b =>
    if m &&& 0x3e0 ≠ 0 then none else match tyOf (fld m 0 4) with
    | some t => some (.ineg ⟨t, flag m 4⟩)
    | _ => none
  | 0x4c =>
    if m &&& 0x300 ≠ 0 then none else match tyOf (fld m 0 4), cmpOf (fld m 4 3) with
    | some t, some c => some (.iset ⟨t, c, flag m 7⟩)
    | _, _ => none
  | 0x4d =>
    if m &&& 0x3e0 ≠ 0 then none else match tyOf (fld m 0 4) with
    | some t => some (.sel ⟨t, flag m 4⟩)
    | _ => none
  | 0x4e =>
    if m &&& 0x200 ≠ 0 then none else match tyOf (fld m 0 4) with
    | some t => some (.lea ⟨t, BitVec.ofNat 5 (fld m 4 5)⟩)
    | _ => none
  | 0x4f =>
    if m &&& 0x380 ≠ 0 then none else match tyOf (fld m 0 4) with
    | some t => some (.dp4 ⟨t, flag m 4, flag m 5, flag m 6⟩)
    | _ => none
  | 0x50 =>
    if m &&& 0x3f0 ≠ 0 then none else match tyOf (fld m 0 4) with
    | some t => some (.and t)
    | _ => none
  | 0x51 =>
    if m &&& 0x3f0 ≠ 0 then none else match tyOf (fld m 0 4) with
    | some t => some (.or t)
    | _ => none
  | 0x52 =>
    if m &&& 0x3f0 ≠ 0 then none else match tyOf (fld m 0 4) with
    | some t => some (.xor t)
    | _ => none
  | 0x53 =>
    if m &&& 0x3f0 ≠ 0 then none else match tyOf (fld m 0 4) with
    | some t => some (.not t)
    | _ => none
  | 0x54 =>
    if m &&& 0x3f0 ≠ 0 then none else match tyOf (fld m 0 4) with
    | some t => some (.lop3 t)
    | _ => none
  | 0x55 =>
    if m &&& 0x3e0 ≠ 0 then none else match tyOf (fld m 0 4) with
    | some t => some (.shl ⟨t, flag m 4⟩)
    | _ => none
  | 0x56 =>
    if m &&& 0x3e0 ≠ 0 then none else match tyOf (fld m 0 4) with
    | some t => some (.shr ⟨t, flag m 4⟩)
    | _ => none
  | 0x57 =>
    if m &&& 0x3e0 ≠ 0 then none else match tyOf (fld m 0 4) with
    | some t => some (.sar ⟨t, flag m 4⟩)
    | _ => none
  | 0x58 =>
    if m &&& 0x3f0 ≠ 0 then none else match tyOf (fld m 0 4) with
    | some t => some (.rol t)
    | _ => none
  | 0x59 =>
    if m &&& 0x3f0 ≠ 0 then none else match tyOf (fld m 0 4) with
    | some t => some (.fshl t)
    | _ => none
  | 0x5a =>
    if m &&& 0x3f0 ≠ 0 then none else match tyOf (fld m 0 4) with
    | some t => some (.popc t)
    | _ => none
  | 0x5b =>
    if m &&& 0x3f0 ≠ 0 then none else match tyOf (fld m 0 4) with
    | some t => some (.clz t)
    | _ => none
  | 0x5c =>
    if m &&& 0x3f0 ≠ 0 then none else match tyOf (fld m 0 4) with
    | some t => some (.ctz t)
    | _ => none
  | 0x5d =>
    if m &&& 0x3f0 ≠ 0 then none else match tyOf (fld m 0 4) with
    | some t => some (.brev t)
    | _ => none
  | 0x5e =>
    if m &&& 0x3f0 ≠ 0 then none else match tyOf (fld m 0 4) with
    | some t => some (.bfx t)
    | _ => none
  | 0x5f =>
    if m &&& 0x3f0 ≠ 0 then none else match tyOf (fld m 0 4) with
    | some t => some (.bfi t)
    | _ => none
  | 0x60 =>
    if m &&& 0x3f0 ≠ 0 then none else match tyOf (fld m 0 4) with
    | some t => some (.mov t)
    | _ => none
  | 0x61 =>
    if long ∧ (m = 7 ∨ m = 23) then some (.movi (flag m 4)) else none
  | 0x62 =>
    if m = 6 then some .prmt else none
  | 0x100 =>
    if m &&& 0x200 ≠ 0 then none else match tyOf (fld m 0 4), rndOf (fld m 4 3) with
    | some t, some r => some (.fadd ⟨t, r, flag m 7, flag m 8⟩)
    | _, _ => none
  | 0x101 =>
    if m &&& 0x200 ≠ 0 then none else match tyOf (fld m 0 4), rndOf (fld m 4 3) with
    | some t, some r => some (.fsub ⟨t, r, flag m 7, flag m 8⟩)
    | _, _ => none
  | 0x102 =>
    if m &&& 0x200 ≠ 0 then none else match tyOf (fld m 0 4), rndOf (fld m 4 3) with
    | some t, some r => some (.fmul ⟨t, r, flag m 7, flag m 8⟩)
    | _, _ => none
  | 0x103 =>
    if m &&& 0x200 ≠ 0 then none else match tyOf (fld m 0 4), rndOf (fld m 4 3) with
    | some t, some r => some (.ffma ⟨t, r, flag m 7, flag m 8⟩)
    | _, _ => none
  | 0x104 =>
    if m &&& 0x370 ≠ 0 then none else match tyOf (fld m 0 4) with
    | some t => some (.fmin ⟨t, flag m 7⟩)
    | _ => none
  | 0x105 =>
    if m &&& 0x370 ≠ 0 then none else match tyOf (fld m 0 4) with
    | some t => some (.fmax ⟨t, flag m 7⟩)
    | _ => none
  | 0x106 =>
    if m &&& 0x3f0 ≠ 0 then none else match tyOf (fld m 0 4) with
    | some t => some (.fneg t)
    | _ => none
  | 0x107 =>
    if m &&& 0x3f0 ≠ 0 then none else match tyOf (fld m 0 4) with
    | some t => some (.fabs t)
    | _ => none
  | 0x108 =>
    if m &&& 0x2f0 ≠ 0 then none else match tyOf (fld m 0 4) with
    | some t => some (.fset ⟨t, flag m 8⟩)
    | _ => none
  | 0x109 =>
    if m &&& 0x200 ≠ 0 then none else match tyOf (fld m 0 4), rndOf (fld m 4 3) with
    | some t, some r => some (.frnd ⟨t, r, flag m 7, flag m 8⟩)
    | _, _ => none
  | 0x10a =>
    match tyOf (fld m 0 4) with
    | some t =>
      if fld m 4 3 ≠ 0 ∨ 512 ≤ m then none
      else if flag m 8 then (if long then none else some (.fclsOne ⟨t, flag m 7⟩))
      else some (.fcls ⟨t, flag m 7⟩)
    | none => none
  | 0x110 =>
    if m &&& 0x300 ≠ 0 then none else match tyOf (fld m 0 4), rndOf (fld m 4 3) with
    | some t, some r => some (.frcp ⟨t, r, flag m 7⟩)
    | _, _ => none
  | 0x111 =>
    if m &&& 0x370 ≠ 0 then none else match tyOf (fld m 0 4) with
    | some t => some (.frsq ⟨t, flag m 7⟩)
    | _ => none
  | 0x112 =>
    if m &&& 0x300 ≠ 0 then none else match tyOf (fld m 0 4), rndOf (fld m 4 3) with
    | some t, some r => some (.fsqrt ⟨t, r, flag m 7⟩)
    | _, _ => none
  | 0x113 =>
    if m &&& 0x300 ≠ 0 then none else match tyOf (fld m 0 4), rndOf (fld m 4 3) with
    | some t, some r => some (.fdiv ⟨t, r, flag m 7⟩)
    | _, _ => none
  | 0x114 =>
    if m &&& 0x370 ≠ 0 then none else match tyOf (fld m 0 4) with
    | some t => some (.fex2 ⟨t, flag m 7⟩)
    | _ => none
  | 0x115 =>
    if m &&& 0x370 ≠ 0 then none else match tyOf (fld m 0 4) with
    | some t => some (.flg2 ⟨t, flag m 7⟩)
    | _ => none
  | 0x116 =>
    if m &&& 0x370 ≠ 0 then none else match tyOf (fld m 0 4) with
    | some t => some (.fsin ⟨t, flag m 7⟩)
    | _ => none
  | 0x117 =>
    if m &&& 0x370 ≠ 0 then none else match tyOf (fld m 0 4) with
    | some t => some (.fcos ⟨t, flag m 7⟩)
    | _ => none
  | 0x118 =>
    if m &&& 0x370 ≠ 0 then none else match tyOf (fld m 0 4) with
    | some t => some (.ftnh ⟨t, flag m 7⟩)
    | _ => none
  | 0x120 =>
    match tyOf (fld m 0 4), tyOf (fld m 4 4), readingOf (fld m 8 2) with
    | some d, some t, some rd =>
      some (.cvt ⟨d, t, rd, (rndOf (fld c 0 3)).getD .rne, flag c 3, flag c 4⟩)
    | _, _, _ => none
  | 0x121 =>
    if m &&& 0x380 ≠ 0 then none else match rndOf (fld m 2 3), readingOf (fld m 5 2) with
    | some r, some rd => some (.qnt ⟨flag m 0, flag m 1, r, rd⟩)
    | _, _ => none
  | 0x122 =>
    if m &&& 0x380 ≠ 0 then none else match rndOf (fld m 2 3), readingOf (fld m 5 2) with
    | some r, some rd => some (.dqnt ⟨flag m 0, flag m 1, r, rd⟩)
    | _, _ => none
  | 0x180 =>
    if m &&& 0x3fe ≠ 0 then none else some (.hmov (flag m 0))
  | 0x181 =>
    if m = 0 then some .unison else if m = 1 then some .unisonB else none
  | 0x182 =>
    if m &&& 0x3fe ≠ 0 then none else some (.hpeek (flag m 0))
  | 0x183 =>
    if m &&& 0x3fc ≠ 0 then none else match dropOf (fld m 0 2) with
    | some d => some (.hdrop d)
    | _ => none
  | 0x1c0 =>
    match spaceOf (fld m 0 2), widthOf (fld m 2 3), cacheOf (fld m 6 2), ldOrderOf (fld m 8 2) with
    | some sp, some w, some c, some o => some (.ld ⟨sp, w, flag m 5, c, o⟩)
    | _, _, _, _ => none
  | 0x1c1 =>
    if m &&& 0x20 ≠ 0 then none else match spaceOf (fld m 0 2), widthOf (fld m 2 3), cacheOf (fld m 6 2), stOrderOf (fld m 8 2) with
    | some sp, some w, some c, some o => some (.st ⟨sp, w, c, o⟩)
    | _, _, _, _ => none
  | 0x1c2 =>
    if m &&& 0x3f0 ≠ 0 then none else match widthOf (fld m 0 3) with
    | some w => some (.ldc ⟨w, flag m 3⟩)
    | _ => none
  | 0x1c3 =>
    match widthOf (fld m 0 3), cacheOf (fld m 4 2) with
    | some w, some c => some (.ldnr ⟨w, flag m 3, c, flag m 6, BitVec.ofNat 3 (fld m 7 3)⟩)
    | _, _ => none
  | 0x1c4 =>
    if m &&& 0x3f0 ≠ 0 then none else match widthOf (fld m 0 3) with
    | some w => some (.lds ⟨w, flag m 3⟩)
    | _ => none
  | 0x1c5 =>
    if m &&& 0x3f8 ≠ 0 then none else match widthOf (fld m 0 3) with
    | some w => some (.sts w)
    | _ => none
  | 0x1c6 =>
    if m &&& 0x3fc ≠ 0 then none else match prefOf (fld m 0 2) with
    | some t => some (.pref t)
    | _ => none
  | 0x1c7 =>
    if m &&& 0x3f8 ≠ 0 then none else match cctlOf (fld m 0 3) with
    | some o => some (.cctl o)
    | _ => none
  | 0x1d0 =>
    match tyOf (fld m 0 4), atomOpOf (fld m 4 3), atomOrderOf (fld m 7 3) with
    | some t, some o, some r => some (.atom ⟨t, o, r⟩)
    | _, _, _ => none
  | 0x1d1 =>
    if m &&& 0x300 ≠ 0 then none else match tyOf (fld m 0 4), redOpOf (fld m 4 3) with
    | some t, some o => some (.red ⟨t, o, flag m 7⟩)
    | _, _ => none
  | 0x1d2 =>
    if m &&& 0x300 ≠ 0 then none else match tyOf (fld m 0 4), atomOpOf (fld m 4 3) with
    | some t, some o => some (.atoms ⟨t, o, flag m 7⟩)
    | _, _ => none
  | 0x1d3 =>
    if m &&& 0x3e0 ≠ 0 then none else match fenceOf (fld m 0 2), scopeOf (fld m 2 3) with
    | some k, some sc => some (.fence ⟨k, sc⟩)
    | _, _ => none
  | 0x1d4 =>
    if m &&& 0x3fc ≠ 0 then none else match pfenceOf (fld m 0 2) with
    | some p => some (.pfence p)
    | _ => none
  | 0x1e0 =>
    if m &&& 0x3f8 ≠ 0 then none else match scopeOf (fld m 0 3) with
    | some sc => some (.lock sc)
    | _ => none
  | 0x1e1 =>
    if m &&& 0x3f8 ≠ 0 then none else match scopeOf (fld m 0 3) with
    | some sc => some (.trylock sc)
    | _ => none
  | 0x1e2 =>
    if m &&& 0x3f8 ≠ 0 then none else match scopeOf (fld m 0 3) with
    | some sc => some (.unlock sc)
    | _ => none
  | 0x1e3 =>
    if m &&& 0x3ff ≠ 0 then none else some .lkqry
  | 0x1f0 =>
    if m &&& 0x3fe ≠ 0 then none else some (.objnew (flag m 0))
  | 0x1f1 =>
    if m &&& 0x3fe ≠ 0 then none else some (.stref (flag m 0))
  | 0x1f2 =>
    if m &&& 0x3f8 ≠ 0 then none else match scopeOf (fld m 0 3) with
    | some sc => some (.publish sc)
    | _ => none
  | 0x1f3 =>
    if m &&& 0x3fe ≠ 0 then none else some (.tagrd (flag m 0))
  | 0x200 =>
    if m &&& 0x3fe ≠ 0 then none else some (.pagereq (flag m 0))
  | 0x240 =>
    match m with
    | 0 => some .barSync
    | 1 => some .barArr
    | 2 => some .barWait
    | 3 => some .barExp
    | _ => none
  | 0x241 =>
    match m with
    | 0 => some .cbarSync
    | 1 => some .cbarArr
    | 2 => some .cbarWait
    | _ => none
  | 0x242 =>
    if 512 ≤ m then none
    else if flag m 8 then (if m = 256 ∧ ¬ long then some .qinitOff else none)
    else some (.qinit (BitVec.ofNat 8 m))
  | 0x243 =>
    if m &&& 0x3ff ≠ 0 then none else some .qpush
  | 0x244 =>
    if m &&& 0x3ff ≠ 0 then none else some .qpop
  | 0x245 =>
    if 16 ≤ m then none
    else if flag m 0 then some (.qtryPush (BitVec.ofNat 3 (fld m 1 3)))
    else if long then none else some (.qtryPop (BitVec.ofNat 3 (fld m 1 3)))
  | 0x246 =>
    if m &&& 0x3f8 ≠ 0 then none else match engineOf (fld m 0 3) with
    | some e => some (.waitc e)
    | _ => none
  | 0x247 =>
    (copyModOf m).map .bcopy
  | 0x248 =>
    (copyModOf m).map .bcopy2
  | 0x249 =>
    (copyModOf m).map .bgath
  | 0x24a =>
    if m &&& 0x3fc ≠ 0 then none else match postOf (fld m 0 2) with
    | some t => some (.post t)
    | _ => none
  | 0x280 =>
    if flag m 1 then
      (match gsizeOf (fld m 6 2), readingOf (fld m 8 2) with
       | some gs, some rd => some (.hplaneRaw ⟨flag m 0, BitVec.ofNat 4 (fld m 2 4), gs, rd⟩)
       | _, _ => none)
    else if 2 ≤ m then none else some (.hplaneWin (flag m 0))
  | 0x281 =>
    if m &&& 0x3c0 ≠ 0 then none else match alignFmtOf (fld m 0 2), gsizeOf (fld m 2 2), readingOf (fld m 4 2) with
    | some f, some gs, some rd => some (.halign ⟨f, gs, rd⟩)
    | _, _, _ => none
  | 0x282 =>
    if m &&& 0x3c0 ≠ 0 then none else match aKindOf (fld m 1 2), readingOf (fld m 3 2) with
    | some k, some rd => some (.hmma ⟨flag m 0, k, rd, flag m 5⟩)
    | _, _ => none
  | 0x283 =>
    if m &&& 0x3ff ≠ 0 then none else some .haccld
  | 0x284 =>
    if m &&& 0x200 ≠ 0 then none else match accFmtOf (fld m 0 3), rndOf (fld m 4 3), readingOf (fld m 7 2) with
    | some f, some r, some rd => some (.haccst ⟨f, flag m 3, r, rd⟩)
    | _, _, _ => none
  | 0x285 =>
    if m &&& 0x3ff ≠ 0 then none else some .hzero
  | 0x286 =>
    if m = 0 then some .htest else if m = 1 then some .htestFlags else none
  | 0x2c0 =>
    match colKindOf (fld m 0 3), redOpOf (fld m 3 3), tyOf (fld m 6 4) with
    | some .barrier, some o, _ => if m = 4 then some (.consort ⟨.barrier, o, none⟩) else none
    | some k, some o, some t => some (.consort ⟨k, o, some t⟩)
    | _, _, _ => none
  | 0x2c1 =>
    if m &&& 0x3ff ≠ 0 then none else some .cnsqry
  | 0x2e0 =>
    some (.rdsr (BitVec.ofNat 10 m))
  | 0x2e1 =>
    some (.wrsr (BitVec.ofNat 10 m))
  | _ => none

/-- Assigned opcodes (R37). -/
def opcAssigned (opc : Nat) : Bool :=
  [0x0, 0x1, 0x2, 0x3, 0x4, 0x5, 0x6, 0x7, 0x8, 0x9, 0xa, 0xb, 0xc, 0x10, 0x11, 0x12, 0x13, 0x20, 0x21, 0x22, 0x23, 0x24, 0x25, 0x40, 0x41, 0x42, 0x43, 0x44, 0x45, 0x46, 0x47, 0x48, 0x49, 0x4a, 0x4b, 0x4c, 0x4d, 0x4e, 0x4f, 0x50, 0x51, 0x52, 0x53, 0x54, 0x55, 0x56, 0x57, 0x58, 0x59, 0x5a, 0x5b, 0x5c, 0x5d, 0x5e, 0x5f, 0x60, 0x61, 0x62, 0x100, 0x101, 0x102, 0x103, 0x104, 0x105, 0x106, 0x107, 0x108, 0x109, 0x10a, 0x110, 0x111, 0x112, 0x113, 0x114, 0x115, 0x116, 0x117, 0x118, 0x120, 0x121, 0x122, 0x180, 0x181, 0x182, 0x183, 0x1c0, 0x1c1, 0x1c2, 0x1c3, 0x1c4, 0x1c5, 0x1c6, 0x1c7, 0x1d0, 0x1d1, 0x1d2, 0x1d3, 0x1d4, 0x1e0, 0x1e1, 0x1e2, 0x1e3, 0x1f0, 0x1f1, 0x1f2, 0x1f3, 0x200, 0x240, 0x241, 0x242, 0x243, 0x244, 0x245, 0x246, 0x247, 0x248, 0x249, 0x24a, 0x280, 0x281, 0x282, 0x283, 0x284, 0x285, 0x286, 0x2c0, 0x2c1, 0x2e0, 0x2e1].contains opc

/-- The opcode of an instruction (R37); events have none. -/
def opcOf : Instr → Option Nat
  | .nop _ => some 0x0
  | .bra _ _ => some 0x1
  | .brx _ _ => some 0x2
  | .call _ => some 0x3
  | .callx _ => some 0x4
  | .ret _ => some 0x5
  | .exit _ => some 0x6
  | .yield _ => some 0x7
  | .trap _ => some 0x8
  | .brz _ => some 0x9
  | .mset _ => some 0xa
  | .msave _ => some 0xb
  | .mrest _ => some 0xc
  | .pset _ _ => some 0x10
  | .fpset _ _ => some 0x11
  | .plop _ _ => some 0x12
  | .pmov _ _ | .pmovPack _ | .pmovUnpack _ => some 0x13
  | .vote _ _ => some 0x20
  | .shfl _ _ => some 0x21
  | .bcast _ _ => some 0x22
  | .redux _ _ => some 0x23
  | .scan _ _ => some 0x24
  | .matchOp _ _ => some 0x25
  | .iadd _ _ => some 0x40
  | .isub _ _ => some 0x41
  | .imul _ _ => some 0x42
  | .imulh _ _ => some 0x43
  | .imad _ _ => some 0x44
  | .imadw _ _ => some 0x45
  | .idiv _ _ => some 0x46
  | .irem _ _ => some 0x47
  | .imin _ _ => some 0x48
  | .imax _ _ => some 0x49
  | .iabs _ _ => some 0x4a
  | .ineg _ _ => some 0x4b
  | .iset _ _ => some 0x4c
  | .sel _ _ => some 0x4d
  | .lea _ _ => some 0x4e
  | .dp4 _ _ => some 0x4f
  | .and _ _ => some 0x50
  | .or _ _ => some 0x51
  | .xor _ _ => some 0x52
  | .not _ _ => some 0x53
  | .lop3 _ _ => some 0x54
  | .shl _ _ => some 0x55
  | .shr _ _ => some 0x56
  | .sar _ _ => some 0x57
  | .rol _ _ => some 0x58
  | .fshl _ _ => some 0x59
  | .popc _ _ => some 0x5a
  | .clz _ _ => some 0x5b
  | .ctz _ _ => some 0x5c
  | .brev _ _ => some 0x5d
  | .bfx _ _ => some 0x5e
  | .bfi _ _ => some 0x5f
  | .mov _ _ => some 0x60
  | .movi _ _ => some 0x61
  | .prmt _ => some 0x62
  | .fadd _ _ => some 0x100
  | .fsub _ _ => some 0x101
  | .fmul _ _ => some 0x102
  | .ffma _ _ => some 0x103
  | .fmin _ _ => some 0x104
  | .fmax _ _ => some 0x105
  | .fneg _ _ => some 0x106
  | .fabs _ _ => some 0x107
  | .fset _ _ => some 0x108
  | .frnd _ _ => some 0x109
  | .fcls _ _ | .fclsOne _ _ => some 0x10a
  | .frcp _ _ => some 0x110
  | .frsq _ _ => some 0x111
  | .fsqrt _ _ => some 0x112
  | .fdiv _ _ => some 0x113
  | .fex2 _ _ => some 0x114
  | .flg2 _ _ => some 0x115
  | .fsin _ _ => some 0x116
  | .fcos _ _ => some 0x117
  | .ftnh _ _ => some 0x118
  | .cvt _ _ => some 0x120
  | .qnt _ _ => some 0x121
  | .dqnt _ _ => some 0x122
  | .hmov _ _ => some 0x180
  | .unison _ | .unisonB _ => some 0x181
  | .hpeek _ _ => some 0x182
  | .hdrop _ _ => some 0x183
  | .ld _ _ => some 0x1c0
  | .st _ _ => some 0x1c1
  | .ldc _ _ => some 0x1c2
  | .ldnr _ _ => some 0x1c3
  | .lds _ _ => some 0x1c4
  | .sts _ _ => some 0x1c5
  | .pref _ _ => some 0x1c6
  | .cctl _ _ => some 0x1c7
  | .atom _ _ => some 0x1d0
  | .red _ _ => some 0x1d1
  | .atoms _ _ => some 0x1d2
  | .fence _ _ => some 0x1d3
  | .pfence _ _ => some 0x1d4
  | .lock _ _ => some 0x1e0
  | .trylock _ _ => some 0x1e1
  | .unlock _ _ => some 0x1e2
  | .lkqry _ => some 0x1e3
  | .objnew _ _ => some 0x1f0
  | .stref _ _ => some 0x1f1
  | .publish _ _ => some 0x1f2
  | .tagrd _ _ => some 0x1f3
  | .pagereq _ _ => some 0x200
  | .barSync _ | .barArr _ | .barWait _ | .barExp _ => some 0x240
  | .cbarSync _ | .cbarArr _ | .cbarWait _ => some 0x241
  | .qinit _ _ | .qinitOff _ => some 0x242
  | .qpush _ => some 0x243
  | .qpop _ => some 0x244
  | .qtryPop _ _ | .qtryPush _ _ => some 0x245
  | .waitc _ _ => some 0x246
  | .bcopy _ _ => some 0x247
  | .bcopy2 _ _ => some 0x248
  | .bgath _ _ => some 0x249
  | .post _ _ => some 0x24a
  | .hplaneWin _ _ | .hplaneRaw _ _ => some 0x280
  | .halign _ _ => some 0x281
  | .hmma _ _ => some 0x282
  | .haccld _ => some 0x283
  | .haccst _ _ => some 0x284
  | .hzero _ => some 0x285
  | .htest _ | .htestFlags _ => some 0x286
  | .consort _ _ => some 0x2c0
  | .cnsqry _ => some 0x2c1
  | .rdsr _ _ => some 0x2e0
  | .wrsr _ _ => some 0x2e1
  | _ => none

/-- The modifier bits of an instruction, LONG apart (each chapter's MOD assignment). -/
def modBits : Instr → Nat
  | .bra j _ => bit1 j 0
  | .brx j _ => bit1 j 0
  | .pset m _ => tyCode m.ty + 16 * cmpCode m.cmp
  | .fpset m _ => tyCode m.ty + 16 * fcmpCode m.cmp + bit1 m.u 7 + bit1 m.ftz 8
  | .plop l _ => l.toNat
  | .pmov n _ => bit1 n 2
  | .vote m _ => bit1 m.neg 2 + (match m.kind with | .ballot => 0 | .count => 1 | .lead => 2 | .some => 0 | .every => 8 | .same => 16)
  | .shfl m _ => bit1 m.wrap 0 + bit1 m.vp 1 + bit1 m.w64 2
  | .bcast m _ => bit1 m.first 0 + bit1 m.w64 1
  | .redux m _ => tyCode m.ty + 16 * redOpCode m.op + bit1 m.ftz 7
  | .scan m _ => tyCode m.ty + 16 * redOpCode m.op + bit1 m.ftz 7 + bit1 m.excl 8
  | .matchOp m _ => matchKindCode m.kind + bit1 m.w64 2 + bit1 m.pp 3
  | .iset m _ => tyCode m.ty + 16 * cmpCode m.cmp + bit1 m.mask 7
  | .sel m _ => tyCode m.ty + bit1 m.inv 4
  | .lea m _ => tyCode m.ty + 16 * m.sh.toNat
  | .dp4 m _ => tyCode m.ty + bit1 m.sat 4 + bit1 m.sb 5 + bit1 m.sc 6
  | .movi h _ => 7 + bit1 h 4
  | .fset m _ => tyCode m.ty + bit1 m.inv 8
  | .frnd m _ => tyCode m.ty + 16 * rndCode m.rnd + bit1 m.ftz 7 + bit1 m.exact 8
  | .fcls m _ => tyCode m.ty + bit1 m.ftz 7
  | .fclsOne m _ => tyCode m.ty + bit1 m.ftz 7 + 256
  | .cvt m _ => tyCode m.dst + 16 * tyCode m.src + 256 * readingCode m.rd
  | .qnt m _ => bit1 m.sgn 0 + bit1 m.nib 1 + 4 * rndCode m.rnd + 32 * readingCode m.rd
  | .dqnt m _ => bit1 m.sgn 0 + bit1 m.nib 1 + 4 * rndCode m.rnd + 32 * readingCode m.rd
  | .hmov c _ => bit1 c 0
  | .hpeek a _ => bit1 a 0
  | .hdrop m _ => dropCode m
  | .ld m _ => spaceCode m.space + 4 * widthCode m.width + bit1 m.sx 5 + 64 * cacheCode m.cache + 256 * ldOrderCode m.order
  | .st m _ => spaceCode m.space + 4 * widthCode m.width + 64 * cacheCode m.cache + 256 * stOrderCode m.order
  | .ldc m _ => widthCode m.width + bit1 m.sx 3
  | .lds m _ => widthCode m.width + bit1 m.sx 3
  | .ldnr m _ => widthCode m.width + bit1 m.sx 3 + 16 * cacheCode m.cache + bit1 m.ro 6 + 128 * m.p.toNat
  | .sts w _ => widthCode w
  | .pref t _ => prefCode t
  | .cctl o _ => cctlCode o
  | .atom m _ => tyCode m.ty + 16 * atomOpCode m.op + 128 * atomOrderCode m.order
  | .red m _ => tyCode m.ty + 16 * redOpCode m.op + bit1 m.rel 7
  | .atoms m _ => tyCode m.ty + 16 * atomOpCode m.op + bit1 m.noret 7
  | .fence m _ => fenceCode m.kind + 4 * scopeCode m.scope
  | .pfence p _ => pfenceCode p
  | .lock s _ => scopeCode s
  | .trylock s _ => scopeCode s
  | .unlock s _ => scopeCode s
  | .publish s _ => scopeCode s
  | .objnew z _ => bit1 z 0
  | .stref r _ => bit1 r 0
  | .tagrd l _ => bit1 l 0
  | .pagereq w _ => bit1 w 0
  | .qinit d _ => d.toNat
  | .qtryPop p _ => 2 * p.toNat
  | .qtryPush p _ => 1 + 2 * p.toNat
  | .waitc e _ => engineCode e
  | .bcopy m _ => copyBits m
  | .bcopy2 m _ => copyBits m
  | .bgath m _ => copyBits m
  | .post t _ => postCode t
  | .hplaneWin s _ => bit1 s 0
  | .hplaneRaw m _ => bit1 m.slot 0 + 2 + 4 * m.pm1.toNat + 64 * gsizeCode m.gsel + 256 * readingCode m.rd
  | .halign m _ => alignFmtCode m.fmt + 4 * gsizeCode m.gsel + 16 * readingCode m.rd
  | .hmma m _ => bit1 m.slot 0 + 2 * aKindCode m.kind + 8 * readingCode m.rd + bit1 m.fresh 5
  | .haccst m _ => accFmtCode m.fmt + bit1 m.clr 3 + 16 * rndCode m.rnd + 128 * readingCode m.rd
  | .consort m _ => colKindCode m.kind + 8 * redOpCode m.rop + 64 * (match m.ty with | some t => tyCode t | none => 0)
  | .rdsr n _ => n.toNat
  | .wrsr n _ => n.toNat
  | .iadd m _ => tyCode m.ty + bit1 m.sat 4
  | .isub m _ => tyCode m.ty + bit1 m.sat 4
  | .imul m _ => tyCode m.ty + bit1 m.sat 4
  | .imad m _ => tyCode m.ty + bit1 m.sat 4
  | .imadw m _ => tyCode m.ty + bit1 m.sat 4
  | .idiv m _ => tyCode m.ty + bit1 m.sat 4
  | .iabs m _ => tyCode m.ty + bit1 m.sat 4
  | .ineg m _ => tyCode m.ty + bit1 m.sat 4
  | .shl m _ => tyCode m.ty + bit1 m.wrap 4
  | .shr m _ => tyCode m.ty + bit1 m.wrap 4
  | .sar m _ => tyCode m.ty + bit1 m.wrap 4
  | .imulh t _ => tyCode t
  | .irem t _ => tyCode t
  | .imin t _ => tyCode t
  | .imax t _ => tyCode t
  | .and t _ => tyCode t
  | .or t _ => tyCode t
  | .xor t _ => tyCode t
  | .not t _ => tyCode t
  | .lop3 t _ => tyCode t
  | .rol t _ => tyCode t
  | .fshl t _ => tyCode t
  | .popc t _ => tyCode t
  | .clz t _ => tyCode t
  | .ctz t _ => tyCode t
  | .brev t _ => tyCode t
  | .bfx t _ => tyCode t
  | .bfi t _ => tyCode t
  | .mov t _ => tyCode t
  | .fneg t _ => tyCode t
  | .fabs t _ => tyCode t
  | .fadd m _ => tyCode m.ty + 16 * rndCode m.rnd + bit1 m.ftz 7 + bit1 m.sat 8
  | .fsub m _ => tyCode m.ty + 16 * rndCode m.rnd + bit1 m.ftz 7 + bit1 m.sat 8
  | .fmul m _ => tyCode m.ty + 16 * rndCode m.rnd + bit1 m.ftz 7 + bit1 m.sat 8
  | .ffma m _ => tyCode m.ty + 16 * rndCode m.rnd + bit1 m.ftz 7 + bit1 m.sat 8
  | .fmin m _ => tyCode m.ty + bit1 m.ftz 7
  | .fmax m _ => tyCode m.ty + bit1 m.ftz 7
  | .frsq m _ => tyCode m.ty + bit1 m.ftz 7
  | .fex2 m _ => tyCode m.ty + bit1 m.ftz 7
  | .flg2 m _ => tyCode m.ty + bit1 m.ftz 7
  | .fsin m _ => tyCode m.ty + bit1 m.ftz 7
  | .fcos m _ => tyCode m.ty + bit1 m.ftz 7
  | .ftnh m _ => tyCode m.ty + bit1 m.ftz 7
  | .frcp m _ => tyCode m.ty + 16 * rndCode m.rnd + bit1 m.ftz 7
  | .fsqrt m _ => tyCode m.ty + 16 * rndCode m.rnd + bit1 m.ftz 7
  | .fdiv m _ => tyCode m.ty + 16 * rndCode m.rnd + bit1 m.ftz 7
  | .pmovPack _ => 1
  | .pmovUnpack _ => 2
  | .prmt _ => 6
  | .unisonB _ => 1
  | .barArr _ => 1
  | .barWait _ => 2
  | .barExp _ => 3
  | .cbarArr _ => 1
  | .cbarWait _ => 2
  | .qinitOff _ => 256
  | .htestFlags _ => 1
  | _ => 0

/-! ### Operand fields -/

/-- The 12-bit field of an operand (R18). -/
def opndField : Opnd → Nat
  | .unused => 0
  | .v r => r.toNat
  | .s r => 512 + r.toNat
  | .h k t => 1024 + k.toNat + 32 * rankCode t
  | .p r => 1536 + r.toNat
  | .imm n => 2048 + n.toNat
  | .imm29 n => 2560 + n.toNat % 512
  | .imm32 n => n.toNat % 4096
  | .const k _ => 3072 + k.toNat
  | .spec x => 3584 + specialCode x

/-- What an operand writes into X (R21, R23). -/
def opndX : Opnd → Nat
  | .imm29 n => n.toNat / 512
  | .imm32 n => n.toNat / 4096
  | .const _ off => off.toNat
  | _ => 0

/-- The operand of the field `f`, with X beside it (R18, R21, R23); none where index bits that the class does not use are
set. A field that its shape leaves out must be zero (R19). -/
def opndOf (p : Pos) (ldc : Bool) (f x : Nat) : Option Opnd :=
  if p.allow = 0 then (if f = 0 then some .unused else none)
  else
    let i := f % 512
    match f / 512 with
    | 0 => if i < 256 then some (.v (BitVec.ofNat 8 i)) else none
    | 1 => if i < 128 then some (.s (BitVec.ofNat 7 i)) else none
    | 2 =>
      if i < 128 then
        (match rankOf (i / 32) with
         | some t => some (.h (BitVec.ofNat 5 i) t)
         | none => none)
      else none
    | 3 => if i < 8 then some (.p (BitVec.ofNat 3 i)) else none
    | 4 => some (.imm (BitVec.ofNat 9 i))
    | 5 => some (.imm29 (BitVec.ofNat 29 (x * 512 + i)))
    | 6 =>
      if ldc then (if i < 16 then some (.const (BitVec.ofNat 4 i) 0) else none)
      else if i < 16 ∧ x < 65536 then some (.const (BitVec.ofNat 4 i) (BitVec.ofNat 16 x)) else none
    | _ => (specialOf i).map .spec

/-- The contents of X (R22, R143), `claimed` where an operand holds them. -/
def xOf (sh : Shape) (claimed : Bool) (x : Nat) : Option XField :=
  match sh.x with
  | .none => if claimed ∨ x = 0 then some .none else none
  | .disp => some (.disp (BitVec.ofNat 20 x))
  | .opnd p => if claimed ∨ 4096 ≤ x then none else (opndOf p false x 0).map .opnd
  | .lut p => if claimed then none else (opndOf p false (x % 4096) 0).map (.lut · (BitVec.ofNat 8 (x / 4096)))
  | .mem _ | .ldc =>
    some (.mem (BitVec.ofNat 14 x) (BitVec.ofNat 3 (fld x 14 3)) (BitVec.ofNat 3 (fld x 17 3)))

/-- The bits of X (R17, R22). -/
def xBits (i : Insn) : Nat :=
  match i.x with
  | .none => opndX i.b + opndX i.c
  | .disp d => d.toNat
  | .opnd o => opndField o
  | .lut o t => opndField o + 4096 * t.toNat
  | .mem off sh sc => off.toNat + 16384 * sh.toNat + 131072 * sc.toNat

def hintsOf (h : Nat) : Hints :=
  ⟨BitVec.ofNat 7 h, BitVec.ofNat 3 (fld h 7 3), BitVec.ofNat 5 (fld h 10 5), flag h 15⟩

def hintBits (h : Hints) : Nat := h.wait.toNat + 128 * h.set.toNat + 1024 * h.stall.toNat + bit1 h.yield 15

def guardOf (g : Nat) : Guard := ⟨BitVec.ofNat 3 g, flag g 3⟩

def guardBits (g : Guard) : Nat := g.p.toNat + bit1 g.neg 3

/-- The scope field of X is a listed code where one is used (R29, R143, R328, R364): else ILLEGAL_MODIFIER. -/
def scopeModOk (sh : Shape) (x : Nat) : Bool :=
  match sh.x, sh.scope with
  | .mem _, .range lo hi => lo ≤ fld x 17 3 && fld x 17 3 ≤ hi
  | .mem _, .zeroMod => fld x 17 3 == 0
  | _, _ => true

/-- The stream accepts the opcode and modifier bits at all (R38): a predicate of the bits, since R39 checks it before the
modifier. -/
def contextOk (env : Env) (opc m : Nat) : Bool :=
  if [0x00A, 0x00B, 0x00C, 0x020, 0x021, 0x022, 0x023, 0x024, 0x025].contains opc then !env.bow
  else if 0x280 ≤ opc ∧ opc ≤ 0x286 then env.bow && env.harp
  else if opc = 0x180 then env.bow || !flag m 0
  else if opc = 0x181 then flag m 0 == env.bow
  else if opc = 0x183 then !env.bow || fld m 0 2 == 2 || fld m 0 2 == 3
  else true

/-! ### Words -/

/-- The operands that the fields of a word give under a shape. -/
def insnFrom (sh : Shape) (long sel cvt : Bool) (m9 a b c x g h : Nat) : Option Insn :=
  let ldc := sh.x == .ldc
  match opndOf sh.a false a 0, opndOf sh.b ldc b x,
    (if long then some (.imm32 (BitVec.ofNat 32 (x * 4096 + c))) else if cvt then some .unused
     else opndOf sh.c false c x) with
  | some oa, some ob, some oc =>
    let claimed := (claimsX ob && !ldc) || claimsX oc
    let ox := if sel && long then some (.opnd (.p (BitVec.ofNat 3 (fld m9 5 3)))) else xOf sh claimed x
    match ox with
    | some ox => some ⟨oa, ob, oc, ox, guardOf g, hintsOf h⟩
    | none => none
  | _, _, _ => none

/-- The instruction that the word `w` encodes in the stream `env`, or why it encodes none (R39, R40). -/
def decodeNat (env : Env) (w : Nat) : Except Illegal Instr :=
  let opc := fld w 0 10
  let m9 := fld w 10 10
  let a := fld w 20 12
  let b := fld w 32 12
  let c := fld w 44 12
  let x := fld w 56 20
  let long := longOpc opc && flag m9 9
  let m := if long then (if opc = 0x4D then m9 % 32 + 256 * fld m9 8 1 else m9 % 512) else m9
  if !opcAssigned opc then .error .opcode
  else if !contextOk env opc m then .error .context
  else match headOf opc m long (a / 512 == 3) c with
    | none => .error .modifier
    | some mk =>
      -- MREST's shape is that of its C (R79)
      let ins0 := mk ⟨.unused, .unused, if c / 512 = 5 then .imm29 0 else .unused, .none, ⟨7, false⟩, ⟨0, 0, 0, false⟩⟩
      let sh := shapeOf long env ins0
      if !modOk ins0 || !scopeModOk sh x then .error .modifier
      else if opc = 0x120 ∧ ¬ (c / 512 = 4 ∧ fld c 0 3 < 5 ∧ fld c 5 4 = 0) then .error .operand
      else match insnFrom sh long (opc == 0x4D) (opc == 0x120) m9 a b c x (fld w 76 4) (fld w 80 16) with
        | none => .error .operand
        | some i =>
          let ins := mk i
          if !operandsOk env ins i || !(match ins with | .cvt m _ => cvtCtlOk m | _ => true) then .error .operand
          else if !hintOk env ins i then .error .hint
          else .ok ins

/-- The instruction of a 96-bit word. -/
def decode (env : Env) (w : W96) : Except Illegal Instr := decodeNat env w.toNat

/-- The C field: CVT's carries its controls (R137). -/
def cField (ins : Instr) (i : Insn) : Nat :=
  match ins with
  | .cvt m _ => 2048 + rndCode m.rnd + bit1 m.ftz 3 + bit1 m.sat 4
  | _ => opndField i.c

/-- MOD with LONG, and SEL's predicate beside a LONG immediate (R122). -/
def modField (ins : Instr) (i : Insn) : Nat :=
  match i.c with
  | .imm32 _ =>
    modBits ins + 512 +
    (match ins, i.x with | .sel _ _, .opnd (.p k) => 32 * k.toNat | _, _ => 0)
  | _ => modBits ins

/-- X; the SEL of a LONG immediate has it in the immediate (R122). -/
def xField (ins : Instr) (i : Insn) : Nat :=
  match ins, i.c with
  | .sel _ _, .imm32 n => n.toNat / 4096
  | _, _ => xBits i

/-- The word of an instruction as a number, none for an event (R17). -/
def encodeNat (ins : Instr) : Option Nat :=
  match opcOf ins, insnOf ins with
  | some opc, some i =>
    some (opc + 2 ^ 10 * modField ins i + 2 ^ 20 * opndField i.a + 2 ^ 32 * opndField i.b + 2 ^ 44 * cField ins i +
      2 ^ 56 * xField ins i + 2 ^ 76 * guardBits i.g + 2 ^ 80 * hintBits i.h)
  | _, _ => none

/-- The word of an instruction (R17); the word of an event is 0. -/
def encode (ins : Instr) : W96 := BitVec.ofNat 96 ((encodeNat ins).getD 0)

/-! ### Bytes -/

/-- The number that little-endian bytes spell (R11). -/
def leNat : List Byte → Nat
  | [] => 0
  | b :: l => b.toNat + 256 * leNat l

/-- The `n` little-endian bytes of a number (R11). -/
def leBytes : Nat → Nat → List Byte
  | 0, _ => []
  | k + 1, n => BitVec.ofNat 8 n :: leBytes k (n / 256)

/-- The widest limits that a header may declare (R43). -/
def envMax (bow : Bool) : Env := ⟨bow, 256, 32, 64, 16, true, true⟩

/-- The instruction of an opcode-table row's bits: the word, its bits above `nbits` zero, laid out as 12 little-endian
bytes and read by the decoder; the group stream's reading where it has one, else the bow stream's (R37). -/
def decodeTableWord (nbits w : Nat) : Option Instr :=
  let bytes := leBytes 12 (w % 2 ^ nbits)
  match decodeNat (envMax false) (leNat bytes) with
  | .ok i => some i
  | .error _ =>
    match decodeNat (envMax true) (leNat bytes) with
    | .ok i => some i
    | .error _ => none

end Sys2Proof
end

