-- ==== Sys2Proof/Machine/AMap.lean ====
section
/-!
DEFINITION. Finite maps from natural numbers as lists of pairs with strictly rising keys: the one form in which the state
holds registers, bytes and tables. A map with a default value lists no entry equal to that value, so that equal maps are
equal lists.
-/
namespace Sys2Proof.Machine

/-- A finite map from keys to values, keys strictly rising. -/
abbrev AMap (α : Type) := List (Nat × α)

/-- The value listed at `k`. -/
def AMap.get? {α : Type} : AMap α → Nat → Option α
  | [], _ => none
  | (j, v) :: m, k => if j = k then some v else AMap.get? m k

/-- The value at `k`, `d` where none is listed. -/
def AMap.getD {α : Type} (m : AMap α) (k : Nat) (d : α) : α := (m.get? k).getD d

/-- `m` without an entry at `k`. -/
def AMap.erase {α : Type} : AMap α → Nat → AMap α
  | [], _ => []
  | (j, v) :: m, k => if j = k then AMap.erase m k else (j, v) :: AMap.erase m k

/-- `m` with `v` at `k`. -/
def AMap.insert {α : Type} : AMap α → Nat → α → AMap α
  | [], k, v => [(k, v)]
  | (j, u) :: m, k, v =>
    if k < j then (k, v) :: (j, u) :: m
    else if k = j then (k, v) :: m
    else (j, u) :: AMap.insert m k v

/-- `m`, whose default is `d`, with `v` at `k`: writing the default removes the entry. -/
def AMap.put {α : Type} [DecidableEq α] (m : AMap α) (k : Nat) (v d : α) : AMap α :=
  if v = d then m.erase k else m.insert k v

/-- Every key of the map is above `k`. -/
def AMap.above {α : Type} (k : Nat) : AMap α → Bool
  | [] => true
  | (j, _) :: m => k < j && AMap.above k m

/-- The keys rise strictly. -/
def AMap.sorted {α : Type} : AMap α → Bool
  | [] => true
  | (k, _) :: m => AMap.above k m && AMap.sorted m

/-- No entry equals the default. -/
def AMap.sparse {α : Type} [DecidableEq α] (d : α) : AMap α → Bool
  | [] => true
  | (_, v) :: m => v ≠ d && AMap.sparse d m

/-- The canonical form of a map with default `d`. -/
def AMap.wf {α : Type} [DecidableEq α] (m : AMap α) (d : α) : Bool := m.sorted && m.sparse d

/-- `f` at the entry of `k`, where one is listed. -/
def AMap.modify {α : Type} (m : AMap α) (k : Nat) (f : α → α) : AMap α :=
  match m.get? k with
  | some v => m.insert k (f v)
  | none => m

/-- `m` with the keys from `lo` to `hi - 1` replaced by the entries of `n`, which lie there. -/
def AMap.splice {α : Type} (m : AMap α) (lo hi : Nat) (n : AMap α) : AMap α :=
  m.filter (fun e => decide (e.1 < lo)) ++ n ++ m.filter (fun e => decide (hi ≤ e.1))

/-- The `i`-th element replaced through `f`. -/
def listModify {α : Type} : List α → Nat → (α → α) → List α
  | [], _, _ => []
  | a :: l, 0, f => f a :: l
  | a :: l, i + 1, f => a :: listModify l i f

end Sys2Proof.Machine
end

