-- ==== Sys2Proof/Machine/State.lean ====
section
/-!
DEFINITION. The state of one CX880 package: plain data, every piece that spec/ gives the device (INVENTORY.md lists them
with their rules). Parties, blocks, chords, cards and launches are held in maps keyed by numbers of the model's own; the
party numbered q is party q mod 65 (0 to 63 the groups, 64 the bow) of block q / 65, and block b is block b mod 4 of
chord b / 4.
-/
namespace Sys2Proof.Machine

/-- Reasons for which a step ends the run with a fault. A fault of the HARDWARE never ends the run: it is a next state
(R429). -/
inductive Fault
  /-- Raised by the meaning of an instruction when the state names no party that issues it. Safe: the device never issues
  an instruction without a party. -/
  | noIssuer
  deriving DecidableEq, Repr

/-- Reasons for which a step has no meaning. -/
inductive Refusal
  /-- An instruction that this model gives no meaning yet; raised by its arm of `exec` alone. Safe: nothing follows. -/
  | notModelled (mnemonic : String)
  deriving DecidableEq, Repr

/-! ### The party -/

/-- A register, as the scoreboard and the interlocks name it (R31-R33). -/
inductive RegKey
  | v (r lane : Nat) | s (r : Nat) | p (r lane : Nat) | ff (lane : Nat) | link (lane : Nat) | h (k : Nat)
  deriving DecidableEq, Repr

/-- A register write that an issued instruction has still to make (R30-R32). -/
inductive RegWrite
  | v (r lane : Nat) (x : W32)
  | s (r : Nat) (x : W64)
  | p (r lane : Nat) (x : Bool)
  /-- An explicit write of %fflags (R112). -/
  | ffSet (lane : Nat) (x : BitVec 5)
  /-- Flags ORed into %fflags (R112). -/
  | ffOr (lane : Nat) (x : BitVec 5)
  /-- %link of the fragment that carries the lanes of `own` (R50, R127). -/
  | link (own : Mask) (x : W64)
  /-- ShadeWrite of a group (R197). -/
  | shade (k : Nat) (tag : Rank) (e : Mask) (xs : List W32)
  /-- A staged write of the bow, with HMOV.CLR (R199, R204). -/
  | stage (k : Nat) (x : W32) (clr : Bool)
  /-- A staged HDROP of the bow (R208). -/
  | stageDrop (k : Nat)
  /-- A group's HDROP of lane copies or of the group copy (R208). -/
  | drop (k : Nat) (lanes : Mask) (g : Bool)
  deriving DecidableEq, Repr

/-- Paths of the ordering machine (R317); the plane path of each bit plane of a window's lines (R398). -/
inductive Path
  | general | ro | plane (j : Nat) | scratch
  deriving DecidableEq, Repr

/-- What an outstanding load or query reads, kept so that a halt can reissue it (R420): lanes with their addresses. -/
inductive ReadReq
  /-- LD and LDNR, with LDNR's predicate. -/
  | mem (lanes : List (Nat × Int)) (sp : Space) (w : Width) (sx : Bool) (order : LdOrder) (sc : Scope) (nol1 : Bool)
      (dst : Opnd) (nr : Option (BitVec 3))
  | scratch (lanes : List (Nat × Int)) (w : Width) (sx : Bool) (dst : Opnd)
  | const (lanes : List (Nat × Int)) (bank : Nat) (w : Width) (sx : Bool) (dst : Opnd)
  | tag (lanes : List (Nat × Int)) (line : Bool) (dst : Opnd)
  | lkq (va : Nat) (dst : Opnd)
  | sr (n : Nat) (e : Mask) (dst : Opnd)
  | cns (va : Nat) (dst : Opnd)
  deriving DecidableEq, Repr

/-- What an issued and unwritten result is (R118, R420). -/
inductive PendKind
  /-- Fixed latency: written at the end of the cycle before `due` (R30). -/
  | fixed (due : Nat)
  /-- Variable-latency arithmetic (R118). -/
  | compute
  /-- A load or query, reissued after a halt (R420). -/
  | load (req : ReadReq)
  /-- A result that is delivered once, whatever happens: atomics, queue and lock results (R420). -/
  | deliver
  /-- A result whose value has still to come: a blocked QPOP, a LOCK or TRYLOCK on its way (R222, R343). -/
  | await
  deriving DecidableEq, Repr

/-- An issued instruction whose destinations are not yet written; `reads` are the bounds that a load has raised (keyed as
`Party.bnd`), which stand once it is written and go with it where a halt cancels it (R320, R423). -/
structure Pend where
  n : Nat
  kind : PendKind
  token : Nat
  iaddr : W64
  word : W96
  writes : List RegWrite
  reads : List (Nat × Nat)
  deriving DecidableEq, Repr

/-- Why a fragment is BLOCKED (R62, R217, R223, R343). -/
inductive Wait
  | bar (b : Nat) | cbar (b : Nat) | qpush (k : Nat) | qpop (k : Nat) | lock
  deriving DecidableEq, Repr

/-- STATE of a fragment (R50). -/
inductive FragState
  | run | joined | converging | blocked (w : Wait)
  deriving DecidableEq, Repr

/-- A fragment (R50). -/
structure Frag where
  own : Mask
  mask : Mask
  pc : W64
  join : Option W64
  split : Option Nat
  link : W64
  st : FragState
  deriving DecidableEq, Repr

/-- A split record (R52). -/
structure Split where
  own : Mask
  join : Option W64
  split : Option Nat
  link : W64
  deriving DecidableEq, Repr

/-- How a write changes the tag bits of a granule (R360, R365). -/
inductive TagOp
  /-- tag := (tag AND keep) OR set, at tag location `a`. -/
  | mask (a : Nat) (keep set : Byte)
  /-- The terminator of R365: S set and P cleared where S is 0. -/
  | term (a : Nat)
  deriving DecidableEq, Repr

/-- The effect of a buffer entry when it is performed (R321, R324, R339). -/
inductive BufKind
  | store
  | red (op : RedOp) (ty : Ty) (addr : Nat) (x : W64) (sc : Scope)
  | unlock (line : Nat)
  /-- An OBJNEW: the granules become one object of the party (R365). -/
  | object (start n : Nat)
  deriving DecidableEq, Repr

/-- A store or RED issued and not yet performed (R318). `rel` is the scope of a release (R321). -/
structure BufEntry where
  n : Nat
  kind : BufKind
  cells : List (Nat × Byte)
  tags : List TagOp
  rel : Option Scope
  combined : Bool
  deriving DecidableEq, Repr

/-- States of a held-table entry (R338). -/
inductive HeldSt
  | free | reserved | held
  deriving DecidableEq, Repr

/-- An entry of the held table (R338). -/
structure Held where
  st : HeldSt
  line : Nat
  scope : Scope
  deriving DecidableEq, Repr

/-- The engine counters (R226). -/
structure Counters where
  copy : Nat
  harp : Nat
  pub : Nat
  consort : Nat
  page : Nat
  deriving DecidableEq, Repr

/-- An entry of a walk stack (R369): the object, its granule to be read, the words of that granule still to follow, and
where the granules passed so far lie. -/
structure WalkFrame where
  obj : Nat
  k : Nat
  words : List Nat
  locs : List Nat
  deriving DecidableEq, Repr

/-- A translation of a cluster TLB (R298). `priv` tags private space (R409); `size` is 4096, 65536 or 2097152. -/
structure Tlb where
  ctx : Nat
  priv : Bool
  va : Nat
  size : Nat
  pa : Nat
  key : Nat
  r : Bool
  w : Bool
  x : Bool
  tg : Bool
  cp : Nat
  d : Bool
  /-- The physical addresses of the leaf entries it was made from. -/
  leaves : List Nat
  deriving DecidableEq, Repr

/-- A Bridge copy in flight (R234, R235): its rows (global address, scratchpad offset), the bytes of a row, how many chunks it
has issued, of those that have not landed the translation under which they were checked and the data, and those that have; `n` places it among the party's stores (R237). -/
structure Copy where
  n : Nat
  store : Bool
  cnt : Option Nat
  rows : List (Nat × Nat)
  rowBytes : Nat
  issued : Nat
  data : List (Nat × Tlb × List Byte)
  landed : List Nat
  iaddr : W64
  word : W96
  deriving DecidableEq, Repr

/-- A PUBLISH in flight (R368, R369): its place among the party's stores, slot and the translation it was checked under,
reference, scope, walk stack, whether the walk has begun and whether it has ended. -/
structure Pub where
  n : Nat
  /-- The frame of its slot has been freed, and its slot store with it (R395). -/
  lost : Bool
  slot : Nat
  tr : Tlb
  ref : Nat
  scope : Scope
  started : Bool
  stk : List WalkFrame
  walked : Bool
  iaddr : W64
  word : W96
  deriving DecidableEq, Repr

/-- A PAGEREQ in flight (R305): the non-resident regions (base, bytes) not yet done. -/
structure PageReq where
  open_ : List (Nat × Nat)
  deriving DecidableEq, Repr

/-- A group or a bow (R47, R49, R181). -/
structure Party where
  bow : Bool
  grpid : Nat
  ctx : Nat
  party : Nat
  live : Mask
  v : AMap W32
  s : AMap W64
  p : AMap Mask
  ff : AMap (BitVec 5)
  slot0 : Option Frag
  slot1 : Option Frag
  spill : List Frag
  splits : AMap Split
  tokens : BitVec 8
  nextIssue : Nat
  pend : List Pend
  serial : Nat
  lastSlot : Bool
  /-- The cycle in which its last memory instruction issued (R185). -/
  lastMem : Option Nat
  yieldHint : Bool
  yielded : List Nat
  check : Bool
  ctr : Counters
  held : List Held
  inb : BitVec 66
  buf : List BufEntry
  sbuf : List BufEntry
  bnd : AMap Nat
  /-- The place of its last SC operation that took a Refresh, for each scope (R323). -/
  scs : List (Scope × Nat × Nat)
  hG : AMap W32
  hL : AMap W32
  /-- The private bytes that the party has stored since its placement, by location (R63-R66, R157). -/
  priv : AMap Byte
  gen : BitVec 16
  copies : List Copy
  pubs : List Pub
  pages : List PageReq
  stopped : Bool
  retired : Bool
  deriving DecidableEq, Repr

/-! ### The block and the chord -/

/-- A named or chord barrier (R215, R289). -/
structure Barrier where
  n : Option Nat
  arrived : Nat
  pending : Int
  bowin : Bool
  /-- How many operations the block's bow had staged, since placement, when it arrived in the phase (R200). -/
  mark : Nat
  deriving DecidableEq, Repr

/-- A party blocked in QPOP: where its entry goes (R222), and the number of its pending result. -/
structure Popper where
  q : Nat
  dst : Opnd
  m : Mask
  n : Nat
  deriving DecidableEq, Repr

/-- A party blocked in QPUSH: the M of its fragments and its value (R222, R223). -/
structure Pusher where
  q : Nat
  m : Mask
  v : W64
  deriving DecidableEq, Repr

/-- A cue queue (R220); ALLOW is DEPTH - COUNT. -/
structure Queue where
  live : Bool
  base : Nat
  depth : Nat
  count : Nat
  hd : Nat
  tl : Nat
  pushers : List Pusher
  poppers : List Popper
  deriving DecidableEq, Repr

/-- A staged operation of the bow (R199). -/
inductive Staged
  | write (k : Nat) (x : W32) (clr : Bool)
  | drop (k : Nat)
  deriving DecidableEq, Repr

/-- A side-table entry of a plane slot (R244). -/
structure Side where
  sb : BitVec 16
  zb : Nat
  cs : Nat
  deriving DecidableEq, Repr

/-- A plane slot: column n of plane j at 256·j + n as a number whose bit k is plane_j[k][n], the side table at 256·g + n,
the descriptor (R241, R244). `undef` says that a load of it has ended with a fault (R267). -/
structure PlaneSlot where
  cols : AMap Nat
  planes : Nat
  g : GSize
  rd : Reading
  side : AMap Side
  undef : Bool
  deriving DecidableEq, Repr

/-- A queued Harp operation: its place among the bow's accesses, the operand values read at issue (R262, R278), and for an
HPLANE the P, G and RD that it fixes (R266) and whether every plane line has landed; the scratchpad as the bow saw it then, and,
once it has taken its effect but for writes of scratchpad, those writes (R255); its ranges of scratchpad (R265), and for an
HPLANE.WIN the next chunk of the tile that each of its bit planes is to receive (R269). -/
structure HarpOp where
  n : Nat
  op : Instr
  vals : List Int
  planes : Nat
  g : GSize
  rd : Reading
  progress : Nat
  landed : Bool
  snap : AMap Byte
  late : Option (List (Nat × Byte))
  ranges : List (Int × Nat)
  cur : List Nat
  iaddr : W64
  word : W96
  deriving DecidableEq, Repr

/-- The Harp state that a block holds (R241). -/
structure Harp where
  slot0 : PlaneSlot
  slot1 : PlaneSlot
  acc : AMap W32
  hflags : BitVec 5
  ops : List HarpOp
  deriving DecidableEq, Repr

/-- The limits and streams that a kernel header declares (R43). -/
structure Kernel where
  image : Nat
  features : Nat
  gOff : Nat
  gLen : Nat
  bOff : Nat
  bLen : Nat
  vregs : Nat
  shade : Nat
  spill : Nat
  scratch : Nat
  barriers : Nat
  queues : Nat
  check : Bool
  priv : Nat
  walk : Nat
  consts : BitVec 16
  deriving DecidableEq, Repr

/-- A resident or saved block (R177-R179). -/
structure Block where
  core : Nat
  blkid : Nat
  /-- %chordid and %cardid of its parties (R183). -/
  chordid : Nat
  cardVa : Nat
  groups : Nat
  age : Nat
  resident : Bool
  save : Nat
  /-- The pts of the core that the block left (R315, R422). -/
  pts : Nat
  scratchBase : Nat
  barBase : List Nat
  queBase : List Nat
  /-- The group slots of its groups in their octants, in increasing %grpid, then the bow's (R178). -/
  slots : List Nat
  kern : Kernel
  sp : AMap Byte
  hB : AMap W32
  staged : List Staged
  /-- How many staged operations have committed since placement (R200). -/
  stageBase : Nat
  bars : AMap Barrier
  queues : AMap Queue
  harp : Option Harp
  deriving DecidableEq, Repr

/-- Where a chord stands (R286, R302, R417, R420). -/
inductive ChordSt
  | queued | resident | saved | parked
  deriving DecidableEq, Repr

/-- A chord (R286): its card, its index, its missing regions (space, base, bytes) and its chord barriers. -/
structure Chord where
  card : Nat
  idx : Nat
  ctx : Nat
  part : Nat
  prio : Nat
  cluster : Nat
  n : Nat
  st : ChordSt
  missing : List (Bool × Nat × Nat)
  cb0 : Barrier
  cb1 : Barrier
  cbMap : List Nat
  blocksLeft : Nat
  deriving DecidableEq, Repr

/-- A card in the wait list or running (R413, R414). -/
structure Card where
  ctx : Nat
  part : Nat
  va : Nat
  prio : Nat
  /-- The launch it belongs to, or none for a POSTed card. -/
  launch : Option Nat
  /-- The cluster queue that POST names (R418). -/
  target : Option Nat
  /-- It has been taken from the wait list. -/
  taken : Bool
  /-- The region (base, bytes) of a page that it waits for (R414). -/
  waits : Option (Nat × Nat)
  /-- The 64 bytes of the card, once it has been read as a placeable one and waits for its header (R414). -/
  snap : Option Nat
  /-- A failure word that has still to be written to DEP0 (R414). -/
  failOwed : Option Nat
  /-- Its completion decrement has still to be made (R416). -/
  doneOwed : Bool
  args : W64
  done : Nat
  blocks : Nat
  groups : Nat
  c : Nat
  kern : Kernel
  blocksLeft : Nat
  deriving DecidableEq, Repr

/-- A launch that the front end has accepted (R412). -/
structure Launch where
  ctx : Nat
  part : Nat
  va : Nat
  /-- The record has been read. -/
  read : Bool
  prio : Nat
  ncards : Nat
  cards : Nat
  ldone : Nat
  /-- Cards entered in the wait list so far, and cards completed or failed. -/
  entered : Nat
  ended : Nat
  /-- The region (base, bytes) of a page that it waits for (R412, R416). -/
  waits : Option (Nat × Nat)
  /-- The context cannot go on: a card address could not be read (R412). -/
  dead : Bool
  deriving DecidableEq, Repr

/-! ### Memory, translation, locks -/

/-- The writes performed to one byte, oldest first, after its initial store (R318). -/
structure Hist where
  init : Byte
  ws : List (Nat × Byte)
  deriving DecidableEq, Repr

/-- A non-leaf entry of a walk cache (R298). -/
structure WalkEnt where
  ctx : Nat
  priv : Bool
  level : Nat
  pre : Nat
  table : Nat
  deriving DecidableEq, Repr

/-- An L1 line with the copy of its translation (R299), the lease of its data (R313), and the number that the first write
after its fill bears. -/
structure L1Line where
  tr : Tlb
  va : Nat
  pline : Nat
  dirty : Bool
  rts : Nat
  filled : Nat
  deriving DecidableEq, Repr

/-- A line of the read-only cache (R164), with the physical line and the key ID that it was filled from (R393), and the number
that the first write after its fill bears. -/
structure RoLine where
  ctx : Nat
  va : Nat
  pline : Nat
  key : Nat
  filled : Nat
  deriving DecidableEq, Repr

/-- An entry of a combining buffer (R306): its key, the buffer entries (party, number) that it holds, and the clock of its
cluster when it was taken. -/
structure CombEntry where
  ctx : Nat
  addr : Nat
  ty : Ty
  op : RedOp
  members : List (Nat × Nat)
  since : Nat
  deriving DecidableEq, Repr

/-- A LOCK or TRYLOCK on its way, and the entry of a lock record's FIFO that it becomes (R337, R343): its number q·2^32 +
the number of its pending result, and the PROBE in force for its wait (R354). -/
structure Waiter where
  n : Nat
  gid : Nat
  q : Nat
  slot : Nat
  scope : Scope
  deadline : Option Nat
  entered : Nat
  probe : Nat
  nextProbe : Nat
  deriving DecidableEq, Repr

/-- A line record (R337); `holderQ` is the party behind the holder's GID, whose number a later party may take (R336). -/
structure LockRec where
  holder : Option Nat
  holderQ : Nat
  poison : Bool
  fifo : List Waiter
  deriving DecidableEq, Repr

/-- A LOCK or TRYLOCK on its way to the home slice (R343). -/
structure LockReq where
  line : Nat
  try_ : Bool
  w : Waiter
  deriving DecidableEq, Repr

/-- A status on its way to a party (R343): the held-table slot, the destination and the pending result it completes. -/
structure LockStatus where
  n : Nat
  q : Nat
  slot : Nat
  line : Nat
  scope : Scope
  status : Nat
  deriving DecidableEq, Repr

/-- A deadlock probe (R349), with its origin's GID and the number of its entry. -/
structure Probe where
  n : Nat
  origin : Nat
  entry : Nat
  originLine : Nat
  atLine : Nat
  hops : Nat
  deriving DecidableEq, Repr

/-! ### Core, cluster, partition, context -/

/-- An octant's throttle (R185, R192). -/
structure Octant where
  n : Nat
  score : Nat
  events : Nat
  mem : Option (List Nat)
  thr : AMap Nat
  lastIssue : Option Nat
  /-- The core clock at the last entry of a throttled group, at most one per cycle. -/
  lastEntry : Option Nat
  deriving DecidableEq, Repr

/-- Service states of a Harp (R258). -/
inductive HarpSt
  | normal | spared | nospare | offline
  deriving DecidableEq, Repr

/-- A core (R176, R188, R241). -/
structure Core where
  mode : Nat
  fixn : Nat
  octs : List Octant
  epochStart : Nat
  withheld : Nat
  victims : List Nat
  pts : Nat
  l1 : List L1Line
  ro : List RoLine
  harp : HarpSt
  spareFor : Nat
  bad : BitVec 17
  deriving DecidableEq, Repr

/-- A cluster's translation and combining state (R298, R306). -/
structure Cluster where
  tlb : List Tlb
  walk : List WalkEnt
  comb : List CombEntry
  deriving DecidableEq, Repr

/-- A fault record (R426). -/
structure FaultRec where
  code : Nat
  async : Bool
  term : Bool
  req : Bool
  w : Bool
  level : Nat
  lane : Nat
  ctx : Nat
  core : Nat
  gid : Nat
  detail : BitVec 32
  iaddr : W64
  addr : W64
  aux : W64
  word : W96
  ticks : Nat
  deriving DecidableEq, Repr

/-- A partition: PARTn, front end, fault queue, queues (R401, R402, R411, R425). -/
structure Part where
  v : Bool
  cbase : Nat
  climit : Nat
  waybusy : Bool
  waymask : BitVec 24
  walking : BitVec 24
  /-- Ways of WAYMASK that were granted while another partition's walk of them ran (R404). -/
  granting : BitVec 24
  memShare : Nat
  bridgeShare : Nat
  linkShare : Nat
  feCtx : Nat
  launches : List Nat
  reject : Bool
  waitList : List Nat
  queues : AMap (List Nat)
  rr : Nat
  running : Option Nat
  sliceStart : Nat
  /-- No chord of the running context has been placed since its slice began. -/
  fresh : Bool
  fqEn : Bool
  fqLog : Nat
  fqBase : Nat
  fqTail : BitVec 16
  fqHead : BitVec 16
  fqOvf : Bool
  fqDropped : Nat
  /-- The records in the buffer (R427), and those that wait in their producers, each with the chord that it holds. -/
  fqBuf : List (FaultRec × Option Nat)
  fqWait : List (FaultRec × Option Nat)
  deriving DecidableEq, Repr

/-- What the device holds of a context (R405, R429). -/
structure CtxDev where
  terminated : Bool
  cands : List FaultRec
  pinned : List Nat
  /-- Bytes that retired parties of the context left at locations of private memory (R66). -/
  left : AMap (List Byte)
  deriving DecidableEq, Repr

/-! ### The directory (R379-R388) -/

/-- Line states of a die (R379), ordered I < S < E < O < M. -/
inductive DirSt
  | i | s | e | o | m
  deriving DecidableEq, Repr

/-- A directory entry: region base, size 2^k, one state per die, the clock of its die at its last request (R380). -/
structure DirEntry where
  base : Nat
  k : Nat
  st : List DirSt
  last : Nat
  deriving DecidableEq, Repr

/-- Kinds of directory request (R382). -/
inductive DirKind
  | readS | readM | upgrade
  deriving DecidableEq, Repr

/-- A request served or queued at its home bank (R382, R386): kind, requester, the cycle in which it came, whether it is
being served, the forward still to be answered, the dies still to be told and to acknowledge, whether data has come, what the
forward left at the die that answered it. -/
structure DirReq where
  kind : DirKind
  d : Nat
  came : Nat
  served : Bool
  fwd : Option Nat
  toInv : List Nat
  toAck : List Nat
  data : Bool
  left : Option (Nat × DirSt)
  /-- The die that won ownership before this request, in the same cycle: it makes an access first (R386). -/
  after : Option Nat
  deriving DecidableEq, Repr

/-- Phases of a write-back (R385). -/
inductive WbSt
  | asked | granted | cancelled
  deriving DecidableEq, Repr

/-- A line in a die's victim buffer (R385). -/
structure Victim where
  d : Nat
  line : Nat
  st : WbSt
  deriving DecidableEq, Repr

/-- An entry under back-invalidation (R388): the (die, line) pairs to send and to be acknowledged. -/
structure BackInv where
  home : Nat
  base : Nat
  k : Nat
  toSend : List (Nat × Nat)
  toAck : List (Nat × Nat)
  deriving DecidableEq, Repr

/-! ### The fabric (R435-R445) -/

/-- A rank of a collective that has issued. -/
structure ColRank where
  rank : Nat
  /-- The local party, or none for another package. -/
  q : Option Nat
  ctx : Nat
  kind : Nat
  rop : Nat
  ty : Nat
  count : Nat
  root : Nat
  src : Nat
  dst : Nat
  desc : Nat
  timeout : Nat
  issued : Nat
  /-- Its place among the party's stores. -/
  n : Nat
  /-- Its source elements, once the engine has read them. -/
  data : Option (List W64)
  /-- The release at .FAB has been taken (R438). -/
  ready : Bool
  /-- Its completion state: 0 none yet, else 3 to 6 (R441). -/
  done : Nat
  /-- The counter has been lowered and the status written. -/
  closed : Bool
  iaddr : W64
  word : W96
  deriving DecidableEq, Repr

/-- A collective (R439). -/
structure Collective where
  n : Nat
  comm : Nat
  seq : Nat
  ranks : List ColRank
  running : Bool
  flags : BitVec 5
  ended : Bool
  deriving DecidableEq, Repr

/-- Power states (R458). -/
inductive Power
  | off | standby | on
  deriving DecidableEq, Repr

/-- The party that issues, with the word fetched for it (R426 IADDR, WORD), for a group-wide instruction the union of the
MASK fields that join the issue (R62), and for a YIELD the other parties of the octant that are ready now (R77). -/
structure Cur where
  q : Nat
  slot : Bool
  m : Mask
  iaddr : W64
  word : W96
  peers : List Nat := []
  deriving DecidableEq, Repr

/-- The registers of the management complex (R450). -/
structure Regs where
  ctxTable : Nat
  mrsErr : BitVec 2
  probe : Nat
  lease : List Nat
  art : AMap (BitVec 128)
  mrt : AMap (BitVec 128)
  prism : AMap (BitVec 256)
  prismz : AMap (BitVec 64)
  comm : AMap (BitVec 64)
  dcqEn : Bool
  dcqLog : Nat
  dcqBase : Nat
  dcqTail : BitVec 16
  dcqHead : BitVec 16
  dcqDone : BitVec 16
  rasCe : AMap (BitVec 32)
  rasThresh : BitVec 32
  retired : List Nat
  retiredFull : Bool
  /-- Staged lower words of wide registers, keyed by offset (R450). -/
  staged : AMap W64
  deriving DecidableEq, Repr

/-- The mailbox (R447). -/
structure Mailbox where
  h2d : W64
  d2h : W64
  /-- A request has been rung in and not yet answered. -/
  asked : Bool
  busy : Bool
  ready : Bool
  req : AMap Byte
  rsp : AMap Byte
  deriving DecidableEq, Repr

/-- The state of the device. -/
structure State where
  /-- The moves to come, first first; where it is empty the next move is a free value. -/
  schedule : List Pick
  /-- How many free values have been drawn. -/
  draws : Nat
  /-- Core cycles since package reset (R7). -/
  cycle : Nat
  /-- The cycle at which the compute dies left reset (R455). -/
  released : Option Nat
  cur : Option Cur
  /-- The move under way cannot be made as it stands and is undone: an access finds no room for the entry of its line (R388), or
  an event would come at a lock record out of its turn (R340; log entry 68). -/
  undone : Bool
  nextChord : Nat
  nextCard : Nat
  nextLaunch : Nat
  nextAge : Nat
  parties : AMap Party
  blocks : AMap Block
  chords : AMap Chord
  cards : AMap Card
  launches : AMap Launch
  cores : AMap Core
  clusters : AMap Cluster
  parts : AMap Part
  ctxs : AMap CtxDev
  -- memory and the ordering machine
  mem : AMap Byte
  hist : AMap Hist
  vis : List (Point × List Nat)
  nextWrite : Nat
  /-- The stamp of each write of a party: its core's pts once it had taken effect, and the core (R313, R323). -/
  stamps : AMap (Nat × Nat)
  /-- Key generation of each key ID (R394), and the key and generation under which each line was last written. -/
  keyGen : AMap Nat
  owner : AMap Nat
  /-- The party that created the object of each start granule (R362). -/
  creator : AMap Nat
  /-- The pages with TG as they were last translated (R361), in runs: the first page, ctx·2^45 + va / 4096; its frame,
  key·2^40 + pa / 4096; and how many follow one another. -/
  tgPages : AMap (Nat × Nat)
  /-- Lines whose data is poisoned (R392). -/
  poison : List Nat
  /-- The log of lines to which writes were dropped behind a failed port (R392). -/
  dropped : List Nat
  /-- wts and rts of each line (R313). -/
  ts : AMap (Nat × Nat)
  -- locks
  locks : AMap LockRec
  lockReqs : List LockReq
  lockStats : List LockStatus
  probes : List Probe
  lockSerial : Nat
  /-- 8·cycle + place in the order of R340 of the last event at the record of each line. -/
  lockTurn : AMap Nat
  -- directory
  dir : List (Nat × DirEntry)
  dirReqs : AMap (List DirReq)
  /-- What each die holds of each line, keyed 4·line + die; a die that is not listed holds nothing (R379). -/
  dieLine : AMap DirSt
  /-- The 32-byte sectors of a line that a die's slices hold, valid in bits 3:0 and dirty in bits 7:4, keyed as `dieLine`
  (R309). -/
  sectors : AMap (BitVec 8)
  victims : List Victim
  backInvs : List BackInv
  dirPtr : AMap Nat
  -- fabric
  cols : List Collective
  colSerial : Nat
  /-- Ranks (256·... communicator and rank) that run on other packages (R435). -/
  remote : List (Nat × Nat)
  laneBad : List (Nat × Nat)
  laneSpared : List (Nat × Nat)
  linksDown : List Nat
  portsDown : List Nat
  -- reliability
  sliceBad : List (Nat × Nat)
  quarantined : List (Nat × Nat)
  failedClusters : List Nat
  failedSlices : List Nat
  -- management, host, boot
  regs : Regs
  mbx : Mailbox
  /-- What the last load of the management complex from its register space returned (R450), and the last of the host (R446). -/
  mgmtData : W64
  hostData : W64
  irq : List Nat
  bootStep : Nat
  bootFail : Bool
  bootReady : Bool
  meas : List (BitVec 512)
  power : Power
  v48 : Bool
  aux : Bool
  /-- What survives loss of power (R9): the RAS log of the boot flash. -/
  rasLog : List Nat
  deriving DecidableEq, Repr

/-! ### Reset (R7, R13, R455): every register at the value its rule gives; the values no rule gives are those of log
entries 5 and 6. -/

/-- An octant after reset (R185, R192). -/
def Octant.reset : Octant := { n := 64, score := 0, events := 0, mem := none, thr := [], lastIssue := none, lastEntry := none }

/-- A core after reset (R191, R192, R258). -/
def Core.reset : Core :=
  { mode := 0, fixn := 64,
    octs := [Octant.reset, Octant.reset, Octant.reset, Octant.reset, Octant.reset, Octant.reset, Octant.reset,
      Octant.reset],
    epochStart := 0, withheld := 0, victims := [], pts := 0, l1 := [], ro := [], harp := .normal, spareFor := 0,
    bad := 0 }

/-- A cluster after reset: nothing cached, nothing combined (R298, R306). -/
def Cluster.reset : Cluster := { tlb := [], walk := [], comb := [] }

/-- A partition after reset (R401, R411, R425). -/
def Part.reset : Part :=
  { v := false, cbase := 0, climit := 0, waybusy := false, waymask := 0, walking := 0, granting := 0, memShare := 0, bridgeShare := 0,
    linkShare := 0, feCtx := 0, launches := [], reject := false, waitList := [], queues := [], rr := 0, running := none,
    sliceStart := 0, fresh := false, fqEn := false, fqLog := 0, fqBase := 0, fqTail := 0, fqHead := 0, fqOvf := false, fqDropped := 0,
    fqBuf := [], fqWait := [] }

/-- What the device holds of a context that it has not met (R405, R429). -/
def CtxDev.reset : CtxDev := { terminated := false, cands := [], pinned := [], left := [] }

/-- A barrier at placement (R215). -/
def Barrier.reset : Barrier := { n := none, arrived := 0, pending := 0, bowin := false, mark := 0 }

/-- A cue queue at placement (R220). -/
def Queue.reset : Queue :=
  { live := false, base := 0, depth := 0, count := 0, hd := 0, tl := 0, pushers := [], poppers := [] }

/-- The management complex's registers after reset (R310, R314, R354, R391, R396, R407, R435, R451, R454). -/
def Regs.reset : Regs :=
  { ctxTable := 0, mrsErr := 0, probe := 4096, lease := [64, 64, 64, 64], art := [], mrt := [], prism := [],
    prismz := [], comm := [], dcqEn := false, dcqLog := 0, dcqBase := 0, dcqTail := 0, dcqHead := 0, dcqDone := 0,
    rasCe := [], rasThresh := 4096, retired := [], retiredFull := false, staged := [] }

/-- The mailbox after reset (R447). -/
def Mailbox.reset : Mailbox := { h2d := 0, d2h := 0, asked := false, busy := false, ready := false, req := [], rsp := [] }

/-- The kernel of a card that has not been examined. -/
def Kernel.empty : Kernel :=
  { image := 0, features := 0, gOff := 0, gLen := 0, bOff := 0, bLen := 0, vregs := 0, shade := 0, spill := 0, scratch := 0,
    barriers := 0, queues := 0, check := false, priv := 0, walk := 0, consts := 0 }

/-- The package right after reset is asserted (R455, R458): powered, the compute dies held in reset, BOOT_STATUS 0, and
the boot the move to come. -/
def State.reset : State :=
  { schedule := [⟨0, .event .boot⟩], draws := 0, cycle := 0, released := none, cur := none, undone := false, nextChord := 0, nextCard := 0,
    nextLaunch := 0, nextAge := 0, parties := [], blocks := [], chords := [], cards := [], launches := [], cores := [],
    clusters := [], parts := [], ctxs := [], mem := [], hist := [], vis := [], nextWrite := 1, stamps := [],
    keyGen := [], owner := [], creator := [], tgPages := [], poison := [], dropped := [], ts := [], locks := [], lockReqs := [],
    lockStats := [], probes := [], lockSerial := 0, lockTurn := [], dir := [], dirReqs := [], dieLine := [], sectors := [], victims := [], backInvs := [],
    dirPtr := [], cols := [], colSerial := 0, remote := [], laneBad := [], laneSpared := [], linksDown := [],
    portsDown := [], sliceBad := [], quarantined := [], failedClusters := [],
    failedSlices := [], regs := Regs.reset, mbx := Mailbox.reset, mgmtData := 0, hostData := 0, irq := [], bootStep := 0, bootFail := false,
    bootReady := false, meas := List.replicate 8 0, power := .on, v48 := true, aux := true, rasLog := [] }

end Sys2Proof.Machine
end

