-- ==== Sys2Proof/Machine/Frags.lean ====
section
/-!
DEFINITION. Fragments, splits and the spill area of one party (spec/02 R50-R62): pure functions on `Party`.
-/
namespace Sys2Proof.Machine

/-- An instruction occupies 12 bytes (R16). -/
def nextPc (pc : W64) : W64 := pc + 12

/-- The fragment at a place: 0 and 1 are the slots, k + 2 is entry k of the spill area. -/
def fragAt (p : Party) : Nat → Option Frag
  | 0 => p.slot0
  | 1 => p.slot1
  | k + 2 => p.spill[k]?

/-- The number of the slot. -/
def slotIx (slot : Bool) : Nat := if slot then 1 else 0

/-- `p` with `f` at a place that holds a fragment. -/
def putFrag (p : Party) (k : Nat) (f : Frag) : Party :=
  match k with
  | 0 => { p with slot0 := some f }
  | 1 => { p with slot1 := some f }
  | k + 2 => { p with spill := p.spill.set k f }

/-- `p` without the fragment at a place. -/
def dropFrag (p : Party) (k : Nat) : Party :=
  match k with
  | 0 => { p with slot0 := none }
  | 1 => { p with slot1 := none }
  | k + 2 => { p with spill := p.spill.eraseIdx k }

/-- Every place, slots first. -/
def places (p : Party) : List Nat := List.range (2 + p.spill.length)

/-- All fragments of the party. -/
def fragList (p : Party) : List Frag := p.slot0.toList ++ p.slot1.toList ++ p.spill

/-- `f` on every fragment. -/
def mapFrags (p : Party) (f : Frag → Frag) : Party :=
  { p with slot0 := p.slot0.map f, slot1 := p.slot1.map f, spill := p.spill.map f }

/-- Entries of the spill area in use: a live split record takes one, a held fragment takes one (R56). -/
def areaUsed (p : Party) : Nat := p.splits.length + p.spill.length

def isRun (f : Frag) : Bool := f.st == .run
def isWaiting (f : Frag) : Bool := f.st == .joined || f.st == .converging
def isBlocked (f : Frag) : Bool := match f.st with | .blocked _ => true | _ => false

/-- The entry of a kind that was pushed most recently, and the area without it (R56). -/
def popEntry (ok : Frag → Bool) (l : List Frag) : Option (Frag × List Frag) :=
  match l.reverse.find? ok with
  | none => none
  | some f => some (f, (l.reverse.erase f).reverse)

/-- R56: a slot that is free takes the RUN entry pushed most recently, if any. -/
def refill (p : Party) (k : Nat) : Party :=
  match fragAt p k, popEntry isRun p.spill with
  | none, some (f, rest) => putFrag { p with spill := rest } k f
  | _, _ => p

/-- Both slots refilled; slot 0 first (log entry 55). -/
def refillBoth (p : Party) : Party := refill (refill p 0) 1

/-- R56: the fragment in slot `k`, which has just become JOINED or CONVERGING, changes places with the latest RUN entry, if
there is one; it keeps its slot otherwise. -/
def swapOut (p : Party) (k : Nat) : Party :=
  match fragAt p k, popEntry isRun p.spill with
  | some g, some (f, rest) => if isWaiting g then putFrag { p with spill := rest ++ [g] } k f else p
  | _, _ => p

/-- A fragment that is about to become JOINED: it runs, and its PC equals its JOIN (R54). -/
def atJoin (f : Frag) : Bool := isRun f && f.join == some f.pc

/-- R54: a fragment whose PC equals its JOIN becomes JOINED. -/
def joinFrag (f : Frag) : Frag := if atJoin f then { f with st := .joined } else f

/-- The lowest free split number (R52). -/
def freeSplit (p : Party) : Nat := ((List.range 7).find? (fun k => (p.splits.get? k).isNone)).getD 7

/-- Every lane of record `r`, numbered `k`, is exited or carried by a JOINED fragment of the split (R55). -/
def fuses (p : Party) (k : Nat) (r : Split) : Bool :=
  let carried := (fragList p).foldl (fun m f => if f.split == some k && f.st == .joined then m ||| f.own else m) (0 : Mask)
  (r.own &&& p.live) &&& ~~~carried == 0

/-- The writes of %link that are on their way to fragments with a lane in `own` are dropped: those fragments cease to exist
(R53, R55), or a later write of their LINK takes effect now (R32, R72; log entry 55). -/
def cutLinks (p : Party) (own : Mask) : Party :=
  let mine : RegWrite → Bool := fun w => match w with | .link o _ => o &&& own != 0 | _ => false
  { p with pend := p.pend.map (fun d => { d with writes := d.writes.filter (fun w => !mine w) }) }

/-- A write of %link is on its way to the fragment. -/
def linkPending (p : Party) (f : Frag) : Bool :=
  p.pend.any (fun d => d.writes.any (fun w => match w with | .link o _ => o &&& f.own != 0 | _ => false))

/-- Fusion of record `k` (R55, R56). -/
def fuse (p0 : Party) (k : Nat) (r : Split) : Party :=
  let p := cutLinks p0 r.own
  let mine : Frag → Bool := fun f => f.split == some k
  let parts := (fragList p).filter mine
  let at0 := p.slot0.any mine
  let at1 := p.slot1.any mine
  let p1 := { p with
    slot0 := if at0 then none else p.slot0, slot1 := if at1 then none else p.slot1,
    spill := p.spill.filter (fun f => !mine f), splits := p.splits.erase k }
  match parts with
  | [] => p1
  | f :: _ =>
    if r.own &&& p.live == 0 then p1
    else
      let g : Frag := { own := r.own &&& p.live, mask := parts.foldl (fun m h => m ||| h.mask) 0, pc := f.pc,
                        join := r.join, split := r.split, link := r.link, st := .run }
      if at0 then { p1 with slot0 := some g }
      else if at1 then { p1 with slot1 := some g }
      else if p1.slot0.isNone then { p1 with slot0 := some g }
      else if p1.slot1.isNone then { p1 with slot1 := some g }
      else { p1 with spill := p1.spill ++ [g] }

/-- One round of R54-R56: fragments come to their joins, a record fuses where its parts lie, with no swap
before (log entry 55), a fragment that has come to its join and did not fuse leaves its slot to a RUN entry, and free slots are
refilled. -/
def settleRound (p : Party) : Party :=
  let new0 := p.slot0.any atJoin
  let new1 := p.slot1.any atJoin
  let p1 := mapFrags p joinFrag
  let p2 := match p1.splits.find? (fun e => fuses p1 e.1 e.2) with
    | some (k, r) => fuse p1 k r
    | none => p1
  let p3 := if new0 then swapOut p2 0 else p2
  refillBoth (if new1 then swapOut p3 1 else p3)

/-- A RUN entry of the area while no slot runs takes the place of a fragment that waits in a slot, slot 0 first: a fragment that
resumes in the area is not left behind those that wait in the slots, for the group never waits for ever (R62; log entry 55). -/
def rouse (p : Party) : Party :=
  if p.slot0.any isRun || p.slot1.any isRun then p
  else if p.slot0.any isWaiting then swapOut p 0
  else swapOut p 1

/-- Slots that are free are refilled (R76), and then R54-R56 until nothing more waits, fuses or moves: at most one round for
each split, and one more. -/
def settleFrags (p : Party) : Party := rouse ((List.range 9).foldl (fun p _ => settleRound p) (refillBoth p))

/-- Resolution of a branch or call (R52, R53, R60) by the fragment at place `k`, with executing set `e`, the link `link` of
the parent as read, the link `tlink` that the taken part gets where it differs; none where the spill area would need more
than `sd` entries (R57). -/
def resolveBranch (p : Party) (sd k : Nat) (e : Mask) (target : W64) (j : Option W64) (link tlink : W64) :
    Option Party :=
  match fragAt p k with
  | none => some p
  | some f =>
    let rest := f.mask &&& ~~~e
    if e = 0 then some (settleFrags (putFrag p k { f with pc := nextPc f.pc }))
    else if rest = 0 then some (settleFrags (putFrag p k { f with pc := target, link := tlink }))
    else
      let n := freeSplit p
      let other := 1 - k
      let t : Frag := { own := e, mask := e, pc := target, join := j, split := some n, link := tlink, st := .run }
      let m : Frag := { own := f.own &&& ~~~e, mask := rest, pc := nextPc f.pc, join := j, split := some n, link := link,
                        st := .run }
      let p1 := putFrag { cutLinks p f.own with splits := p.splits.insert n ⟨f.own, f.join, f.split, link⟩ } k t
      let p2 := if (fragAt p1 other).isNone then putFrag p1 other m else { p1 with spill := p1.spill ++ [m] }
      if sd < areaUsed p2 then none else some (settleFrags p2)

/-- Lanes `e` exit (R48, R76): they leave every fragment and every split record; a fragment left without lanes ends. -/
def exitLanes (p : Party) (k : Nat) (e : Mask) : Party :=
  let cut : Frag → Frag := fun f => { f with own := f.own &&& ~~~e, mask := f.mask &&& ~~~e }
  let keep : Option Frag → Option Frag := fun o => o.bind (fun f => if (cut f).own = 0 then none else some (cut f))
  let stepped := match fragAt p k with
    | some f => putFrag p k { f with pc := nextPc f.pc }
    | none => p
  { stepped with
    live := p.live &&& ~~~e,
    hL := p.hL.filter (fun x => !e.has (x.1 % 8)),
    slot0 := keep stepped.slot0, slot1 := keep stepped.slot1,
    spill := (stepped.spill.map cut).filter (fun f => f.own != 0),
    splits := p.splits.map (fun r => (r.1, { r.2 with own := r.2.own &&& ~~~e })) }

/-! ### Reconvergence (R62) -/

/-- The fragment at place `j` joins a group-wide issue made from place `k` at address `pc`. -/
def joins (p : Party) (k : Nat) (pc : W64) (j : Nat) : Bool :=
  match fragAt p j with
  | some f => j == k || (f.st == .converging && f.pc == pc)
  | none => false

/-- The places whose fragments join. -/
def joiners (p : Party) (k : Nat) (pc : W64) : List Nat := (places p).filter (joins p k pc)

/-- The union of the MASK fields of the fragments that join (R62). -/
def joinMask (p : Party) (k : Nat) (pc : W64) : Mask :=
  (joiners p k pc).foldl (fun m j => match fragAt p j with | some f => m ||| f.mask | none => m) 0

/-- The lowest lane of a set; 8 where it is empty. -/
def lowLane (m : Mask) : Nat := ((List.range 8).find? m.has).getD 8

/-- The PC at which the CONVERGING fragment with the lowest live lane stands (R62). -/
def convergePc (p : Party) : Option W64 :=
  let cs := (fragList p).filter (fun f => f.st == .converging)
  match (List.range 8).find? (fun l => cs.any (fun f => f.own.has l)) with
  | none => none
  | some l => (cs.find? (fun f => f.own.has l)).map (·.pc)

/-- A group-wide issue may be made: no fragment can still run (R62). One that is BLOCKED, in a LOCK too, does not hold it up (log
entry 63). -/
def reconverged (p : Party) : Bool := (fragList p).all (fun f => !isRun f)

/-- Two fragments that joined an issue and agree in SPLIT, JOIN and LINK (R62); one whose LINK is still to be written
agrees with none (log entry 55). -/
def agrees (p : Party) (f g : Frag) : Bool :=
  f.split == g.split && f.join == g.join && f.link == g.link && !linkPending p f && !linkPending p g

/-- One of the fragments that joined a group-wide issue, at place `j`, goes on in state `st`: it becomes part of the
fragment of `l`, at its place there, that it agrees with, or keeps its own place (R56, R62). -/
def mergeInto (p : Party) : List (Nat × Frag) → Nat × Frag → List (Nat × Frag)
  | [], f => [f]
  | g :: l, f =>
    if agrees p g.2 f.2 then (g.1, { g.2 with own := g.2.own ||| f.2.own, mask := g.2.mask ||| f.2.mask }) :: l
    else g :: mergeInto p l f

/-- After a group-wide issue from place `k` at `pc`: the fragments that joined go on at the next instruction in state
`st`, merged where they agree, in the slots and entries where they lie (R56, R62). -/
def resumeJoined (p : Party) (k : Nat) (pc : W64) (st : FragState) : Party :=
  let js := joiners p k pc
  let parts := js.filterMap (fun j => (fragAt p j).map (fun f => (j, { f with pc := nextPc pc, st := st })))
  let merged := parts.foldl (mergeInto p) []
  let now : Nat → Option Frag := fun j =>
    if js.contains j then (merged.find? (fun e => e.1 == j)).map (fun e => e.2) else fragAt p j
  settleFrags { p with slot0 := now 0, slot1 := now 1, spill := ((List.range p.spill.length).map (· + 2)).filterMap now }

/-- Blocked fragments that wait for `w` run again (R217, R223, R343). -/
def unblock (p : Party) (w : Wait) : Party :=
  settleFrags (mapFrags p (fun f => if f.st == .blocked w then { f with st := .run } else f))

/-- The fragments of `m` that are BLOCKED for `w` go on: those of one queue operation of the party (R223). -/
def unblockIn (p : Party) (w : Wait) (m : Mask) : Party :=
  settleFrags (mapFrags p (fun f => if f.st == .blocked w && f.mask &&& m != 0 then { f with st := .run } else f))

/-- A fragment of the party waits for `w`. -/
def waitsFor (p : Party) (w : Wait) : Bool := (fragList p).any (fun f => f.st == .blocked w)

/-- The party is BLOCKED in some fragment. -/
def partyBlocked (p : Party) : Bool := (fragList p).any isBlocked

end Sys2Proof.Machine
end

