-- ==== Sys2Proof/Machine/Ops.lean ====
section
/-!
DEFINITION. The named operations over parties, blocks and registers that every meaning goes through: numbering of units
(R5), register writes and when they land (R30-R33), shade registers (R195-R201), faults (R426, R429), and the advance of a
party past an instruction.
-/
namespace Sys2Proof.Machine

/-! ### Numbers of units -/

/-- The block of a party. -/
def bidOf (q : Nat) : Nat := q / 65

/-- The chord of a block. -/
def cidOf (b : Nat) : Nat := b / 4

/-- The party numbers of a block. -/
def blockParties (b : Nat) : List Nat := (List.range 65).map (65 * b + ·)

/-- The global cluster number of a core (R5). -/
def cluOf (core : Nat) : Nat := core / 4

/-- The die of a core (R5). -/
def dieOf (core : Nat) : Nat := core / 72

/-- %ticks: 2.25 GHz core cycles to 100 MHz ticks (R7). -/
def ticksOf (cycle : Nat) : Nat := cycle * 2 / 45

/-! ### Reading and replacing records -/

/-- A core on which nothing has happened since reset: its memory sets are formed at each epoch, and hold no group (R185). -/
def idleCore (cycle : Nat) : Core :=
  if cycle < 4096 then Core.reset
  else
    let o : Octant := { Octant.reset with mem := some [] }
    { Core.reset with epochStart := cycle / 4096 * 4096, octs := [o, o, o, o, o, o, o, o] }

def coreOf (s : State) (c : Nat) : Core := s.cores.getD c (idleCore s.cycle)
def setCore (s : State) (c : Nat) (x : Core) : State := { s with cores := s.cores.insert c x }
def clusterOf (s : State) (c : Nat) : Cluster := s.clusters.getD c Cluster.reset
def setCluster (s : State) (c : Nat) (x : Cluster) : State := { s with clusters := s.clusters.insert c x }
def partOf (s : State) (n : Nat) : Part := s.parts.getD n Part.reset
def setPart (s : State) (n : Nat) (x : Part) : State := { s with parts := s.parts.insert n x }
def ctxOf (s : State) (k : Nat) : CtxDev := s.ctxs.getD k CtxDev.reset
def setCtx (s : State) (k : Nat) (x : CtxDev) : State := { s with ctxs := s.ctxs.insert k x }
def setParty (s : State) (q : Nat) (p : Party) : State := { s with parties := s.parties.insert q p }
def modParty (s : State) (q : Nat) (f : Party → Party) : State := { s with parties := s.parties.modify q f }
def setBlock (s : State) (b : Nat) (x : Block) : State := { s with blocks := s.blocks.insert b x }
def modBlock (s : State) (b : Nat) (f : Block → Block) : State := { s with blocks := s.blocks.modify b f }
def modChord (s : State) (c : Nat) (f : Chord → Chord) : State := { s with chords := s.chords.modify c f }
def modCard (s : State) (c : Nat) (f : Card → Card) : State := { s with cards := s.cards.modify c f }
def modLaunch (s : State) (c : Nat) (f : Launch → Launch) : State := { s with launches := s.launches.modify c f }

/-- The block of a party, where both are held. -/
def blockOf (s : State) (q : Nat) : Option Block := s.blocks.get? (bidOf q)

/-- The core that a party stands on. -/
def coreIx (s : State) (q : Nat) : Nat := match blockOf s q with | some b => b.core | none => 0

/-- The octant of a party (R177). -/
def octOf (b : Block) (p : Party) : Nat := if p.bow then b.groups % 8 else p.grpid % 8

/-- The octant that a party is in. -/
def partyOct (s : State) (q : Nat) : Nat :=
  match blockOf s q, s.parties.get? q with | some b, some p => octOf b p | _, _ => 0

/-- Core cycles delivered to a core since package reset (R7): stalls, fixed latencies, epochs and slices are counted in
them. -/
def coreClock (s : State) (core : Nat) : Nat := s.cycle - (coreOf s core).withheld

/-- The clock of a unit that serves `n` cores from `first` on: the core cycles of the one that has had most (R7; log entry 67). -/
def unitClock (s : State) (first n : Nat) : Nat := ((List.range n).map (fun i => coreClock s (first + i))).foldl max 0

/-- The clock of a cluster, and of a compute die (R5). -/
def clusterClock (s : State) (c : Nat) : Nat := unitClock s (4 * c) 4
def dieClock (s : State) (d : Nat) : Nat := unitClock s (72 * d) 72

/-- The core clock of the core that a party stands on. -/
def partyClock (s : State) (q : Nat) : Nat := coreClock s (coreIx s q)

/-- A party that a step may act on: held, its block resident, neither stopped nor retired. -/
def active (s : State) (q : Nat) : Bool :=
  match s.parties.get? q, blockOf s q with
  | some p, some b => b.resident && !p.stopped && !p.retired
  | _, _ => false

/-- The GID of a party (R336): PARTY in bits 31:12, CTX in bits 11:0. -/
def gidOf (p : Party) : Nat := p.party % 2 ^ 20 * 4096 + p.ctx % 4096

/-! ### Free values -/

/-- A free value below `n` and the state that has drawn it (log entry 1). -/
def draw (s : State) (n : Nat) : Nat × State := (Config.free s.draws % n, { s with draws := s.draws + 1 })

/-! ### Vectors, scalars, predicates, flags -/

def vKey (r lane : Nat) : Nat := 8 * r + lane
def getV (p : Party) (r lane : Nat) : W32 := p.v.getD (vKey r lane) 0
def setV (p : Party) (r lane : Nat) (x : W32) : Party := { p with v := p.v.put (vKey r lane) x 0 }
def getS (p : Party) (r : Nat) : W64 := p.s.getD r 0
def setS (p : Party) (r : Nat) (x : W64) : Party := { p with s := p.s.put r x 0 }

/-- A predicate of a lane; p7 reads 1 (R47). -/
def getP (p : Party) (r lane : Nat) : Bool := r == 7 || (p.p.getD r 0).has lane

/-- A write of a predicate; one of p7 is discarded (R47). -/
def setP (p : Party) (r lane : Nat) (x : Bool) : Party :=
  if r = 7 then p
  else
    let m := p.p.getD r 0
    { p with p := p.p.put r (if x then m ||| Mask.single lane else m &&& ~~~Mask.single lane) 0 }

def getFF (p : Party) (lane : Nat) : BitVec 5 := p.ff.getD lane 0
def setFF (p : Party) (lane : Nat) (x : BitVec 5) : Party := { p with ff := p.ff.put lane x 0 }

/-! ### Shade registers (spec/09) -/

def hlKey (k lane : Nat) : Nat := 8 * k + lane

/-- L[K] (R193): the lanes that hold a copy. -/
def lMask (p : Party) (k : Nat) : Mask :=
  (List.range 8).foldl (fun m l => if (p.hL.get? (hlKey k l)).isSome then m ||| Mask.single l else m) 0

/-- G[K] (R193). -/
def gBit (p : Party) (k : Nat) : Bool := (p.hG.get? k).isSome

/-- L[K] := L[K] and not m. -/
def dropL (p : Party) (k : Nat) (m : Mask) : Party :=
  { p with hL := (List.range 8).foldl (fun h l => if m.has l then h.erase (hlKey k l) else h) p.hL }

def dropG (p : Party) (k : Nat) : Party := { p with hG := p.hG.erase k }

/-- Block(K), the committed block copy (R195). -/
def blockCopy (b : Block) (k : Nat) : W32 := b.hB.getD k 0

/-- Resolve (R195). -/
def resolve (p : Party) (b : Block) (k lane : Nat) : W32 :=
  match p.hL.get? (hlKey k lane) with
  | some x => x
  | none => (p.hG.get? k).getD (blockCopy b k)

/-- The bow's own view (R196): its latest staged write, else Block(K). -/
def bowView (b : Block) (k : Nat) : W32 :=
  (b.staged.foldl (fun v o => match o with
    | .write j x _ => if j = k then some x else v
    | .drop _ => v) none).getD (blockCopy b k)

/-- A shade source under its rank tag (R195). -/
def shadeRead (p : Party) (b : Block) (k : Nat) (t : Rank) (lane : Nat) : W32 :=
  if p.bow then bowView b k
  else match t with
    | .resolve | .l => resolve p b k lane
    | .g => (p.hG.get? k).getD (blockCopy b k)
    | .b => blockCopy b k

/-- ShadeWrite (R197), less any lane that has since exited. -/
def shadeWrite (p : Party) (k : Nat) (t : Rank) (e0 : Mask) (xs : List W32) : Party :=
  let e := e0 &&& p.live
  if e = 0 then p
  else
    let val : Nat → W32 := fun l => xs.getD l 0
    let lo := lowLane e
    let same := (List.range 8).all (fun l => !e.has l || val l == val lo)
    let rankG := match t with
      | .l => false
      | .g => true
      | _ => e == p.live && same
    if rankG then { dropL p k 255 with hG := p.hG.insert k (val lo) }
    else { p with hL := (List.range 8).foldl (fun h l => if e.has l then h.insert (hlKey k l) (val l) else h) p.hL }

/-- The commit of the bow's staged operations on one group's copies (R200). -/
def commitGroup (ops : List Staged) (p : Party) : Party :=
  ops.foldl (fun p o => match o with
    | .write k _ true => dropG (dropL p k 255) k
    | .drop k => dropG (dropL p k 255) k
    | _ => p) p

/-- The commit of the first `n` of the bow's staged operations on the block copies (R200). -/
def commitBlock (n : Nat) (b : Block) : Block :=
  { b with staged := b.staged.drop n, stageBase := b.stageBase + min n b.staged.length,
           hB := (b.staged.take n).foldl (fun h o => match o with | .write k x _ => h.put k x 0 | .drop _ => h) b.hB }

/-- R200: the operations that the block's bow had staged when `mark` of them were staged since placement commit at one
instant. -/
def commitShade (s : State) (b mark : Nat) : State :=
  match s.blocks.get? b with
  | none => s
  | some blk =>
    let n := mark - blk.stageBase
    let s1 := (blockParties b).foldl (fun s q => modParty s q (commitGroup (blk.staged.take n))) s
    setBlock s1 b (commitBlock n blk)

/-! ### Register writes and when they land (R30-R33) -/

/-- The registers that a write changes; a shade register is one register, whatever its lanes (log entry 56). -/
def writeKeys : RegWrite → List RegKey
  | .v r l _ => [.v r l]
  | .s r _ => [.s r]
  | .p r l _ => [.p r l]
  | .ffSet l _ | .ffOr l _ => [.ff l]
  | .link own _ => ((List.range 8).filter own.has).map .link
  | .shade k _ _ _ | .stage k _ _ | .stageDrop k | .drop k _ _ => [.h k]

/-- Write `w` must wait for the older write `o` (R32); ORs into %fflags are writes of it like any other (R112). -/
def clash (o w : RegWrite) : Bool := (writeKeys o).any (fun k => (writeKeys w).contains k)

/-- A register write of a party, the bow's staged shade operations apart. -/
def writeParty (p : Party) : RegWrite → Party
  | .v r l x => if p.live.has l then setV p r l x else p
  | .s r x => setS p r x
  | .p r l x => setP p r l x
  | .ffSet l x => setFF p l x
  | .ffOr l x => setFF p l (getFF p l ||| x)
  | .link own x => mapFrags p (fun f => if f.own &&& own != 0 then { f with link := x } else f)
  | .shade k t e xs => shadeWrite p k t e xs
  | .drop k m g =>
    let p1 := dropL p k m
    if g then dropG p1 k else p1
  | .stage _ _ _ | .stageDrop _ => p

/-- A staged operation of the bow (R199, R208). -/
def writeBlock (b : Block) : RegWrite → Block
  | .stage k x clr => { b with staged := b.staged ++ [.write k x clr] }
  | .stageDrop k => { b with staged := b.staged ++ [.drop k] }
  | _ => b

/-- A register write lands. -/
def applyWrite (s : State) (q : Nat) (w : RegWrite) : State :=
  modBlock (modParty s q (fun p => writeParty p w)) (bidOf q) (fun b => writeBlock b w)

/-- Writes land, in order. -/
def applyWrites (s : State) (q : Nat) (ws : List RegWrite) : State := ws.foldl (fun s w => applyWrite s q w) s

/-- The registers that an unwritten result is to change. -/
def pendKeys (d : Pend) : List RegKey := d.writes.flatMap writeKeys

/-- No result of `l` has still to make a write that `w` must wait for (R32). -/
def writeFree (l : List Pend) (w : RegWrite) : Bool := l.all (fun e => e.writes.all (fun o => !clash o w))

/-- No write of `d` waits for an older result of `l` (R32). -/
def inOrder (l : List Pend) (d : Pend) : Bool := d.writes.all (writeFree l)

/-- The token that a result releases is released (R31). -/
def releaseToken (p : Party) (t : Nat) : Party :=
  if t = 0 then p else { p with tokens := p.tokens &&& ~~~(BitVec.ofNat 8 (2 ^ t)) }

/-- The writes of the results that are due at core clock `now` and wait for none older, in issue order, each result at one
moment (R112), and the results that stay (R30, R32). -/
def dueNow (now : Nat) : List Pend → List Pend → List RegWrite × List Pend
  | kept, [] => ([], kept)
  | kept, d :: l =>
    let due := match d.kind with | .fixed c => decide (c ≤ now) | _ => false
    if due && inOrder kept d then
      let r := dueNow now kept l
      (d.writes ++ r.1, r.2)
    else dueNow now (kept ++ [d]) l

/-- The interlock of R32: a fixed-latency result of the party would not be written at its moment (R30), because an older result
of one of its registers may come later. Its instruction waits to issue. -/
def interlocked (p : Party) : Bool :=
  p.pend.zipIdx.any (fun d => match d.1.kind with
    | .fixed c => (p.pend.take d.2).any (fun o =>
        (match o.kind with | .fixed c0 => decide (c < c0) | _ => true) &&
        d.1.writes.any (fun w => o.writes.any (fun x => clash x w)))
    | _ => false)

/-- The due results of a party land (R30). -/
def settleParty (s : State) (q : Nat) : State :=
  match s.parties.get? q with
  | none => s
  | some p =>
    match dueNow (partyClock s q) [] p.pend with
    | ([], _) => s
    | (ws, rest) => applyWrites (setParty s q { p with pend := rest }) q ws

/-- The due results of every party land. -/
def settleAll (s : State) : State := (s.parties.map (·.1)).foldl settleParty s

/-- The bounds that a result has raised stand from now on (R320). The writes to a byte rise in number as they do in order. -/
def keepReads (p : Party) (d : Pend) : Party :=
  { p with bnd := d.reads.foldl (fun (m : AMap Nat) e => m.put e.1 (max (m.getD e.1 0) e.2) 0) p.bnd }

/-- The result numbered `n` lands now, where none older stands before it in one of its registers (R31, R32). -/
def landPend (s : State) (q n : Nat) : State :=
  match s.parties.get? q with
  | none => s
  | some p =>
    match p.pend.find? (·.n == n) with
    | none => s
    | some d =>
      if inOrder (p.pend.takeWhile (fun e => e.n != n)) d then
        let s1 := setParty s q (releaseToken (keepReads { p with pend := p.pend.filter (fun e => e.n != n) } d) d.token)
        settleParty (applyWrites s1 q d.writes) q
      else s

/-- The result has its value: every kind but one that awaits it. -/
def known (d : Pend) : Bool := match d.kind with | .await => false | _ => true

/-- The results that have their values and wait for none that has not, in issue order, and the others. -/
def knownNow : List Pend → List Pend → List Pend × List Pend
  | kept, [] => ([], kept)
  | kept, d :: l =>
    if known d && inOrder kept d then
      let r := knownNow kept l
      (d :: r.1, r.2)
    else knownNow (kept ++ [d]) l

/-- Every result of a party that has its value and waits for none that has not lands (R39). -/
def completeWrites (s : State) (q : Nat) : State :=
  match s.parties.get? q with
  | none => s
  | some p =>
    match knownNow [] p.pend with
    | ([], _) => s
    | (ds, rest) =>
      applyWrites (setParty s q (ds.foldl (fun p d => releaseToken (keepReads p d) d.token) { p with pend := rest })) q
        (ds.flatMap (·.writes))

/-! ### Early reads (R33) -/

/-- The register read as one with others: a vector register that lies in one of the runs `gs` (first register, length)
stands for the run. -/
def groupKey (gs : List (Nat × Nat)) : RegKey → RegKey
  | .v r l => match gs.find? (fun g => g.1 ≤ r && r < g.1 + g.2) with
    | some g => .v g.1 l
    | none => .v r l
  | k => k

/-- The registers that a write changes, as the reader groups them. -/
def groupKeys (gs : List (Nat × Nat)) (w : RegWrite) : List RegKey := (writeKeys w).map (groupKey gs)

/-- The writes on their way, oldest first, each with the place of its result, and whether its value is known. -/
def onTheWay (l : List Pend) : List (Nat × Bool × RegWrite) :=
  l.zipIdx.flatMap (fun di => di.1.writes.map (fun w => (di.2, known di.1, w)))

/-- The first write of the same result on the same register or run: the choice made for it is made for all of them. -/
def choiceOf (gs : List (Nat × Nat)) (ws : List (Nat × Bool × RegWrite)) (w : Nat × Bool × RegWrite) : Nat :=
  (ws.findIdx? (fun v => v.1 == w.1 && groupKeys gs v.2.2 == groupKeys gs w.2.2)).getD 0

/-- The party and block as lane `l` of an instruction that issues now reads them (R33): of the writes on their way to a
register or run the lane sees those of some results, by a free choice, the older ones first (R32); of a result whose value
is not known yet it sees nothing. -/
def laneView (n : Nat) (gs : List (Nat × Nat)) (p : Party) (b : Block) (l : Nat) : Party × Block :=
  let ws := onTheWay p.pend
  let r := ws.foldl (fun (a : Party × Block × List RegKey) w =>
    let ks := groupKeys gs w.2.2
    if w.2.1 && Config.free (n + 8 * choiceOf gs ws w + l) % 2 == 1 && ks.all (fun k => !a.2.2.contains k) then
      (writeParty a.1 w.2.2, writeBlock a.2.1 w.2.2, a.2.2)
    else (a.1, a.2.1, ks ++ a.2.2)) (p, b, [])
  (r.1, r.2.1)

/-- What each lane of an issuing instruction reads (R33), the block as a bow reads it, and the free values drawn. -/
structure View where
  lane : Nat → Party
  block : Block
  draws : Nat

/-- The registers as an instruction that issues now reads them (R33), `gs` the runs of registers that it reads as one. -/
def earlyView (s : State) (gs : List (Nat × Nat)) (p : Party) (b : Block) : View :=
  { lane := fun l => (laneView s.draws gs p b l).1, block := (laneView s.draws gs p b 0).2,
    draws := s.draws + 8 * (onTheWay p.pend).length }

/-! ### Faults -/

/-- A candidate record for a context (R429); a terminated context takes none. -/
def raiseFor (s : State) (r : FaultRec) : State :=
  let c := ctxOf s r.ctx
  if c.terminated then s else setCtx s r.ctx { c with cands := c.cands ++ [r] }

/-- The record of a fault that a party raises (R426). -/
def partyRec (s : State) (q code : Nat) : FaultRec :=
  let r0 : FaultRec :=
    { code := code, async := false, term := true, req := false, w := false, level := 0, lane := 0, ctx := 0, core := 0xFFFF,
      gid := 0, detail := 0, iaddr := 0, addr := 0, aux := 0, word := 0, ticks := ticksOf s.cycle }
  match s.parties.get? q with
  | some p => { r0 with ctx := p.ctx, core := coreIx s q, gid := gidOf p }
  | none => r0

/-- A precise fault of the issuing party: the record carries its instruction, every earlier instruction of the party
completes its register writes, the party stops, and the instruction has no effect (R39, R151, R429). -/
def faultRec (s : State) (c : Cur) (r : FaultRec) : State :=
  modParty (raiseFor (completeWrites s c.q) { r with iaddr := c.iaddr, word := c.word }) c.q
    (fun p => { p with stopped := true })

/-- A precise fault without an address. -/
def fault (s : State) (c : Cur) (code : Nat) : State := faultRec s c (partyRec s c.q code)

/-- A precise fault with DETAIL. -/
def faultDetail (s : State) (c : Cur) (code : Nat) (detail : BitVec 32) : State :=
  faultRec s c { partyRec s c.q code with detail := detail }

/-- A precise fault of a lane's access (R151). -/
def faultLane (s : State) (c : Cur) (code lane level : Nat) (addr : W64) : State :=
  faultRec s c { partyRec s c.q code with lane := lane, level := level, addr := addr }

/-- Fault codes (R428). -/
def codeStall := 0x06
def codeTrap := 0x07
def codeDiverge := 0x08
def codeMisaligned := 0x10
def codeProtection := 0x11
def codeBounds := 0x12
def codeReserved := 0x13
def codePark := 0x14
def codeEscape := 0x15
def codeWalkOverflow := 0x16
def codeTag := 0x17
def codeBarrier := 0x20
def codeQueue := 0x21
def codeCounter := 0x22
def codeShape := 0x30
def codeOffline := 0x31
def codeShade := 0x40
def codePoison := 0x50
def codeLink := 0x60
def codeKilled := 0x70

/-- The code of an illegal word (R39). -/
def illegalCode : Illegal → Nat
  | .opcode => 1 | .modifier => 2 | .operand => 3 | .hint => 4 | .context => 5

/-! ### Advancing past an instruction -/

/-- The opcodes that R185 throttles. -/
def memOpcode (w : Nat) : Bool := decide (0x1C0 ≤ w % 1024) && decide (w % 1024 ≤ 0x200)

/-- An octant of a core has issued in this cycle (R184). -/
def octIssued (s : State) (core o : Nat) : State :=
  let c := coreOf s core
  setCore s core { c with octs := listModify c.octs o (fun x => { x with lastIssue := some (coreClock s core) }) }

/-- The bookkeeping of an issue: the stall of R30, the slot of R51, the hint of R34, the groups that a YIELD waits for
(R77), the octant's cycle (R184), the moment of a memory instruction (R185). -/
def noteIssue (s : State) (c : Cur) (h : Hints) : State :=
  let s1 := modParty s c.q (fun p =>
    { p with nextIssue := partyClock s c.q + max 1 h.stall.toNat, lastSlot := c.slot, yieldHint := h.yield,
             lastMem := if memOpcode c.word.toNat then some s.cycle else p.lastMem })
  let wake : Party → Party := fun p => if p.yielded.contains c.q then { p with yielded := p.yielded.filter (· != c.q) } else p
  octIssued { s1 with parties := s1.parties.map (fun (e : Nat × Party) => (e.1, wake e.2)) } (coreIx s c.q) (partyOct s c.q)

/-- The issuing fragment goes to the next instruction (R54-R56). -/
def stepPc (s : State) (c : Cur) : State :=
  modParty s c.q (fun p =>
    let k := slotIx c.slot
    match fragAt p k with
    | some f => settleFrags (putFrag p k { f with pc := nextPc f.pc })
    | none => p)

/-- The fragments that joined a group-wide issue go on in state `st` (R62). -/
def stepJoined (s : State) (c : Cur) (st : FragState) : State :=
  modParty s c.q (fun p => resumeJoined p (2 + p.spill.length) c.iaddr st)

/-- A result is issued, with the bounds that its reads have raised: its writes are held until they land, and its token is
pending (R30, R31). -/
def addRead (s : State) (c : Cur) (kind : PendKind) (token : Nat) (ws : List RegWrite) (reads : List (Nat × Nat)) : State :=
  modParty s c.q (fun p =>
    { p with pend := p.pend ++ [⟨p.serial, kind, token, c.iaddr, c.word, ws, reads⟩], serial := p.serial + 1,
             tokens := if token = 0 then p.tokens else p.tokens ||| BitVec.ofNat 8 (2 ^ token) })

/-- A result that has read no memory is issued. -/
def addPend (s : State) (c : Cur) (kind : PendKind) (token : Nat) (ws : List RegWrite) : State := addRead s c kind token ws []

/-- A token of an instruction that writes nothing is released at once (R31). -/
def addResult (s : State) (c : Cur) (kind : PendKind) (token : Nat) (ws : List RegWrite) : State :=
  match ws with
  | [] => s
  | _ => addPend s c kind token ws

/-- Fixed-latency results of latency `L` (R30). -/
def addFixed (s : State) (c : Cur) (L : Nat) (ws : List RegWrite) : State :=
  addResult s c (.fixed (partyClock s c.q + L)) 0 ws

/-- Counters (R226). -/
def ctrGet (e : Engine) (c : Counters) : Nat :=
  match e with
  | .copy => c.copy | .harp => c.harp | .pub => c.pub | .consort => c.consort | .page => c.page

def ctrSet (e : Engine) (c : Counters) (n : Nat) : Counters :=
  match e with
  | .copy => { c with copy := n } | .harp => { c with harp := n } | .pub => { c with pub := n }
  | .consort => { c with consort := n } | .page => { c with page := n }

/-- A counter rises by one (R226). -/
def ctrUp (s : State) (q : Nat) (e : Engine) : State :=
  modParty s q (fun p => { p with ctr := ctrSet e p.ctr (ctrGet e p.ctr + 1) })

/-- A counter falls by one (R226). -/
def ctrDown (s : State) (q : Nat) (e : Engine) : State :=
  modParty s q (fun p => { p with ctr := ctrSet e p.ctr (ctrGet e p.ctr - 1) })

end Sys2Proof.Machine
end

