-- ==== Sys2Proof/Machine/Order.lean ====
section
/-!
DEFINITION. The ordering machine (spec/15 R316-R327): bytes of memory and of tags by location, the coherence order of each
byte, what each visibility point has seen, buffers and bounds, and the timestamps of lines (R313).

A location is key·2^52 + pa for the byte at physical address pa under key ID key (R393), and 2^64 + l/16 for the tag of the
granule of location l (R360). `mem` holds the last byte in coherence order of every location, 0 where none is listed.
-/
namespace Sys2Proof.Machine

/-! ### Locations -/

/-- What a byte that no write has reached reads as (log entry 5). -/
def memDefault : Byte := 0

def locOf (key pa : Nat) : Nat := key % 4096 * 2 ^ 52 + pa % 2 ^ 52
def tagLoc (loc : Nat) : Nat := 2 ^ 64 + loc / 16
def paOf (loc : Nat) : Nat := loc % 2 ^ 52
def keyOf (loc : Nat) : Nat := loc / 2 ^ 52 % 4096

/-- The line of a location of data (R11). -/
def lineOf (loc : Nat) : Nat := paOf loc / 128

/-- The byte of `mem` at a location. -/
def readByte (m : AMap Byte) (a : Nat) : Byte := m.getD a memDefault

/-- `m` with a byte at a location, in canonical form. -/
def writeByte (m : AMap Byte) (a : Nat) (b : Byte) : AMap Byte := m.put a b memDefault

/-- The canonical form of memory: addresses strictly rising, nothing listed that an unlisted address reads as. -/
def Memory.wf (m : AMap Byte) : Bool := m.wf memDefault

/-- `n` bytes written from address `a` on. -/
def writeBytes (m : AMap Byte) : Nat → List Byte → AMap Byte
  | _, [] => m
  | a, b :: l => writeBytes (writeByte m a b) (a + 1) l

/-- The addresses of `n` bytes from `a` on. -/
def addrs (a n : Nat) : List Nat := (List.range n).map (a + ·)

/-- `n` bytes read from address `a` on. -/
def readBytes (m : AMap Byte) (a n : Nat) : List Byte := (List.range n).map (fun i => readByte m (a + i))

/-- The location of data that a location is or belongs to: a tag's granule (R360). -/
def dataLoc (a : Nat) : Nat := if a < 2 ^ 64 then a else (a - 2 ^ 64) * 16

/-! ### Memory ranges and ports (R391, R392) -/

/-- Ones of a number below 2^n. -/
def ones (n m : Nat) : Nat := ((List.range n).filter m.testBit).length

/-- SetBit(m, i): the position of the i-th lowest set bit of m (R311). -/
def setBitAt (n m i : Nat) : Nat := ((List.range n).filter m.testBit).getD i 0

/-- The memory range entry that serves a physical address (R391). -/
def rangeOf (s : State) (pa : Nat) : Option Nat :=
  (List.range 16).find? (fun k =>
    let m := (s.regs.mrt.getD k 0).toNat
    m % 2 == 1 && fld m 8 24 != 0 && fld m 64 22 ≤ pa / 2 ^ 30 && pa / 2 ^ 30 ≤ fld m 96 22)

/-- The CXL port of a physical address (R391). -/
def portOf (s : State) (pa : Nat) : Option Nat :=
  (rangeOf s pa).map (fun k =>
    let m := (s.regs.mrt.getD k 0).toNat
    let u := (pa - fld m 64 22 * 2 ^ 30) / (256 * 2 ^ fld m 1 3)
    setBitAt 24 (fld m 8 24) (u % ones 24 (fld m 8 24)))

/-- The port that serves a location has failed (R392). -/
def portLost (s : State) (a : Nat) : Bool :=
  !s.portsDown.isEmpty && match portOf s (paOf (dataLoc a)) with | some p => s.portsDown.contains p | none => false

/-! ### Homes (R311) -/

/-- The home die and local slice of a physical address (R311). -/
def homeOf (s : State) (pa : Nat) : Nat × Nat :=
  let fits : Nat → Bool := fun k =>
    let a := (s.regs.art.getD k 0).toNat
    a % 2 == 1 && fld a 8 4 != 0 && fld a 16 48 != 0 && fld a 64 31 ≤ pa / 2 ^ 21 % 2 ^ 31 && pa / 2 ^ 21 % 2 ^ 31 ≤ fld a 96 31
  match (List.range 64).find? fits with
  | some k =>
    let a := (s.regs.art.getD k 0).toNat
    let u := (pa - fld a 64 31 * 2 ^ 21) / 2 ^ (7 + fld a 1 4)
    let dm := fld a 8 4
    let sm := fld a 16 48
    (setBitAt 4 dm (u % ones 4 dm), setBitAt 48 sm (u / ones 4 dm % ones 48 sm))
  | none =>
    let h := pa / 128 % 2 ^ 45
    let f := (h % 65536) ^^^ (h / 65536 % 65536) ^^^ (h / 2 ^ 32 % 8192)
    (f % 4, f / 4 % 48)

/-! ### Points (R316, R317) -/

/-- The visibility point of a scope for party `q` (R316). -/
def scopePoint (s : State) (q : Nat) : Scope → Point
  | .grp => .grp q
  | .blk => .blk (coreIx s q)
  | .clu => .clu (cluOf (coreIx s q))
  | .die => .die (dieOf (coreIx s q))
  | .pkg => .pkg
  | .fab => .fab
  | .sys => .sys

/-- The chain of a path for party `q`, from the inside out (R317). Each plane line is a copy of its own: bit plane j of the unit whose
codes begin at physical line n stands in PL(die) at `.pl (die + 4·(j + 8·n))` (R398). -/
def chain (s : State) (q : Nat) : Path → List Point
  | .general => [.grp q, .blk (coreIx s q), .clu (cluOf (coreIx s q)), .die (dieOf (coreIx s q)), .pkg, .fab, .sys]
  | .ro => [.ro (coreIx s q), .clu (cluOf (coreIx s q)), .die (dieOf (coreIx s q)), .pkg, .fab, .sys]
  | .plane j => [.pl (dieOf (coreIx s q) + 4 * j), .pkg, .fab, .sys]
  | .scratch => []

/-- Parent(P) (R317): SYS has none, and a party's own point has the core that it stands on. -/
def parentOf (s : State) : Point → Option Point
  | .grp q => some (.blk (coreIx s q))
  | .blk c => some (.clu (cluOf c))
  | .clu c => some (.die (c / 18))
  | .die _ => some .pkg
  | .pkg => some .fab
  | .fab => some .sys
  | .sys => none
  | .ro c => some (.clu (cluOf c))
  | .pl _ => some .pkg

/-- The points of the general chain from GRP(q) out to the point of scope `sc`. -/
def pointsTo (s : State) (q : Nat) (sc : Scope) : List Point := (chain s q .general).take (scopeCode sc + 1)

/-- The points of the general chain from the point of scope `sc` out. -/
def pointsFrom (sc : Scope) : List Point :=
  match sc with
  | .sys => [.sys] | .fab => [.fab, .sys] | _ => [.pkg, .fab, .sys]

/-! ### Coherence order and visible sets (R318) -/

def visAt (s : State) (pt : Point) : List Nat :=
  match s.vis.find? (fun e => e.1 == pt) with | some e => e.2 | none => []

def addVis (s : State) (pt : Point) (w : Nat) : State :=
  if (visAt s pt).contains w then s
  else { s with vis := (pt, w :: visAt s pt) :: s.vis.filter (fun e => e.1 != pt) }

/-- The writes to a byte after its initial store, oldest first. -/
def coOf (s : State) (a : Nat) : List (Nat × Byte) := match s.hist.get? a with | some h => h.ws | none => []

/-- The initial store of a byte. -/
def initOf (s : State) (a : Nat) : Byte := match s.hist.get? a with | some h => h.init | none => readByte s.mem a

/-- The place of a write in the order of a byte; 0 is the initial store. -/
def coIx (s : State) (a w : Nat) : Nat :=
  match (coOf s a).findIdx? (fun e => e.1 == w) with | some i => i + 1 | none => 0

/-- Latest(P, b) (R318): the write and its byte; write 0 is the initial store. -/
def latest (s : State) (pt : Point) (a : Nat) : Nat × Byte :=
  let seen := visAt s pt
  (coOf s a).foldl (fun r e => if seen.contains e.1 then e else r) (0, initOf s a)

/-- The last write in coherence order. -/
def lastWrite (s : State) (a : Nat) : Nat × Byte := ((coOf s a).getLast?).getD (0, initOf s a)

/-- Key generations (R394): the owner tag of a line written under a key. -/
def ownerCode (s : State) (key : Nat) : Nat := key + 4096 * s.keyGen.getD key 0

/-- The line holds data of another key or of a retired generation: its plaintext under this key is not defined (R393,
R394). -/
def foreign (s : State) (loc : Nat) : Bool :=
  match s.owner.get? (lineOf (dataLoc loc)) with
  | some o => o != ownerCode s (keyOf (dataLoc loc))
  | none => false

/-- A byte of a line that is foreign to its key: a free value (log entry 9). -/
def foreignByte (s : State) (a : Nat) : Byte :=
  let x := Config.freeAt s.draws a
  BitVec.ofNat 8 (if a < 2 ^ 64 then x else x % 16)

/-- The tag location of the granule that holds a location of data or is one of a tag (R360). -/
def granTag (a : Nat) : Nat := if a < 2 ^ 64 then tagLoc a else a

/-- The frame of a tag location: key·2^40 + pa / 4096. -/
def tagFrame (t : Nat) : Nat := (t - 2 ^ 64) / 256

/-- The nearest granule with S = 1 at or below a tag location in its frame, `n` granules read at most. -/
def startIn (s : State) (t n : Nat) : Option Nat :=
  ((List.range (min n (t % 256 + 1))).find? (fun i => (lastWrite s (t - i)).2.toNat % 2 == 1)).map (fun i => t - i)

/-- A run of pages with TG (first page, first frame, how many) holds a frame. -/
def runHolds (f : Nat) (e : Nat × Nat × Nat) : Bool := decide (e.2.1 ≤ f) && decide (f < e.2.1 + e.2.2)

/-- The frames of the pages before those of a frame, in virtual addresses, that have TG (R361). -/
def framesBefore (s : State) (f : Nat) : List Nat :=
  (s.tgPages.filter (runHolds f)).filterMap (fun e =>
    let v := e.1 + (f - e.2.1)
    if v % 2 ^ 45 = 0 then none
    else (s.tgPages.find? (fun g => decide (g.1 < v) && decide (v ≤ g.1 + g.2.2))).map (fun g => g.2.1 + (v - 1 - g.1)))

/-- The tag location of the start granule of the container of a location (R361): the nearest granule with S = 1 at or below
it, among 256 in increasing virtual address. A byte of a page without TG has no tag and no container (R360, R361). -/
def startOf (s : State) (a : Nat) : Option Nat :=
  let t := granTag a
  if s.creator.isEmpty || !s.tgPages.any (runHolds (tagFrame t)) then none
  else
    match startIn s t 256 with
    | some g => some g
    | none => (framesBefore s (tagFrame t)).findSome? (fun f => startIn s (2 ^ 64 + 256 * f + 255) (255 - t % 256))

/-- A private byte or tag (R362, R363). -/
def isPrivate (s : State) (a : Nat) : Bool :=
  match startOf s a with
  | some g => (lastWrite s g).2.toNat / 2 % 2 == 0
  | none => false

/-- The party created the container of a location (R362). -/
def createdBy (s : State) (q a : Nat) : Bool :=
  match startOf s a with
  | some g => s.creator.get? g == some q
  | none => false

/-- A private byte of another party's: a load of it may return any write to it (R363). -/
def loosePrivate (s : State) (q a : Nat) : Bool := isPrivate s a && !createdBy s q a

/-- Any write to a byte, or its initial store, by a free value. -/
def anyWrite (s : State) (a : Nat) : Byte :=
  let l := initOf s a :: (coOf s a).map (·.2)
  l.getD (Config.freeAt s.draws a % l.length) 0

/-- A write under a key reaches a line that was last written under another: the bytes and tags of the line, as this key
reads them, are free values from now on (R393; log entry 9). -/
def takeLine (s : State) (a : Nat) : State :=
  if foreign s a then
    let l := dataLoc a / 128 * 128
    let as := (List.range 128).map (l + ·) ++ (List.range 8).map (fun i => tagLoc l + i)
    let m := as.foldl (fun m x => writeByte m x (foreignByte s x)) s.mem
    { s with mem := m, hist := as.foldl (fun (h : AMap Hist) x => h.erase x) s.hist, draws := s.draws + 1,
             owner := s.owner.insert (lineOf l) (ownerCode s (keyOf l)) }
  else s

/-- The line of a location of data was last written under the key of the location (R393). -/
def ownLineOf (s : State) (a : Nat) : State :=
  if a < 2 ^ 64 then { s with owner := s.owner.insert (lineOf a) (ownerCode s (keyOf a)) } else s

/-- A cell of write number `w`. -/
def writeCell (w : Nat) (s : State) (c : Nat × Byte) : State :=
  let h : Hist := ⟨initOf s c.1, coOf s c.1 ++ [(w, c.2)]⟩
  ownLineOf { s with hist := s.hist.insert c.1 h, mem := writeByte s.mem c.1 c.2 } c.1

/-- Writes that are dropped behind a failed port are logged (R392). -/
def dropCells (s : State) (lost : List (Nat × Byte)) : State :=
  { s with dropped := lost.foldl (fun l c => if l.contains (lineOf (dataLoc c.1)) then l else l ++ [lineOf (dataLoc c.1)]) s.dropped }

/-- A performed write of some cells, visible at `pts`: its number and the state after it. What lies behind a failed port is
dropped and logged (R392). -/
def performCells (s : State) (cells : List (Nat × Byte)) (pts : List Point) : Nat × State :=
  let w := s.nextWrite
  let kept := cells.filter (fun c => !portLost s c.1)
  let s0 := dropCells s (cells.filter (fun c => portLost s c.1))
  let s1 := kept.foldl (writeCell w) (kept.foldl (fun s c => takeLine s c.1) s0)
  (w, pts.foldl (fun s p => addVis s p w) { s1 with nextWrite := w + 1 })

/-! ### Bounds (R318) -/

def pathCode : Path → Nat
  | .general => 0 | .ro => 1 | .plane _ => 2 | .scratch => 3

def bndKey (path : Path) (a : Nat) : Nat := 4 * a + pathCode path

/-- The bounds of a party: those that stand, and those that its loads on their way have raised. -/
def boundsOf (p : Party) : List (Nat × Nat) := p.bnd ++ p.pend.flatMap (·.reads)

/-- The bound of a byte: of the bounds raised, the latest in its order. -/
def boundOf (s : State) (q : Nat) (path : Path) (a : Nat) : Nat :=
  match s.parties.get? q with
  | some p => (p.pend.flatMap (·.reads)).foldl (fun w e => if e.1 = bndKey path a ∧ coIx s a w < coIx s a e.2 then e.2 else w)
      (p.bnd.getD (bndKey path a) 0)
  | none => 0

/-- A bound is raised to `w` where that is later in the byte's order. -/
def raiseBound (s : State) (q : Nat) (path : Path) (a w : Nat) : State :=
  if coIx s a w ≤ coIx s a (boundOf s q path a) then s
  else modParty s q (fun p => { p with bnd := p.bnd.put (bndKey path a) w 0 })

/-- Refresh(q, P) on a path's bounds from the point `pt` (R319); private bytes take no part (R363). -/
def refreshAt (s : State) (q : Nat) (path : Path) (pt : Point) : State :=
  (s.hist.map (·.1)).foldl (fun s a => if isPrivate s a then s else raiseBound s q path a (latest s pt a).1) s

/-- Refresh(q, S) (R319). -/
def refresh (s : State) (q : Nat) (sc : Scope) : State := refreshAt s q .general (scopePoint s q sc)

/-- Lexicographic order of stamps (R323). -/
def stampLe (a b : Nat × Nat) : Bool := a.1 < b.1 || (a.1 == b.1 && a.2 ≤ b.2)

/-- The place of an SC operation of a core that takes effect now (R323). -/
def scPlace (s : State) (core : Nat) : Nat × Nat := ((coreOf s core).pts, core)

/-- A stamp is strictly later than a place. -/
def stampLate (t u : Nat × Nat) : Bool := !stampLe u t

/-- The points as they stand at a place of the SC order: without the writes whose stamps are later (R323). -/
def earlier (s : State) (t : Nat × Nat) : State :=
  let late : Nat → Bool := fun w => match s.stamps.get? w with | some u => stampLate t u | none => false
  { s with vis := s.vis.map (fun e => (e.1, e.2.filter (fun w => !late w))) }

/-- Refresh(q, S) from the points as they stand at a place of the SC order. -/
def refreshFrom (s : State) (q : Nat) (sc : Scope) (t : Nat × Nat) : State := { refresh (earlier s t) q sc with vis := s.vis }

/-- The Refresh steps that parties have taken at later places of the SC order come after a step at place `t`, so that they bring
what every point holds at that place (R323). -/
def refreshLater (s : State) (q : Nat) (t : Nat × Nat) : State :=
  s.parties.foldl (fun u e => if e.1 = q then u else
    e.2.scs.foldl (fun u x => if stampLate t x.2 then refreshFrom u e.1 x.1 t else u) u) s

/-- Refresh(q, S) of an SC operation, at its place (R323). -/
def refreshSc (s : State) (q : Nat) (sc : Scope) (t : Nat × Nat) : State :=
  refreshLater (modParty (refreshFrom s q sc t) q (fun p => { p with scs := (sc, t) :: p.scs.filter (fun x => x.1 != sc) })) q t

/-- PFENCE on one path (R333): its bounds rise to the general bounds. -/
def refreshPath (s : State) (q : Nat) (path : Path) : State :=
  match s.parties.get? q with
  | none => s
  | some p => (boundsOf p).foldl (fun s e => if e.1 % 4 = 0 then raiseBound s q path (e.1 / 4) e.2 else s) s

/-! ### Buffers (R318, R320) -/

/-- The byte of the newest buffered store that covers a location (R320 rule 1). -/
def bufByte (buf : List BufEntry) (a : Nat) : Option Byte :=
  buf.foldl (fun r e => match e.cells.find? (fun c => c.1 == a) with | some c => some c.2 | none => r) none

/-- The lane access may be read from point `pt`: no byte's latest write there is older than the bound (R320 rule 3). -/
def qualifies (s : State) (q : Nat) (path : Path) (pt : Point) (as : List Nat) : Bool :=
  as.all (fun a => coIx s a (boundOf s q path a) ≤ coIx s a (latest s pt a).1)

/-- The source point of a lane's access: the innermost that qualifies (R320 rule 3). -/
def sourcePoint (s : State) (q : Nat) (path : Path) (as : List Nat) : Option Point :=
  (chain s q path).find? (fun pt => qualifies s q path pt as)

/-- The buffer of a party on the path. -/
def bufOf (s : State) (q : Nat) (path : Path) : List BufEntry :=
  match s.parties.get? q, path with
  | some p, .general => p.buf
  | some p, .scratch => p.sbuf
  | _, _ => []

/-- What comes of a read made for an instruction or an engine: a value, the state after a fault or a park, or
nothing yet. -/
inductive ReadRes (α : Type)
  | ok (v : α) (s : State)
  | stop (s : State)
  | wait

/-- Read (R320) of the bytes `as` of one lane: none where the load waits; else the bytes, the bounds raised. A byte whose
line holds data of another key is a free value (log entry 9); one private to another party is any write to it (R363): the
same value wherever an instruction reads that byte. -/
def readCells (s : State) (q : Nat) (path : Path) (as : List Nat) : Option (List Byte × State) :=
  let buf := bufOf s q path
  let free := as.filter (fun a => (bufByte buf a).isNone && (foreign s a || loosePrivate s q a))
  let rest := as.filter (fun a => (bufByte buf a).isNone && !free.contains a)
  match (if rest.isEmpty then some .sys else sourcePoint s q path rest) with
  | none => none
  | some pt =>
    let bytes := as.map (fun a => match bufByte buf a with
      | some b => b
      | none =>
        if !free.contains a then (latest s pt a).2
        else if foreign s a then foreignByte s a
        else anyWrite s a)
    let s1 := rest.foldl (fun s a => raiseBound s q path a (latest s pt a).1) s
    some (bytes, if free.isEmpty then s1 else { s1 with draws := s1.draws + 1 })

/-- The bounds that a load of `q` has raised between `s` and `s1`, and `s1` without them: they stand with its result until that is
written (R320, R423). -/
def holdReads (s s1 : State) (q : Nat) : List (Nat × Nat) × State :=
  match s.parties.get? q, s1.parties.get? q with
  | some p, some p1 => (p1.bnd.filter (fun e => p1.bnd.get? e.1 != p.bnd.get? e.1), modParty s1 q (fun x => { x with bnd := p.bnd }))
  | _, _ => ([], s1)

/-! ### Release and acquire (R319, R322) -/

/-- The general bound of every byte of `q` that is not private has reached the S point. -/
def boundsReady (s : State) (q : Nat) (sc : Scope) : Bool :=
  match s.parties.get? q with
  | none => true
  | some p => (boundsOf p).all (fun e => e.1 % 4 != 0 || isPrivate s (e.1 / 4) || coIx s (e.1 / 4) e.2 ≤ coIx s (e.1 / 4) (latest s (scopePoint s q sc) (e.1 / 4)).1)

/-- ReleaseReady(q, S) (R319, R322): what the party issued is performed, its bounds have reached the point, and at .BLK or
wider its scratchpad buffer is empty. -/
def releaseReady (s : State) (q : Nat) (sc : Scope) : Bool :=
  match s.parties.get? q with
  | none => true
  | some p => p.buf.isEmpty && (p.sbuf.isEmpty || sc == .grp) && boundsReady s q sc

/-! ### Timestamps (R313) -/

def leaseOf (s : State) (die : Nat) : Nat := max 1 (s.regs.lease.getD die 64)

/-- A store performed at the home of a line by the device itself: it comes after every lease (R313). -/
def stampHome (s : State) (line : Nat) : State :=
  let t := s.ts.getD line (0, 0)
  { s with ts := s.ts.insert line (t.2 + 1, t.2 + 1) }

/-- A store performed at the home of a line by a core, whose own copy is new (R313). -/
def stampStore (s : State) (core line : Nat) : State :=
  let t := s.ts.getD line (0, 0)
  let c := coreOf s core
  let w := max c.pts (t.2 + 1)
  setCore { s with ts := s.ts.insert line (w, w) } core
    { c with pts := w, l1 := c.l1.map (fun l => if l.pline = line then { l with rts := w } else l) }

/-- A fill of a line by a core, its copy's lease end beside it (R313). -/
def stampFill (s : State) (core line : Nat) : Nat × State :=
  let t := s.ts.getD line (0, 0)
  let c := coreOf s core
  let p := max c.pts t.1
  let r := max t.2 (p + leaseOf s (dieOf core))
  (r, setCore { s with ts := s.ts.insert line (t.1, r) } core { c with pts := p })

/-- The lines of data that cells lie in. -/
def linesOf (cells : List (Nat × Byte)) : List Nat :=
  (cells.filter (fun c => c.1 < 2 ^ 64)).foldl (fun l c => if l.contains (lineOf c.1) then l else l ++ [lineOf c.1]) []

/-- A performed write of a party (Perform, R319): coherence order, visibility at `pts`, the issuer's bounds, time. -/
def performAt (s : State) (q : Nat) (cells : List (Nat × Byte)) (pts : List Point) : Nat × State :=
  let r := performCells s cells pts
  let s1 := cells.foldl (fun s c => raiseBound s q .general c.1 r.1) r.2
  let s2 := (linesOf cells).foldl (fun s l => stampStore s (coreIx s q) l) s1
  (r.1, { s2 with stamps := s2.stamps.insert r.1 (scPlace s2 (coreIx s2 q)) })

/-! ### Tags (R360) -/

/-- The byte that a tag operation leaves, from the byte before it. -/
def tagAfter (o : TagOp) (old : Byte) : Byte :=
  match o with
  | .mask _ keep set => (old &&& keep) ||| set
  | .term _ => if old &&& 1 = 0 then (old ||| 1) &&& 13 else old

def tagAt : TagOp → Nat
  | .mask a _ _ | .term a => a

/-- The cells of tag operations, each taken after the one before it, over the last write of each location. -/
def tagCells (s : State) (ops : List TagOp) : List (Nat × Byte) :=
  ops.foldl (fun l o =>
    let old := match l.find? (fun c => c.1 == tagAt o) with | some c => c.2 | none => (lastWrite s (tagAt o)).2
    l.filter (fun c => c.1 != tagAt o) ++ [(tagAt o, tagAfter o old)]) []

/-- A tag byte with the party's own buffered operations on it applied. -/
def tagThrough (buf : List BufEntry) (a : Nat) (b : Byte) : Byte :=
  buf.foldl (fun b e => e.tags.foldl (fun b o => if tagAt o = a then tagAfter o b else b) b) b

/-- A load of a tag location on the general path (R320, R367): none where it waits. -/
def readTag (s : State) (q : Nat) (a : Nat) : Option (Byte × State) :=
  match readCells s q .general [a] with
  | some ([b], s1) => some (tagThrough (bufOf s q .general) a b, s1)
  | _ => none

/-! ### Buffer entries -/

/-- A store or RED enters a party's buffer (R318). -/
def pushBuf (s : State) (q : Nat) (path : Path) (kind : BufKind) (cells : List (Nat × Byte)) (tags : List TagOp)
    (rel : Option Scope) (combined : Bool) : State :=
  modParty s q (fun p =>
    let e : BufEntry := ⟨p.serial, kind, cells, tags, rel, combined⟩
    match path with
    | .scratch => { p with sbuf := p.sbuf ++ [e], serial := p.serial + 1 }
    | _ => { p with buf := p.buf ++ [e], serial := p.serial + 1 })

/-- The bytes that an entry touches. -/
def entryBytes (e : BufEntry) : List Nat :=
  e.cells.map (·.1) ++ e.tags.map tagAt ++
  (match e.kind with
   | .red _ ty a _ _ => (List.range (tyWidth ty / 8)).map (a + ·)
   | _ => [])

/-- R321: no older entry touches one of its bytes; a release also waits until everything older is performed. -/
def mayPerform (s : State) (q : Nat) (older : List BufEntry) (e : BufEntry) : Bool :=
  older.all (fun o => (entryBytes o).all (fun a => !(entryBytes e).contains a)) && !e.combined &&
  match e.rel with
  | none => true
  | some sc => older.isEmpty && boundsReady s q sc &&
      (sc == .grp || (match s.parties.get? q with | some p => p.sbuf.isEmpty | none => true))

/-! ### Device reads and writes -/

/-- A byte that the device reads at a point. -/
def devByte (s : State) (pt : Point) (a : Nat) : Byte := if foreign s a then foreignByte s a else (latest s pt a).2

/-- A little-endian number that the device reads at the PKG point (R295). -/
def readPkg (s : State) (loc n : Nat) : Nat := leNat ((List.range n).map (fun i => devByte s .pkg (loc + i)))

/-- A little-endian number read at the SYS point (R412). -/
def readSys (s : State) (loc n : Nat) : Nat := leNat ((List.range n).map (fun i => devByte s .sys (loc + i)))

/-- Cells of a little-endian number. -/
def cellsOf (loc : Nat) (bytes : List Byte) : List (Nat × Byte) := bytes.zipIdx.map (fun bi => (loc + bi.2, bi.1))

/-- The histories of the bytes at some locations are forgotten: their initial store is `b` (R395). -/
def resetBytes (s : State) (as : List Nat) (b : Byte) : State :=
  as.foldl (fun s a => { s with hist := s.hist.erase a, mem := writeByte s.mem a b }) s

end Sys2Proof.Machine
end

