-- ==== Sys2Proof/Machine/Lines.lean ====
section
/-!
DEFINITION. Lines and the dies that hold them (spec/18 R378-R389; spec/15 R309): the home-die directory, its entries and their
splits, what a request, a forward, an invalidation, a write-back and a back-invalidation do, and how an access of a die comes
to hold its line. The directory and memory together are the PKG point (R389): a line that a die comes to hold brings to its
points the latest write that any die has made to it.
-/
namespace Sys2Proof.Machine

/-! ### Lines of the caches of a core -/

/-- Lines leave an L1 and enter its victim tags, first in, first out (R185). -/
def dropL1 (s : State) (core : Nat) (f : L1Line → Bool) : State :=
  let c := coreOf s core
  let v := c.victims ++ (c.l1.filter f).map (·.pline)
  setCore s core { c with l1 := c.l1.filter (fun l => !f l), victims := v.drop (v.length - 4096) }

/-- Lines of an L1 are written back (R164). -/
def writeBackL1 (s : State) (core : Nat) (f : L1Line → Bool) : State :=
  let c := coreOf s core
  setCore s core { c with l1 := c.l1.map (fun l => if f l then { l with dirty := false } else l) }

/-- Lines of a read-only cache leave it (R164). -/
def dropRo (s : State) (core : Nat) (f : RoLine → Bool) : State :=
  let c := coreOf s core
  setCore s core { c with ro := c.ro.filter (fun l => !f l) }

/-! ### Entries and what dies hold (R379-R381) -/

/-- I < S < E < O < M (R380). -/
def stRank : DirSt → Nat
  | .i => 0 | .s => 1 | .e => 2 | .o => 3 | .m => 4

/-- What a die holds of a line. -/
def heldBy (s : State) (d line : Nat) : DirSt := s.dieLine.getD (4 * line + d) .i
def setHeldBy (s : State) (d line : Nat) (x : DirSt) : State := { s with dieLine := s.dieLine.put (4 * line + d) x .i }

/-- The sectors of a line that a die's slices hold (R309). -/
def sectorsAt (s : State) (d line : Nat) : BitVec 8 := s.sectors.getD (4 * line + d) 0
def setSectors (s : State) (d line : Nat) (x : BitVec 8) : State := { s with sectors := s.sectors.put (4 * line + d) x 0 }

/-- Every copy of a line leaves a die: its slices' sectors, its L1 lines and its read-only lines (R384). -/
def dropCopies (s : State) (d line : Nat) : State :=
  let s1 := (s.cores.map (fun e => e.1)).foldl (fun s c =>
    if dieOf c = d then dropRo (dropL1 s c (fun l => l.pline == line)) c (fun l => l.pline == line) else s) s
  setSectors (setHeldBy s1 d line .i) d line 0

/-! ### The data of a line (R382, R389) -/

/-- The points within the dies and the package (R317). -/
def insidePoint : Point → Bool
  | .fab | .sys | .pl _ => false
  | _ => true

/-- The latest write to a byte that has been made in the package. -/
def homeLatest (s : State) (a : Nat) : Nat :=
  (coOf s a).foldl (fun r e => if s.vis.any (fun v => insidePoint v.1 && (visAt s v.1).contains e.1) then e.1 else r) 0

/-- The data of a line, with its tags, comes to some points: the latest writes made in the package. -/
def passLine (s : State) (line : Nat) (pts : List Point) : State :=
  let ws := ((s.hist.map (fun e => e.1)).filter (fun a => lineOf (dataLoc a) == line)).map (homeLatest s)
  (ws.eraseDups.filter (fun w => w != 0)).foldl (fun s w => pts.foldl (fun s pt => addVis s pt w) s) s

/-- A point within the compute die `d`, its plane partition apart. -/
def inDie (s : State) (d : Nat) : Point → Bool
  | .grp q => dieOf (coreIx s q) == d
  | .blk c | .ro c => dieOf c == d
  | .clu c => c / 18 == d
  | .die x => x == d
  | _ => false

/-- The points of a die that a copy of a line may stand at: its own, those of the cores on which parties stand, and every other
at which a write has been seen. -/
def diePoints (s : State) (d : Nat) : List Point :=
  let here := .die d :: (s.parties.map (fun e => e.1)).flatMap (fun q =>
    let c := coreIx s q
    if dieOf c = d then [.grp q, .blk c, .ro c, .clu (cluOf c)] else [])
  here ++ (s.vis.map (fun e => e.1)).filter (fun pt => inDie s d pt && !here.contains pt)

def owns (x : DirSt) : Bool := x == .e || x == .o || x == .m
def recorded (e : DirEntry) (d : Nat) : DirSt := e.st.getD d .i

/-- The home die of a line (R311). -/
def homeDie (s : State) (line : Nat) : Nat := (homeOf s (128 * line)).1

def covers (e : DirEntry) (line : Nat) : Bool := decide (e.base ≤ 128 * line) && decide (128 * line < e.base + 2 ^ e.k)

/-- The entry that covers a line (R380). -/
def entryOf (s : State) (line : Nat) : Option DirEntry :=
  (s.dir.find? (fun e => e.1 == homeDie s line && covers e.2 line)).map (fun e => e.2)

def isEntry (home : Nat) (x : DirEntry) (e : Nat × DirEntry) : Bool := e.1 == home && e.2.base == x.base && e.2.k == x.k

/-- An entry is replaced by others. -/
def swapEntry (s : State) (home : Nat) (x : DirEntry) (ys : List DirEntry) : State :=
  { s with dir := s.dir.filter (fun e => !isEntry home x e) ++ ys.map (fun y => (home, y)) }

/-- The halves of an entry down to the line's own (R381). -/
def halves (line : Nat) : Nat → Nat → DirEntry → List DirEntry
  | 0, _, e => [e]
  | n + 1, base, e =>
    if e.k ≤ 7 then [e]
    else
      let h := 2 ^ (e.k - 1)
      let low := { e with base := base, k := e.k - 1 }
      let high := { e with base := base + h, k := e.k - 1 }
      if 128 * line < base + h then high :: halves line n base low else low :: halves line n (base + h) high

def splitFor (line : Nat) (e : DirEntry) : List DirEntry := halves line 9 e.base e

/-- The set of an entry has room for one more (R380, R388). -/
def setOf (base : Nat) : Nat := Config.dirSet base % 8192
def setRoom (s : State) (home base : Nat) : Bool :=
  let mine := s.dir.filter (fun e => e.1 == home)
  decide (mine.length < 16) || decide ((mine.filter (fun e => setOf e.2.base == setOf base)).length < 16)

/-- The entries can stand beside those that are there, once `x` is gone. -/
def roomFor (s : State) (home : Nat) (x : Option DirEntry) (ys : List DirEntry) : Bool :=
  let s0 := match x with | some e => swapEntry s home e [] | none => s
  (ys.foldl (fun (a : State × Bool) y => ({ a.1 with dir := (home, y) :: a.1.dir }, a.2 && setRoom a.1 home y.base)) (s0, true)).2

/-! ### Serving a request (R382, R386, R387) -/

def reqsOf (s : State) (line : Nat) : List DirReq := s.dirReqs.getD line []
def setReqs (s : State) (line : Nat) (l : List DirReq) : State := { s with dirReqs := s.dirReqs.put line l [] }

/-- The other dies that an entry records so. -/
def othersIn (e : DirEntry) (d : Nat) (f : DirSt → Bool) : List Nat :=
  (List.range 4).filter (fun (x : Nat) => x != d && f (recorded e x))

/-- The kind under which a request is served (R387): an Upgrade only from a die recorded in S or O, while no other die owns
the line. -/
def servedKind (e : DirEntry) (r : DirReq) : DirKind :=
  let mine := recorded e r.d
  if r.kind = .upgrade ∧ !((mine == .s || mine == .o) && (othersIn e r.d owns).isEmpty) then .readM else r.kind

/-- The states of the dies once a request has ended (R382); `x` is the die that answered a forward, with what is left
there. -/
def afterReq (e : DirEntry) (k : DirKind) (d : Nat) (x : Option (Nat × DirSt)) : List DirSt :=
  (List.range 4).map (fun (i : Nat) =>
    if k = .readS then
      let others := othersIn e d (fun y => y != .i)
      let alone := match x with | some (w, .i) => others.all (fun o => o == w) | _ => others.isEmpty
      if i = d then (if alone then .e else .s)
      else match x with | some (w, y) => if i = w then y else recorded e i | none => recorded e i
    else if i = d then .m else .i)

/-- What the home expects of a forward while it is under way. -/
def expected (e : DirEntry) (k : DirKind) (d : Nat) : Option (Nat × DirSt) :=
  match othersIn e d owns with
  | x :: _ => some (x, if k = .readS then (if recorded e x = .e then .s else .o) else .i)
  | [] => none

/-- The recorded state of some die would change: the requester's only where it rises above the bound (R380, R381). -/
def wouldChange (e : DirEntry) (d : Nat) (l : List DirSt) : Bool :=
  (List.range 4).any (fun (i : Nat) =>
    let n := l.getD i .i
    if i = d then decide (stRank (recorded e i) < stRank n) else n != recorded e i)

/-- What the home sends for a request (R382). -/
def sends (e : DirEntry) (r : DirReq) : DirReq :=
  let k := servedKind e r
  let shared := othersIn e r.d (fun x => x == .s)
  let own := othersIn e r.d owns
  match k with
  | .readS => { r with kind := k, served := true, fwd := own.head?, data := own.isEmpty }
  | .readM => { r with kind := k, served := true, fwd := own.head?, toInv := shared, data := own.isEmpty }
  | .upgrade => { r with kind := k, served := true, toInv := shared, data := true }

/-- R386: of the requests for ownership that came in one cycle, the first die at or after the pointer is first, and the
others follow in that order, each as a ReadM that waits for an access of the die before it; the pointer moves once. -/
def rotateReqs (s : State) (line : Nat) (l : List DirReq) : State × List DirReq :=
  match l with
  | [] => (s, [])
  | r :: _ =>
    let same : DirReq → Bool := fun x => x.came == r.came && x.kind != .readS && x.after.isNone
    let g := l.filter same
    if r.kind = .readS ∨ g.length < 2 then (s, l)
    else
      let key := 16 * homeDie s line + Config.dirSet (128 * line) % 16
      let ptr := s.dirPtr.getD key 0
      let order := ((List.range 4).map (fun (i : Nat) => (ptr + i) % 4)).filterMap (fun d => g.find? (fun x => x.d == d))
      match order with
      | w :: ls =>
        let behind := (w :: ls).zip ls |>.map (fun x => { x.2 with kind := DirKind.readM, after := some x.1.d })
        ({ s with dirPtr := s.dirPtr.insert key ((w.d + 1) % 4) }, w :: behind ++ l.filter (fun x => !same x))
      | [] => (s, l)

/-- A back-invalidation that covers a line is under way (R388). -/
def backing (s : State) (line : Nat) : Bool :=
  s.backInvs.any (fun b => b.home == homeDie s line && decide (b.base ≤ 128 * line) && decide (128 * line < b.base + 2 ^ b.k))

/-- How the request at the head of a line's queue is served: the state with the queue in its order, the request as it is then
under way, the requests behind it, the entry that serves it and the entries that replace that one (R380-R382, R386). -/
structure Plan where
  s : State
  r : DirReq
  l : List DirReq
  old : Option DirEntry
  new : List DirEntry

/-- The plan for the head of a queue that is not yet served. -/
def planOf (s : State) (line : Nat) : Option Plan :=
  let rot := rotateReqs s line (reqsOf s line)
  match rot.2 with
  | [] => none
  | r :: l =>
    match entryOf rot.1 line with
    | none =>
      let x : DirEntry := { base := 128 * line / 65536 * 65536, k := 16, st := [.i, .i, .i, .i], last := dieClock s (homeDie s line) }
      some ⟨rot.1, sends x r, l, none, [{ x with st := afterReq x (servedKind x r) r.d none }]⟩
    | some e =>
      let e1 := { e with last := dieClock s (homeDie s line) }
      let k := servedKind e r
      some ⟨rot.1, sends e r, l, some e,
        if 7 < e.k ∧ wouldChange e r.d (afterReq e k r.d (expected e k r.d)) then splitFor line e1 else [e1]⟩

/-- The directory has room for a plan. -/
def planFits (p : Plan) (line : Nat) : Bool := roomFor p.s (homeDie p.s line) p.old p.new

/-- The directory once a plan is carried out. -/
def planDone (p : Plan) (line : Nat) : State :=
  let home := homeDie p.s line
  match p.old with
  | none => { p.s with dir := p.s.dir ++ p.new.map (fun y => (home, y)) }
  | some e => swapEntry p.s home e p.new

/-- The request at the head of a line's queue is under way or is served from now on, where it can be: no back-invalidation and
no granted write-back of the line is under way, its entries have room and, unless `early`, the cycle in which it came is
over. -/
def serveWhen (early : Bool) (s : State) (line : Nat) : Option (State × DirReq × List DirReq) :=
  match reqsOf s line with
  | [] => none
  | r0 :: l0 =>
    if r0.served then some (s, r0, l0)
    else if (!early && decide (s.cycle ≤ r0.came)) || backing s line || s.victims.any (fun v => v.line == line && v.st == .granted) then none
    else match planOf s line with
      | some p => if planFits p line then some (planDone p line, p.r, p.l) else none
      | none => none

/-- The head request after a change of it. -/
def putHead (s : State) (line : Nat) (r : DirReq) (l : List DirReq) : State := setReqs s line (r :: l)

/-- A request reaches its home bank. -/
def askHome (s : State) (line : Nat) (k : DirKind) (d : Nat) : State :=
  setReqs s line (reqsOf s line ++ [⟨k, d, s.cycle, false, none, [], [], false, none, none⟩])

/-- What stands in place of an entry once the states that a request leaves behind are recorded; the entry is split first where
that changes one (R381). -/
def recorded2 (line : Nat) (r : DirReq) (e : DirEntry) : List DirEntry :=
  let new := afterReq e r.kind r.d r.left
  if wouldChange e r.d new then
    (splitFor line e).map (fun y => if covers y line then { y with st := new } else y)
  else if e.k = 7 then [{ e with st := new }]
  else [e]

/-- The states that a request leaves behind are recorded. -/
def record (s : State) (line : Nat) (r : DirReq) : State :=
  match entryOf s line with
  | none => s
  | some e => swapEntry s (homeDie s line) e (recorded2 line r e)

/-- There is room for the entries that the record of a request needs (R388). -/
def recordFits (s : State) (line : Nat) (r : DirReq) : Bool :=
  match entryOf s line with
  | none => true
  | some e => roomFor s (homeDie s line) (some e) (recorded2 line r e)

/-! ### Messages of a request under way (R382-R384) -/

/-- FwdS at die `x`: its line, the sectors of its L1s merged, goes to the requester, and its copies stay, read-only. -/
def fwdSTo (s : State) (line x : Nat) (r : DirReq) (l : List DirReq) : State :=
  let h := heldBy s x line
  let y : DirSt := if h = .o ∨ h = .m then .o else .s
  putHead (setHeldBy (passLine s line [.die x, .pkg]) x line y) line { r with fwd := none, data := true, left := some (x, y) } l

/-- FwdM at die `x`: its line goes to the requester with the duty to write it back, and every copy leaves the die. -/
def fwdMTo (s : State) (line x : Nat) (r : DirReq) (l : List DirReq) : State :=
  let dirty := sectorsAt s x line
  let s1 := dropCopies (passLine s line [.die x, .pkg]) x line
  putHead (setSectors s1 r.d line (sectorsAt s1 r.d line ||| dirty)) line { r with fwd := none, data := true, left := some (x, .i) } l

/-- A die that no longer holds the line answers Miss, and the home serves the request from memory (R383). -/
def missAt (s : State) (line x : Nat) (r : DirReq) (l : List DirReq) : State :=
  putHead s line { r with fwd := none, data := true, left := some (x, .i) } l

/-- Inv at die `d`: every copy leaves it, and its acknowledgement is on its way. -/
def invAt (s : State) (line d : Nat) (r : DirReq) (l : List DirReq) : State :=
  putHead (dropCopies s d line) line { r with toInv := r.toInv.filter (fun x => x != d), toAck := r.toAck ++ [d] } l

/-- An acknowledgement reaches the requester. -/
def ackFrom (s : State) (line d : Nat) (r : DirReq) (l : List DirReq) : State :=
  putHead s line { r with toAck := r.toAck.filter (fun x => x != d) } l

/-- The requester has its data and every acknowledgement. -/
def answered (r : DirReq) : Bool := r.data && r.fwd.isNone && r.toInv.isEmpty && r.toAck.isEmpty

/-- Done: the states settle; a die that held nothing of the line has its data from now on (R382). -/
def finishReq (s : State) (line : Nat) (r : DirReq) (l : List DirReq) : State :=
  let got : DirSt := match r.kind, entryOf s line with
    | .readS, some e => (afterReq e .readS r.d r.left).getD r.d .s
    | _, _ => .m
  let s1 := if heldBy s r.d line = .i then passLine s line (.pkg :: diePoints s r.d) else s
  let s2 := setSectors s1 r.d line (sectorsAt s1 r.d line ||| 15)
  setReqs (setHeldBy (record s2 line r) r.d line got) line l

/-! ### Write-backs (R385) -/

def setVictim (s : State) (d line : Nat) (x : WbSt) : State :=
  { s with victims := s.victims.map (fun v => if v.d == d && v.line == line then { v with st := x } else v) }

def dropVictim (s : State) (d line : Nat) : State :=
  { s with victims := s.victims.filter (fun v => !(v.d == d && v.line == line)) }

def isOwner (s : State) (d line : Nat) : Bool :=
  match entryOf s line with | some e => owns (recorded e d) | none => false

/-- WbData: the line is written to memory, and the die holds nothing of it and is recorded so (R385). -/
def writeBack (s : State) (d line : Nat) (e : DirEntry) (ys : List DirEntry) : State :=
  let up : DirEntry → DirEntry := fun y => if covers y line then { y with st := y.st.set d .i } else y
  swapEntry (dropVictim (dropCopies (passLine s line [.pkg]) d line) d line) (homeDie s line) e (ys.map up)

/-! ### Back-invalidation (R388) -/

/-- The lines of an entry whose home is that of the entry. -/
def entryLines (s : State) (home : Nat) (e : DirEntry) : List Nat :=
  ((List.range (2 ^ (e.k - 7))).map (fun (i : Nat) => e.base / 128 + i)).filter (fun l => homeDie s l == home)

/-- No request or write-back touches the lines of an entry. -/
def entryIdle (s : State) (e : DirEntry) : Bool :=
  s.dirReqs.all (fun q => !covers e q.1 || q.2.all (fun r => !r.served)) && s.victims.all (fun v => !(covers e v.line && v.st == .granted))

/-- A line stands in a pinned way of its home, which is in die `d` (R405). -/
def pinnedHere (s : State) (d line : Nat) : Bool :=
  homeDie s line == d && s.ctxs.any (fun c => c.2.pinned.any (fun p => p % 2 ^ 45 == line))

/-- An entry covers a pinned line (R388, R405). -/
def coversPinned (s : State) (e : DirEntry) : Bool :=
  s.ctxs.any (fun c => c.2.pinned.any (fun p => covers e (p % 2 ^ 45)))

/-- An entry under back-invalidation is freed once every acknowledgement has come (R388). -/
def freeBacked (s : State) (b : BackInv) : State :=
  if b.toSend.isEmpty && b.toAck.isEmpty then
    { s with dir := s.dir.filter (fun e => !(e.1 == b.home && e.2.base == b.base && e.2.k == b.k)),
             backInvs := s.backInvs.filter (fun x => !(x.home == b.home && x.base == b.base)) }
  else { s with backInvs := s.backInvs.map (fun x => if x.home = b.home ∧ x.base = b.base then b else x) }

/-- What is to stand in the directory, in place of an entry or none, before the request at the head of a line's queue is served
or recorded, and before a write-back of the line is (R381, R385). -/
def wanted (s : State) (line : Nat) : List (Option DirEntry × List DirEntry) :=
  (match reqsOf s line, entryOf s line with
   | r :: _, e => if r.served then (match e with | some e => [(some e, recorded2 line r e)] | none => [])
       else (match planOf s line with | some p => [(p.old, p.new)] | none => [])
   | [], _ => []) ++
  (match entryOf s line with
   | some e => if s.victims.any (fun v => v.line == line && v.st == .granted) then [(some e, splitFor line e)] else []
   | none => [])

/-- Something waits for room in the set of an entry of base `base` (R388). -/
def wantsRoom (s : State) (home base : Nat) : Bool :=
  (s.dirReqs.map (fun q => q.1) ++ s.victims.map (fun v => v.line)).any (fun l => homeDie s l == home &&
    (wanted s l).any (fun x => !roomFor s home x.1 x.2 && x.2.any (fun y => setOf y.base == setOf base)))

/-- An entry may be evicted from its set (R388). -/
def mayEvict (s : State) (x : DirEntry) : Bool := entryIdle s x && !coversPinned s x

/-- The entry is the one that its full set evicts: the oldest that may be chosen (R388). -/
def isChosen (s : State) (home : Nat) (e : DirEntry) : Bool :=
  mayEvict s e && !setRoom s home e.base && wantsRoom s home e.base &&
  s.dir.all (fun x => !(x.1 == home && setOf x.2.base == setOf e.base && mayEvict s x.2 && decide (x.2.last < e.last)))

/-- An entry begins to be back-invalidated: a BackInv for each line goes to each die that it records. -/
def startBack (s : State) (home : Nat) (e : DirEntry) : State :=
  let ds := (List.range 4).filter (fun (d : Nat) => recorded e d != .i)
  let b : BackInv := { home := home, base := e.base, k := e.k, toSend := (entryLines s home e).flatMap (fun l => ds.map (fun d => (d, l))), toAck := [] }
  freeBacked { s with backInvs := s.backInvs ++ [b] } b

/-- BackInv at die `d`: every copy of the line leaves it. -/
def backAt (s : State) (d line : Nat) (b : BackInv) : State :=
  freeBacked (dropVictim (dropCopies s d line) d line)
    { b with toSend := b.toSend.filter (fun x => x != (d, line)), toAck := b.toAck ++ [(d, line)] }

/-- The acknowledgement of a BackInv, with the data of the line, which goes to memory or to its pinned way. -/
def backAck (s : State) (d line : Nat) (b : BackInv) : State :=
  freeBacked (passLine s line [.pkg]) { b with toAck := b.toAck.filter (fun x => x != (d, line)) }

/-- The back-invalidation that has a (die, line) pair in a list. -/
def backOf (s : State) (f : BackInv → List (Nat × Nat)) (d line : Nat) : Option BackInv :=
  s.backInvs.find? (fun b => (f b).contains (d, line))

/-- A back-invalidation runs to its end. -/
def endBack (s : State) (home base : Nat) : State :=
  match s.backInvs.find? (fun b => b.home == home && b.base == base) with
  | none => s
  | some b =>
    let s1 := b.toSend.foldl (fun s x => match backOf s (fun b => b.toSend) x.1 x.2 with | some b => backAt s x.1 x.2 b | none => s) s
    (b.toSend ++ b.toAck).foldl (fun s x => match backOf s (fun b => b.toAck) x.1 x.2 with | some b => backAck s x.1 x.2 b | none => s) s1

/-! ### An access that needs a line (R379, R382; log entry 16)

An access of a die that does not hold its line as it needs makes its request and has it served to the end, behind the
requests that are before it: the events of this chapter are what the messages of such a request do one by one. -/

/-- A set has no room for the new entries that fall into it, once `x` is gone (R380, R388). -/
def setOver (s : State) (home : Nat) (x : Option DirEntry) (ys : List DirEntry) (base : Nat) : Bool :=
  let s0 := match x with | some e => swapEntry s home e [] | none => s
  decide (16 < (s0.dir.filter (fun e => e.1 == home && setOf e.2.base == setOf base)).length +
    (ys.filter (fun y => setOf y.base == setOf base)).length)

/-- Sets that have no room for the new entries, in place of `x`, evict their oldest entries, once for each entry to be added
(R388). -/
def makeRoom : Nat → State → Nat → Option DirEntry → List DirEntry → State
  | 0, s, _, _, _ => s
  | n + 1, s, line, x, ys =>
    let home := homeDie s line
    if roomFor s home x ys then s
    else
      let may : Nat × DirEntry → Bool := fun e => e.1 == home && mayEvict s e.2 && !covers e.2 line &&
        ys.any (fun y => setOf y.base == setOf e.2.base) && setOver s home x ys e.2.base
      match (s.dir.filter may).foldl (fun (r : Option DirEntry) e => match r with
          | none => some e.2
          | some y => if e.2.last < y.last then some e.2 else some y) none with
      | some e => makeRoom n (endBack (startBack s home e) home e.base) line x ys
      | none => s

/-- A write-back comes to its end where the home may answer it: one not yet granted waits while a request of the line is served,
for which its line stays in the victim buffer (R385). -/
def settleVictim (s : State) (v : Victim) : State :=
  if v.st ≠ .granted ∧ (reqsOf s v.line).any (fun r => r.served) then s
  else match entryOf s v.line with
    | none => dropVictim s v.d v.line
    | some e =>
      if !owns (recorded e v.d) then dropVictim s v.d v.line
      else
        let s1 := makeRoom 16 s v.line (some e) (splitFor v.line e)
        if roomFor s1 (homeDie s1 v.line) (some e) (splitFor v.line e) then writeBack s1 v.d v.line e (splitFor v.line e) else s1

/-- What stands before a new request of a line comes to its end: write-backs and back-invalidations. -/
def settleLine (s : State) (line : Nat) : State :=
  let s1 := (s.victims.filter (fun v => v.line == line)).foldl settleVictim s
  (s1.backInvs.filter (fun b => decide (b.base ≤ 128 * line) && decide (128 * line < b.base + 2 ^ b.k))).foldl
    (fun s b => endBack s b.home b.base) s1

/-- There is room for the entries that the request at the head of a line's queue needs. -/
def roomForHead (s : State) (line : Nat) : State :=
  match reqsOf s line with
  | r :: _ => if r.served then s else match planOf s line with
    | some p => makeRoom 16 s line p.old p.new
    | none => s
  | [] => s

/-- A request still waits for an access of the die that won the line in its cycle (R386). -/
def waitsAccess (s : State) (line : Nat) (r : DirReq) : Bool :=
  match r.after with | some w => heldBy s w line != .i | none => false

/-- A die answers the forward of a request under way (R382, R383). -/
def answerFwd (s : State) (line : Nat) (r : DirReq) (l : List DirReq) : State :=
  match r.fwd with
  | none => putHead s line r l
  | some x =>
    if heldBy s x line = .i then missAt s line x r l
    else if r.kind = .readS then fwdSTo s line x r l else fwdMTo s line x r l

/-- What `f` does to the request at the head of a line's queue. -/
def atHead (f : DirReq → List DirReq → State) (s : State) (line : Nat) : State :=
  match reqsOf s line with | r :: l => f r l | [] => s

/-- The request at the head of a line's queue, answered in full, is done where its record has room. -/
def finishHead (s : State) (line : Nat) : State :=
  match reqsOf s line, entryOf s line with
  | r :: l, some e =>
    let s1 := makeRoom 16 s line (some e) (recorded2 line r e)
    if recordFits s1 line r then finishReq s1 line r l else s1
  | r :: l, none => finishReq s line r l
  | [], _ => s

/-- The request at the head of a line's queue is served to its end, unless it has to wait. -/
def driveHead (s0 : State) (line : Nat) : State :=
  let s := roomForHead s0 line
  match serveWhen true s line with
  | none => s
  | some (s1, r, l) =>
    if waitsAccess s1 line r then s
    else
      let s2 := answerFwd s1 line r l
      let s3 := r.toInv.foldl (fun s d => atHead (invAt s line d) s line) s2
      finishHead ((r.toInv ++ r.toAck).foldl (fun s d => atHead (ackFrom s line d) s line) s3) line

/-- Every request of a line is served to its end, in order. -/
def driveAll : Nat → State → Nat → State
  | 0, s, _ => s
  | n + 1, s, line => if (reqsOf s line).isEmpty then s else driveAll n (driveHead s line) line

/-- A request of die `d` is made and served; where it has to wait, the access that makes it waits with it. -/
def fetchLine (s : State) (d line : Nat) (k : DirKind) : State :=
  let s1 := settleLine s line
  let s2 := settleLine (driveAll (reqsOf s1 line).length s1 line) line
  if (reqsOf s2 line).isEmpty && s2.victims.all (fun v => v.line != line) then
    let s3 := driveHead (askHome s2 line k d) line
    if (reqsOf s3 line).isEmpty then s3 else { s3 with undone := true }
  else { s2 with undone := true }

/-- The access of a die that owns a line lets the next request of R386 go on. -/
def noteAccess (s : State) (d line : Nat) : State :=
  if heldBy s d line == .m && (reqsOf s line).any (fun r => r.after == some d) then
    setReqs s line ((reqsOf s line).map (fun r => if r.after = some d then { r with after := none } else r))
  else s

/-- A die that reads a line holds it from now on. -/
def holdLine (s : State) (d line : Nat) : State :=
  noteAccess (if heldBy s d line = .i then fetchLine s d line .readS else s) d line

/-- A die comes to own a line. -/
def takeOwn (s : State) (d line : Nat) : State :=
  match heldBy s d line with
  | .m | .e => s
  | .i => fetchLine s d line .readM
  | _ => fetchLine s d line .upgrade

/-- A die that stores to a line owns it from now on; E becomes M on the first store (R379). -/
def ownLine (s : State) (d line : Nat) : State :=
  let s1 := takeOwn s d line
  noteAccess (if heldBy s1 d line = .e then setHeldBy s1 d line .m else s1) d line

/-- The sectors of a line that a write to locations makes dirty (R309). -/
def dirtySectors (s : State) (d : Nat) (as : List Nat) : State :=
  as.foldl (fun s a =>
    let l := lineOf (dataLoc a)
    if heldBy s d l = .i then s
    else setSectors s d l (sectorsAt s d l ||| BitVec.ofNat 8 (16 * 2 ^ (paOf (dataLoc a) % 128 / 32)))) s

/-- The lines that cells or their granules lie in. -/
def cellLines (cells : List (Nat × Byte)) : List Nat :=
  cells.foldl (fun l c => let n := lineOf (dataLoc c.1); if l.contains n then l else l ++ [n]) []

/-- The ways that a partition may use now: not those granted to it during a walk of them that still runs (R404). -/
def waysOf (p : Part) : BitVec 24 := p.waymask &&& ~~~p.granting

/-- The partition of a party fills slices: its mask is not empty (R404; log entry 69). -/
def allocates (s : State) (q : Nat) : Bool :=
  match s.chords.get? (cidOf (bidOf q)) with | some c => waysOf (partOf s c.part) != 0 | none => true

/-- The lines that a store of a party misses in the slices of the dies `f` gives them, and that its partition may not fill (R404). -/
def slimLines (s : State) (q : Nat) (f : Nat → Nat) (ls : List Nat) : List Nat :=
  if allocates s q then [] else ls.filter (fun l => sectorsAt s (f l) l == 0)

/-- Lines are written through to memory, and no slice is filled with them (R404). -/
def writeThrough (s : State) (f : Nat → Nat) (ls : List Nat) : State :=
  ls.foldl (fun s l => setSectors (passLine s l [.pkg]) (f l) l 0) s

/-- A performed write of a party (Perform, R319), the dies that `f` gives the lines their owners. -/
def performIn (s : State) (q : Nat) (f : Nat → Nat) (cells : List (Nat × Byte)) (pts : List Point) : Nat × State :=
  let ls := cellLines cells
  let s1 := ls.foldl (fun s l => ownLine s (f l) l) s
  let r := performAt (cells.foldl (fun u c => dirtySectors u (f (lineOf (dataLoc c.1))) [c.1]) s1) q cells pts
  (r.1, writeThrough r.2 f (slimLines s q f ls))

/-- A performed write of a party, its die the owner of the lines. -/
def performBy (s : State) (q : Nat) (cells : List (Nat × Byte)) (pts : List Point) : Nat × State :=
  performIn s q (fun _ => dieOf (coreIx s q)) cells pts

/-- A write of an atomic of party `q` at scope `sc` (R331): in the L1 where its die owns the lines and the scope is .GRP or .BLK,
else at the home slice, after the home die has recalled the ownership. -/
def performAtomic (s : State) (q : Nat) (sc : Scope) (cells : List (Nat × Byte)) (pts : List Point) : Nat × State :=
  let d := dieOf (coreIx s q)
  let here : Nat → Bool := fun l => (sc == .grp || sc == .blk) && (heldBy s d l == .m || heldBy s d l == .e)
  performIn s q (fun l => if here l then d else homeDie s l) cells pts

/-- A write at the homes of its lines, once their dies own them: visible from PKG out (R296, R313, R324, R416). -/
def homeWrite (s : State) (cells : List (Nat × Byte)) : State :=
  let s1 := (cellLines cells).foldl (fun s l => ownLine s (homeDie s l) l) s
  let s2 := cells.foldl (fun u c => dirtySectors u (homeDie u (lineOf (dataLoc c.1))) [c.1]) s1
  (linesOf cells).foldl stampHome (performCells s2 cells (pointsFrom .pkg)).2

/-- A write of the device itself, at the home. -/
def deviceWrite (s : State) (loc : Nat) (bytes : List Byte) : State := homeWrite s (cellsOf loc bytes)

end Sys2Proof.Machine
end

