-- ==== Sys2Proof/Machine/Translate.lean ====
section
/-!
DEFINITION. Context descriptors (spec/19 R407-R409), page tables, the walk, the TLB and walk caches, A and D (spec/14
R291-R301), and the checks of an access (spec/06 R150).
-/
namespace Sys2Proof.Machine

/-! ### Descriptors (R408) -/

/-- A context descriptor (R408). -/
structure Desc where
  v : Bool
  part : Nat
  flagsHi : Nat
  slice : Nat
  tableRoot : Nat
  privRoot : Nat
  privBase : Nat
  privStride : Nat
  pinWays : Nat
  pinVa : Nat
  pinBytes : Nat
  savePa : Nat
  saveBlocks : Nat
  z44 : Nat
  keys : List Nat
  zTail : Nat
  deriving DecidableEq, Repr

/-- `n` bytes of memory from location `a` on, as the device holds them: each a free value where its line was last written under
another key or a retired one (R393, R394; log entry 9). -/
def heldBytes (s : State) (a n : Nat) : List Byte :=
  (List.range n).map (fun i => if foreign s (a + i) then foreignByte s (a + i) else readByte s.mem (a + i))

/-- Where the descriptor of a context lies: under key ID 0 (R407). -/
def descLoc (s : State) (ctx : Nat) : Nat := locOf 0 (s.regs.ctxTable + 128 * ctx)

/-- The descriptor of a context (R407). -/
def descOf (s : State) (ctx : Nat) : Desc :=
  let base := descLoc s ctx
  let u : Nat → Nat → Nat := fun o n => leNat (heldBytes s (base + o) n)
  let fl := u 0 4
  { v := fl % 2 == 1, part := fl / 2 % 128, flagsHi := fl / 256, slice := if u 4 4 = 0 then 2 ^ 22 else u 4 4,
    tableRoot := u 8 8, privRoot := u 0x10 8, privBase := u 0x18 8, privStride := u 0x20 4, pinWays := u 0x24 4,
    pinVa := u 0x28 8, pinBytes := u 0x30 8, savePa := u 0x38 8, saveBlocks := u 0x40 4, z44 := u 0x44 4,
    keys := (List.range 8).map (fun i => u (0x48 + 2 * i) 2), zTail := u 0x58 40 }

/-- The partition of a context fills slices: its mask is not empty (R404). -/
def allocatesCtx (s : State) (ctx : Nat) : Bool := waysOf (partOf s (descOf s ctx).part) != 0

/-- The lowest offset of a descriptor field outside its limits (R408, R414 check 2). -/
def descBad (s : State) (ctx : Nat) (d : Desc) : Option Nat :=
  let way := (waysOf (partOf s d.part)).toNat
  let k0 := d.keys.getD 0 0
  let badKey := (List.range 8).find? (fun i => d.keys.getD i 0 / 4096 % 8 != 0)
  let c : List (Bool × Nat) :=
    [(!d.v || 71 < d.part || d.flagsHi != 0, 0x00), (d.tableRoot % 4096 != 0, 0x08), (d.privRoot % 4096 != 0, 0x10),
     (d.privBase % 128 != 0, 0x18), (d.privStride % 128 != 0, 0x20),
     (2 ^ 24 ≤ d.pinWays || 8 < ones 24 d.pinWays || d.pinWays &&& way != d.pinWays, 0x24),
     (d.pinVa % 128 != 0, 0x28), (d.pinBytes % 128 != 0, 0x30), (d.savePa % 2 ^ 22 != 0, 0x38),
     (d.saveBlocks == 0, 0x40), (d.z44 != 0, 0x44), (k0 / 32768 != 1 || k0 % 4096 != ctx, 0x48),
     (badKey.isSome, 0x48 + 2 * badKey.getD 0), (d.zTail != 0, 0x58)]
  (c.filter (·.1)).map (·.2) |>.foldl (fun r o => match r with | none => some o | some p => some (min p o)) none

/-- The descriptor grants a key ID (R408). -/
def grants (d : Desc) (key : Nat) : Bool := d.keys.any (fun g => g / 32768 == 1 && g % 4096 == key)

/-! ### Poison (R392, R430) -/

/-- Data of the line reads as poison: a device reports it, its port has failed (R392), or its slice holds an uncorrectable
error that nothing has yet contained (R430). -/
def poisoned (s : State) (loc : Nat) : Bool :=
  let l := lineOf (dataLoc loc)
  s.poison.contains l || s.sliceBad.any (fun e => e.1 == l) || portLost s loc

/-- The physical address of the line of a location, as AUX names it (R426). -/
def lineAddr (loc : Nat) : Nat := 128 * lineOf (dataLoc loc)

/-! ### The walk (R291-R297) -/

/-- The outcome of a translation: a translation, a fault with its level, a non-resident region. A page without any entry is
a PROTECTION fault at its level; MEMORY_POISON bears, in place of a level, the address of the poisoned line (R392, R426). -/
inductive TrRes
  | ok (t : Tlb)
  | fault (code level : Nat)
  | nonres (base bytes : Nat)
  deriving DecidableEq, Repr

/-- The bytes that an entry of a level covers (R291). -/
def levelBytes (level : Nat) : Nat := 2 ^ (12 + 9 * (level - 1))

/-- The index of an address at a level (R291). -/
def levelIx (level va : Nat) : Nat := va / levelBytes level % 512

/-- The entry breaks R294 at this level. -/
def entryBad (level e : Nat) : Bool :=
  let leaf := e.testBit 1
  e.testBit 11 ||
  (if 3 ≤ level then leaf else level == 1 && !leaf) ||
  (if leaf then
    fld e 9 2 == 3 || (e.testBit 3 && !e.testBit 2) || (level == 2 && (e.testBit 6 || fld e 12 9 != 0))
   else fld e 2 9 != 0 || fld e 52 12 != 0)

/-- A translation from a leaf (R292, R298). -/
def leafTr (ctx : Nat) (priv : Bool) (va size pa e : Nat) (d : Bool) (leaves : List Nat) : Tlb :=
  { ctx := ctx, priv := priv, va := va / size * size, size := size, pa := pa, key := fld e 52 12, r := e.testBit 2,
    w := e.testBit 3, x := e.testBit 4, tg := e.testBit 5, cp := fld e 9 2, d := d, leaves := leaves }

/-- The fields that R297 wants equal in all sixteen entries. -/
def sameKind (e f : Nat) : Bool := fld e 2 4 == fld f 2 4 && fld e 9 2 == fld f 9 2 && fld e 52 12 == fld f 52 12

/-- The translation of an L1 leaf (R297): 64 KiB where all sixteen entries of its line agree. -/
def leafL1 (s : State) (ctx : Nat) (priv : Bool) (va table e : Nat) : Tlb :=
  let i := levelIx 1 va
  let i0 := i / 16 * 16
  let ent : Nat → Nat := fun j => readPkg s (locOf ctx (table + 8 * (i0 + j))) 8
  let p0 := fld (ent 0) 12 40
  let wide := e.testBit 6 && p0 % 16 == 0 && (List.range 16).all (fun j =>
    let f := ent j
    f.testBit 0 && f.testBit 1 && !entryBad 1 f && f.testBit 6 && sameKind e f && fld f 12 40 == p0 + j &&
    (rangeOf s (4096 * (p0 + j))).isSome)
  if wide then
    leafTr ctx priv va 65536 (p0 * 4096) e ((List.range 16).all (fun j => (ent j).testBit 8))
      ((List.range 16).map (fun j => table + 8 * (i0 + j)))
  else leafTr ctx priv va 4096 (fld e 12 40 * 4096) e (e.testBit 8) [table + 8 * i]

/-- The level of a fault found in translation, or the line of a poisoned table entry, in its record (R426). -/
def atLevel (r : FaultRec) (level : Nat) : FaultRec :=
  if r.code = codePoison then { r with aux := BitVec.ofNat 64 level } else { r with level := level }

/-- The walk from `level` down, in the table at `table` (R295), with the non-leaf entries that it meets (R298). -/
def walk (s : State) (ctx : Nat) (priv : Bool) (va : Nat) : Nat → Nat → TrRes × List WalkEnt
  | 0, _ => (.fault codeReserved 1, [])
  | level + 1, table =>
    let lv := level + 1
    let loc := locOf ctx (table + 8 * levelIx lv va)
    let e := readPkg s loc 8
    if poisoned s loc then (.fault codePoison (lineAddr loc), [])
    else if !e.testBit 0 then
      if e = 0 then (.fault codeProtection lv, [])
      else (.nonres (va / levelBytes lv * levelBytes lv) (levelBytes lv), [])
    else if entryBad lv e then (.fault codeReserved lv, [])
    else if e.testBit 1 then
      if lv = 2 then
        (.ok (leafTr ctx priv va (2 ^ 21) (fld e 12 40 * 4096) e (e.testBit 8) [table + 8 * levelIx lv va]), [])
      else (.ok (leafL1 s ctx priv va table e), [])
    else
      let r := walk s ctx priv va level (fld e 12 40 * 4096)
      (r.1, ⟨ctx, priv, lv, va / levelBytes lv, fld e 12 40 * 4096⟩ :: r.2)

/-- The deepest level whose entry the walk cache holds (R298): the level at which the walk starts, and its table. -/
def walkStart (c : Cluster) (d : Desc) (ctx : Nat) (priv : Bool) (va : Nat) : Nat × Nat :=
  let at_ : Nat → Option WalkEnt := fun lv =>
    c.walk.find? (fun w => w.ctx == ctx && w.priv == priv && w.level == lv && w.pre == va / levelBytes lv)
  match ([2, 3, 4, 5].filterMap at_).head? with
  | some w => (w.level - 1, w.table)
  | none => (5, if priv then d.privRoot else d.tableRoot)

/-- The level of a leaf, as a fault record gives it (R426). -/
def trLevel (t : Tlb) : Nat := if t.size = 2 ^ 21 then 2 else 1

/-- R294: the leaf's key ID is granted, and a memory range serves its address. -/
def trServed (s : State) (d : Desc) (t : Tlb) (va : Nat) : Bool :=
  grants d t.key && (rangeOf s (t.pa + (va - t.va))).isSome

/-- A bit set in a table entry by an atomic OR at its home (R296). -/
def orEntry (s : State) (ctx pa bit : Nat) : State :=
  let loc := locOf ctx pa
  let b := (lastWrite s (loc + bit / 8)).2
  if b.toNat.testBit (bit % 8) then s
  else deviceWrite s (loc + bit / 8) [b ||| BitVec.ofNat 8 (2 ^ (bit % 8))]

/-- A run of pages with TG without those from `lo` to `hi` of it. -/
def cutRun (e : Nat × Nat × Nat) (lo hi : Nat) : List (Nat × Nat × Nat) :=
  let a := min e.2.2 lo
  let b := min e.2.2 hi
  (if a = 0 then [] else [(e.1, e.2.1, a)]) ++ (if b = e.2.2 then [] else [(e.1 + b, e.2.1 + b, e.2.2 - b)])

/-- Some TLB still has a translation with TG of a page of a run. -/
def runLive (s : State) (e : Nat × Nat × Nat) : Bool :=
  s.clusters.any (fun c => c.2.tlb.any (fun t =>
    let v := t.ctx % 4096 * 2 ^ 45 + t.va / 4096
    t.tg && !t.priv && decide (v < e.1 + e.2.2) && decide (e.1 < v + t.size / 4096)))

/-- The pages with TG are known as they are translated (R361): what a translation says of its pages stands from now on, and
frames that it gives without TG have tags no longer where no TLB has them with TG. -/
def notePages (s : State) (t : Tlb) : State :=
  if t.priv || (!t.tg && s.tgPages.isEmpty) then s
  else
    let n := t.size / 4096
    let v := t.ctx % 4096 * 2 ^ 45 + t.va / 4096
    let f := t.key % 4096 * 2 ^ 40 + t.pa / 4096
    let rest := s.tgPages.flatMap (fun e => cutRun e (v - e.1) (v + n - e.1))
    let kept := if t.tg then rest else rest.flatMap (fun e => if runLive s e then [e] else cutRun e (f - e.2.1) (f + n - e.2.1))
    let runs : AMap (Nat × Nat) := kept.foldl (fun (m : AMap (Nat × Nat)) e => m.insert e.1 e.2) []
    { s with tgPages := if t.tg then runs.insert v (f, n) else runs }

/-- A walk's translation is installed: A is set in its leaves, the TLB and walk caches hold it (R296-R298). -/
def install (s0 : State) (clu : Nat) (t : Tlb) (ws : List WalkEnt) : State :=
  let s := notePages s0 t
  let s1 := t.leaves.foldl (fun s a => orEntry s t.ctx a 7) s
  let c := clusterOf s1 clu
  setCluster s1 clu { c with tlb := t :: c.tlb, walk := ws ++ c.walk }

/-- The TLB entry that covers an address (R298). -/
def tlbHit (c : Cluster) (ctx : Nat) (priv : Bool) (va : Nat) : Option Tlb :=
  c.tlb.find? (fun t => t.ctx == ctx && t.priv == priv && t.va ≤ va && va < t.va + t.size)

/-- Some table entry that a walk from `st` (level, table) has read lies in a line of another key, so that free values have
been drawn (R393). -/
def walkDrew (s : State) (ctx va : Nat) (st : Nat × Nat) (ws : List WalkEnt) : Bool :=
  (st :: ws.map (fun w => (w.level - 1, w.table))).any (fun x => foreign s (locOf ctx (x.2 + 8 * levelIx x.1 va)))

/-- The translation of an address in a cluster, with the walk that finds it (R295, R298); the descriptor of the context is
read for it (R407). -/
def translate (s : State) (clu ctx : Nat) (priv : Bool) (va : Nat) : TrRes × State :=
  match tlbHit (clusterOf s clu) ctx priv va with
  | some t => (.ok t, s)
  | none =>
    let d := descOf s ctx
    let st := walkStart (clusterOf s clu) d ctx priv va
    let r := walk s ctx priv va st.1 st.2
    let s1 := if walkDrew s ctx va st r.2 then { s with draws := s.draws + 1 } else s
    if poisoned s (descLoc s ctx) then (.fault codePoison (lineAddr (descLoc s ctx)), s)
    else match r.1 with
      | .ok t =>
        if trServed s d t va then (.ok t, install s1 clu t r.2)
        else (.fault codeProtection (trLevel t), s1)
      | x => (x, s1)

/-- The copy of a translation in an L1 line of the core (R299). -/
def l1Hit (c : Core) (ctx : Nat) (priv : Bool) (va : Nat) : Option L1Line :=
  c.l1.find? (fun l => l.tr.ctx == ctx && l.tr.priv == priv && l.va == va / 128 * 128)

/-- The translation of an access by a core: the L1's copy, else the cluster's (R299). -/
def translateAt (s : State) (core ctx : Nat) (priv : Bool) (va : Nat) : TrRes × State :=
  match l1Hit (coreOf s core) ctx priv va with
  | some l => (.ok l.tr, s)
  | none => translate s (cluOf core) ctx priv va

/-- What an access needs (R150 check 4). -/
structure Perm where
  r : Bool
  w : Bool
  x : Bool
  tg : Bool
  deriving DecidableEq, Repr

def permR : Perm := ⟨true, false, false, false⟩
def permW : Perm := ⟨false, true, false, false⟩
def permRW : Perm := ⟨true, true, false, false⟩
def permX : Perm := ⟨false, false, true, false⟩

def permitted (t : Tlb) (p : Perm) : Bool := (!p.r || t.r) && (!p.w || t.w) && (!p.x || t.x) && (!p.tg || t.tg)

/-- The physical address under a translation. -/
def trPa (t : Tlb) (va : Nat) : Nat := t.pa + (va - t.va)

/-- The location of an address under a translation. -/
def trLoc (t : Tlb) (va : Nat) : Nat := locOf t.key (trPa t va)

/-- Checks 2 (canonical address) to 5 of R150 at one virtual address. -/
def checkVa (s : State) (core ctx : Nat) (priv : Bool) (va : Nat) (p : Perm) : TrRes × State :=
  if 2 ^ 57 ≤ va then (.fault codeProtection 0, s)
  else
    let r := translateAt s core ctx priv va
    match r.1 with
    | .ok t => if permitted t p then r else (.fault codeProtection (trLevel t), r.2)
    | _ => r

/-- D is set in the leaves of a translation through which a store goes, and in every copy of it (R296, R297, R299). -/
def setDirty (s : State) (core : Nat) (t : Tlb) : State :=
  if t.d then s
  else
    let s1 := t.leaves.foldl (fun s a => orEntry s t.ctx a 8) s
    let up : Tlb → Tlb := fun u => if u.leaves == t.leaves && u.ctx == t.ctx && u.priv == t.priv then { u with d := true } else u
    let c := clusterOf s1 (cluOf core)
    let k := coreOf s1 core
    setCore (setCluster s1 (cluOf core) { c with tlb := c.tlb.map up }) core
      { k with l1 := k.l1.map (fun l => { l with tr := up l.tr }) }

/-! ### Private space (R63-R66, R409) -/

/-- The effective spill depth and walk-stack size, and Q (R63). -/
def spillDepth (k : Kernel) : Nat := if k.spill = 0 then 16 else k.spill
def walkBytes (k : Kernel) : Nat := if k.walk = 0 then 16384 else k.walk
def frameQ (k : Kernel) : Nat := (k.priv + 4 * spillDepth k + walkBytes k / 8 + 15) / 16 * 16

/-- The private frame base PF (R409). -/
def privFrame (s : State) (p : Party) : Nat :=
  let d := descOf s p.ctx
  d.privBase + d.privStride * p.party

/-- The private virtual address of byte `o` of a lane (R63, R65). -/
def privVa (s : State) (p : Party) (lane o : Nat) : Nat :=
  if p.bow then privFrame s p + o else privFrame s p + 32 * (o / 4) + 4 * lane + o % 4

/-! ### Prism windows (R269, R396) -/

/-- G. -/
def gNum : GSize → Nat
  | .g32 => 32 | .g64 => 64 | .g128 => 128

/-- A Prism window. -/
structure Window where
  w : Nat
  g : GSize
  rd : Reading
  k : Nat
  pb : Nat
  top : Nat
  sb : Nat
  zb : Nat
  deriving DecidableEq, Repr

def gOf (n : Nat) : GSize := if n = 0 then .g32 else if n = 1 then .g64 else .g128
def rdOf (n : Nat) : Reading := if n = 0 then .ieee else if n = 1 then .finite else .nanOnly

/-- The fields of window `n`; W is 0 for an unquantised format. -/
def windowAt (s : State) (n : Nat) : Window :=
  let p := (s.regs.prism.getD n 0).toNat
  let z := (s.regs.prismz.getD n 0).toNat
  { w := if fld p 1 2 = 0 then 8 else if fld p 1 2 = 1 then 4 else 0, g := gOf (fld p 3 2), rd := rdOf (fld p 5 2),
    k := 32 * fld p 8 20, pb := fld p 64 40 * 4096, top := (fld p 128 40 + 1) * 4096, sb := fld p 192 40 * 4096,
    zb := fld z 0 40 * 4096 }

/-- The lowest-numbered valid window whose range holds `pa` (R397). -/
def windowOf (s : State) (pa : Nat) : Option Nat :=
  (List.range 64).find? (fun n =>
    (s.regs.prism.getD n 0).toNat % 2 == 1 && decide ((windowAt s n).pb ≤ pa) && decide (pa < (windowAt s n).top))

/-- The window whose plane lines hold data at `pa`, as codes, scales or zero points (R101), and the number of the lines' unit
of 1,024 elements (R398). -/
def unitOf (s : State) (pa : Nat) : Option (Window × Nat) :=
  match windowOf s pa with
  | some n =>
    let x := windowAt s n
    if x.w = 0 then none else some (x, (pa - x.pb) * 8 / x.w / 1024)
  | none => (List.range 64).findSome? (fun n =>
      let x := windowAt s n
      let gs := if x.w = 0 then 0 else (x.top - x.pb) * 8 / x.w / gNum x.g
      if (s.regs.prism.getD n 0).toNat % 2 = 0 then none
      else if x.sb ≤ pa ∧ pa < x.sb + 2 * gs then some (x, (pa - x.sb) / 2 * gNum x.g / 1024)
      else if x.zb ≤ pa ∧ pa < x.zb + (if x.w = 4 then (gs + 1) / 2 else gs) then
        some (x, (pa - x.zb) * (if x.w = 4 then 2 else 1) * gNum x.g / 1024)
      else none)

/-- The number of a unit: the physical line at which its codes begin (R398). -/
def unitNo (x : Window) (u : Nat) : Nat := x.pb / 128 + x.w * u

/-- The places of scale and zero point of group `j` of a window, under a key (R101, R397). -/
def groupLocs (x : Window) (key j : Nat) : List Nat :=
  [locOf key (x.sb + 2 * j), locOf key (x.sb + 2 * j + 1), locOf key (x.zb + if x.w = 4 then j / 2 else j)]

/-- The bytes that the plane lines of a unit hold: its codes, its scales and its zero points (R398). -/
def unitLocs (x : Window) (key u : Nat) : List Nat :=
  addrs (locOf key (x.pb + 128 * x.w * u)) (128 * x.w) ++
  (List.range (1024 / gNum x.g)).flatMap (fun i => groupLocs x key (u * (1024 / gNum x.g) + i))

end Sys2Proof.Machine
end

