-- ==== Sys2Proof/Machine/Caches.lean ====
section
/-!
DEFINITION. The L1 and the read-only cache of a core (spec/06 R164; spec/08 R185; spec/14 R299, R300; spec/15 R313): lines that
accesses bring in.
-/
namespace Sys2Proof.Machine

/-! ### The L1 (R185, R299, R300) -/

/-- The die of a core that reads a line holds it from now on; its slices are filled only where the mask of the context's partition
is not empty (R404). -/
def holdFor (s : State) (core ctx line : Nat) : State :=
  let d := dieOf core
  let s1 := holdLine s d line
  if sectorsAt s d line == 0 && sectorsAt s1 d line != 0 && !allocatesCtx s ctx then setSectors s1 d line 0 else s1

/-- The line of an access is in the L1 of the core from now on, unless the policy of its page or of the access keeps it out (R292, R299); a line of the
same physical line is retagged (R300). A miss on a line in the victim tags counts against the octant (R185). A load fills
the line or renews an expired copy of it; a store takes its timestamp when it is performed (R313). -/
def touchL1 (s0 : State) (core oct : Nat) (t : Tlb) (va : Nat) (store nol1 : Bool) : State :=
  let va0 := va / 128 * 128
  let pl := trPa t va / 128
  let s := holdFor s0 core t.ctx pl
  let c := coreOf s core
  match c.l1.find? (fun l => l.pline == pl && l.tr.key == t.key) with
  | some l =>
    let fresh := !store && decide (l.rts < c.pts)
    let r := if fresh then stampFill s core pl else (l.rts, s)
    let c1 := coreOf r.2 core
    setCore r.2 core { c1 with l1 := c1.l1.map (fun m =>
      if m.pline == pl && m.tr.key == t.key then { tr := t, va := va0, pline := pl, dirty := m.dirty || store, rts := r.1, filled := if fresh then s.nextWrite else m.filled } else m) }
  | none =>
    let r := if store then (0, s) else stampFill s core pl
    let c1 := coreOf r.2 core
    let c2 := if c1.victims.contains pl then
        { c1 with octs := listModify c1.octs oct (fun o => { o with events := o.events + 1 }) } else c1
    if nol1 ∨ t.cp = 1 then setCore r.2 core c2
    else setCore r.2 core { c2 with l1 := ⟨t, va0, pl, store, r.1, s.nextWrite⟩ :: c2.l1 }

/-- A write is a core's own: its store left its own copy of the line as new as itself (R313). -/
def ownWrite (s : State) (core w : Nat) : Bool := match s.stamps.get? w with | some t => t.2 == core | none => false

/-- The copy of a line is renewed where a read returned a write, numbered `w`, that came after its fill from elsewhere (R313). -/
def renewL1 (s : State) (core pl w : Nat) : State :=
  let old : L1Line → Bool := fun l => l.pline == pl && decide (l.filled ≤ w)
  if (coreOf s core).l1.any old && !ownWrite s core w then
    let r := stampFill s core pl
    let c := coreOf r.2 core
    setCore r.2 core { c with l1 := c.l1.map (fun l => if old l then { l with rts := r.1, filled := s.nextWrite } else l) }
  else s

/-- The same of a line of the read-only cache, from which a read returned a write that came after its fill. -/
def renewRo (s : State) (core pl w : Nat) : State :=
  let old : RoLine → Bool := fun l => l.pline == pl && decide (l.filled ≤ w)
  if (coreOf s core).ro.any old then
    let r := (stampFill s core pl).2
    let c := coreOf r core
    setCore r core { c with ro := c.ro.map (fun l => if old l then { l with filled := s.nextWrite } else l) }
  else s

/-- The copy of a line from which party `q` has read some bytes is renewed where it was older than what the read returned. -/
def renewLine (s : State) (q core : Nat) (ro : Bool) (l : Nat) (locs : List Nat) : State :=
  locs.foldl (fun s x => if ro then renewRo s core l (boundOf s q .ro x) else renewL1 s core l (boundOf s q .general x)) s

/-- The line of a read-only access is in the core's read-only cache from now on (R164), filled under R313. -/
def touchRo (s0 : State) (core : Nat) (t : Tlb) (va : Nat) : State :=
  let pl := trPa t va / 128
  let s := holdFor s0 core t.ctx pl
  let here : RoLine → Bool := fun l => l.ctx == t.ctx && l.va == va / 128 * 128 && l.pline == pl && l.key == t.key
  if (coreOf s core).ro.any here then s
  else
    let r := (stampFill s core pl).2
    setCore r core { coreOf r core with ro := ⟨t.ctx, va / 128 * 128, pl, t.key, s.nextWrite⟩ :: (coreOf r core).ro }

end Sys2Proof.Machine
end

