-- ==== Sys2Proof/Machine/FaultQ.lean ====
section
/-!
DEFINITION. The fault queue (spec/20 R425-R427), the interrupt sources of R453, and the events that write records and move
HEAD.
-/
namespace Sys2Proof.Machine

/-- `n` little-endian bytes of `v`. -/
def bytesOf (n v : Nat) : List Byte := (List.range n).map (fun i => BitVec.ofNat 8 (v / 2 ^ (8 * i)))

/-- An interrupt source becomes pending (R453). -/
def notify (s : State) (src : Nat) : State := if s.irq.contains src then s else { s with irq := s.irq ++ [src] }

/-- RFLAGS (R426). -/
def recFlags (r : FaultRec) : Nat :=
  (if r.async then 1 else 0) + (if r.term then 2 else 0) + (if r.req then 4 else 0) + (if r.w then 8 else 0)

/-- The 64 bytes of a fault record (R426). -/
def recBytes (r : FaultRec) : List Byte :=
  bytesOf 1 r.code ++ bytesOf 1 (recFlags r) ++ bytesOf 1 r.level ++ bytesOf 1 r.lane ++ bytesOf 2 (r.ctx % 4096) ++
  bytesOf 2 r.core ++ bytesOf 4 r.gid ++ bytesOf 4 r.detail.toNat ++ bytesOf 8 r.iaddr.toNat ++ bytesOf 8 r.addr.toNat ++
  bytesOf 8 r.aux.toNat ++ bytesOf 12 r.word.toNat ++ bytesOf 4 0 ++ bytesOf 8 r.ticks

/-- The queue holds N records (R425). -/
def fqFull (p : Part) : Bool := (p.fqTail - p.fqHead).toNat == 2 ^ p.fqLog

/-- The queue takes a record now (R427). -/
def fqOpen (p : Part) : Bool := p.fqEn && !fqFull p

/-- A record is written and TAIL advances, as one release at .SYS; the advance notifies the management complex (R425). -/
def fqWrite (s : State) (n : Nat) (r : FaultRec) : State :=
  let p := partOf s n
  let loc := locOf 0 (p.fqBase * 4096 + 64 * (p.fqTail.toNat % 2 ^ p.fqLog))
  notify (setPart (deviceWrite s loc (recBytes r)) n { p with fqTail := p.fqTail + 1 }) (n + 1)

/-- The oldest buffered record goes to the queue; a record that waits in its producer then enters the buffer (R427). -/
def fqStep (s : State) (n : Nat) : State :=
  let p := partOf s n
  match p.fqBuf with
  | r :: l =>
    if fqOpen p then
      let s1 := fqWrite (setPart s n { p with fqBuf := l }) n r.1
      let p1 := partOf s1 n
      match p1.fqWait with
      | w :: ws => setPart s1 n { p1 with fqBuf := p1.fqBuf ++ [w], fqWait := ws }
      | [] => s1
    else s
  | [] => s

/-- Buffered records go to a queue that takes them until the buffer has room for one more. -/
def fqRoom : Nat → State → Nat → State
  | 0, s, _ => s
  | m + 1, s, n => if (partOf s n).fqBuf.length < 64 ∨ !fqOpen (partOf s n) then s else fqRoom m (fqStep s n) n

/-- A record arises (R427): it waits in the buffer; where the buffer is full and the queue takes none, a PAGE_PARK record
waits in its producer and another is dropped. -/
def fqPut (s : State) (n : Nat) (r : FaultRec) (holder : Option Nat) : State :=
  let s1 := fqRoom ((partOf s n).fqWait.length + 1) s n
  let p := partOf s1 n
  if p.fqBuf.length < 64 then setPart s1 n { p with fqBuf := p.fqBuf ++ [(r, none)] }
  else if r.code = codePark then setPart s1 n { p with fqWait := p.fqWait ++ [(r, holder)] }
  else setPart s1 n { p with fqOvf := true, fqDropped := min 0x7FFF (p.fqDropped + 1) }

/-- A record of the chord that had to wait in its producer is not yet written, so the chord stays parked (R427). -/
def fqHolds (s : State) (cid : Nat) : Bool :=
  s.parts.any (fun e => (e.2.fqBuf ++ e.2.fqWait).any (fun w => w.2 == some cid))

/-- FAULT_RECORD_WRITE: the oldest record in the partition's buffer is written to its queue (R425, R427). -/
def execFaultRecordWrite (part : Nat) (s : State) : Host.Outcome State Fault Refusal := .next (fqStep s part)

/-- FQ_HEAD_WRITE: a write of HEAD; one past TAIL or more than N behind it is ignored (R425). -/
def execFqHeadWrite (part : Nat) (v : BitVec 16) (s : State) : Host.Outcome State Fault Refusal :=
  let p := partOf s part
  if part < 72 ∧ (p.fqTail - v).toNat ≤ 2 ^ p.fqLog then .next (setPart s part { p with fqHead := v }) else .next s

/-- FQ_OVF_CLEAR: OVF is cleared, and DROPPED with it (R425). -/
def execFqOvfClear (part : Nat) (s : State) : Host.Outcome State Fault Refusal :=
  if part < 72 then .next (setPart s part { partOf s part with fqOvf := false, fqDropped := 0 }) else .next s

end Sys2Proof.Machine
end

