-- ==== Sys2Proof/Machine/LockUnit.lean ====
section
/-!
DEFINITION. Line locks at the home slice (spec/16 R335-R354): records, FIFOs, hand-off, statuses, probes, and the events
that reach them. The instructions stand in Locks.lean.
-/
namespace Sys2Proof.Machine

def lockAt (s : State) (line : Nat) : Option LockRec := s.locks.get? line
def setLock (s : State) (line : Nat) (r : LockRec) : State := { s with locks := s.locks.insert line r }
def dropLock (s : State) (line : Nat) : State := { s with locks := s.locks.erase line }

/-- The home slice of a line (R335). -/
def lockHome (s : State) (line : Nat) : Nat × Nat := homeOf s (line * 128)

/-- Line records in use at the home of a line (R337). -/
def recsUsed (s : State) (line : Nat) : Nat := (s.locks.filter (fun e => lockHome s e.1 == lockHome s line)).length

/-- Waiting entries in use at the home of a line (R337). -/
def waitsUsed (s : State) (line : Nat) : Nat :=
  ((s.locks.filter (fun e => lockHome s e.1 == lockHome s line)).map (fun e => e.2.fifo.length)).foldl (· + ·) 0

/-- The party of a request, and the number of its pending result. -/
def reqParty (n : Nat) : Nat := n / 2 ^ 32
def reqSerial (n : Nat) : Nat := n % 2 ^ 32
def reqId (q serial : Nat) : Nat := q * 2 ^ 32 + serial % 2 ^ 32

/-- A status goes on its way to a party (R343). -/
def sendStatus (s : State) (line : Nat) (w : Waiter) (st : Nat) : State :=
  { s with lockStats := s.lockStats ++ [⟨w.n, w.q, w.slot, line, w.scope, st⟩] }

/-- The record passes to the head of its FIFO with a status, or, with an empty FIFO, becomes `other` (R339, R341). -/
def passLock (s : State) (line : Nat) (r : LockRec) (st : Nat) (other : Option LockRec) : State :=
  match r.fifo with
  | w :: ws => sendStatus (setLock s line ⟨some w.gid, w.q, false, ws⟩) line w st
  | [] => match other with
    | some o => setLock s line o
    | none => dropLock s line

/-- UNLOCK performed by the party `gid` (R339). -/
def unlockLine (s : State) (line gid : Nat) : State :=
  match lockAt s line with
  | some r => if r.holder = some gid then passLock s line r 0 none else s
  | none => s

/-- The holder's context is terminated (R339, R353). -/
def poisonLock (s : State) (line : Nat) : State :=
  match lockAt s line with
  | some r => passLock s line r 1 (some ⟨none, 0, true, []⟩)
  | none => s

/-- A waiting entry leaves its FIFO. -/
def dropWaiter (s : State) (line n : Nat) : State :=
  match lockAt s line with
  | some r => setLock s line { r with fifo := r.fifo.filter (fun w => w.n != n) }
  | none => s

/-- A request arrives at its record (R339). -/
def arrive (s : State) (r : LockReq) : State :=
  let w := r.w
  match lockAt s r.line with
  | none =>
    if recsUsed s r.line < 256 then sendStatus (setLock s r.line ⟨some w.gid, w.q, false, []⟩) r.line w 0
    else sendStatus s r.line w 6
  | some k =>
    match k.holder with
    | none => sendStatus (setLock s r.line { k with holder := some w.gid, holderQ := w.q, poison := false }) r.line w 1
    | some _ =>
      if r.try_ then sendStatus s r.line w 2
      else if 256 ≤ waitsUsed s r.line then sendStatus s r.line w 4
      else
        let now := ticksOf s.cycle
        let e : Waiter := { w with entered := now, probe := s.regs.probe, nextProbe := now + s.regs.probe }
        setLock s r.line { k with fifo := k.fifo ++ [e] }

/-- A LOCK or TRYLOCK of the party numbered below `n` has no status written yet (R347). -/
def lockOutstanding (s : State) (q n : Nat) : Bool :=
  let mine : Nat → Bool := fun id => reqParty id == q && reqSerial id < n
  s.lockReqs.any (fun r => mine r.w.n) || s.lockStats.any (fun t => mine t.n) ||
  s.locks.any (fun e => e.2.fifo.any (fun w => mine w.n))

/-- The held-table entry of a slot. -/
def setHeld (p : Party) (slot : Nat) (h : Held) : Party := { p with held := p.held.set slot h }
def heldFree : Held := ⟨.free, 0, .grp⟩

/-- The value of an awaited result has come: it becomes one that is delivered once (R222, R343, R420). -/
def resolvePend (p : Party) (n : Nat) (ws : List RegWrite) : Party :=
  { p with pend := p.pend.map (fun d => if d.n == n then { d with kind := .deliver, writes := ws } else d) }

/-- The awaited scalar destination of a result. -/
def awaitedScalar (p : Party) (n : Nat) : Option Nat :=
  match p.pend.find? (·.n == n) with
  | some d => d.writes.findSome? (fun w => match w with | .s r _ => some r | _ => none)
  | none => none

/-- The result numbered `n` is that of a LOCK, whose party waits for it, and not of a TRYLOCK (R342, R343). -/
def isLock (p : Party) (n : Nat) : Bool := p.pend.any (fun d => d.n == n && d.word.toNat % 1024 == 0x1E0)

/-- A status reaches its party (R343, R346, R347): the held-table entry, the destination, the Refresh of a grant. -/
def takeStatus (s : State) (t : LockStatus) : State :=
  let grant := t.status ≤ 1
  let s1 := modParty s t.q (fun p =>
    let h := p.held.getD t.slot heldFree
    let p1 := if h.st == .reserved && h.line == t.line then
        setHeld p t.slot (if grant then { h with st := .held } else heldFree) else p
    let n := reqSerial t.n
    let p2 := match awaitedScalar p1 n with
      | some r => resolvePend p1 n [.s r (BitVec.ofNat 64 t.status)]
      | none => p1
    if isLock p n then unblock p2 .lock else p2)
  let s2 := if grant then refresh s1 t.q t.scope else s1
  landPend s2 t.q (reqSerial t.n)

/-- A status for a party that has retired: a lock granted to it is released as its other locks were (R352). -/
def dropStatus (s : State) (t : LockStatus) : State :=
  if t.status ≤ 1 then pushBuf s t.q .general (.unlock t.line) [] [] (some .sys) false else s

/-- A party that is held on a core, retired or not. -/
def present (s : State) (q : Nat) : Bool :=
  match s.parties.get? q, blockOf s q with
  | some p, some b => b.resident && !p.stopped
  | _, _ => false

/-! ### Order within a cycle (R340) -/

/-- Places in the order of R340. -/
def rankUnlock := 1
def rankLeave := 2
def rankArrive := 3
def rankDeadline := 4
def rankProbe := 5

/-- An event of rank `r` may still take effect at the record of a line in this cycle: none of a later rank has. -/
def inTurn (s : State) (line r : Nat) : Bool :=
  let t := s.lockTurn.getD line 0
  t / 8 != s.cycle || t % 8 ≤ r

/-- An event of rank `r` takes effect at the record of a line. -/
def noteTurn (s : State) (line r : Nat) : State :=
  let t := s.lockTurn.getD line 0
  if t / 8 = s.cycle ∧ r ≤ t % 8 then s else { s with lockTurn := s.lockTurn.insert line (8 * s.cycle + r) }

/-- An event of rank `r` takes effect now that nothing but the rest of its move can put off: where it is not in turn, the move is
undone. -/
def takeTurn (s : State) (line r : Nat) : State := if inTurn s line r then noteTurn s line r else { s with undone := true }

/-! ### Events -/

/-- The older UNLOCKs of the party are performed, so that its request may be sent (R343), and the arrival is in turn
(R340). -/
def mayArrive (s : State) (r : LockReq) : Bool :=
  match s.parties.get? r.w.q with
  | none => false
  | some p => present s r.w.q && inTurn s r.line rankArrive &&
      p.buf.all (fun e => match e.kind with | .unlock _ => reqSerial r.w.n < e.n | _ => true)

/-- LOCK_REQUEST_ARRIVAL: a LOCK or TRYLOCK reaches its record (R339, R340). -/
def execLockRequestArrival (n : Nat) (s : State) : Host.Outcome State Fault Refusal :=
  match s.lockReqs.find? (fun r => r.w.n == n) with
  | none => .next s
  | some r =>
    if mayArrive s r then
      .next (noteTurn (arrive { s with lockReqs := s.lockReqs.filter (fun r => r.w.n != n) } r) r.line rankArrive)
    else .next s

/-- The status may be written: no older result of the party has still to write its register (R32). -/
def statusFree (s : State) (t : LockStatus) : Bool :=
  match s.parties.get? t.q with
  | none => true
  | some p => match p.pend.find? (fun d => d.n == reqSerial t.n) with
    | some d => inOrder (p.pend.takeWhile (fun e => e.n != d.n)) d
    | none => true

/-- LOCK_STATUS_ARRIVAL: a status reaches its party and is written once, with the Refresh of a grant (R343, R347, R351). -/
def execLockStatusArrival (n : Nat) (s : State) : Host.Outcome State Fault Refusal :=
  match s.lockStats.find? (fun t => t.n == n) with
  | none => .next s
  | some t =>
    let s1 := { s with lockStats := s.lockStats.filter (fun t => t.n != n) }
    if active s t.q then (if statusFree s t then .next (takeStatus s1 t) else .next s)
    else if present s t.q then .next (dropStatus s1 t)
    else .next s

/-- The waiting entry of a party at a line. -/
def waiterAt (s : State) (line gid : Nat) : Option Waiter :=
  match lockAt s line with
  | some r => r.fifo.find? (fun w => w.gid == gid)
  | none => none

/-- LOCK_DEADLINE: a waiting entry whose deadline has come leaves with TIMEOUT (R339, R348). -/
def execLockDeadline (line gid : Nat) (s : State) : Host.Outcome State Fault Refusal :=
  match waiterAt s line gid with
  | some w =>
    match w.deadline with
    | some d =>
      if d ≤ ticksOf s.cycle ∧ inTurn s line rankDeadline then
        .next (noteTurn (sendStatus (dropWaiter s line w.n) line w 2) line rankDeadline)
      else .next s
    | none => .next s
  | none => .next s

/-- LOCK_PROBE_SEND: a waiting entry sends a probe at each multiple of PROBE ticks of its wait (R349, R354). -/
def execLockProbeSend (line gid : Nat) (s : State) : Host.Outcome State Fault Refusal :=
  match waiterAt s line gid, lockAt s line with
  | some w, some r =>
    if w.probe ≠ 0 ∧ w.nextProbe ≤ ticksOf s.cycle then
      let up : Waiter → Waiter := fun v => if v.n == w.n then { v with nextProbe := v.nextProbe + v.probe } else v
      let s1 := setLock s line { r with fifo := r.fifo.map up }
      .next { s1 with probes := s1.probes ++ [⟨s1.lockSerial, gid, w.n, line, line, 0⟩], lockSerial := s1.lockSerial + 1 }
    else .next s
  | _, _ => .next s

/-- The line in whose FIFO a party waits. -/
def waitingLine (s : State) (gid : Nat) : Option Nat :=
  (s.locks.find? (fun e => e.2.fifo.any (fun w => w.gid == gid))).map (·.1)

/-- PROBE_ARRIVAL: a probe at a record completes its origin with CYCLE, goes on, or ends (R349). -/
def execProbeArrival (n : Nat) (s : State) : Host.Outcome State Fault Refusal :=
  match s.probes.find? (fun p => p.n == n) with
  | none => .next s
  | some p =>
    let s1 := { s with probes := s.probes.filter (fun p => p.n != n) }
    match (lockAt s1 p.atLine).bind (·.holder) with
    | none => .next s1
    | some h =>
      if h = p.origin then
        match waiterAt s1 p.originLine p.origin with
        | some w =>
          if w.n ≠ p.entry then .next s1
          else if inTurn s p.originLine rankProbe then
            .next (noteTurn (sendStatus (dropWaiter s1 p.originLine w.n) p.originLine w 3) p.originLine rankProbe)
          else .next s
        | none => .next s1
      else match waitingLine s1 h with
        | some l =>
          if p.hops < 1024 then .next { s1 with probes := s1.probes ++ [{ p with atLine := l, hops := p.hops + 1 }] }
          else .next s1
        | none => .next s1

/-! ### Switch-out, retirement, frames -/

/-- The waits of a party are withdrawn at its switch-out, in their turn at the records (R340); they are sent again once it is
resident (R351). -/
def withdrawLocks (s : State) (q : Nat) : State :=
  let moved := s.locks.flatMap (fun (e : Nat × LockRec) => (e.2.fifo.filter (fun w => w.q == q)).map (fun w => (⟨e.1, false, w⟩ : LockReq)))
  let s1 := { s with
    locks := s.locks.map (fun (e : Nat × LockRec) => (e.1, { e.2 with fifo := e.2.fifo.filter (fun w => w.q != q) })),
    lockReqs := s.lockReqs ++ moved }
  moved.foldl (fun s r => takeTurn s r.line rankLeave) s1

/-- On resume a withdrawn LOCK whose deadline has passed completes with TIMEOUT (R351). -/
def rejoinLocks (s : State) (q : Nat) : State :=
  let late : LockReq → Bool := fun r => r.w.q == q && !r.try_ &&
    (match r.w.deadline with | some d => decide (d ≤ ticksOf s.cycle) | none => false)
  (s.lockReqs.filter late).foldl (fun s r => sendStatus s r.line r.w 2)
    { s with lockReqs := s.lockReqs.filter (fun r => !late r) }

/-- R353: every entry of a terminated context leaves, and its locks are released poisoned, in their turn at the records
(R340). -/
def terminateLocks (s0 : State) (ctx : Nat) : State :=
  let ofCtx : Nat → Bool := fun gid => gid % 4096 == ctx
  let held : Nat × LockRec → Bool := fun e => match e.2.holder with | some g => ofCtx g | none => false
  let s := s0.locks.foldl (fun s e =>
    let u := if held e then takeTurn s e.1 rankUnlock else s
    if e.2.fifo.any (fun w => ofCtx w.gid) then takeTurn u e.1 rankLeave else u) s0
  let s1 := { s with
    lockReqs := s.lockReqs.filter (fun r => !ofCtx r.w.gid),
    lockStats := s.lockStats.filter (fun t => match s.parties.get? t.q with | some p => p.ctx != ctx | none => false),
    locks := s.locks.map (fun (e : Nat × LockRec) => (e.1, { e.2 with fifo := e.2.fifo.filter (fun w => !ofCtx w.gid) })) }
  (s1.locks.filter held).foldl (fun s e => poisonLock s e.1) s1

/-- The entry of the held table that a grant on its way would make held is freed: the status names no entry any more. -/
def loseSlot (s : State) (t : LockStatus) : State :=
  modParty s t.q (fun p => if (p.held.getD t.slot heldFree).st == .reserved then setHeld p t.slot heldFree else p)

/-- The records of freed lines go; their waiters, and the requests on their way, time out; the held-table entries of their
holders become free, also where the status of the grant has still to come (R338, R339, R346). -/
def freeLocks (s : State) (lines : List Nat) : State :=
  let gone := s.locks.filter (fun (e : Nat × LockRec) => lines.contains e.1)
  let lost : LockStatus → Bool := fun t => decide (t.status ≤ 1) && lines.contains t.line
  let s1 := (s.lockStats.filter lost).foldl loseSlot
    { s with lockStats := s.lockStats.map (fun t => if lost t then { t with slot := 4 } else t) }
  let s2 := gone.foldl (fun s e => e.2.fifo.foldl (fun s w => sendStatus s e.1 w 2) (dropLock s e.1)) s1
  let s3 := (s2.lockReqs.filter (fun r => lines.contains r.line)).foldl (fun s r => sendStatus s r.line r.w 2)
    { s2 with lockReqs := s2.lockReqs.filter (fun r => !lines.contains r.line) }
  let cut : Held → Held := fun h => if h.st == .held && lines.contains h.line then heldFree else h
  { s3 with parties := s3.parties.map (fun (e : Nat × Party) => (e.1, { e.2 with held := e.2.held.map cut })) }

end Sys2Proof.Machine
end

