-- ==== Sys2Proof/Machine/Perform.lean ====
section
/-!
DEFINITION. The free steps of the ordering machine (spec/15 R319, R321, R324, R327) and of the combining buffers (spec/14
R306, R307): Perform, Propagate, Fill, Drain; and the steps that a release of a leaving party waits for (R326).
-/
namespace Sys2Proof.Machine

/-- The value of `n` bytes at their last writes in coherence order; free where the line holds data of another key (R393). -/
def lastValue (s : State) (a n : Nat) : Nat :=
  leNat ((List.range n).map (fun i => if foreign s (a + i) then foreignByte s (a + i) else (lastWrite s (a + i)).2))

/-- An Atomic step of party `q` at scope `sc` (R324) with the write of `v`: visible out to the S point. -/
def atomicWrite (s : State) (q : Nat) (sc : Scope) (a n v : Nat) (tags : List TagOp) : State :=
  (performAtomic s q sc (cellsOf a (bytesOf n v) ++ tagCells s tags) (pointsTo s q sc)).2

/-- An object's start is recorded with its creator (R361, R362): its other granules are starts no longer, and a terminator that
becomes a start has the same creator. -/
def recordObject (s : State) (q start : Nat) (ops : List TagOp) : State :=
  ops.foldl (fun s o => match o with
    | .mask a _ _ => { s with creator := if a = start then s.creator.insert a q else s.creator.erase a }
    | .term a => if (lastWrite s a).2 &&& 1 = 0 then { s with creator := s.creator.insert a q } else s) s

/-- A RED that receives poison where it is performed raises MEMORY_POISON, and writes nothing (R153, R392, R430; log entry 47). -/
def poisonRed (s : State) (q a : Nat) : State :=
  let r := { partyRec s q codePoison with async := true, aux := BitVec.ofNat 64 (lineAddr a) }
  modParty (raiseFor s r) q (fun p => { p with stopped := true })

/-- The effect of a general-path buffer entry when it is performed (R319, R321, R324, R339, R340, R365). -/
def performEntry (s : State) (q : Nat) (e : BufEntry) : State :=
  match e.kind with
  | .store => (performBy s q (e.cells ++ tagCells s e.tags) [.grp q]).2
  | .red op ty a x sc =>
    let n := tyWidth ty / 8
    if poisoned s a then poisonRed s q a
    else atomicWrite s q sc a n (combine ty op false (lastValue s a n) x.toNat).code e.tags
  | .unlock line => match s.parties.get? q with
    | some p => unlockLine (takeTurn s line rankUnlock) line (gidOf p)
    | none => s
  | .object start _ =>
    let cells := e.cells ++ tagCells s e.tags
    (performBy (recordObject s q start e.tags) q cells [.grp q]).2

/-- The effect of a scratchpad entry (R317): its bytes are in the scratchpad. -/
def performScratch (s : State) (q : Nat) (e : BufEntry) : State :=
  modBlock s (bidOf q) (fun b => { b with sp := List.foldl (fun m c => AMap.put m c.1 c.2 0) b.sp e.cells })

/-- A general-path entry leaves the buffer, and any combining entry that holds it. -/
def dropEntry (s : State) (q n : Nat) : State :=
  let s1 := modParty s q (fun p => { p with buf := p.buf.filter (fun e => e.n != n) })
  let cut : CombEntry → CombEntry := fun k => { k with members := k.members.filter (fun m => m != (q, n)) }
  let clean : Cluster → Cluster := fun c => { c with comb := (c.comb.map cut).filter (fun k => !k.members.isEmpty) }
  { s1 with clusters := s1.clusters.map (fun (e : Nat × Cluster) => (e.1, clean e.2)) }

def dropScratch (s : State) (q n : Nat) : State :=
  modParty s q (fun p => { p with sbuf := p.sbuf.filter (fun e => e.n != n) })

/-- The entry numbered `n` and those before it. -/
def findEntry (buf : List BufEntry) (n : Nat) : Option (List BufEntry × BufEntry) :=
  (buf.find? (fun e => e.n == n)).map (fun e => (buf.takeWhile (fun e => e.n != n), e))

/-! ### Events -/

/-- The entry numbered `n` of a party's general or scratchpad buffer, where it may leave the buffer now: R321 allows it, and no
older LOCK or TRYLOCK is outstanding (R347). -/
def mayLeaveOf (s : State) (q n : Nat) (path : Path) : Option BufEntry :=
  match findEntry (bufOf s q path) n with
  | none => none
  | some (older, e) => if mayPerform s q older e && !lockOutstanding s q n then some e else none

def mayLeave (s : State) (q n : Nat) : Option BufEntry := mayLeaveOf s q n .general
def mayLeaveScratch (s : State) (q n : Nat) : Option BufEntry := mayLeaveOf s q n .scratch

/-- PROPAGATE (R319, R327). -/
def execPropagate (w : Nat) (pt : Point) (s : State) : Host.Outcome State Fault Refusal :=
  if (visAt s pt).contains w then
    match parentOf s pt with
    | some up => .next (addVis s up w)
    | none => .next s
  else .next s

/-- The bytes that a fill of `a` at a point brings: at PL the whole of the plane line of that point, as of one instant, where it
holds `a` (R398); a line outside every window is a plane line by itself (R270). -/
def fillLocs (s : State) (pt : Point) (a : Nat) : List Nat :=
  match pt with
  | .pl n => match unitOf s (paOf a) with
    | some (x, u) => if unitNo x u = n / 32 then unitLocs x (keyOf a) u else []
    | none => if lineOf a = n / 32 then addrs (a / 128 * 128) 128 else []
  | _ => [a]

/-- FILL (R319, R327). A write is whole wherever it comes, so that no observer sees a part of it (R155). -/
def execFill (pt : Point) (a : Nat) (s : State) : Host.Outcome State Fault Refusal :=
  match parentOf s pt with
  | some up =>
    .next ((fillLocs s pt a).foldl (fun u b => let w := (latest s up b).1; if w = 0 then u else addVis u pt w) s)
  | none => .next s

/-- The RED entries that a combining entry holds, with their parties. -/
def combREDs (s : State) (k : CombEntry) : List (Nat × BufEntry) :=
  k.members.filterMap (fun m => match s.parties.get? m.1 with
    | some p => (p.buf.find? (fun e => e.n == m.2)).map (fun e => (m.1, e))
    | none => none)

/-- A combining entry drains as one RED of its combined operand; all its REDs are performed at that moment (R306, R307). -/
def drainEntry (s : State) (k : CombEntry) : State :=
  let ms := combREDs s k
  let n := tyWidth k.ty / 8
  let x := fun (v : Nat) => ms.foldl (fun v m => match m.2.kind with
    | .red op ty _ x _ => (combine ty op false v x.toNat).code
    | _ => v) v
  match ms with
  | [] => s
  | (q, _) :: _ =>
    if poisoned s k.addr then ms.foldl (fun s m => poisonRed (dropEntry s m.1 m.2.n) m.1 k.addr) s
    else
    let pts := ms.flatMap (fun m => match m.2.kind with | .red _ _ _ _ sc => pointsTo s m.1 sc | _ => [])
    let cells := cellsOf k.addr (bytesOf n (x (lastValue s k.addr n))) ++ tagCells s (ms.flatMap (fun m => m.2.tags))
    let r := performAtomic s q .die cells pts
    ms.foldl (fun s m => cells.foldl (fun s c => raiseBound s m.1 .general c.1 r.1) (dropEntry s m.1 m.2.n)) r.2

/-- COMBINING_DRAIN: entry `n` of a cluster's combining buffer drains (R306, R307). -/
def execCombiningDrain (c n : Nat) (s : State) : Host.Outcome State Fault Refusal :=
  match (clusterOf s c).comb[n]? with
  | some k => .next (drainEntry s k)
  | none => .next s

/-- The operations and types that R306 admits to a combining buffer, at .DIE or wider. -/
def combinable (ty : Ty) (op : RedOp) (sc : Scope) : Bool :=
  3 ≤ scopeCode sc && (ty != .f32 || op == .min || op == .max)

/-- A RED of party `q`, whose bytes are `as` and whose number is to be `n`, may go to a combining buffer now: nothing older of the
party stands before it (R321, R347), so that its entry may drain at any time (log entry 24). -/
def mayCombine (s : State) (q n : Nat) (as : List Nat) : Bool :=
  !lockOutstanding s q n && (bufOf s q .general).all (fun e =>
    decide (n ≤ e.n) || e.combined || (entryBytes e).all (fun a => !as.contains a))

/-- The combining entries that hold an older RED of the party to some of the bytes under another key: they drain before a RED to
them is taken in (R321). -/
def inTheWay (s : State) (c q : Nat) (as : List Nat) (same : CombEntry → Bool) : List CombEntry :=
  let mine := (bufOf s q .general).filter (fun e => (entryBytes e).any (fun a => as.contains a))
  (clusterOf s c).comb.filter (fun k => !same k && mine.any (fun e => k.members.contains (q, e.n)))

/-- The RED numbered `n` of party `q` that R306 admits enters the entry of its key in its cluster's combining buffer, else a
free one; where none is free the oldest drains first. -/
def combineRed (s : State) (c ctx a : Nat) (ty : Ty) (op : RedOp) (q n : Nat) : State :=
  let same : CombEntry → Bool := fun k => k.addr == a && k.ctx == ctx && k.ty == ty && k.op == op
  let fresh : CombEntry := ⟨ctx, a, ty, op, [(q, n)], clusterClock s c⟩
  let s1 := (inTheWay s c q (addrs a (tyWidth ty / 8)) same).foldl drainEntry s
  let cl := clusterOf s1 c
  if cl.comb.any same then
    setCluster s1 c { cl with comb := cl.comb.map (fun k => if same k then { k with members := k.members ++ [(q, n)] } else k) }
  else
    let s2 := (if cl.comb.length < 64 then [] else cl.comb.take 1).foldl drainEntry s1
    let cl2 := clusterOf s2 c
    setCluster s2 c { cl2 with comb := cl2.comb ++ [fresh] }

/-- A RED that waited in its party's buffer goes to the combining buffer, its release taken. -/
def joinRed (s : State) (q : Nat) (e : BufEntry) (a : Nat) (ty : Ty) (op : RedOp) : State :=
  match s.parties.get? q with
  | none => s
  | some p => modParty (combineRed s (cluOf (coreIx s q)) p.ctx a ty op q e.n) q (fun p =>
      { p with buf := p.buf.map (fun x => if x.n = e.n then { x with rel := none, combined := true } else x) })

/-- PERFORM: a store or RED leaves its buffer and is performed (R321); a RED that R306 admits goes to the combining buffer. -/
def execPerform (q n : Nat) (sp : Bool) (s : State) : Host.Outcome State Fault Refusal :=
  if sp then
    match mayLeaveScratch s q n with
    | some e => .next (performScratch (dropScratch s q n) q e)
    | none => .next s
  else match mayLeave s q n with
    | some e =>
      match e.kind with
      | .unlock _ => .next s
      | .red op ty a _ sc =>
        .next (if combinable ty op sc then joinRed s q e a ty op else performEntry (dropEntry s q n) q e)
      | _ => .next (performEntry (dropEntry s q n) q e)
    | none => .next s

/-! ### A release that is taken whole (R326) -/

/-- The point of scope `sc` comes to hold write `w` of byte `a`, or a later one, by Propagate and Fill steps. -/
def reach (s : State) (q : Nat) (sc : Scope) (a w : Nat) : State :=
  let t := scopePoint s q sc
  if coIx s a w ≤ coIx s a (latest s t a).1 then s
  else
    let inner := pointsTo s q sc
    let rest := inner.dropWhile (fun pt => !(visAt s pt).contains w)
    if !rest.isEmpty then rest.foldl (fun s pt => addVis s pt w) s
    else
      let outer := (chain s q .general).drop (scopeCode sc + 1)
      match outer.findIdx? (fun pt => (visAt s pt).contains w) with
      | some i =>
        let top := outer.getD i .sys
        let v := (latest s top a).1
        (t :: outer.take i).foldl (fun s pt => addVis s pt v) s
      | none => addVis s t w

/-- The general bounds of a party reach the point of scope `sc` (R319). -/
def pushOut (s : State) (q : Nat) (sc : Scope) : State :=
  match s.parties.get? q with
  | none => s
  | some p => (boundsOf p).foldl (fun s e => if e.1 % 4 = 0 then reach s q sc (e.1 / 4) e.2 else s) s

/-- How many entries all buffers hold. -/
def bufTotal (s : State) : Nat := (s.parties.map (fun e => e.2.buf.length)).foldl (· + ·) 0

/-- Every entry of a party's scratchpad buffer is performed, in order. -/
def drainScratch (s : State) (q : Nat) : State :=
  (bufOf s q .scratch).foldl (fun s e => performScratch (dropScratch s q e.n) q e) s

/-- The entry numbered `n` of a party is performed now, after those that it waits for (R321): a combined RED with the whole of its
combining entry; a release after everything that the party issued before it, and its own release condition. -/
def forceEntry : Nat → State → Nat → Nat → State
  | 0, s, _, _ => s
  | m + 1, s, q, n =>
    match findEntry (bufOf s q .general) n with
    | none => s
    | some (older, e) =>
      match (s.clusters.flatMap (fun x => x.2.comb)).find? (fun k => k.members.contains (q, n)) with
      | some k => drainEntry s k
      | none =>
        let first := older.filter (fun o => e.rel.isSome || (entryBytes o).any (fun a => (entryBytes e).contains a))
        let s1 := first.foldl (fun s o => forceEntry m s q o.n) s
        let s2 := match e.rel with
          | some sc => pushOut (if sc = .grp then s1 else drainScratch s1 q) q sc
          | none => s1
        performEntry (dropEntry s2 q n) q e

/-- Every entry of a party's buffers is performed, in order. -/
def drainParty (s : State) (q : Nat) : State :=
  let s1 := drainScratch s q
  (bufOf s1 q .general).foldl (fun s e => forceEntry (bufTotal s1 + 1) s q e.n) s1

/-! ### Buffered stores that something later of the block needs performed (R225, R231, R237, R255) -/

/-- The entries of a buffer that stand before an access to the bytes `as`: those that touch them, and those older ones that these
wait for in their turn (R231, R321), in order. -/
def standBefore (buf : List BufEntry) (as : List Nat) : List BufEntry :=
  (buf.foldr (fun e (r : List BufEntry × List Nat) =>
    if (entryBytes e).any (fun a => r.2.contains a) then (e :: r.1, entryBytes e ++ r.2) else r) ([], as)).1

/-- Scratchpad entries of a party are performed. -/
def performSome (s : State) (q : Nat) (es : List BufEntry) : State :=
  es.foldl (fun s e => performScratch (dropScratch s q e.n) q e) s

/-- The scratchpad entries of a party older than its number `n` that stand before an access to the bytes `as`. -/
def olderScratch (s : State) (q n : Nat) (as : List Nat) : List BufEntry :=
  standBefore ((bufOf s q .scratch).filter (fun e => decide (e.n < n))) as

/-- The scratchpad entries of a party that stand before an access to `n` bytes from `a` on. -/
def scratchOver (s : State) (q a n : Nat) : List BufEntry := standBefore (bufOf s q .scratch) (addrs a n)

/-- Those entries may be performed, for every party of a block: no LOCK or TRYLOCK older than one is outstanding (R347). -/
def mayPerformOver (s : State) (b a n : Nat) : Bool :=
  (blockParties b).all (fun q => (scratchOver s q a n).all (fun e => !lockOutstanding s q e.n))

/-- The scratchpad stores of a block's parties that stand before an access to `n` bytes from `a` on are performed, in order. -/
def performOver (s : State) (b a n : Nat) : State :=
  (blockParties b).foldl (fun s q => performSome s q (scratchOver s q a n)) s

end Sys2Proof.Machine
end

