-- ==== Sys2Proof/Machine/Barrier.lean ====
section
/-!
DEFINITION. Barriers, chord barriers and cue queues as state (spec/10 R215-R225, spec/14 R289, R290), the blocked block of
R239, and the memory set that a blocked group leaves (spec/08 R185). The instructions stand in Sync.lean.
-/
namespace Sys2Proof.Machine

/-! ### The memory set of an octant (R185) -/

def octAt (s : State) (core o : Nat) : Octant := (coreOf s core).octs.getD o Octant.reset
def setOct (s : State) (core o : Nat) (x : Octant) : State :=
  let c := coreOf s core
  setCore s core { c with octs := c.octs.set o x }

/-- The throttled group that has waited longest. -/
def longestThrottled (t : AMap Nat) : Option Nat :=
  (t.foldl (fun (r : Option (Nat × Nat)) e => match r with
    | none => some e
    | some b => if e.2 < b.2 then some e else some b) none).map (·.1)

/-- A group that becomes BLOCKED or leaves the core leaves the memory set; the throttled group that has waited longest
takes its place (R185). -/
def leaveMemSet (s : State) (q : Nat) : State :=
  match s.parties.get? q, blockOf s q with
  | some p, some b =>
    let o := octAt s b.core (octOf b p)
    match o.mem with
    | none => setOct s b.core (octOf b p) { o with thr := o.thr.erase q }
    | some l =>
      if l.contains q then
        let l1 := l.filter (fun m => m != q)
        match longestThrottled (o.thr.erase q) with
        | some g => setOct s b.core (octOf b p) { o with mem := some (l1 ++ [g]), thr := (o.thr.erase q).erase g }
        | none => setOct s b.core (octOf b p) { o with mem := some l1, thr := o.thr.erase q }
      else setOct s b.core (octOf b p) { o with thr := o.thr.erase q }
  | _, _ => s

/-! ### Named barriers (R215-R219) -/

def barOf (b : Block) (k : Nat) : Barrier := b.bars.getD k Barrier.reset
def setBar (b : Block) (k : Nat) (x : Barrier) : Block := { b with bars := b.bars.insert k x }

/-- P (R215): the parties of the block at placement. -/
def partyCount (b : Block) : Nat := b.groups + (if b.kern.bLen = 0 then 0 else 1)

def inBit (p : Party) (k : Nat) : Bool := p.inb.toNat.testBit k
def setIn (p : Party) (k : Nat) (v : Bool) : Party :=
  { p with inb := if v then p.inb ||| BitVec.ofNat 66 (2 ^ k) else p.inb &&& ~~~(BitVec.ofNat 66 (2 ^ k)) }

/-- A party's share in a release: its IN bit falls; one that waits there runs again, ready from the next cycle of its core, and
takes the acquire (R217, R219). -/
def freeParty (k : Nat) (w : Wait) (sc : Scope) (s : State) (q : Nat) : State :=
  match s.parties.get? q with
  | none => s
  | some p =>
    if !inBit p k then s
    else if waitsFor p w then
      refresh (setParty s q { unblock (setIn p k false) w with nextIssue := max p.nextIssue (partyClock s q + 1) }) q sc
    else setParty s q (unblock (setIn p k false) w)

/-- The phase is complete (TryRelease, R217). -/
def barDone (x : Barrier) : Bool := x.n == some x.arrived && x.pending == 0

/-- TryRelease (R217). -/
def tryRelease (s : State) (b k : Nat) : State :=
  match s.blocks.get? b with
  | none => s
  | some blk =>
    let x := barOf blk k
    if barDone x then
      let s1 := if x.bowin then commitShade s b x.mark else s
      let s2 := (blockParties b).foldl (freeParty k (.bar k) .blk) s1
      modBlock s2 b (fun c => setBar c k { barOf c k with n := none, arrived := 0, bowin := false })
    else s

/-- The checks of Arrive (R217). -/
def arriveBad (x : Barrier) (isIn : Bool) (parties : Nat) (n bytes : Int) : Bool :=
  decide (n < 1) || decide ((parties : Int) < n) || decide (bytes < 0) || decide (524288 < bytes) || isIn ||
  (match x.n with | some m => decide ((m : Int) ≠ n) | none => false) || decide (2 ^ 23 - 1 < x.pending + bytes)

/-- The barrier after an arrival (R217); `mark` is what the bow has staged. -/
def arriveBar (x : Barrier) (bow : Bool) (mark n : Nat) (bytes : Int) : Barrier :=
  { n := some n, arrived := x.arrived + 1, pending := x.pending + bytes, bowin := x.bowin || bow,
    mark := if bow then mark else x.mark }

/-- A staged operation of the bow. -/
def isStage : RegWrite → Bool
  | .stage _ _ _ | .stageDrop _ => true
  | _ => false

/-- The bow's operations of fixed latency that are still on their way are staged now, in the order of their issue, whatever else
their instructions have still to write (R199, R200). -/
def landStages (s : State) (q : Nat) : State :=
  match s.parties.get? q with
  | none => s
  | some p =>
    let fixed : Pend → Bool := fun d => match d.kind with | .fixed _ => d.writes.any isStage | _ => false
    if p.pend.any fixed then
      modBlock (setParty s q { p with pend := p.pend.map (fun d => if fixed d then { d with writes := d.writes.filter (fun w => !isStage w) } else d) })
        (bidOf q) (fun b => ((p.pend.filter fixed).flatMap (fun d => d.writes)).foldl writeBlock b)
    else s

/-- A staged operation of the bow is still to come from variable-latency arithmetic or a load. -/
def stagesOpen (p : Party) : Bool :=
  p.pend.any (fun d => d.writes.any isStage && (match d.kind with | .fixed _ => false | _ => true))

/-- Arrive (R217), after its checks, by party `q`. -/
def arriveAt (s : State) (q k n : Nat) (bytes : Int) : State :=
  let b := bidOf q
  match s.parties.get? q with
  | none => s
  | some p =>
    let s1 := if p.bow then landStages s q else s
    let s2 := modBlock s1 b (fun c =>
      setBar c k (arriveBar (barOf c k) p.bow (c.stageBase + c.staged.length) n bytes))
    tryRelease (modParty s2 q (fun p => setIn p k true)) b k

/-! ### Chord barriers (R287-R290) -/

def cbOf (c : Chord) (k : Nat) : Barrier := if k = 0 then c.cb0 else c.cb1
def setCb (c : Chord) (k : Nat) (x : Barrier) : Chord := if k = 0 then { c with cb0 := x } else { c with cb1 := x }

/-- The parties of a chord, block by block. -/
def chordParties (cid : Nat) : List Nat := (List.range 4).flatMap (fun i => blockParties (4 * cid + i))

/-- The blocks of a chord that are held. -/
def chordBlocks (s : State) (cid : Nat) : List Nat :=
  ((List.range 4).map (4 * cid + ·)).filter (fun b => (s.blocks.get? b).isSome)

/-- Pc (R289): the parties of all the chord's blocks, retired ones too; the blocks of a chord are alike. -/
def chordCount (s : State) (cid : Nat) : Nat :=
  match s.chords.get? cid, (chordBlocks s cid).findSome? (fun b => s.blocks.get? b) with
  | some c, some x => c.n * partyCount x
  | _, _ => 0

/-- TryRelease on a chord barrier (R289, R290). -/
def tryReleaseCb (s : State) (cid k : Nat) : State :=
  match s.chords.get? cid with
  | none => s
  | some c =>
    if barDone (cbOf c k) then
      modChord ((chordParties cid).foldl (freeParty (64 + k) (.cbar k) .clu) s) cid (fun c => setCb c k Barrier.reset)
    else s

/-- Arrive on a chord barrier. -/
def arriveCb (s : State) (q k n : Nat) : State :=
  let cid := cidOf (bidOf q)
  let s1 := modChord s cid (fun c => setCb c k (arriveBar (cbOf c k) false 0 n 0))
  tryReleaseCb (modParty s1 q (fun p => setIn p (64 + k) true)) cid k

/-! ### A block that cannot go on (R239, R290) -/

/-- The waits that R239 counts; `cb` adds the chord barriers of R290. -/
def countedWait (cb : Bool) : Wait → Bool
  | .bar _ | .qpush _ | .qpop _ => true
  | .cbar _ => cb
  | .lock => false

/-- A party counts as blocked (R239). -/
def stuck (cb : Bool) (p : Party) : Bool :=
  let ok : Frag → Bool := fun f => match f.st with | .blocked w => countedWait cb w | .run => false | _ => true
  let hit : Frag → Bool := fun f => match f.st with | .blocked w => countedWait cb w | _ => false
  (fragList p).all ok && (fragList p).any hit

/-- Every party of the list that has not retired counts as blocked, and no copy of one is in flight. -/
def allStuck (s : State) (cb : Bool) (qs : List Nat) : Bool :=
  let ps := qs.filterMap (fun q => s.parties.get? q)
  ps.any (fun p => !p.retired) && ps.all (fun p => p.copies.isEmpty && (p.retired || stuck cb p))

/-- A fragment's barrier, as DETAIL names it (R426), and its instruction address. -/
def barWait (f : Frag) : Option (Nat × W64) :=
  match f.st with | .blocked (.bar k) => some (k, f.pc - 12) | .blocked (.cbar k) => some (256 + k, f.pc - 12) | _ => none
def queWait (f : Frag) : Option (Nat × W64) :=
  match f.st with | .blocked (.qpush k) | .blocked (.qpop k) => some (k, f.pc - 12) | _ => none

/-- The first of the parties, in age order, with such a fragment. -/
def firstWait (s : State) (qs : List Nat) (f : Frag → Option (Nat × W64)) : Option (Nat × Nat × W64) :=
  qs.findSome? (fun q => match s.parties.get? q with
    | some p => if p.retired then none else ((fragList p).findSome? f).map (fun w => (q, w))
    | none => none)

/-- The parties of a block in age order, its bow first (R184). -/
def byAge (b : Nat) : List Nat := (65 * b + 64) :: (List.range 64).map (65 * b + ·)

/-- BARRIER_COUNT where some party waits at a barrier, else QUEUE_MISUSE (R239, R290), raised once for that party and
instruction. -/
def raiseStuck (s : State) (qs : List Nat) : State :=
  let r := match firstWait s qs barWait with
    | some (q, k, pc) => some (q, codeBarrier, k, pc)
    | none => (firstWait s qs queWait).map (fun w => (w.1, codeQueue, w.2.1, w.2.2))
  match r with
  | some (q, code, k, pc) =>
    let f : FaultRec := { partyRec s q code with detail := BitVec.ofNat 32 k, iaddr := pc, async := true }
    if (ctxOf s f.ctx).cands.any (fun g => g.async && g.code == code && g.gid == f.gid && g.iaddr == f.iaddr) then s else raiseFor s f
  | none => s

/-- The check of R239 for a block, and of R290 for its chord. -/
def checkStuck (s : State) (b : Nat) : State :=
  if allStuck s false (byAge b) then raiseStuck s (byAge b)
  else
    let qs := (List.range 4).flatMap (fun i => byAge (4 * cidOf b + i))
    match s.chords.get? (cidOf b) with
    | some c => if 2 ≤ c.n && allStuck s true qs then raiseStuck s qs else s
    | none => s

/-! ### Cue queues (R220-R225) -/

def queueOf (b : Block) (k : Nat) : Queue := b.queues.getD k Queue.reset
def setQueue (b : Block) (k : Nat) (x : Queue) : Block := { b with queues := b.queues.insert k x }

/-- The entry in slot `i` of a queue's region. -/
def slotRead (b : Block) (x : Queue) (i : Nat) : W64 :=
  BitVec.ofNat 64 (leNat ((List.range 8).map (fun j => b.sp.getD (x.base + 8 * i + j) 0)))

/-- An entry written into slot `i`. -/
def slotWrite (b : Block) (x : Queue) (i : Nat) (v : W64) : Block :=
  { b with sp := (List.range 8).foldl (fun m j => AMap.put m (x.base + 8 * i + j) (BitVec.ofNat 8 (v.toNat / 2 ^ (8 * j))) 0) b.sp }

/-- The register writes of an entry delivered to a destination (R222). -/
def entryWrites (dst : Opnd) (m : Mask) (v : W64) : List RegWrite :=
  match dst with
  | .s r => [.s r.toNat v]
  | .v r => ((List.range 8).filter m.has).flatMap (fun l =>
      [.v r.toNat l (v.truncate 32), .v (r.toNat + 1) l (v >>> 32 |>.truncate 32)])
  | _ => []

/-- A value is delivered to a party blocked in QPOP (R223, R224). -/
def deliverPop (s : State) (k : Nat) (w : Popper) (v : W64) : State :=
  let s1 := modParty s w.q (fun p => unblockIn (resolvePend p w.n (entryWrites w.dst w.m v)) (.qpop k) w.m)
  refresh s1 w.q .blk

/-- Append (R223). -/
def append (s : State) (b k : Nat) (v : W64) : State :=
  match s.blocks.get? b with
  | none => s
  | some blk =>
    let x := queueOf blk k
    match x.poppers with
    | w :: ws => deliverPop (setBlock s b (setQueue blk k { x with poppers := ws })) k w v
    | [] =>
      setBlock s b (setQueue (slotWrite blk x x.tl v) k
        { x with count := x.count + 1, tl := if x.depth = 0 then 0 else (x.tl + 1) % x.depth })

/-- TakeHead (R223), without its write: the entry, and the state after a waiting pusher's value has come in. -/
def takeHead (s : State) (b k : Nat) : W64 × State :=
  match s.blocks.get? b with
  | none => (0, s)
  | some blk =>
    let x := queueOf blk k
    let v := slotRead blk x x.hd
    let x1 := { x with count := x.count - 1, hd := if x.depth = 0 then 0 else (x.hd + 1) % x.depth }
    match x.pushers with
    | w :: l =>
      let s1 := append (setBlock s b (setQueue blk k { x1 with pushers := l })) b k w.v
      (v, modParty s1 w.q (fun p => unblockIn p (.qpush k) w.m))
    | [] => (v, setBlock s b (setQueue blk k x1))

/-- Scratchpad bytes `a` to `a + n - 1` touch the region of a live queue of the block (R225). -/
def touchesQueue (b : Block) (a n : Nat) : Bool :=
  b.queues.any (fun e => e.2.live && decide (e.2.base < a + n) && decide (a < e.2.base + 8 * e.2.depth))

end Sys2Proof.Machine
end

