-- ==== Sys2Proof/Machine/Chunks.lean ====
section
/-!
DEFINITION. Bridge copies in flight (spec/10 R218, R232-R238): how one 16-byte chunk lands, and when a copy completes.
-/
namespace Sys2Proof.Machine

/-- Chunks of a row, and of a copy. -/
def rowChunks (c : Copy) : Nat := c.rowBytes / 16
def copyChunks (c : Copy) : Nat := c.rows.length * rowChunks c

/-- The global address and the scratchpad offset of a chunk (R234, R235). -/
def chunkAt (c : Copy) (j : Nat) : Nat × Nat :=
  let r := c.rows.getD (j / rowChunks c) (0, 0)
  let o := 16 * (j % rowChunks c)
  ((r.1 + o) % 2 ^ 64, r.2 + o)

/-- What comes of a chunk: it goes on, it must wait, its page is not resident, or the copy ends with a fault. -/
inductive ChunkRes
  | landed (s : State)
  | wait
  | park (base bytes va : Nat) (s : State)
  | fail (s : State)

/-- The record of an asynchronous fault of an engine of party `q` (R236, R372, R426). -/
def engineRec (s : State) (q code level : Nat) (iaddr : W64) (word : W96) (addr : W64) : FaultRec :=
  atLevel { partyRec s q code with async := true, iaddr := iaddr, word := word, addr := addr } level

/-- A party stops at its own fault, which its unit has found (R429). -/
def stopAt (s : State) (q : Nat) (r : FaultRec) : State := modParty (raiseFor s r) q (fun p => { p with stopped := true })

/-- An asynchronous fault of an engine of party `q`. -/
def engineFault (s : State) (q code level : Nat) (iaddr : W64) (word : W96) (addr : W64) : State :=
  stopAt s q (engineRec s q code level iaddr word addr)

/-- A chunk counted on barrier `k` of block `b` (R218): none where PENDING would fall below its range. -/
def countChunk (s : State) (b k : Nat) : Option State :=
  match s.blocks.get? b with
  | none => some s
  | some blk =>
    let x := barOf blk k
    if x.pending - 16 < -(2 ^ 23 : Int) then none
    else some (tryRelease (setBlock s b (setBar blk k { x with pending := x.pending - 16 })) b k)

/-- The copy numbered `ci` of a party ends without completing. -/
def endCopy (s : State) (q ci : Nat) : State := modParty s q (fun p => { p with copies := p.copies.eraseIdx ci })

/-- The copies of a party that have landed whole complete in issue order; the counter falls for each (R226, R235). -/
def completeCopies : Nat → State → Nat → State
  | 0, s, _ => s
  | n + 1, s, q =>
    match s.parties.get? q with
    | none => s
    | some p =>
      match p.copies with
      | c :: l =>
        if c.landed.length = copyChunks c then
          completeCopies n (ctrDown (setParty s q { p with copies := l }) q .copy) q
        else s
      | [] => s

/-- A change of the copy numbered `ci` of a party. -/
def modCopy (s : State) (q ci : Nat) (f : Copy → Copy) : State :=
  modParty s q (fun p => { p with copies := listModify p.copies ci f })

/-- The data of a chunk whose read is issued now: of a .LOAD a plain read of the party, of a .STORE the scratchpad bytes with the
stores that the party issued before (R237). -/
def chunkData (s : State) (q : Nat) (c : Copy) (t : Tlb) (ga so : Nat) : ReadRes (List Byte) :=
  let loc := trLoc t ga
  if c.store then
    match s.parties.get? q, blockOf s q with
    | some p, some b => .ok ((addrs so 16).map (fun a => (bufByte p.sbuf a).getD (b.sp.getD a 0))) s
    | _, _ => .wait
  else if poisoned s loc then .stop (engineFault s q codePoison (lineAddr loc) c.iaddr c.word (BitVec.ofNat 64 ga))
  else match readCells (touchL1 s (coreIx s q) (partyOct s q) t ga false false) q .general (addrs loc 16) with
    | none => .wait
    | some (bytes, s1) => .ok bytes (renewLine s1 q (coreIx s q) false (trPa t ga / 128) (addrs loc 16))

/-- The next chunk of the copy numbered `ci` of party `q` is checked and its read is issued (R235, R236). -/
def issueChunk (s : State) (q ci : Nat) : ChunkRes :=
  match (s.parties.get? q).bind (fun p => (p.copies[ci]?).map (fun c => (p, c))) with
  | none => .wait
  | some (p, c) =>
    let a := chunkAt c c.issued
    let r := checkVa s (coreIx s q) p.ctx false a.1 (if c.store then permW else permR)
    match r.1 with
    | .fault code level => .fail (endCopy (engineFault r.2 q code level c.iaddr c.word (BitVec.ofNat 64 a.1)) q ci)
    | .nonres base n => .park base n a.1 r.2
    | .ok t =>
      match chunkData r.2 q c t a.1 a.2 with
      | .ok bytes s1 => .landed (modCopy s1 q ci (fun c => { c with issued := c.issued + 1, data := c.data ++ [(c.issued, t, bytes)] }))
      | .stop s1 => .fail (endCopy s1 q ci)
      | .wait => .wait

/-- The reads of the next `n` chunks are issued, in order (R235). -/
def issueChunks : Nat → State → Nat → Nat → ChunkRes
  | 0, s, _, _ => .landed s
  | n + 1, s, q, ci => match issueChunk s q ci with
    | .landed s1 => issueChunks n s1 q ci
    | x => x

/-- The bytes of a .LOAD chunk are in the scratchpad, over the older stores of the party to them (R231, R237), and are counted. -/
def landLoad (s : State) (q : Nat) (c : Copy) (so : Nat) (bytes : List Byte) : ChunkRes :=
  let s2 := performSome s q (olderScratch s q c.n (addrs so 16))
  let s3 := modBlock s2 (bidOf q) (fun b => { b with sp := List.foldl (fun m x => AMap.put m x.1 x.2 0) b.sp (cellsOf so bytes) })
  match c.cnt with
  | none => .landed s3
  | some k => match countChunk s3 (bidOf q) k with
    | some s4 => .landed s4
    | none => .fail (stopAt s3 q { engineRec s3 q codeBarrier 0 c.iaddr c.word 0 with detail := BitVec.ofNat 32 k })

/-- A .STORE chunk is a store of the party, performed at once (R237, R325). One to a frame that has been freed since brings no data
(R395). -/
def landStore (s : State) (q : Nat) (c : Copy) (t : Tlb) (ga : Nat) (bytes : List Byte) : ChunkRes :=
  let loc := trLoc t ga
  match s.parties.get? q with
  | some p =>
    if p.buf.any (fun e => e.n < c.n && (entryBytes e).any (fun a => loc ≤ a && a < loc + 16)) then .wait
    else
      let s1 := setDirty s (coreIx s q) t
      let tags := if t.tg && !bytes.isEmpty then tagCells s1 [.mask (tagLoc loc) 3 0] else []
      if bytes.isEmpty then .landed s else .landed (performBy s1 q (cellsOf loc bytes ++ tags) [.grp q]).2
  | none => .wait

/-- Chunk `j` of the copy numbered `ci` of party `q`, whose read has been issued, lands under the translation of its checks (R169,
R235-R237). It is a store of the party, so it waits for an older LOCK or TRYLOCK (R347) unless the party halts (`now`, R238). -/
def landIssued (now : Bool) (s : State) (q ci j : Nat) : ChunkRes :=
  match (s.parties.get? q).bind (fun p => p.copies[ci]?) with
  | none => .wait
  | some c =>
    let a := chunkAt c j
    let overlap := c.store && (List.range j).any (fun i => (chunkAt c i).1 == a.1 && !c.landed.contains i)
    match c.data.find? (fun d => d.1 == j) with
    | none => .wait
    | some d =>
      if overlap || (!now && lockOutstanding s q c.n) then .wait
      else match (if c.store then landStore s q c d.2.1 a.1 d.2.2 else landLoad s q c a.2 d.2.2) with
        | .landed s1 =>
          let s2 := modCopy s1 q ci (fun c => { c with landed := j :: c.landed, data := c.data.filter (fun e => e.1 != j) })
          .landed (completeCopies 64 s2 q)
        | .fail s1 => .fail (endCopy s1 q ci)
        | x => x

/-- Chunk `j` of a copy lands, after the reads of the chunks up to it have been issued (R235). -/
def landChunk (s : State) (q ci j : Nat) : ChunkRes :=
  match (s.parties.get? q).bind (fun p => p.copies[ci]?) with
  | none => .wait
  | some c =>
    if copyChunks c ≤ j || c.landed.contains j then .wait
    else match issueChunks (j + 1 - c.issued) s q ci with
      | .landed s1 => landIssued false s1 q ci j
      | x => x

/-- The halt of a party's copies, its stores performed (R238): every chunk whose read has been issued lands, so that what has
landed is a prefix. -/
def haltCopies (s : State) (q : Nat) : State :=
  match s.parties.get? q with
  | none => s
  | some p => (p.copies.flatMap (fun c => c.data.map (fun d => (c.n, d.1)))).foldl (fun s nj =>
      match (s.parties.get? q).bind (fun p => p.copies.findIdx? (fun c => c.n == nj.1)) with
      | none => s
      | some ci => match landIssued true s q ci nj.2 with
        | .landed s1 | .fail s1 => s1
        | _ => s) s

end Sys2Proof.Machine
end

