-- ==== Sys2Proof/Machine/Harp.lean ====
section
/-!
DEFINITION. The Harp's arithmetic (spec/11 R244-R252) and its reads and writes of scratchpad (R246, R255): the B tile, A
rows, a pass row by row, HALIGN's alignment, and the rows that a halt leaves complete (R261).
-/
namespace Sys2Proof.Machine

/-! ### The B tile (R244) -/

/-- The K-groups of a tile (R244). -/
def gCount (g : GSize) : Nat := 256 / gNum g

/-- An empty slot (R241, R242). -/
def PlaneSlot.empty : PlaneSlot := { cols := [], planes := 0, g := .g32, rd := .ieee, side := [], undef := false }

/-- A Harp that a block has just been given (R242). -/
def Harp.empty : Harp := { slot0 := PlaneSlot.empty, slot1 := PlaneSlot.empty, acc := [], hflags := 0, ops := [] }

def Harp.slot (h : Harp) (i : Bool) : PlaneSlot := if i then h.slot1 else h.slot0

def Harp.setSlot (h : Harp) (i : Bool) (x : PlaneSlot) : Harp := if i then { h with slot1 := x } else { h with slot0 := x }

/-- q[k][n] (R244). -/
def tileCode (x : PlaneSlot) (k n : Nat) : Nat :=
  (List.range x.planes).foldl (fun (v j : Nat) => v + if (x.cols.getD (256 * j + n) 0).testBit k then 2 ^ j else 0) 0

/-- The side-table entry (g, n); zero where none is listed. -/
def sideOf (x : PlaneSlot) (g n : Nat) : Side := x.side.getD (256 * g + n) ⟨0, 0, 0⟩

/-- The rows of group `g`. -/
def groupRows (g : GSize) (i : Nat) : List Nat := (List.range (gNum g)).map (gNum g * i + ·)

/-- CS[g][n] (R244). -/
def columnSum (x : PlaneSlot) (g n : Nat) : Nat := (groupRows x.g g).foldl (fun (v k : Nat) => v + tileCode x k n) 0

/-- The column sums are computed from the loaded codes (R244, R268). -/
def withColumnSums (x : PlaneSlot) : PlaneSlot :=
  { x with side := (List.range (gCount x.g)).foldl (fun m g =>
      (List.range 256).foldl (fun (m : AMap Side) n =>
        m.put (256 * g + n) { sideOf x g n with cs := columnSum x g n } ⟨0, 0, 0⟩) m) x.side }

/-! ### A rows (R245, R271) -/

/-- DB, the data bytes of an A row (R271). -/
def aBytes : AKind → Nat
  | .a16 => 512
  | _ => 256

/-- The bytes of an A row with its records. -/
def aRowBytes (kind : AKind) (g : GSize) : Nat := aBytes kind + 4 * gCount g

/-- a[m][k] (R245). -/
def aElem (kind : AKind) (row : List Byte) (k : Nat) : Int :=
  match kind with
  | .n8 => ((row.getD k 0).toNat : Int)
  | .s8 => sext 8 (row.getD k 0).toNat
  | .a16 => sext 16 (leNat ((row.drop (2 * k)).take 2))

/-- The record of group `g` (R245). -/
def aRecord (kind : AKind) (row : List Byte) (g : Nat) : Nat := leNat ((row.drop (aBytes kind + 4 * g)).take 4)

/-- za (R245, R271). -/
def aZero (kind : AKind) (r : Nat) : Int :=
  match kind with
  | .n8 => (fld r 16 8 : Int)
  | .s8 => sext 8 (fld r 16 8)
  | .a16 => 0

/-- sa (R245): a code under the reading, or 2^ea. -/
def aScale (kind : AKind) (rd : Reading) (r : Nat) : FVal :=
  match kind with
  | .a16 => .num false 1 (sext 16 r)
  | _ => fval fmtF16 rd (fld r 0 16)

/-- NANGRP (R245, R271). -/
def aNan (kind : AKind) (r : Nat) : Bool := kind == .a16 && r.testBit 24

/-! ### A pass (R247, R248) -/

/-- Contribution (R248). -/
def contribution (sa sb : FVal) (t : Int) (nangrp : Bool) : FRes :=
  if nangrp then ⟨fmtNaN fmtF32 .ieee, flNone⟩
  else match sa, sb with
    | .nan x, _ => ⟨fmtNaN fmtF32 .ieee, ivIf (x || fvalSNaN sb)⟩
    | _, .nan x => ⟨fmtNaN fmtF32 .ieee, ivIf x⟩
    | .inf _, .zero _ | .zero _, .inf _ => ⟨fmtNaN fmtF32 .ieee, flIV⟩
    | .inf _, _ | _, .inf _ =>
      if t = 0 then ⟨fmtNaN fmtF32 .ieee, flIV⟩
      else ⟨signed fmtF32 ((fvalSign sa != fvalSign sb) != decide (t < 0)) (fmtInf fmtF32), flNone⟩
    | .zero _, _ | _, .zero _ => ⟨0, flNone⟩
    | .num na n p, .num nb m q =>
      if t = 0 then ⟨0, flNone⟩
      else roundDyadic fmtF32 .rne .ieee false ((na != nb) != decide (t < 0)) (n * m * t.natAbs) (p + q)

/-- AccAdd (R248): a NaN on either side gives a NaN and no flag. -/
def accAdd (acc v : Nat) : FRes :=
  let a := fval fmtF32 .ieee acc
  let b := fval fmtF32 .ieee v
  if fvalNaN a || fvalNaN b then ⟨fmtNaN fmtF32 .ieee, flNone⟩ else fAdd fmtF32 .rne false a b

/-- I, SA and T of R247 for one row, group and column. -/
def groupTerm (x : PlaneSlot) (kind : AKind) (row : List Byte) (g n : Nat) : Int :=
  let ks := groupRows x.g g
  let i : Int := ks.foldl (fun (v : Int) k => v + aElem kind row k * (tileCode x k n : Nat)) 0
  let sa : Int := ks.foldl (fun (v : Int) k => v + aElem kind row k) 0
  let e := sideOf x g n
  let za := aZero kind (aRecord kind row g)
  i - (e.zb : Nat) * sa - za * (e.cs : Nat) + (gNum x.g : Nat) * za * (e.zb : Nat)

/-- Sub-array `i` of a core's Harp does not compute as it should: it, or the spare in its place, is bad (R256, R259). -/
def failing (c : Core) (i : Nat) : Bool := if c.harp == .spared && c.spareFor == i then c.bad.getLsbD 16 else c.bad.getLsbD i

/-- The T of a group and column whose partial sums come from a failing sub-array: sub-array i serves K rows 64·(i div 4) and columns
64·(i mod 4) onward (R256). What it then computes is a free value (R259; log entry 58). -/
def wrongTerm (c : Core) (d : Nat) (x : PlaneSlot) (g n : Nat) : Option Int :=
  if (groupRows x.g g).any (fun k => failing c (4 * (k / 64) + n / 64)) then
    let v := Config.freeAt d (256 * g + n)
    some (if v % 2 = 0 then (v / 2 : Nat) else -((v / 2 : Nat) : Int) - 1)
  else none

/-- One accumulator word of one row of a pass (R247): the groups in increasing order; `wrong` gives the T of a failing
sub-array. -/
def accWord (x : PlaneSlot) (wrong : Nat → Nat → Option Int) (kind : AKind) (rd : Reading) (row : List Byte) (n acc : Nat) : FRes :=
  (List.range (gCount x.g)).foldl (fun (a : FRes) g =>
    let r := aRecord kind row g
    let t := (wrong g n).getD (groupTerm x kind row g n)
    let v := contribution (aScale kind rd r) (fval fmtF16 x.rd (sideOf x g n).sb.toNat) t (aNan kind r)
    let y := accAdd a.code v.code
    ⟨y.code, a.fl ||| v.fl ||| y.fl⟩) ⟨acc, flNone⟩

/-! ### Accumulator rows -/

def accAt (h : Harp) (r n : Nat) : W32 := h.acc.getD (256 * r + n) 0

/-- Row `r` replaced by 256 words. -/
def setAccRow (h : Harp) (r : Nat) (xs : List W32) : Harp :=
  let row := xs.zipIdx.filterMap (fun (x : W32 × Nat) => if x.1 = 0 then none else some (256 * r + x.2, x.1))
  { h with acc := AMap.splice h.acc (256 * r) (256 * (r + 1)) row }

/-- The row becomes +0. -/
def zeroAccRow (h : Harp) (r : Nat) : Harp := setAccRow h r (List.replicate 256 0)

/-- Flags are ORed into HFLAGS (R250). -/
def raiseH (h : Harp) (fl : FFlags) : Harp := { h with hflags := h.hflags ||| fl }

/-- One row of an HMMA, read from `row` (R247, R250, R273). -/
def hmmaRow (wrong : PlaneSlot → Nat → Nat → Option Int) (h : Harp) (m : HmmaMod) (r : Nat) (row : List Byte) : Harp :=
  let x := h.slot m.slot
  let xs := (List.range 256).map (fun n => accWord x (wrong x) m.kind m.rd row n (if m.fresh then 0 else (accAt h r n).toNat))
  raiseH (setAccRow h r (xs.map (fun v => BitVec.ofNat 32 v.code))) (xs.foldl (fun f v => f ||| v.fl) 0)

/-! ### HALIGN (R252) -/

/-- floor(log2) of a nonzero value. -/
def fvalLog : FVal → Option Int
  | .num _ n q => some ((n.log2 : Int) + q)
  | _ => none

/-- The result of Align: a[k], ea, NANGRP and the flags. -/
structure Aligned where
  a : List Int
  ea : Int
  nan : Bool
  fl : FFlags
  deriving DecidableEq, Repr

/-- Align (R252). -/
def alignGroup (xs : List FVal) : Aligned :=
  let special : FVal → Bool := fun x => match x with | .nan _ | .inf _ => true | _ => false
  let bad : FVal → Bool := fun x => match x with | .inf _ => true | x => fvalSNaN x
  if xs.any special then ⟨xs.map (fun _ => 0), 0, true, ivIf (xs.any bad)⟩
  else
    match xs.filterMap fvalLog with
    | [] => ⟨xs.map (fun _ => 0), 0, false, flNone⟩
    | e :: es =>
      let ea := es.foldl max e - 13
      let one : FVal → Int × Bool × Bool := fun x => match x with
        | .num neg n q =>
          let r := roundNum n (q - ea) .rne neg
          (if neg then -(r.1 : Int) else (r.1 : Int), !r.2, r.1 == 0)
        | _ => (0, false, false)
      let rs := xs.map one
      let nx := rs.any (·.2.1)
      ⟨rs.map (·.1), ea, false, (if nx then flNX else flNone) ||| (if nx && rs.any (·.2.2) then flUF else flNone)⟩

/-! ### Scratchpad through the Harp's port (R246, R255) -/

/-- The Harp of a block is changed. -/
def modHarp (s : State) (b : Nat) (f : Harp → Harp) : State :=
  modBlock s b (fun x => { x with harp := x.harp.map f })

/-- The scratchpad as operation `op` of the bow `q` reads it: with the bow's own earlier stores, and, of what has been written there
since the issue of `op`, all or nothing of each aligned chunk of 16 bytes, by a free choice (R255). -/
def harpRead (s : State) (q : Nat) (op : HarpOp) (off len : Nat) : List Byte :=
  match s.parties.get? q, blockOf s q with
  | some p, some b =>
    let buf := p.sbuf.filter (fun e => e.n < op.n)
    (addrs off len).map (fun a =>
      if Config.freeAt s.draws (a / 16) % 2 = 0 then (bufByte buf a).getD (b.sp.getD a 0) else op.snap.getD a 0)
  | _, _ => List.replicate len 0

/-- The bow's stores that are older than operation `op` and stand before an access to some bytes of scratchpad are performed
(R231, R255). -/
def performOlder (s : State) (q : Nat) (op : HarpOp) (as : List Nat) : State := performSome s q (olderScratch s q op.n as)

def putCells (m : AMap Byte) (cells : List (Nat × Byte)) : AMap Byte := List.foldl (fun m x => AMap.put m x.1 x.2 0) m cells

/-- Bytes of scratchpad are written. -/
def writeScratch (s : State) (b : Nat) (cells : List (Nat × Byte)) : State := modBlock s b (fun x => { x with sp := putCells x.sp cells })

/-- A write of scratchpad by operation `op`, seen by every later one (R243): the bow's own earlier stores to the bytes are performed
first (R255). -/
def harpWrite (s : State) (q : Nat) (op : HarpOp) (off : Nat) (bytes : List Byte) : State :=
  let s1 := performOlder s q op (addrs off bytes.length)
  let cells := cellsOf off bytes
  modHarp (writeScratch s1 (bidOf q) cells) (bidOf q) (fun h =>
    { h with ops := h.ops.map (fun o => if op.n < o.n then { o with snap := putCells o.snap cells } else o) })

/-- The oldest queued operation of a block leaves its queue, complete (R226, R243). -/
def harpPop (s : State) (b : Nat) : State := ctrDown (modHarp s b (fun h => { h with ops := h.ops.drop 1 })) (65 * b + 64) .harp

/-- Writes that an operation has still to make are made where `now` says so. -/
def landLate (s : State) (b : Nat) (op : HarpOp) (cells : List (Nat × Byte)) (now : Nat → Bool) : State :=
  modHarp (writeScratch s b (cells.filter (fun c => now c.1))) b (fun h =>
    { h with ops := h.ops.map (fun o => if o.n = op.n then { o with late := some (cells.filter (fun c => !now c.1)) } else o) })

/-! ### Rows of a queued operation -/

/-- A pitch operand (R271): bits 31:0, 0 for the natural pitch. -/
def pitchOf (v : Int) (nat : Nat) : Nat := if pat 32 v = 0 then nat else pat 32 v

/-- A pitch outside the limits of R271. -/
def pitchBad (v : Int) (nat : Nat) : Bool :=
  pat 32 v != 0 && (pat 32 v % 16 != 0 || pat 32 v < nat || 524288 < pat 32 v)

/-- The natural pitch of an A row (R271). -/
def aPitch (kind : AKind) (g : GSize) : Nat := (aRowBytes kind g + 15) / 16 * 16

/-- Value `i` of an operation, in the order A, B, C, X (R278). -/
def HarpOp.val (op : HarpOp) (i : Nat) : Int := op.vals.getD i 0

/-- The next `n` rows of the HMMA at the head of the queue of block `b` (R247, R261, R273). -/
def hmmaRows (m : HmmaMod) : Nat → State → Nat → HarpOp → State × HarpOp
  | 0, s, _, op => (s, op)
  | n + 1, s, b, op =>
    if (op.val 1).toNat ≤ op.progress then (s, op)
    else match (s.blocks.get? b).bind (·.harp) with
      | none => (s, op)
      | some h =>
        let x := h.slot m.slot
        let off := (op.val 2).toNat + op.progress * pitchOf (op.val 3) (aPitch m.kind x.g)
        let row := harpRead s (65 * b + 64) op off (aRowBytes m.kind x.g)
        let c := coreOf s (coreIx s (65 * b + 64))
        let s1 := modHarp s b (fun h => hmmaRow (wrongTerm c s.draws) h m ((op.val 0).toNat + op.progress) row)
        hmmaRows m n (if c.bad = 0 then s1 else { s1 with draws := s1.draws + 1 }) b { op with progress := op.progress + 1 }

/-- The halt of a block's Harp (R261): an HMMA in progress has completed some whole rows, by a free value; every other
operation has not begun or is complete. -/
def haltHarp (s : State) (b : Nat) : State :=
  match ((s.blocks.get? b).bind (·.harp)).bind (fun h => h.ops.head?) with
  | none => s
  | some op => match op.op, op.late with
    | .hmma m _, _ =>
      let d := draw s 257
      let r := hmmaRows m d.1 d.2 b op
      modHarp r.1 b (fun h => { h with ops := match h.ops with | _ :: l => r.2 :: l | [] => [] })
    | _, some cells => harpPop (landLate s b op cells (fun _ => true)) b
    | _, none => s

end Sys2Proof.Machine
end

