-- ==== Sys2Proof/Machine/Preempt.lean ====
section
/-!
DEFINITION. Halting and saving (spec/19 R420-R422; spec/08 R36; spec/10 R238; spec/11 R261, R262; spec/15 R326; spec/16 R351):
the switch-out of a chord, whole, as one step, and the parking of a chord on regions that are not resident (spec/06 R152,
spec/14 R302).
-/
namespace Sys2Proof.Machine

/-! ### The save record (R422) -/

/-- The nonzero bytes of a field at an offset. -/
def fieldAt (o n v : Nat) : AMap Byte := (bytesOf n v).zipIdx.filterMap (fun b => if b.1 = 0 then none else some (o + b.2, b.1))

/-- The device's own bytes of an area (log entry 8). -/
def ownBytes (b area o n : Nat) : AMap Byte :=
  (List.range n).filterMap (fun i => let x := Config.saveByte b area i; if x = 0 then none else some (o + i, x))

def maskNat (l : List Bool) : Nat := l.foldr (fun b n => 2 * n + if b then 1 else 0) 0

def heldCode : HeldSt → Nat
  | .free => 0 | .reserved => 1 | .held => 2

/-- A party record (R422), at offset `o`; `own` numbers the device's own bytes. -/
def partyBytes (own o : Nat) (p : Party) : AMap Byte :=
  let c := p.ctr
  (List.range 96).flatMap (fun r => fieldAt (o + 8 * r) 8 (getS p r).toNat) ++
  fieldAt (o + 0x300) 4 (p.tokens.toNat / 2 * 2 + min 31 p.nextIssue * 256) ++
  fieldAt (o + 0x304) 4 (c.copy + c.harp * 64 + c.pub * 4096 + c.consort * 2 ^ 18 + c.page * 2 ^ 24) ++
  fieldAt (o + 0x308) 4 (if p.check then 1 else 0) ++ fieldAt (o + 0x30C) 4 p.gen.toNat ++
  (List.range 8).flatMap (fun l => fieldAt (o + 0x310 + l) 1 (maskNat ((List.range 7).map (fun r => getP p r l)))) ++
  fieldAt (o + 0x318) 4 (gidOf p) ++
  (List.range 8).flatMap (fun l => fieldAt (o + 0x320 + 4 * l) 4 (getFF p l).toNat) ++
  p.held.zipIdx.flatMap (fun h =>
    if h.1.st = .free then []
    else fieldAt (o + 0x340 + 16 * h.2) 8 (h.1.line * 128) ++ fieldAt (o + 0x348 + 16 * h.2) 1 (scopeCode h.1.scope) ++
      fieldAt (o + 0x349 + 16 * h.2) 1 (heldCode h.1.st)) ++
  (List.range 32).flatMap (fun k => fieldAt (o + 0x380 + 4 * k) 4 ((p.hG.get? k).getD 0).toNat) ++
  fieldAt (o + 0x400) 4 (maskNat ((List.range 32).map (gBit p))) ++
  (List.range 32).flatMap (fun k => fieldAt (o + 0x404 + k) 1 (lMask p k).toNat) ++
  fieldAt (o + 0x440) 16 p.inb.toNat ++ ownBytes own 0 (o + 0x450) 432

/-- The vector rows of a group (R177, R422), at offset `o`. -/
def rowBytesOf (o vregs : Nat) (p : Party) : AMap Byte :=
  p.v.flatMap (fun (e : Nat × W32) => fieldAt (o + 4 * e.1) 4 e.2.toNat) ++
  p.hL.flatMap (fun (e : Nat × W32) => fieldAt (o + 32 * vregs + 4 * e.1) 4 e.2.toNat)

def gCode : GSize → Nat
  | .g32 => 0 | .g64 => 1 | .g128 => 2
def rdCode : Reading → Nat
  | .ieee => 0 | .finite => 1 | .nanOnly => 2

/-- The planes and the side table of a slot (R262). -/
def slotBytes (po so : Nat) (x : PlaneSlot) : AMap Byte :=
  x.cols.flatMap (fun (e : Nat × Nat) => fieldAt (po + 32 * e.1) 32 e.2) ++
  x.side.flatMap (fun (e : Nat × Side) => fieldAt (so + 8 * e.1) 8 (e.2.sb.toNat + e.2.zb % 65536 * 65536 + e.2.cs % 2 ^ 32 * 2 ^ 32))

def slotWord (x : PlaneSlot) : Nat := x.planes + rdCode x.rd * 32 + gCode x.g * 128

/-- The Harp save block (R262), at offset `o`. -/
def harpBytes (o : Nat) (h : Harp) : AMap Byte :=
  fieldAt o 4 0x50524148 ++ fieldAt (o + 4) 2 h.hflags.toNat ++ fieldAt (o + 6) 1 h.ops.length ++
  fieldAt (o + 8) 4 (slotWord h.slot0) ++ fieldAt (o + 12) 4 (slotWord h.slot1) ++
  h.ops.zipIdx.flatMap (fun e => let a := o + 0x40 + 64 * e.2
    fieldAt a 12 e.1.word.toNat ++ fieldAt (a + 12) 4 e.1.progress ++ fieldAt (a + 16) 8 e.1.iaddr.toNat ++
    e.1.vals.zipIdx.flatMap (fun v => fieldAt (a + 24 + 8 * v.2) 8 (pat 64 v.1))) ++
  slotBytes (o + 0x1000) (o + 0x41000) h.slot0 ++ slotBytes (o + 0x21000) (o + 0x45000) h.slot1 ++
  h.acc.flatMap (fun (e : Nat × W32) => fieldAt (o + 0x49000 + 4 * e.1) 4 e.2.toNat)

/-- The nonzero bytes of a block save record (R422), by offset. -/
def saveBytes (s : State) (b : Nat) (x : Block) : AMap Byte :=
  let ch := s.chords.get? (cidOf b)
  let lead := b % 4 = 0
  let parked := match ch with | some c => c.st == .parked | none => false
  let missing := match ch with | some c => c.missing.length | none => 0
  let card := match ch.bind (fun c => s.cards.get? c.card) with | some c => c.va | none => 0
  let ps := (List.range 64).filterMap (fun g => (s.parties.get? (65 * b + g)).map (fun p => (g, p)))
  let eng := (List.range 65).filterMap (fun i => (s.parties.get? (65 * b + i)).map (fun p => (i, p)))
  fieldAt 0 4 0x4B4C4253 ++ fieldAt 4 1 x.groups ++ fieldAt 5 1 (match ch with | some c => c.n | none => 0) ++
  fieldAt 6 1 (maskNat [x.kern.bLen != 0, x.harp.isSome, lead, parked]) ++ fieldAt 8 8 card ++ fieldAt 0x10 4 x.blkid ++
  fieldAt 0x14 4 (if lead then missing else 0) ++ fieldAt 0x18 8 x.pts ++
  ps.flatMap (fun e => partyBytes (65 * b + e.1) (0x1000 + 0x1000 * e.1) e.2) ++
  (match s.parties.get? (65 * b + 64) with | some p => partyBytes (65 * b + 64) 0x41000 p | none => []) ++
  ownBytes b 1 0x42000 8192 ++ x.sp.map (fun (e : Nat × Byte) => (0x44000 + e.1, e.2)) ++
  (match x.harp with | some h => harpBytes 0xC4000 h | none => []) ++
  ps.flatMap (fun e => rowBytesOf (0x14D000 + 9216 * e.1) x.kern.vregs e.2) ++
  eng.flatMap (fun e => ownBytes (65 * b + e.1) 2 (0x1DD000 + 0x4000 * e.1) (64 * (e.2.copies.length + e.2.pubs.length + e.2.pages.length))) ++
  eng.flatMap (fun e => ownBytes (65 * b + e.1) 3 (0x2E1000 + 0x4000 * e.1) (256 * e.2.pend.length))

/-- The block save record is written under the context's key ID (R422): the device's own store, whole, seen by every
later reader; its lines are the key's from then on (R393), and no granule of them has a tag (R360). -/
def saveBlock (s : State) (b : Nat) : State :=
  match s.blocks.get? b, s.chords.get? (cidOf b) with
  | some x, some c =>
    let base := locOf c.ctx ((descOf s c.ctx).savePa + 0x400000 * x.save)
    let mine := (saveBytes s b x).filter (fun (e : Nat × Byte) => decide (e.1 < 0x400000))
    let kept := s.mem.filter (fun (e : Nat × Byte) => decide (base ≤ e.1) && decide (e.1 < base + 0x400000) && portLost s e.1)
    let cells := (mine.filter (fun e => !portLost s (base + e.1))).foldl (fun (m : AMap Byte) e => m.put (base + e.1) e.2 memDefault) kept
    let k := ownerCode s c.ctx
    let lines : AMap Nat := (List.range 0x8000).map (fun i => (lineOf base + i, k))
    let t := tagLoc base
    { s with dropped := (mine.filter (fun e => portLost s (base + e.1))).foldl (fun l e =>
               let n := lineOf (base + e.1)
               if l.contains n then l else l ++ [n]) s.dropped,
             mem := AMap.splice (AMap.splice s.mem base (base + 0x400000) cells) t (t + 0x40000) [],
             hist := AMap.splice (AMap.splice s.hist base (base + 0x400000) []) t (t + 0x40000) [],
             owner := AMap.splice s.owner (lineOf base) (lineOf base + 0x8000) lines }
  | _, _ => s

/-! ### The halt (R420, R421) -/

/-- Fixed-latency results complete; the stall that remains is kept (R36, R420); GEN rises (R421), and the reads of loads that
have still to return have no standing (R423). -/
def haltRegs (s : State) (q : Nat) : State :=
  let s1 := modParty s q (fun p => { p with
    pend := p.pend.map (fun d => match d.kind with
      | .fixed _ => { d with kind := .fixed 0 }
      | .load _ => { d with reads := [] }
      | _ => d),
    nextIssue := p.nextIssue - partyClock s q, gen := p.gen + 1, yielded := [] })
  settleParty s1 q

/-- The registers of a party settle and its waits at slices are withdrawn (R351, R420). -/
def haltParty (s : State) (q : Nat) : State :=
  match s.parties.get? q with
  | none => s
  | some p =>
    if p.retired then modParty s q (fun p => { p with nextIssue := p.nextIssue - partyClock s q })
    else withdrawLocks (leaveMemSet (haltRegs s q) q) q

/-- The parties of a chord that are held. -/
def chordLive (s : State) (cid : Nat) : List Nat := (chordParties cid).filter (fun q => (s.parties.get? q).isSome)

/-- The L1 lines of a context on a core are written back (R420). -/
def cleanL1 (s : State) (core ctx : Nat) : State :=
  let c := coreOf s core
  setCore s core { c with l1 := c.l1.map (fun l => if l.tr.ctx == ctx then { l with dirty := false } else l) }

/-- A block leaves its core: it is saved with the core's pts (R315, R422). -/
def blockOut (s : State) (b ctx : Nat) : State :=
  match s.blocks.get? b with
  | none => s
  | some x =>
    let s1 := setBlock (cleanL1 s x.core ctx) b { x with resident := false, pts := (coreOf s x.core).pts }
    saveBlock s1 b

/-- The Harps and then every party of a chord halt (R238, R261, R326, R420): their stores are performed and their copies stop at a
prefix, then their registers settle and their waits leave, each kind of event for all of them (R340), and their bounds are
carried out to .PKG. A block whose last copy has ended so may be one that cannot go on (R239). -/
def haltChord (s : State) (cid : Nat) : State :=
  let qs := chordLive s cid
  let each : (State → Nat → State) → State → State := fun f s => qs.foldl f s
  let s1 := each haltParty (each haltCopies (each drainParty ((chordBlocks s cid).foldl haltHarp s)))
  (chordBlocks s cid).foldl checkStuck (each (fun s q => pushOut s q .pkg) s1)

/-- The chord leaves its cluster in state `st` (R286, R420). -/
def switchOut (s : State) (cid : Nat) (st : ChordSt) : State :=
  match s.chords.get? cid with
  | none => s
  | some c =>
    let s1 := modChord s cid (fun c => { c with st := st, cbMap := [] })
    (chordBlocks s1 cid).foldl (fun s b => blockOut s b c.ctx) s1

/-- A region that a chord misses: private space or not, base, bytes; and the address to log. -/
structure Missing where
  priv : Bool
  base : Nat
  bytes : Nat
  va : Nat
  deriving DecidableEq, Repr

/-- A PAGE_PARK record of a party (R302, R426). -/
def parkRec (s : State) (q : Nat) (iaddr : W64) (word : W96) (va : Nat) : FaultRec :=
  { partyRec s q codePark with term := false, iaddr := iaddr, word := word, addr := BitVec.ofNat 64 va }

/-- Regions are added to what a chord misses; each that is new sends a PAGE_PARK record (R302). -/
def addMissing (s : State) (cid q : Nat) (iaddr : W64) (word : W96) (ms : List Missing) : State :=
  ms.foldl (fun s m => match s.chords.get? cid with
    | none => s
    | some c =>
      if c.missing.contains (m.priv, m.base, m.bytes) then s
      else fqPut (modChord s cid (fun c => { c with missing := c.missing ++ [(m.priv, m.base, m.bytes)] })) c.part
        (parkRec s q iaddr word m.va) (some cid)) s

/-- A chord parks (R152, R302): every block of it is switched out; its instruction issues again on resume. -/
def park (s : State) (q : Nat) (iaddr : W64) (word : W96) (ms : List Missing) : State :=
  let cid := cidOf (bidOf q)
  let s1 := addMissing s cid q iaddr word ms
  switchOut (haltChord s1 cid) cid .parked

/-- The issuing instruction parks its block (R152). -/
def parkIssue (s : State) (c : Cur) (ms : List Missing) : State := park s c.q c.iaddr c.word ms

end Sys2Proof.Machine
end

