-- ==== Sys2Proof/Machine/Operands.lean ====
section
/-!
DEFINITION. Operands, guards, early reads and the issue of an instruction (spec/01 R18-R25, R30-R33; spec/08 R183): every
operand form of the spec, read once for all instructions.
-/
namespace Sys2Proof.Machine

/-- What an instruction works on when it issues: the issuer and its party, the party as each lane reads its registers and
the block as a bow reads it (R33), its executing set, its constant operand, its core. -/
structure Ctx where
  c : Cur
  p : Party
  pl : Nat → Party
  b : Block
  e : Mask
  cv : Nat
  core : Nat
  cycle : Nat
  clock : Nat
  pts : Nat

/-- %clock (R183): core cycles delivered since the core left reset. -/
def clockOf (s : State) (core : Nat) : Nat :=
  match s.released with
  | some r => coreClock s core - r
  | none => 0

/-- The executing set (R25), each lane's predicate as that lane reads it. -/
def guardMask (pl : Nat → Party) (g : Guard) (m : Mask) : Mask :=
  BitVec.ofNat 8 (maskNat ((List.range 8).map (fun l => m.has l && (getP (pl l) g.p.toNat l != g.neg))))

/-- The lanes of a set, in increasing order. -/
def lanesOf (m : Mask) : List Nat := (List.range 8).filter m.has

/-! ### Values -/

/-- The issuing fragment's LINK (R50) as lane `l` reads it. -/
def linkAt (k : Ctx) (l : Nat) : W64 := match fragAt (k.pl l) (slotIx k.c.slot) with | some f => f.link | none => 0

/-- The issuing fragment's LINK, read once (R72). -/
def linkOf (k : Ctx) : W64 := linkAt k (lowLane k.e % 8)

/-- A scalar register, read once. -/
def scalarOf (k : Ctx) (r : Nat) : W64 := getS (k.pl (lowLane k.e % 8)) r

/-- A special register (R24, R183). -/
def special (k : Ctx) (lane : Nat) : Special → Nat
  | .laneid => lane
  | .grpid => if k.p.bow then 64 else k.p.grpid
  | .blkid => k.b.blkid
  | .chordid => k.b.chordid
  | .cardid => k.b.cardVa
  | .link => (linkAt k lane).toNat
  | .clock => k.clock
  | .ticks => ticksOf k.cycle
  | .pts => k.pts
  | .fflags => (getFF (k.pl lane) lane).toNat
  | .ctxid => k.p.ctx
  | .caps0 => 0xFFF
  | .caps1 | .caps2 | .caps3 => 0

/-- A vector register, or the pair that starts there (R47, R115). -/
def vecVal (p : Party) (r lane : Nat) (wide : Bool) : Nat :=
  (getV p r lane).toNat + (if wide then (getV p (r + 1) lane).toNat * 2 ^ 32 else 0)

/-- The value of an operand in a lane, in the low bits of its read type (R20, R21). -/
def operand (k : Ctx) (t : Ty) (o : Opnd) (lane : Nat) : Nat :=
  let v := match o with
    | .unused => 0
    | .v r => vecVal (k.pl lane) r.toNat lane (tyWide t)
    | .s r => (getS (k.pl lane) r.toNat).toNat
    | .h r tag => (shadeRead (k.pl lane) k.b r.toNat tag lane).toNat
    | .p r => if getP (k.pl lane) r.toNat lane then 1 else 0
    | .const _ _ => k.cv
    | .spec x => special k lane x
    | o => immPat t o
  v % 2 ^ tyWidth t

/-- An operand read in an integer type, exact (Int of R116). -/
def operandInt (k : Ctx) (t : Ty) (o : Opnd) (lane : Nat) : Int := tyVal t (operand k t o lane)

/-- A predicate operand. -/
def operandP (k : Ctx) (o : Opnd) (lane : Nat) : Bool :=
  match o with | .p r => getP (k.pl lane) r.toNat lane | _ => false

/-- A 64-bit operand that is uniform, read in lane 0. -/
def uniform64 (k : Ctx) (o : Opnd) : Nat := operand k .n64 o (lowLane k.e % 8)

/-! ### Registers that an instruction reads (R33) -/

/-- The registers of a source operand, in the lanes of `m`; with none nothing is read (R116). -/
def opndKeys (m : Mask) (p : Pos) : Opnd → List RegKey
  | .v r => (List.range p.run).flatMap (fun j => (lanesOf m).map (fun l => .v (r.toNat + j) l))
  | .s r => if m = 0 then [] else (List.range p.srun).map (fun j => .s (r.toNat + j))
  | .h k _ => if m = 0 then [] else [.h k.toNat]
  | .p r => if r = 7 then [] else (lanesOf m).map (fun l => .p r.toNat l)
  | .spec .link => (lanesOf m).map .link
  | .spec .fflags => (lanesOf m).map (fun l => .ff l)
  | _ => []

/-- A field that is a source. -/
def srcKeys (m : Mask) (p : Pos) (o : Opnd) : List RegKey := if p.dst then [] else opndKeys m p o

/-- What an instruction reads beyond its operand fields, or does not read of them. -/
def extraKeys (m : Mask) : Instr → List RegKey
  | .ret _ => (lanesOf m).map .link
  | .pmovPack _ => (List.range 7).flatMap (fun r => (lanesOf m).map (fun l => .p r l))
  | .movi _ i => opndKeys m { allow := 0, run := 2 } i.a
  | .hpeek true _ => if m = 0 then [] else (List.range 32).map .h
  | _ => []

/-- An arrival that a party makes whatever its executing set (R25, R216, R288). -/
def arrives : Instr → Bool
  | .barSync _ | .barArr _ | .barExp _ | .cbarSync _ | .cbarArr _ => true
  | _ => false

/-- The registers that an instruction reads (R31-R33): its guard in the lanes of M, its sources in those of e; an arrival reads
its count whatever e. -/
def readKeys (env : Env) (ins : Instr) (i : Insn) (m e0 : Mask) : List RegKey :=
  let e := if arrives ins && e0 == 0 then Mask.single 0 else e0
  let sh := shapeOf (match i.c with | .imm32 _ => true | _ => false) env ins
  let b := match ins with | .hdrop _ _ => [] | _ => srcKeys e sh.b i.b
  (if i.g.p = 7 then [] else (lanesOf m).map (fun l => .p i.g.p.toNat l)) ++
  srcKeys e sh.a i.a ++ b ++ srcKeys e sh.c i.c ++
  (match sh.x, i.x with
   | .opnd p, .opnd o => srcKeys e p o
   | .lut p, .lut o _ => srcKeys e p o
   | _, _ => []) ++ extraKeys e ins

/-- The runs of vector registers that a source operand reads as one: a 64-bit value, or the aligned data of a store. -/
def opndRuns (p : Pos) : Opnd → List (Nat × Nat)
  | .v r =>
    if p.dst then []
    else if tyWide p.rt then (List.range (p.run / 2)).map (fun j => (r.toNat + 2 * j, 2))
    else if 1 < p.align then [(r.toNat, p.run)]
    else []
  | _ => []

/-- The runs of vector registers that an instruction reads as one (R33, R115). -/
def readRuns (env : Env) (ins : Instr) (i : Insn) : List (Nat × Nat) :=
  let sh := shapeOf (match i.c with | .imm32 _ => true | _ => false) env ins
  opndRuns sh.a i.a ++ opndRuns sh.b i.b ++ opndRuns sh.c i.c ++
  (match sh.x, i.x with
   | .opnd p, .opnd o => opndRuns p o
   | .lut p, .lut o _ => opndRuns p o
   | _, _ => [])

/-- Some register read is still to be written (R33). -/
def readsEarly (p : Party) (ks : List RegKey) : Bool := p.pend.any (fun d => (pendKeys d).any (fun k => ks.contains k))

/-! ### Streams and banks -/

/-- What the party's stream may name (R18, R37, R178, R288). -/
def envOf (s : State) (p : Party) (b : Block) (q : Nat) : Env :=
  { bow := p.bow, vregs := b.kern.vregs, shade := b.kern.shade, barriers := b.kern.barriers, queues := b.kern.queues,
    harp := b.harp.isSome, multi := match s.chords.get? (cidOf (bidOf q)) with | some c => 2 ≤ c.n | none => false }

/-- CBASE (R468): the end of the last stream, rounded up to 128. -/
def constBase (k : Kernel) : Nat := (max (k.gOff + k.gLen) (k.bOff + k.bLen) + 127) / 128 * 128

/-- The virtual address of constant bank `j` where the launch bound it (R468). -/
def bankVa (k : Kernel) (j : Nat) : Option Nat :=
  if k.consts.toNat.testBit j then
    some (k.image + constBase k + 65536 * ((List.range j).filter k.consts.toNat.testBit).length)
  else none

/-- The constant operand of an instruction, with its read type. -/
def constOf (env : Env) (ins : Instr) (i : Insn) : Option (Nat × Nat × Ty) :=
  let sh := shapeOf false env ins
  match ins with
  | .ldc _ _ => none
  | _ => match i.b, i.c with
    | .const b o, _ => some (b.toNat, o.toNat, sh.b.rt)
    | _, .const b o => some (b.toNat, o.toNat, sh.c.rt)
    | _, _ => none

/-- The record of a precise fault found in the translation of a lane's access (R151, R392, R426). -/
def laneRec (s : State) (q code lane level : Nat) (addr : W64) : FaultRec :=
  atLevel { partyRec s q code with lane := lane, addr := addr } level

/-- A precise fault found in the translation of a lane's access. -/
def faultAt (s : State) (c : Cur) (code lane level : Nat) (addr : W64) : State := faultRec s c (laneRec s c.q code lane level addr)

/-- `n` bytes at a global address on the read-only path or the general one, checked as a load under checks 2 to 5 of R150 (R23,
R41, R438): precise faults of the issuing instruction, parking, poison (R153). -/
def readGlobal (s : State) (c : Cur) (ctx core : Nat) (ro : Bool) (va n lane : Nat) (perm : Perm) : ReadRes Nat :=
  let r := checkVa s core ctx false va perm
  match r.1 with
  | .fault code level => .stop (faultAt s c code lane level (BitVec.ofNat 64 va))
  | .nonres base bytes => .stop (parkIssue s c [⟨false, base, bytes, va⟩])
  | .ok t =>
    let loc := trLoc t va
    if poisoned r.2 loc then .stop (faultAt s c codePoison lane (lineAddr loc) (BitVec.ofNat 64 va))
    else match readCells (if ro then touchRo r.2 core t va else touchL1 r.2 core (partyOct r.2 c.q) t va false false) c.q
        (if ro then .ro else .general) (addrs loc n) with
      | some (bytes, s1) => .ok (leNat bytes) (renewLine s1 c.q core ro (trPa t va / 128) (addrs loc n))
      | none => .wait

/-- The constant operand's value (R23), read once where e is not empty; a fault is one of the lowest lane of e (R151). -/
def readConst (s : State) (c : Cur) (p : Party) (b : Block) (lane : Nat) (k : Nat × Nat × Ty) : ReadRes Nat :=
  match bankVa b.kern k.1 with
  | none => .stop (faultLane s c codeBounds lane 0 0)
  | some base => readGlobal s c p.ctx b.core true (base + k.2.1) (tyWidth k.2.2 / 8) lane permR

/-! ### Issue -/

/-- The context of an issue. -/
def mkCtx (s : State) (c : Cur) (p : Party) (v : View) (e : Mask) (cv : Nat) : Ctx :=
  { c := c, p := p, pl := v.lane, b := v.block, e := e, cv := cv, core := v.block.core, cycle := s.cycle,
    clock := clockOf s v.block.core, pts := (coreOf s v.block.core).pts }

/-- An instruction issues: under CHECK an early read raises STALL_SHORT (R33); its constant is read (R23); `f` does the
rest, and answers nothing where the instruction is not ready. -/
def issueAt (ins : Instr) (i : Insn) (c : Cur) (p : Party) (b : Block) (s : State) (f : Ctx → State → Option State) : State :=
  let env := envOf s p b c.q
  let view := earlyView s (readRuns env ins i) p b
  let e := guardMask view.lane i.g c.m
  if p.check && readsEarly p (readKeys env ins i c.m e) then fault s c codeStall
  else
    let s0 := { s with draws := view.draws }
    match (if e = 0 then none else constOf env ins i) with
    | none => (f (mkCtx s c p view e 0) s0).getD s
    | some k =>
      match readConst s0 c p b (lowLane e % 8) k with
      | .ok v s1 => (f (mkCtx s c p view e v) s1).getD s
      | .stop s1 => s1
      | .wait => s

/-- An instruction of the issuing party: `f` gives its effect. -/
def issue (ins : Instr) (i : Insn) (s : State) (f : Ctx → State → Option State) :
    Host.Outcome State Fault Refusal :=
  match s.cur with
  | none => .fault .noIssuer
  | some c =>
    match s.parties.get? c.q, blockOf s c.q with
    | some p, some b => .next (issueAt ins i c p b s f)
    | _, _ => .next s

/-- The issuing fragment goes on past the instruction (R30, R54). -/
def finish (k : Ctx) (i : Insn) (s : State) : State := stepPc (noteIssue s k.c i.h) k.c

/-- The fragments that joined a group-wide issue go on (R62). -/
def finishJoined (k : Ctx) (i : Insn) (st : FragState) (s : State) : State :=
  stepJoined (noteIssue s k.c i.h) k.c st

/-! ### Results -/

/-- A 64-bit value in a vector pair of a lane. -/
def pairWrites (r lane : Nat) (x : W64) : List RegWrite := [.v r lane (x.truncate 32), .v (r + 1) lane ((x >>> 32).truncate 32)]

/-- The writes of a per-lane result in destination `a` (R20, R25, R197, R199): `val` the pattern of each lane in type `t`. -/
def resultWrites (k : Ctx) (t : Ty) (a : Opnd) (val : Nat → Nat) : List RegWrite :=
  let ls := lanesOf k.e
  let lo := lowLane k.e % 8
  if k.e = 0 then []
  else match a with
    | .v r => ls.flatMap (fun l =>
        if tyWide t then pairWrites r.toNat l (reg64 t (val l)) else [.v r.toNat l (reg32 t (val l))])
    | .s r => [.s r.toNat (reg64 t (val lo))]
    | .h r tag =>
      if k.p.bow then [.stage r.toNat (reg32 t (val lo)) false]
      else [.shade r.toNat tag k.e ((List.range 8).map (fun l => reg32 t (val l)))]
    | .p r => ls.map (fun l => .p r.toNat l (val l % 2 == 1))
    | .spec .link => match fragAt k.p (slotIx k.c.slot) with
      | some f => [.link f.own (reg64 t (val lo))]
      | none => []
    | .spec .fflags => ls.map (fun l => .ffSet l (BitVec.ofNat 5 (val l)))
    | _ => []

/-- Flags ORed into %fflags of each lane of e (R112, R117); a uniform instruction's flags go to every lane of e. %fflags is
a destination of every instruction that can raise a flag, whether it raises one or not; `none` is one that cannot. -/
def flagWrites (k : Ctx) (fl : Option (Ctx → Nat → FFlags)) : List RegWrite :=
  match fl with
  | none => []
  | some f => (lanesOf k.e).map (fun l => .ffOr l (f k l))

/-- The destination is hK:g, e is not empty and not the live set: SHADE_RANK (R198). -/
def shadeRankBad (k : Ctx) (a : Opnd) : Bool :=
  match a with
  | .h _ .g => !k.p.bow && k.e != 0 && k.e != k.p.live
  | _ => false

/-- A fixed-latency instruction with a per-lane result (R30, R198). -/
def fixedOp (L : Nat) (t : Ty) (i : Insn) (val : Ctx → Nat → Nat) (fl : Option (Ctx → Nat → FFlags)) (k : Ctx) (s : State) :
    Option State :=
  if shadeRankBad k i.a then some (fault s k.c codeShade)
  else some (addFixed (finish k i s) k.c L (resultWrites k t i.a (val k) ++ flagWrites k fl))

/-- A variable-latency arithmetic instruction (R118): its result comes with VARIABLE_LATENCY_RESULT. -/
def variableOp (t : Ty) (i : Insn) (val : Ctx → Nat → Nat) (fl : Option (Ctx → Nat → FFlags)) (k : Ctx) (s : State) :
    Option State :=
  if shadeRankBad k i.a then some (fault s k.c codeShade)
  else some (addResult (finish k i s) k.c .compute i.h.set.toNat (resultWrites k t i.a (val k) ++ flagWrites k fl))

/-- An instruction that can raise no flag. -/
def noFlags : Option (Ctx → Nat → FFlags) := none

end Sys2Proof.Machine
end

