-- ==== Sys2Proof/Machine/Issue.lean ====
section
/-!
DEFINITION. Which fragment issues, and the instruction it issues (spec/01 R30, R31, R34, R39-R42; spec/02 R51, R62; spec/03
R77; spec/08 R184, R185): readiness, fetch, reconvergence before a group-wide instruction.
-/
namespace Sys2Proof.Machine

/-! ### Fetch (R41, R42) -/

/-- The bounds of the party's code stream (R43). -/
def streamOf (b : Block) (bow : Bool) : Nat × Nat :=
  if bow then (b.kern.image + b.kern.bOff, b.kern.image + b.kern.bOff + b.kern.bLen)
  else (b.kern.image + b.kern.gOff, b.kern.image + b.kern.gOff + b.kern.gLen)

/-- The pages of an instruction, lower first, are translated and carry X (R41): the failure, if any. -/
def checkFetch (s : State) (c : Cur) (ctx core : Nat) : List Nat → ReadRes Nat
  | [] => .ok 0 s
  | va :: l =>
    let r := checkVa s core ctx false va permX
    match r.1 with
    | .fault code level => .stop (faultAt s c code 0 level (BitVec.ofNat 64 va))
    | .nonres base bytes => .stop (parkIssue s c [⟨false, base, bytes, va⟩])
    | .ok _ => checkFetch r.2 c ctx core l

/-- The aligned 4-byte pieces of an instruction through the read-only path (R42), the later ones above the earlier. -/
def fetchPieces (s : State) (c : Cur) (ctx core : Nat) : List Nat → ReadRes Nat
  | [] => .ok 0 s
  | va :: l =>
    match readGlobal s c ctx core true va 4 0 permX with
    | .ok v s1 =>
      match fetchPieces s1 c ctx core l with
      | .ok w s2 => .ok (v + 2 ^ 32 * w) s2
      | x => x
    | x => x

/-- The word at the issuer's instruction address, as a number (R41). -/
def fetchWord (s : State) (c : Cur) (p : Party) (b : Block) : ReadRes Nat :=
  let pc := c.iaddr.toNat
  let st := streamOf b p.bow
  if pc < st.1 ∨ st.2 < pc + 12 then
    .stop (faultRec s c { partyRec s c.q codeBounds with addr := c.iaddr })
  else
    match checkFetch s c p.ctx b.core [pc, pc + 8] with
    | .ok _ s1 => fetchPieces s1 c p.ctx b.core [pc, pc + 4, pc + 8]
    | x => x

/-! ### Instructions of a kind -/

/-- The group-wide instructions (R62, R288). -/
def groupWide : Instr → Bool
  | .vote _ _ | .shfl _ _ | .bcast _ _ | .redux _ _ | .scan _ _ | .matchOp _ _ | .unison _ | .barSync _ | .barArr _
  | .barWait _ | .barExp _ | .cbarSync _ | .cbarArr _ | .cbarWait _ | .lock _ _ | .qpush _ | .qpop _ | .qtryPop _ _
  | .qtryPush _ _ => true
  | _ => false

/-! ### Readiness (R30, R31, R51, R184, R185) -/

/-- The hints of a word allow issue: each token of WAIT is released, and the token of SET (R31). -/
def tokensOk (p : Party) (h : Hints) : Bool :=
  (List.range 7).all (fun k => !(h.wait.toNat.testBit k && p.tokens.toNat.testBit (k + 1))) &&
  (h.set == 0 || !p.tokens.toNat.testBit h.set.toNat)

/-- Outstanding results of variable latency, each of which a halt would put in a packet (R420). -/
def openPends (p : Party) : Nat :=
  (p.pend.filter (fun d => match d.kind with | .fixed _ => false | _ => true)).length

/-- The party may issue in this cycle, whatever its instruction: the dies out of reset, the party active, its stall over, its
octant free, no group ahead of it under a YIELD (R30, R77, R184, R455). -/
def mayIssue (s : State) (q : Nat) : Bool :=
  match s.parties.get? q, blockOf s q with
  | some p, some b =>
    s.released.isSome && active s q && decide (p.nextIssue ≤ coreClock s b.core) &&
    decide ((octAt s b.core (octOf b p)).lastIssue ≠ some (coreClock s b.core)) && p.yielded.all (fun r => !active s r)
  | _, _ => false

/-- The group is throttled (R185): it has come to a memory instruction and is no member of its octant's memory set. -/
def throttled (s : State) (q : Nat) (p : Party) (b : Block) (w : Nat) : Bool :=
  !p.bow && memOpcode w &&
  match (octAt s b.core (octOf b p)).mem with
  | some l => !l.contains q
  | none => false

/-! ### Preparation of an issue -/

/-- What comes of a move that names a party and a slot: nothing issues, in a state that may have changed; the issue ends in
a fault or a park before any instruction is known; or an instruction issues, with `cur` set. -/
inductive Prep
  | stay (s : State)
  | halt (s : State)
  | run (i : Instr) (s : State)

/-- The word fetched for the issuer `c` is decoded and its hints are checked; an illegal word faults as soon as a fragment
comes to it, whatever its opcode (R39-R40; log entry 55). -/
def prepWord (s : State) (c : Cur) (p : Party) (b : Block) (w : Nat) : Prep :=
  let c1 := { c with word := BitVec.ofNat 96 w }
  let h := hintsOf (fld w 80 16)
  if !tokensOk p h then .stay s
  else match decodeNat (envOf s p b c.q) w with
    | .error x => .halt (fault s c1 (illegalCode x))
    | .ok i =>
      if throttled s c.q p b w then .stay s
      else .run i { s with cur := some c1 }

/-- A group-wide issue at `pc` by the fragments that have converged there (R62); the slot that the schedule named counts as
the issuing slot of R51 (log entry 55). -/
def prepWide (s : State) (q : Nat) (slot : Bool) (p : Party) (b : Block) : Prep :=
  match (if reconverged p then convergePc p else none) with
  | none => .stay s
  | some pc =>
    let c : Cur := ⟨q, slot, joinMask p (2 + p.spill.length) pc, pc, (0 : W96), []⟩
    match fetchWord s c p b with
    | .ok w s1 =>
      match s1.parties.get? q, blockOf s1 q with
      | some p1, some b1 => prepWord s1 c p1 b1 w
      | _, _ => .stay s1
    | .stop s1 => .halt s1
    | .wait => .stay s

/-- The fragment in a slot becomes CONVERGING, and gives its slot to a RUN entry of the area (R56, R62). -/
def converge (p : Party) (slot : Bool) (f : Frag) : Party :=
  settleFrags (swapOut (putFrag p (slotIx slot) { f with st := .converging }) (slotIx slot))

/-- A fragment that runs comes to its instruction: it issues it, or waits before a group-wide one (R62). -/
def prepRun (s : State) (q : Nat) (slot : Bool) (p : Party) (b : Block) (f : Frag) : Prep :=
  let c : Cur := ⟨q, slot, f.mask, f.pc, (0 : W96), []⟩
  match fetchWord s c p b with
  | .ok w s1 =>
    match decodeNat (envOf s p b q) w, s1.parties.get? q, blockOf s1 q with
    | .ok i, some p1, some b1 =>
      if groupWide i then
        let p2 := converge p1 slot f
        prepWide (setParty s1 q p2) q slot p2 b1
      else prepWord s1 c p1 b1 w
    | .error _, some p1, some b1 => prepWord s1 c p1 b1 w
    | _, _, _ => .stay s1
  | .stop s1 => .halt s1
  | .wait => .stay s

/-- The issue of party `q` from a slot (R51, R62), whatever the other candidates of its octant and the other slot. A slot that
is free counts as the issuing one only where no slot holds a fragment that waits (log entry 55). -/
def prepare (s : State) (q : Nat) (slot : Bool) : Prep :=
  match s.parties.get? q, blockOf s q with
  | some p, some b =>
    if !mayIssue s q then .stay s
    else match fragAt p (slotIx slot) with
      | some f => if isRun f then prepRun s q slot p b f else prepWide s q slot p b
      | none => match fragAt p (slotIx (!slot)) with
        | some f => if isWaiting f then .stay s else prepWide s q slot p b
        | none => prepWide s q slot p b
  | _, _ => .stay s

end Sys2Proof.Machine
end

