-- ==== Sys2Proof/Machine/Control.lean ====
section
/-!
DEFINITION. Control and mask instructions (spec/03 R69-R80): NOP, BRA, BRX, CALL, CALLX, RET, EXIT, YIELD, TRAP, BRZ, MSET,
MSAVE, MREST; and the retirement of a party (spec/02 R48, R66; spec/16 R352).
-/
namespace Sys2Proof.Machine

/-! ### Targets (R69-R71) -/

/-- The address `d` instructions past the following one (R16). -/
def dispTarget (k : Ctx) (d : Int) : W64 := nextPc k.c.iaddr + BitVec.ofInt 64 (12 * d)

/-- The displacement in X. -/
def xDisp (i : Insn) : Int := match i.x with | .disp d => d.toInt | _ => 0

/-- The join displacement of BRA: jh·512 + jl (R70). -/
def braJoin (i : Insn) : Int :=
  (match i.b with | .imm n => n.toInt | _ => 0) * 512 + (match i.c with | .imm n => (n.toNat : Int) | _ => 0)

/-- An indirect target in B: a scalar register or %link, read once (R72). -/
def bTarget (k : Ctx) (i : Insn) : W64 :=
  match i.b with
  | .s r => scalarOf k r.toNat
  | _ => linkOf k

/-! ### Branches and calls (R52, R60, R72) -/

/-- A call drops the writes of %link that earlier instructions have still to make in this fragment: its own write of LINK
is the later one (R32, R72). -/
def cutLink (p : Party) (slot : Bool) : Party :=
  match fragAt p (slotIx slot) with
  | none => p
  | some f => cutLinks p f.own

/-- A branch or call with target `t` and join `j` is resolved; `call` writes LINK of the taken part (R52, R57, R72). -/
def branch (i : Insn) (t : W64) (j : Option W64) (call : Bool) (k : Ctx) (s : State) : State :=
  let s1 := noteIssue s k.c i.h
  match s1.parties.get? k.c.q with
  | none => s
  | some p =>
    let link := linkOf k
    let p1 := if call && k.e != 0 then cutLink p k.c.slot else p
    match resolveBranch p1 (spillDepth k.b.kern) (slotIx k.c.slot) k.e t j link
        (if call then nextPc k.c.iaddr else link) with
    | some p2 => setParty s1 k.c.q p2
    | none => fault s k.c codeDiverge

/-- An indirect branch: a target that is no multiple of 4 raises MISALIGNED (R74). -/
def branchTo (i : Insn) (t : W64) (j : Option W64) (call : Bool) (k : Ctx) (s : State) : State :=
  if k.e != 0 && t.toNat % 4 != 0 then faultRec s k.c { partyRec s k.c.q codeMisaligned with addr := t }
  else branch i t j call k s

/-- BRA (R71, R72). -/
def execBra (join : Bool) (i : Insn) (s : State) : Host.Outcome State Fault Refusal :=
  issue (.bra join i) i s (fun k s =>
    some (branch i (dispTarget k (xDisp i)) (if join then some (dispTarget k (braJoin i)) else none) false k s))

/-- BRX (R71, R72, R74). -/
def execBrx (join : Bool) (i : Insn) (s : State) : Host.Outcome State Fault Refusal :=
  issue (.brx join i) i s (fun k s =>
    some (branchTo i (bTarget k i) (if join then some (dispTarget k (xDisp i)) else none) false k s))

/-- CALL (R71, R72). -/
def execCall (i : Insn) (s : State) : Host.Outcome State Fault Refusal :=
  issue (.call i) i s (fun k s =>
    some (branch i (dispTarget k (xDisp i)) (some (nextPc k.c.iaddr)) true k s))

/-- CALLX (R71, R72, R74). -/
def execCallx (i : Insn) (s : State) : Host.Outcome State Fault Refusal :=
  issue (.callx i) i s (fun k s =>
    some (branchTo i (bTarget k i) (some (nextPc k.c.iaddr)) true k s))

/-- RET (R71, R72, R74, R75): the target is LINK, and the join is the target. -/
def execRet (i : Insn) (s : State) : Host.Outcome State Fault Refusal :=
  issue (.ret i) i s (fun k s => some (branchTo i (linkOf k) (some (linkOf k)) false k s))

/-- The issuing fragment goes to `t`. -/
def jump (s : State) (c : Cur) (t : W64) : State :=
  modParty s c.q (fun p => match fragAt p (slotIx c.slot) with
    | some f => settleFrags (putFrag p (slotIx c.slot) { f with pc := t })
    | none => p)

/-- BRZ (R73): to the target where no lane is in e. -/
def execBrz (i : Insn) (s : State) : Host.Outcome State Fault Refusal :=
  issue (.brz i) i s (fun k s =>
    some (if k.e = 0 then jump (noteIssue s k.c i.h) k.c (dispTarget k (xDisp i)) else finish k i s))

/-! ### EXIT (R48, R66, R76, R352) -/

/-- The private bytes of a party stay behind where they lie, for a later party of its context (R66). -/
def leavePrivate (s : State) (p : Party) : State :=
  let c := ctxOf s p.ctx
  setCtx s p.ctx { c with left := p.priv.foldl (fun (m : AMap (List Byte)) e => m.insert e.1 (e.2 :: (m.getD e.1 []))) c.left }

/-- A party whose last lane has exited retires (R48): its results are discarded, its private lines dropped, and each lock it
holds is released as by an UNLOCK.SYS issued now (R352). What a bow has staged and not committed is discarded (R202). -/
def retireParty (s : State) (q : Nat) : State :=
  match s.parties.get? q with
  | none => s
  | some p =>
    let pf := privFrame s p
    let mine : L1Line → Bool := fun l => l.tr.priv && l.tr.ctx == p.ctx && decide (pf ≤ l.va) &&
      decide (l.va < pf + 8 * match blockOf s q with | some b => frameQ b.kern | none => 0)
    let s1 := leavePrivate (dropL1 (leaveMemSet s q) (coreIx s q) mine) p
    let p1 := { p with retired := true, pend := [], tokens := 0, splits := [], slot0 := none, slot1 := none, spill := [],
                       held := p.held.map (fun _ => heldFree), priv := [], hG := [], hL := [] }
    let s2 := modBlock (setParty s1 q p1) (bidOf q) (fun b => if p.bow then { b with staged := [] } else b)
    (p.held.filter (fun h => h.st == .held)).foldl (fun s h =>
      pushBuf s q .general (.unlock h.line) [] [] (some .sys) false) s2

/-- EXIT (R76); a block whose other parties are all blocked cannot go on (R239). -/
def execExit (i : Insn) (s : State) : Host.Outcome State Fault Refusal :=
  issue (.exit i) i s (fun k s =>
    if k.e = 0 then some (finish k i s)
    else
      let s1 := modParty (noteIssue s k.c i.h) k.c.q (fun p => settleFrags (exitLanes p (slotIx k.c.slot) k.e))
      match s1.parties.get? k.c.q with
      | some p => some (checkStuck (if p.live = 0 then retireParty s1 k.c.q else s1) (bidOf k.c.q))
      | none => some s1)

/-! ### NOP, YIELD, TRAP (R77, R78) -/

/-- NOP (R77). -/
def execNop (i : Insn) (s : State) : Host.Outcome State Fault Refusal :=
  issue (.nop i) i s (fun k s => some (finish k i s))

/-- YIELD (R77): every other group of the octant that is ready now issues before this one does again. -/
def execYield (i : Insn) (s : State) : Host.Outcome State Fault Refusal :=
  issue (.yield i) i s (fun k s =>
    let s1 := finish k i s
    some (if k.e = 0 then s1 else modParty s1 k.c.q (fun p => { p with yielded := k.c.peers })))

/-- The code of a TRAP, the short form sign-extended (R78). -/
def trapCode (i : Insn) : BitVec 32 :=
  match i.c with
  | .imm n => BitVec.ofInt 32 n.toInt
  | .imm32 n => n
  | _ => 0

/-- TRAP (R78). -/
def execTrap (i : Insn) (s : State) : Host.Outcome State Fault Refusal :=
  issue (.trap i) i s (fun k s =>
    some (if k.e = 0 then finish k i s else faultDetail s k.c codeTrap (trapCode i)))

/-! ### Masks (R79) -/

/-- The issuing fragment's MASK is replaced. -/
def setMask (s : State) (c : Cur) (f : Frag → Mask) : State :=
  modParty s c.q (fun p => match fragAt p (slotIx c.slot) with
    | some g => putFrag p (slotIx c.slot) { g with mask := f g }
    | none => p)

/-- MSET (R79): MASK := e. -/
def execMset (i : Insn) (s : State) : Host.Outcome State Fault Refusal :=
  issue (.mset i) i s (fun k s => some (finish k i (setMask s k.c (fun _ => k.e))))

/-- OWN in 15:8 and MASK in 7:0 of the issuing fragment. -/
def masksOf (k : Ctx) : W64 :=
  match fragAt k.p (slotIx k.c.slot) with
  | some f => BitVec.ofNat 64 (f.own.toNat * 256 + f.mask.toNat)
  | none => 0

/-- MSAVE (R79), whatever the executing set. -/
def execMsave (i : Insn) (s : State) : Host.Outcome State Fault Refusal :=
  issue (.msave i) i s (fun k s =>
    some (addFixed (finish k i s) k.c 4 (match i.a with | .s r => [.s r.toNat (masksOf k)] | _ => [])))

/-- The operand of MREST: B, or a long immediate of either form in C (log entry 29). -/
def restoreMask (k : Ctx) (i : Insn) : Mask :=
  BitVec.ofNat 8 (match i.c with | .imm32 n => n.toNat | .imm29 n => n.toNat | _ => operand k .n64 i.b 0)

/-- MREST (R79): MASK := b[7:0] AND OWN, whatever the executing set. -/
def execMrest (i : Insn) (s : State) : Host.Outcome State Fault Refusal :=
  issue (.mrest i) i s (fun k s => some (finish k i (setMask s k.c (fun f => restoreMask k i &&& f.own))))

end Sys2Proof.Machine
end

