-- ==== Sys2Proof/Machine/Integer.lean ====
section
/-!
DEFINITION. Integer, logic, shift, bit-field and move instructions (spec/05 R114-R128).
-/
namespace Sys2Proof.Machine

/-! ### Shared forms -/

/-- The fourth operand. -/
def xOpnd (i : Insn) : Opnd :=
  match i.x with | .opnd o => o | .lut o _ => o | _ => .unused

/-- The pattern of a result, clamped or wrapped (R119). -/
def narrow (t : Ty) (sat : Bool) (n : Int) : Nat := pat (tyWidth t) (if sat then tyClamp t n else tyWrap t n)

/-- An integer instruction of latency `L` whose result pattern in type `t` is `f` of the lane. -/
def intOp (ins : Instr) (L : Nat) (t : Ty) (i : Insn) (s : State) (f : Ctx → Nat → Nat) :
    Host.Outcome State Fault Refusal :=
  issue ins i s (fixedOp L t i f noFlags)

/-- An arithmetic instruction of two sources (R119). -/
def arith2 (ins : Instr) (L : Nat) (t : Ty) (sat : Bool) (i : Insn) (s : State) (n : Int → Int → Int) :
    Host.Outcome State Fault Refusal :=
  intOp ins L t i s (fun k l => narrow t sat (n (operandInt k t i.b l) (operandInt k t i.c l)))

/-- An instruction on the patterns of two sources (R124). -/
def logic2 (ins : Instr) (t : Ty) (i : Insn) (s : State) (n : Nat → Nat → Nat) : Host.Outcome State Fault Refusal :=
  intOp ins 4 t i s (fun k l => n (operand k t i.b l) (operand k t i.c l) % 2 ^ tyWidth t)

/-! ### Arithmetic (R119-R121) -/

/-- IADD (R119). -/
def execIadd (m : IntMod) (i : Insn) (s : State) : Host.Outcome State Fault Refusal :=
  arith2 (.iadd m i) 4 m.ty m.sat i s (fun b c => b + c)

/-- ISUB (R119). -/
def execIsub (m : IntMod) (i : Insn) (s : State) : Host.Outcome State Fault Refusal :=
  arith2 (.isub m i) 4 m.ty m.sat i s (fun b c => b - c)

/-- IMUL (R119). -/
def execImul (m : IntMod) (i : Insn) (s : State) : Host.Outcome State Fault Refusal :=
  arith2 (.imul m i) 6 m.ty m.sat i s (fun b c => b * c)

/-- IMULH (R119): floor(b·c / 2^w). -/
def execImulh (ty : Ty) (i : Insn) (s : State) : Host.Outcome State Fault Refusal :=
  arith2 (.imulh ty i) 6 ty false i s (fun b c => (b * c).fdiv (2 ^ tyWidth ty : Nat))

/-- IMAD (R119). -/
def execImad (m : IntMod) (i : Insn) (s : State) : Host.Outcome State Fault Refusal :=
  intOp (.imad m i) 6 m.ty i s (fun k l => narrow m.ty m.sat
    (operandInt k m.ty i.b l * operandInt k m.ty i.c l + operandInt k m.ty (xOpnd i) l))

/-- IMADW (R120): the product of two 32-bit numbers and a 64-bit one. -/
def execImadw (m : IntMod) (i : Insn) (s : State) : Host.Outcome State Fault Refusal :=
  intOp (.imadw m i) 6 (wideOf m.ty) i s (fun k l => narrow (wideOf m.ty) m.sat
    (operandInt k m.ty i.b l * operandInt k m.ty i.c l + operandInt k (wideOf m.ty) (xOpnd i) l))

/-- The quotient of R121. -/
def quot (t : Ty) (sat : Bool) (b c : Int) : Nat :=
  if c = 0 then 2 ^ tyWidth t - 1 else narrow t sat (b.tdiv c)

/-- The remainder of R121. -/
def rem (t : Ty) (b c : Int) : Nat := if c = 0 then pat (tyWidth t) b else pat (tyWidth t) (b.tmod c)

/-- IDIV (R121). -/
def execIdiv (m : IntMod) (i : Insn) (s : State) : Host.Outcome State Fault Refusal :=
  issue (.idiv m i) i s (variableOp m.ty i
    (fun k l => quot m.ty m.sat (operandInt k m.ty i.b l) (operandInt k m.ty i.c l)) noFlags)

/-- IREM (R121). -/
def execIrem (ty : Ty) (i : Insn) (s : State) : Host.Outcome State Fault Refusal :=
  issue (.irem ty i) i s (variableOp ty i
    (fun k l => rem ty (operandInt k ty i.b l) (operandInt k ty i.c l)) noFlags)

/-- IMIN (R119). -/
def execImin (ty : Ty) (i : Insn) (s : State) : Host.Outcome State Fault Refusal :=
  arith2 (.imin ty i) 4 ty false i s (fun b c => if b ≤ c then b else c)

/-- IMAX (R119). -/
def execImax (ty : Ty) (i : Insn) (s : State) : Host.Outcome State Fault Refusal :=
  arith2 (.imax ty i) 4 ty false i s (fun b c => if b ≤ c then c else b)

/-- IABS (R119). -/
def execIabs (m : IntMod) (i : Insn) (s : State) : Host.Outcome State Fault Refusal :=
  intOp (.iabs m i) 4 m.ty i s (fun k l => narrow m.ty m.sat ((operandInt k m.ty i.b l).natAbs : Int))

/-- INEG (R119). -/
def execIneg (m : IntMod) (i : Insn) (s : State) : Host.Outcome State Fault Refusal :=
  intOp (.ineg m i) 4 m.ty i s (fun k l => narrow m.ty m.sat (-(operandInt k m.ty i.b l)))

/-- The bytes products of DP4 (R120). -/
def dot4 (m : Dp4Mod) (b c : Nat) : Int :=
  let byte : Bool → Nat → Nat → Int := fun sg v j => tyVal (if sg then .s8 else .n8) (v / 2 ^ (8 * j))
  (List.range 4).foldl (fun n j => n + byte m.sb b j * byte m.sc c j) 0

/-- DP4 (R120). -/
def execDp4 (m : Dp4Mod) (i : Insn) (s : State) : Host.Outcome State Fault Refusal :=
  intOp (.dp4 m i) 6 m.ty i s (fun k l => narrow m.ty m.sat
    (operandInt k m.ty (xOpnd i) l + dot4 m (operand k m.ty i.b l) (operand k m.ty i.c l)))

/-! ### Comparison and selection (R122), addresses (R123) -/

/-- ISET (R122). -/
def execIset (m : IsetMod) (i : Insn) (s : State) : Host.Outcome State Fault Refusal :=
  intOp (.iset m i) 4 .n32 i s (fun k l =>
    if iCompare m.cmp (operandInt k m.ty i.b l) (operandInt k m.ty i.c l) then (if m.mask then 2 ^ 32 - 1 else 1) else 0)

/-- SEL (R122). -/
def execSel (m : NotMod) (i : Insn) (s : State) : Host.Outcome State Fault Refusal :=
  intOp (.sel m i) 4 m.ty i s (fun k l =>
    if operandP k (xOpnd i) l != m.inv then operand k m.ty i.b l else operand k m.ty i.c l)

/-- LEA (R123). -/
def execLea (m : LeaMod) (i : Insn) (s : State) : Host.Outcome State Fault Refusal :=
  intOp (.lea m i) 4 .n64 i s (fun k l =>
    pat 64 (operandInt k .n64 i.b l + operandInt k m.ty i.c l * (2 ^ m.sh.toNat : Nat)))

/-! ### Logic (R124) -/

/-- AND (R124). -/
def execAnd (ty : Ty) (i : Insn) (s : State) : Host.Outcome State Fault Refusal :=
  logic2 (.and ty i) ty i s (fun b c => b &&& c)

/-- OR (R124). -/
def execOr (ty : Ty) (i : Insn) (s : State) : Host.Outcome State Fault Refusal :=
  logic2 (.or ty i) ty i s (fun b c => b ||| c)

/-- XOR (R124). -/
def execXor (ty : Ty) (i : Insn) (s : State) : Host.Outcome State Fault Refusal :=
  logic2 (.xor ty i) ty i s (fun b c => b ^^^ c)

/-- NOT (R124). -/
def execNot (ty : Ty) (i : Insn) (s : State) : Host.Outcome State Fault Refusal :=
  intOp (.not ty i) 4 ty i s (fun k l => 2 ^ tyWidth ty - 1 - operand k ty i.b l)

/-- The truth table's bits (R124). -/
def lutBits (w t b c x : Nat) : Nat :=
  maskNat ((List.range w).map (fun j =>
    t.testBit ((if b.testBit j then 1 else 0) + (if c.testBit j then 2 else 0) + (if x.testBit j then 4 else 0))))

/-- LOP3 (R124). -/
def execLop3 (ty : Ty) (i : Insn) (s : State) : Host.Outcome State Fault Refusal :=
  intOp (.lop3 ty i) 4 ty i s (fun k l =>
    lutBits (tyWidth ty) (match i.x with | .lut _ t => t.toNat | _ => 0)
      (operand k ty i.b l) (operand k ty i.c l) (operand k ty (xOpnd i) l))

/-! ### Shifts (R125) -/

/-- The count of a shift, modulo w under WRAP. -/
def shiftCount (m : ShiftMod) (k : Nat) : Nat := if m.wrap then k % tyWidth m.ty else k

/-- A shift of `b` by a count (R125). -/
def shiftOp (ins : Instr) (m : ShiftMod) (i : Insn) (s : State) (f : Nat → Nat → Nat) : Host.Outcome State Fault Refusal :=
  intOp ins 4 m.ty i s (fun k l => f (operand k m.ty i.b l) (shiftCount m (operand k .n32 i.c l)))

/-- SHL (R125). -/
def execShl (m : ShiftMod) (i : Insn) (s : State) : Host.Outcome State Fault Refusal :=
  shiftOp (.shl m i) m i s (fun b k => if tyWidth m.ty ≤ k then 0 else b * 2 ^ k % 2 ^ tyWidth m.ty)

/-- SHR (R125). -/
def execShr (m : ShiftMod) (i : Insn) (s : State) : Host.Outcome State Fault Refusal :=
  shiftOp (.shr m i) m i s (fun b k => if tyWidth m.ty ≤ k then 0 else b / 2 ^ k)

/-- SAR (R125). -/
def execSar (m : ShiftMod) (i : Insn) (s : State) : Host.Outcome State Fault Refusal :=
  shiftOp (.sar m i) m i s (fun b k =>
    pat (tyWidth m.ty) ((sext (tyWidth m.ty) b).fdiv (2 ^ (min k (tyWidth m.ty)) : Nat)))

/-- A rotation left by `k` of w bits. -/
def rotl (w b k : Nat) : Nat := b * 2 ^ (k % w) % 2 ^ w + b / 2 ^ (w - k % w)

/-- ROL (R125). -/
def execRol (ty : Ty) (i : Insn) (s : State) : Host.Outcome State Fault Refusal :=
  intOp (.rol ty i) 4 ty i s (fun k l => rotl (tyWidth ty) (operand k ty i.b l) (operand k .n32 i.c l))

/-- FSHL (R125). -/
def execFshl (ty : Ty) (i : Insn) (s : State) : Host.Outcome State Fault Refusal :=
  intOp (.fshl ty i) 4 ty i s (fun k l =>
    let w := tyWidth ty
    (operand k ty i.b l * 2 ^ w + operand k ty i.c l) * 2 ^ (operand k .n32 (xOpnd i) l % w) / 2 ^ w % 2 ^ w)

/-! ### Bit fields (R126) -/

/-- The ones of a pattern. -/
def popCount (w b : Nat) : Nat := ones w b

/-- Leading zeros; w for 0. -/
def leadZeros (w b : Nat) : Nat := if b = 0 then w else w - 1 - b.log2

/-- Trailing zeros; w for 0. -/
def trailZeros (w b : Nat) : Nat := ((List.range w).find? b.testBit).getD w

/-- Bits in reverse order. -/
def revBits (w b : Nat) : Nat := maskNat ((List.range w).map (fun j => b.testBit (w - 1 - j)))

/-- POPC (R126). -/
def execPopc (ty : Ty) (i : Insn) (s : State) : Host.Outcome State Fault Refusal :=
  intOp (.popc ty i) 4 .n32 i s (fun k l => popCount (tyWidth ty) (operand k ty i.b l))

/-- CLZ (R126). -/
def execClz (ty : Ty) (i : Insn) (s : State) : Host.Outcome State Fault Refusal :=
  intOp (.clz ty i) 4 .n32 i s (fun k l => leadZeros (tyWidth ty) (operand k ty i.b l))

/-- CTZ (R126). -/
def execCtz (ty : Ty) (i : Insn) (s : State) : Host.Outcome State Fault Refusal :=
  intOp (.ctz ty i) 4 .n32 i s (fun k l => trailZeros (tyWidth ty) (operand k ty i.b l))

/-- BREV (R126). -/
def execBrev (ty : Ty) (i : Insn) (s : State) : Host.Outcome State Fault Refusal :=
  intOp (.brev ty i) 4 ty i s (fun k l => revBits (tyWidth ty) (operand k ty i.b l))

/-- The field of BFX (R126). -/
def fieldOf (t : Ty) (b : Int) (c : Nat) : Nat :=
  let len := c / 256 % 256
  let f := pat len (b.fdiv (2 ^ (c % 256) : Nat))
  if len = 0 then 0 else pat (tyWidth t) (if tySigned t then sext len f else (f : Int))

/-- BFX (R126). -/
def execBfx (ty : Ty) (i : Insn) (s : State) : Host.Outcome State Fault Refusal :=
  intOp (.bfx ty i) 4 ty i s (fun k l => fieldOf ty (operandInt k ty i.b l) (operand k .n32 i.c l))

/-- The low len bits of `b` in the field of `c` (R126). -/
def putField (w b c x : Nat) : Nat :=
  let pos := x % 256
  let len := x / 256 % 256
  (c % 2 ^ pos + b % 2 ^ len * 2 ^ pos + c / 2 ^ (pos + len) * 2 ^ (pos + len)) % 2 ^ w

/-- BFI (R126). -/
def execBfi (ty : Ty) (i : Insn) (s : State) : Host.Outcome State Fault Refusal :=
  intOp (.bfi ty i) 4 ty i s (fun k l =>
    putField (tyWidth ty) (operand k ty i.b l) (operand k ty i.c l) (operand k .n32 (xOpnd i) l))

/-! ### Moves (R127, R128) -/

/-- MOV (R127). -/
def execMov (ty : Ty) (i : Insn) (s : State) : Host.Outcome State Fault Refusal :=
  intOp (.mov ty i) 4 ty i s (fun k l => operand k ty i.c l)

/-- The operand with one half replaced (R127). -/
def putHalf (hi : Bool) (x n : Nat) : Nat :=
  if hi then n % 2 ^ 32 * 2 ^ 32 + x % 2 ^ 32 else x / 2 ^ 32 * 2 ^ 32 + n % 2 ^ 32

/-- MOVI (R127). -/
def execMovi (hi : Bool) (i : Insn) (s : State) : Host.Outcome State Fault Refusal :=
  intOp (.movi hi i) 4 .n64 i s (fun k l => putHalf hi (operand k .n64 i.a l) (operand k .n32 i.c l))

/-- A byte of PRMT (R128). -/
def permByte (src sel : Nat) : Nat :=
  let b := src / 2 ^ (8 * (sel % 8)) % 256
  match sel / 8 % 4 with
  | 0 => b
  | 1 => 0
  | 2 => if 128 ≤ b then 255 else 0
  | _ => 255

/-- PRMT (R128). -/
def permute (b c sel : Nat) : Nat :=
  (List.range 4).foldl (fun n j => n + permByte (b + c * 2 ^ 32) (sel / 2 ^ (8 * j)) * 2 ^ (8 * j)) 0

/-- PRMT (R128). -/
def execPrmt (i : Insn) (s : State) : Host.Outcome State Fault Refusal :=
  intOp (.prmt i) 4 .n32 i s (fun k l => permute (operand k .n32 i.b l) (operand k .n32 i.c l) (operand k .n32 (xOpnd i) l))

end Sys2Proof.Machine
end

