-- ==== Sys2Proof/Machine/GroupWide.lean ====
section
/-!
DEFINITION. Group-wide lane instructions (spec/03 R86-R91): VOTE, SHFL, BCAST, REDUX, SCAN, MATCH.
-/
namespace Sys2Proof.Machine

/-- A group-wide instruction: results of lane `l` in type `t`, further writes, flags; the fragments that joined go on
(R62, R86). -/
def wideOp (ins : Instr) (L : Nat) (t : Ty) (i : Insn) (s : State) (val : Ctx → Nat → Nat) (more : Ctx → List RegWrite)
    (fl : Option (Ctx → Nat → FFlags)) : Host.Outcome State Fault Refusal :=
  issue ins i s (fun k s =>
    some (addFixed (finishJoined k i .run s) k.c L
      (resultWrites k t i.a (val k) ++ more k ++ flagWrites k fl)))

/-- No further writes. -/
def noMore (_ : Ctx) : List RegWrite := []

/-- The predicate in X of each lane (R88, R91). -/
def predWrites (i : Insn) (f : Ctx → Nat → Bool) (k : Ctx) : List RegWrite :=
  match i.x with
  | .opnd (.p r) => (lanesOf k.e).map (fun l => .p r.toNat l (f k l))
  | _ => []

/-! ### VOTE (R87) -/

/-- q of a lane. -/
def voteBit (m : VoteMod) (i : Insn) (k : Ctx) (l : Nat) : Bool := operandP k i.b l != m.neg

/-- The lanes of e with q = 1. -/
def voters (m : VoteMod) (i : Insn) (k : Ctx) : List Nat := (lanesOf k.e).filter (voteBit m i k)

/-- The result of VOTE (R87). -/
def voteResult (m : VoteMod) (i : Insn) (k : Ctx) : Nat :=
  let v := voters m i k
  match m.kind with
  | .ballot => maskNat ((List.range 8).map (fun l => v.contains l))
  | .count => v.length
  | .lead => v.head?.getD 8
  | .some => if v.isEmpty then 0 else 1
  | .every => if v.length = (lanesOf k.e).length then 1 else 0
  | .same => if v.isEmpty || v.length == (lanesOf k.e).length then 1 else 0

/-- VOTE (R87). -/
def execVote (m : VoteMod) (i : Insn) (s : State) : Host.Outcome State Fault Refusal :=
  wideOp (.vote m i) 6 .n32 i s (fun k _ => voteResult m i k) noMore noFlags

/-! ### SHFL and BCAST (R88, R89) -/

def moveTy (w64 : Bool) : Ty := if w64 then .n64 else .n32

/-- The lane that lane `l` reads, where it is valid (R88). -/
def shflLane (m : ShflMod) (i : Insn) (k : Ctx) (l : Nat) : Option Nat :=
  let c := operand k .n32 i.c l
  let n : Int := (((l &&& (c % 8)) ^^^ (c / 16 % 8) : Nat) : Int) + sext 8 (c / 256)
  let n' := if m.wrap then n.emod 8 else n
  if 0 ≤ n' ∧ n' ≤ 7 ∧ k.e.has n'.toNat then some n'.toNat else none

/-- SHFL (R88). -/
def execShfl (m : ShflMod) (i : Insn) (s : State) : Host.Outcome State Fault Refusal :=
  wideOp (.shfl m i) 8 (moveTy m.w64) i s
    (fun k l => operand k (moveTy m.w64) i.b ((shflLane m i k l).getD l))
    (predWrites i (fun k l => (shflLane m i k l).isSome)) noFlags

/-- The source lane of BCAST (R89). -/
def bcastLane (m : BcastMod) (i : Insn) (k : Ctx) : Nat :=
  let n := operand k .n32 i.c (lowLane k.e % 8) % 8
  if m.first || !k.e.has n then lowLane k.e % 8 else n

/-- BCAST (R89). -/
def execBcast (m : BcastMod) (i : Insn) (s : State) : Host.Outcome State Fault Refusal :=
  wideOp (.bcast m i) 6 (moveTy m.w64) i s (fun k _ => operand k (moveTy m.w64) i.b (bcastLane m i k)) noMore noFlags

/-! ### REDUX and SCAN (R90) -/

/-- A value as REDUX and SCAN read it: a subnormal is zero under FTZ (R90, R106). -/
def redRead (m : RedMod) (v : Nat) : Nat :=
  if m.ftz && v % 2 ^ 31 < 2 ^ 23 then v / 2 ^ 31 * 2 ^ 31 else v

/-- Comb of R90. A value that Op is not applied to passes as it is, a NaN too (log entry 64). -/
def comb (m : RedMod) (a b : Option FRes) : Option FRes :=
  match a, b with
  | none, b => b
  | a, none => a
  | some x, some y =>
    let r := combine m.ty m.op m.ftz x.code y.code
    some ⟨r.code, x.fl ||| y.fl ||| r.fl⟩

/-- The leaf of a lane. -/
def redLeaf (m : RedMod) (i : Insn) (k : Ctx) (l : Nat) : Option FRes :=
  if k.e.has l then some ⟨redRead m (operand k m.ty i.b l), 0⟩ else none

/-- The tree of REDUX (R90). -/
def reduxTree (m : RedMod) (i : Insn) (k : Ctx) : FRes :=
  let y := redLeaf m i k
  let w0 := comb m (comb m (y 0) (y 1)) (comb m (y 2) (y 3))
  let w1 := comb m (comb m (y 4) (y 5)) (comb m (y 6) (y 7))
  (comb m w0 w1).getD ⟨0, 0⟩

/-- REDUX (R90). -/
def execRedux (m : RedMod) (i : Insn) (s : State) : Host.Outcome State Fault Refusal :=
  wideOp (.redux m i) 10 m.ty i s (fun k _ => (reduxTree m i k).code) noMore
    (if tyInt m.ty then none else some (fun k _ => (reduxTree m i k).fl))

/-- The identity that an exclusive SCAN gives its lowest participant (R90). -/
def scanIdentity (m : RedMod) : Nat :=
  match m.op with
  | .min => if m.ty = .f32 then 0x7F800000 else pat (tyWidth m.ty) (tyHi m.ty)
  | .max => if m.ty = .f32 then 0xFF800000 else pat (tyWidth m.ty) (tyLo m.ty)
  | .and => 2 ^ tyWidth m.ty - 1
  | _ => 0

/-- The serial combination over the lanes of a list, in order. -/
def scanOver (m : RedMod) (i : Insn) (k : Ctx) (ls : List Nat) : Option FRes :=
  ls.foldl (fun a l => comb m a (redLeaf m i k l)) none

/-- SCAN's result in lane `l` (R90). -/
def scanAt (m : RedMod) (i : Insn) (k : Ctx) (l : Nat) : FRes :=
  (scanOver m i k ((lanesOf k.e).filter (fun j => if m.excl then decide (j < l) else decide (j ≤ l)))).getD
    ⟨scanIdentity m, 0⟩

/-- The flags of every combination that SCAN makes (R90). -/
def scanFlags (m : RedMod) (i : Insn) (k : Ctx) : FFlags :=
  (lanesOf k.e).foldl (fun f l => f ||| (scanAt m i k l).fl) 0

/-- SCAN (R90). -/
def execScan (m : RedMod) (i : Insn) (s : State) : Host.Outcome State Fault Refusal :=
  wideOp (.scan m i) 10 m.ty i s (fun k l => (scanAt m i k l).code) noMore
    (if tyInt m.ty then none else some (fun k _ => scanFlags m i k))

/-! ### MATCH (R91) -/

/-- The lanes of e that hold the value of lane `l`. -/
def peers (m : MatchMod) (i : Insn) (k : Ctx) (l : Nat) : List Nat :=
  (lanesOf k.e).filter (fun j => operand k (moveTy m.w64) i.b j == operand k (moveTy m.w64) i.b l)

/-- Every lane of e holds one value. -/
def unanimous (m : MatchMod) (i : Insn) (k : Ctx) : Bool :=
  (lanesOf k.e).all (fun l => (peers m i k l).length == (lanesOf k.e).length)

/-- The result of MATCH (R91). -/
def matchAt (m : MatchMod) (i : Insn) (k : Ctx) (l : Nat) : Nat :=
  match m.kind with
  | .peers => maskNat ((List.range 8).map (fun j => (peers m i k l).contains j))
  | .lead => (peers m i k l).head?.getD 0
  | .unit => if unanimous m i k then k.e.toNat else 0

/-- MATCH (R91). -/
def execMatchOp (m : MatchMod) (i : Insn) (s : State) : Host.Outcome State Fault Refusal :=
  wideOp (.matchOp m i) 12 .n32 i s (matchAt m i) (predWrites i (fun k _ => unanimous m i k)) noFlags

end Sys2Proof.Machine
end

