-- ==== Sys2Proof/Machine/Access.lean ====
section
/-!
DEFINITION. Accesses of memory instructions (spec/06 R142-R153, spec/08 R169, spec/19 R420): the addresses of lanes, the
checks of R150 in order, the lowest faulting lane, parking, and the reads of loads, at issue and when a halt has cancelled
them.
-/
namespace Sys2Proof.Machine

/-! ### Widths and addresses (R144-R147) -/

/-- The operand is a vector register. -/
def isVec : Opnd → Bool
  | .v _ => true
  | _ => false

/-- The value of a base (R144): N64 in the global space, else N32; a short immediate with its sign (log entry 21). -/
def baseVal (k : Ctx) (glob : Bool) (o : Opnd) (lane : Nat) : Int :=
  match o with
  | .imm n => n.toInt
  | _ => (operand k (if glob then .n64 else .n32) o lane : Nat)

/-- The value of an index (R144). -/
def indexVal (k : Ctx) (o : Opnd) (lane : Nat) : Int :=
  match o with
  | .imm n => n.toInt
  | .v _ => operandInt k .s32 o lane
  | _ => operandInt k .s64 o lane

/-- The signed offset and the shift in X (R143). -/
def xOff (i : Insn) : Int := match i.x with | .mem off _ _ => off.toInt | _ => 0
def xShift (i : Insn) : Nat := match i.x with | .mem _ sh _ => sh.toNat | _ => 0

/-- The scope in X (R29). -/
def scopeAt (n : Nat) : Scope :=
  match n with
  | 0 => .grp | 1 => .blk | 2 => .clu | 3 => .die | 4 => .pkg | 5 => .fab | _ => .sys
def xScope (i : Insn) : Scope := match i.x with | .mem _ _ s => scopeAt s.toNat | _ => .grp

/-- ea of a lane (R144); `base` is false for LDC, which adds none (R159). -/
def laneEa (k : Ctx) (i : Insn) (glob base : Bool) (lane : Nat) : Int :=
  let ea := (if base then baseVal k glob i.b lane else 0) + indexVal k i.c lane * 2 ^ xShift i + xOff i
  if glob then ea % 2 ^ 64 else ea

/-- The lanes that make an access, with their addresses: one for a scalar destination (R155), the lowest of e, in whose private
space it lies (R157; log entry 65). -/
def laneEas (k : Ctx) (i : Insn) (glob base one : Bool) : List (Nat × Int) :=
  (if one then (lanesOf k.e).take 1 else lanesOf k.e).map (fun l => (l, laneEa k i glob base l))

/-! ### Checks (R150-R152) -/

/-- A lane's access after its checks: the locations of its bytes, and the translations it goes through with the addresses
they translate. `res` is false where LDNR found its page not resident (R160). -/
structure Acc where
  lane : Nat
  ea : Int
  locs : List Nat
  trs : List (Nat × Tlb)
  res : Bool
  deriving DecidableEq, Repr

/-- What comes of a lane's checks. -/
inductive LaneRes
  | ok (a : Acc)
  | fault (code level : Nat) (detail : BitVec 32)
  | miss (ms : List Missing)
  deriving DecidableEq, Repr

/-- The pieces of an access that are translated apart: their virtual addresses; a lane's private words lie 32 bytes from
one another (R63, R147). -/
def piecesOf (priv : Bool) (s : State) (p : Party) (lane va n : Nat) : List Nat :=
  if priv then (List.range (max 1 (n / 4))).map (fun j => privVa s p lane (va + 4 * j)) else [va]

/-- A fault of a later piece that comes before one of this piece: check 3 is made on all pieces before check 4 (R150). -/
def before (code : Nat) (r : LaneRes) : Bool :=
  match r with | .fault c _ _ => c == codeReserved && code != codeReserved | _ => false

/-- Checks 3 to 5 on the pieces of an access: a fault of any piece comes before a page that is not resident. -/
def checkPieces (core ctx : Nat) (priv : Bool) (perm : Perm) : List Nat → State → LaneRes × State
  | [], s => (.ok ⟨0, 0, [], [], true⟩, s)
  | va :: l, s =>
    let r := checkVa s core ctx priv va perm
    let r2 := checkPieces core ctx priv perm l r.2
    match r.1 with
    | .fault code level => (if before code r2.1 then r2.1 else .fault code level 0, r2.2)
    | .nonres base bytes =>
      match r2.1 with
      | .ok _ => (.miss [⟨priv, base, bytes, va⟩], r2.2)
      | .miss ms => (.miss (⟨priv, base, bytes, va⟩ :: ms), r2.2)
      | x => (x, r2.2)
    | .ok t =>
      match r2.1 with
      | .ok a => (.ok { a with trs := (va, t) :: a.trs }, r2.2)
      | x => (x, r2.2)

/-- The code of a pinned line: its virtual and physical line (R405). -/
def pinCode (vline pline : Nat) : Nat := vline % 2 ^ 50 * 2 ^ 45 + pline % 2 ^ 45

/-- The line of a pin offset is pinned at the line that its page now names (R158, R406). -/
def pinnedAt (s : State) (ctx va : Nat) (r : LaneRes) : Bool :=
  match r with
  | .ok a => a.trs.all (fun t => (ctxOf s ctx).pinned.contains (pinCode (va / 128) (trPa t.2 va / 128)))
  | _ => (ctxOf s ctx).pinned.any (fun c => c / 2 ^ 45 == va / 128)

/-- The extent of a space (R142). -/
def spaceExtent (s : State) (p : Party) (b : Block) : Space → Nat
  | .global => 2 ^ 57
  | .priv => b.kern.priv
  | .pin => (descOf s p.ctx).pinBytes

/-- The checks of one lane in the order of R150. -/
def checkLane (s : State) (p : Party) (b : Block) (sp : Space) (n : Nat) (perm : Perm) (lane : Nat) (ea : Int) :
    LaneRes × State :=
  if ea % (n : Int) ≠ 0 then (.fault codeMisaligned 0 0, s)
  else if sp = .global ∧ 2 ^ 57 ≤ ea then (.fault codeProtection 0 0, s)
  else if ea < 0 ∨ (spaceExtent s p b sp : Int) < ea + n then (.fault codeBounds 0 0, s)
  else
    let va := ea.toNat + (if sp = .pin then (descOf s p.ctx).pinVa else 0)
    let r := checkPieces b.core p.ctx (sp == .priv) perm (piecesOf (sp == .priv) s p lane va n) s
    match r.1 with
    | .fault _ _ _ => r
    | x =>
      if sp == .pin && !pinnedAt r.2 p.ctx va x then (.fault codeProtection 0 0, r.2)
      else match x with
        | .ok a =>
          let locs := a.trs.flatMap (fun t => addrs (trLoc t.2 t.1) (if sp = .priv then min n 4 else n))
          (.ok { a with lane := lane, ea := ea, locs := locs }, r.2)
        | x => (x, r.2)

/-- What comes of the checks of all lanes (R151, R152). -/
inductive Checked
  | ok (as : List Acc)
  | fault (code lane level : Nat) (detail : BitVec 32) (ea : Int)
  | miss (ms : List Missing)
  deriving DecidableEq, Repr

/-- Every lane is checked: the lowest that fails gives the fault, else pages that are not resident park; with `nr` such a
lane is marked instead (R151, R152, R160). -/
def checkLanes (f : State → Nat → Int → LaneRes × State) (nr : Bool) : List (Nat × Int) → State → Checked × State
  | [], s => (.ok [], s)
  | (l, ea) :: ls, s =>
    let r := f s l ea
    match r.1 with
    | .fault code level d => (.fault code l level d ea, r.2)
    | .ok a =>
      let r2 := checkLanes f nr ls r.2
      match r2.1 with
      | .ok as => (.ok (a :: as), r2.2)
      | x => (x, r2.2)
    | .miss ms =>
      let r2 := checkLanes f nr ls r.2
      match r2.1 with
      | .ok as => if nr then (.ok (⟨l, ea, [], [], false⟩ :: as), r2.2) else (.miss ms, r2.2)
      | .miss ms2 => (.miss (ms ++ ms2), r2.2)
      | x => (x, r2.2)

/-- The fault of a lane is raised by the instruction `c` (R151). -/
def laneFault (s : State) (c : Cur) (code lane level : Nat) (d : BitVec 32) (ea : Int) : State :=
  faultRec s c { laneRec s c.q code lane level (BitVec.ofInt 64 ea) with detail := d }

/-- `g` on the accesses whose checks pass; else the fault, or the park. -/
def withChecked {α : Type} (_ : State) (c : Cur) (r : Checked × State) (g : List Acc → State → ReadRes α) : ReadRes α :=
  match r.1 with
  | .ok as => g as r.2
  | .fault code lane level d ea => .stop (laneFault r.2 c code lane level d ea)
  | .miss ms => .stop (parkIssue r.2 c ms)

/-! ### Scratchpad (R161, R225) -/

/-- The live queue whose region an access touches (R225). -/
def queueTouched (b : Block) (a n : Nat) : Option Nat :=
  (b.queues.find? (fun e => e.2.live && decide (e.2.base < a + n) && decide (a < e.2.base + 8 * e.2.depth))).map (·.1)

/-- The checks of a scratchpad lane (R161, R225). -/
def checkScratch (b : Block) (n : Nat) (s : State) (lane : Nat) (ea : Int) : LaneRes × State :=
  if ea % (n : Int) ≠ 0 then (.fault codeMisaligned 0 0, s)
  else if ea < 0 ∨ (b.kern.scratch : Int) < ea + n then (.fault codeBounds 0 0, s)
  else match queueTouched b ea.toNat n with
    | some k => (.fault codeQueue 0 (BitVec.ofNat 32 k), s)
    | none => (.ok ⟨lane, ea, addrs ea.toNat n, [], true⟩, s)

/-- Bytes of the scratchpad as a party reads them (R317, R320). -/
def readScratch (p : Party) (b : Block) (as : List Nat) : List Byte :=
  as.map (fun a => (bufByte p.sbuf a).getD (b.sp.getD a 0))

/-! ### Constant banks (R159) -/

/-- The checks of an LDC lane; they set no A bit, so what they change is dropped (R159). -/
def checkConst (p : Party) (b : Block) (bank n : Nat) (s : State) (lane : Nat) (ea : Int) : LaneRes × State :=
  if ea % (n : Int) ≠ 0 then (.fault codeMisaligned 0 0, s)
  else match bankVa b.kern bank with
    | none => (.fault codeBounds 0 0, s)
    | some base =>
      if ea < 0 ∨ 65536 < ea + n then (.fault codeBounds 0 0, s)
      else
        let va := base + ea.toNat
        let r := checkPieces b.core p.ctx false permR [va] s
        match r.1 with
        | .ok a => (.ok { a with lane := lane, ea := ea, locs := a.trs.flatMap (fun t => addrs (trLoc t.2 t.1) n) }, s)
        | x => (x, s)

/-! ### Private bytes (R63-R66, R157) -/

/-- A private byte as its party reads it: its own store, else, by a free value, what memory holds there, which is zero in a new
frame, or a byte that its context left at that place (R66). -/
def privByte (s : State) (p : Party) (loc n : Nat) : Byte :=
  match (if foreign s loc then none else p.priv.get? loc) with
  | some b => b
  | none =>
    let l : List Byte := (if foreign s loc then foreignByte s loc else readByte s.mem loc) :: (ctxOf s p.ctx).left.getD loc []
    l.getD (Config.free n % l.length) 0

/-- Private bytes, and the state that has drawn what they need. -/
def readPriv (s : State) (p : Party) (locs : List Nat) : List Byte × State :=
  (locs.zipIdx.map (fun a => privByte s p a.1 (s.draws + a.2)), { s with draws := s.draws + locs.length })

/-- Private bytes of a party are written (R157, R166): their lines hold data of their key from now on (R393), and what lies
behind a failed port is dropped and logged (R392). -/
def writePriv (s : State) (q : Nat) (cells : List (Nat × Byte)) : State :=
  let kept := cells.filter (fun c => !portLost s c.1)
  let s1 := kept.foldl (fun s c => ownLineOf (takeLine s c.1) c.1) (dropCells s (cells.filter (fun c => portLost s c.1)))
  modParty s1 q (fun p => { p with priv := kept.foldl (fun (m : AMap Byte) c => m.insert c.1 c.2) p.priv })

/-! ### Registers of an access (R146) -/

/-- The writes of a load's data (R146): bytes of each lane. -/
def loadWrites (p : Party) (w : Width) (sx : Bool) (dst : Opnd) (data : List (Nat × List Byte)) : List RegWrite :=
  let n := widthBytes w
  let word : List Byte → Nat → Nat → Nat := fun bs k u => leNat ((bs.drop (u * k)).take u)
  let narrow : List Byte → Int := fun bs => if sx then sext (8 * n) (leNat bs) else (leNat bs : Nat)
  match dst with
  | .v r => data.flatMap (fun d =>
      if n ≤ 4 then [.v r.toNat d.1 (BitVec.ofInt 32 (narrow d.2))]
      else (List.range (n / 4)).map (fun j => .v (r.toNat + j) d.1 (BitVec.ofNat 32 (word d.2 j 4))))
  | .s r => (data.take 1).flatMap (fun d =>
      if n ≤ 4 then [.s r.toNat (BitVec.ofInt 64 (narrow d.2))]
      else (List.range (n / 8)).map (fun j => .s (r.toNat + j) (BitVec.ofNat 64 (word d.2 j 8))))
  | .h r tag =>
    let val : Nat → W32 := fun l => match data.find? (fun d => d.1 == l) with | some d => BitVec.ofNat 32 (leNat d.2) | none => 0
    match data with
    | [] => []
    | d :: _ =>
      if p.bow then [.stage r.toNat (BitVec.ofNat 32 (leNat d.2)) false]
      else [.shade r.toNat tag (data.foldl (fun m d => m ||| Mask.single d.1) 0) ((List.range 8).map val)]
  | _ => []

/-- The bytes that a store takes from its data operand in a lane (R146, R154). -/
def storeBytes (k : Ctx) (n : Nat) (a : Opnd) (lane : Nat) : List Byte :=
  match a with
  | .imm x => bytesOf n (pat (8 * n) x.toInt)
  | .s r => ((List.range (max 1 (n / 8))).flatMap (fun j => bytesOf 8 (getS (k.pl lane) (r.toNat + j)).toNat)).take n
  | .v r => ((List.range (max 1 (n / 4))).flatMap (fun j => bytesOf 4 (getV (k.pl lane) (r.toNat + j) lane).toNat)).take n
  | o => (bytesOf 4 (operand k .n32 o lane)).take n

/-! ### Loads -/

/-- A line request in its place among others, in increasing address; a line is requested once (R148). -/
def insertLine (x : Nat × Tlb) : List (Nat × Tlb) → List (Nat × Tlb)
  | [] => [x]
  | y :: l => if x.1 / 128 < y.1 / 128 then x :: y :: l else if x.1 / 128 = y.1 / 128 then y :: l else y :: insertLine x l

/-- The line requests of an instruction (R148). -/
def lineReqs (as : List Acc) : List (Nat × Tlb) := (as.flatMap (·.trs)).foldl (fun l t => insertLine t l) []

/-- The lines of an instruction's accesses are in its cache from now on (R148, R299, R313). -/
def touchAccs (s : State) (core oct : Nat) (ro store nol1 : Bool) (as : List Acc) : State :=
  (lineReqs as).foldl (fun s t => if ro then touchRo s core t.2 t.1 else touchL1 s core oct t.2 t.1 store nol1) s

/-- A location from which a lane would receive poison: one that is poisoned and that the party's buffer does not cover (R153). -/
def poisonIn (s : State) (q : Nat) (path : Path) (locs : List Nat) : Option Nat :=
  locs.find? (fun l => (bufByte (bufOf s q path) l).isNone && poisoned s l)

/-- The fault of a lane that receives poison (R153). -/
def poisonLane (s : State) (c : Cur) (a : Acc) (loc : Nat) : State :=
  faultAt s c codePoison a.lane (lineAddr loc) (BitVec.ofInt 64 a.ea)

/-- The lanes of a load are read in order on a path: poison faults, a lane that may not be read yet makes the load wait
(R153, R320). Lanes that name one byte get the same data (R148): they draw the same free values. -/
def readLanes (c : Cur) (path : Path) (d : Nat) : List Acc → State → ReadRes (List (Nat × List Byte))
  | [], s => .ok [] s
  | a :: as, s =>
    match poisonIn s c.q path a.locs with
    | some loc => .stop (poisonLane s c a loc)
    | none =>
      match readCells { s with draws := d } c.q path a.locs with
      | none => .wait
      | some (bytes, s1) =>
        match readLanes c path d as s1 with
        | .ok l s2 => .ok ((a.lane, bytes) :: l) s2
        | x => x

/-- The lanes of a load are read. -/
def readAccs (c : Cur) (path : Path) (as : List Acc) (s : State) : ReadRes (List (Nat × List Byte)) :=
  match readLanes c path s.draws as s with
  | .ok l s1 => .ok l { s1 with draws := s.draws + 1 }
  | x => x

/-- The lanes of a load are read at a place of the SC order (R323); where the party may not read so early any more, at its end. -/
def readAtPlace (c : Cur) (as : List Acc) (s : State) (t : Nat × Nat) : ReadRes (List (Nat × List Byte)) :=
  match readAccs c .general as (earlier s t) with
  | .ok l s1 => .ok l { s1 with vis := s.vis }
  | .stop s1 => .stop { s1 with vis := s.vis }
  | .wait => readAccs c .general as s

/-- The lines from which lanes have read newer writes than their copies held, in the L1 or in the read-only cache, have been
renewed (R313). -/
def renewAccs (s : State) (q core : Nat) (ro : Bool) (as : List Acc) : State :=
  as.foldl (fun s a => a.trs.foldl (fun s (t : Nat × Tlb) => renewLine s q core ro (trPa t.2 t.1 / 128) a.locs) s) s

/-- The lanes of a private load are read; poison faults (R153, R157). -/
def readPrivs (c : Cur) (p : Party) : List Acc → State → ReadRes (List (Nat × List Byte))
  | [], s => .ok [] s
  | a :: as, s =>
    match a.locs.find? (poisoned s) with
    | some loc => .stop (poisonLane s c a loc)
    | none =>
      let x := readPriv s p a.locs
      match readPrivs c p as x.2 with
      | .ok l s2 => .ok ((a.lane, x.1) :: l) s2
      | x => x

/-- A fault found while a load reads leaves everything else as it was before the load. -/
def onStop {α : Type} (s : State) (c : Cur) : ReadRes α → ReadRes α
  | .stop t => .stop { modParty (completeWrites s c.q) c.q (fun p => { p with stopped := true }) with ctxs := t.ctxs }
  | x => x

/-- The predicate of LDNR (R160). -/
def nrWrites (nr : Option (BitVec 3)) (as : List Acc) : List RegWrite :=
  match nr with
  | some r => as.map (fun a => .p r.toNat a.lane a.res)
  | none => []

/-- The bytes of a load's lanes, on the path and in the order that it names (R157, R320, R323). -/
def loadBytes (s : State) (c : Cur) (p : Party) (core : Nat) (sp : Space) (order : LdOrder) (sc : Scope) (as : List Acc) :
    ReadRes (List (Nat × List Byte)) :=
  if sp = .priv then readPrivs c p as s
  else match order with
    | .ro => readAccs c .ro as s
    | .sc => readAtPlace c as (refreshSc s c.q sc (scPlace s core)) (scPlace s core)
    | _ => readAccs c .general as s

/-- What a load does once its lanes are read: newer copies of lines, the acquire of .ACQ (R313, R322). -/
def loadAfter (s : State) (c : Cur) (core : Nat) (sp : Space) (order : LdOrder) (sc : Scope) (as : List Acc) : State :=
  let s1 := if sp = .priv then s else renewAccs s c.q core (order == .ro) as
  if order = .acq then refresh s1 c.q sc else s1

/-- LD and LDNR, from their checks to the register writes (R153-R160, R322, R323). -/
def loadMem (s : State) (c : Cur) (p : Party) (b : Block) (lanes : List (Nat × Int)) (sp : Space) (w : Width) (sx : Bool)
    (order : LdOrder) (sc : Scope) (nol1 : Bool) (dst : Opnd) (nr : Option (BitVec 3)) : ReadRes (List RegWrite) :=
  let n := widthBytes w
  withChecked s c (checkLanes (fun s l ea => checkLane s p b sp n permR l ea) nr.isSome lanes s) (fun as s1 =>
    let live := as.filter (·.res)
    let s2 := touchAccs s1 b.core (octOf b p) (order == .ro) false nol1 live
    match onStop s2 c (loadBytes s2 c p b.core sp order sc live) with
    | .ok data s3 =>
      let all := as.map (fun a => (a.lane, match data.find? (fun d => d.1 == a.lane) with
        | some d => d.2 | none => List.replicate n 0))
      .ok (loadWrites p w sx dst all ++ nrWrites nr as) (loadAfter s3 c b.core sp order sc live)
    | .stop t => .stop t
    | .wait => .wait)

/-- LDS (R161). -/
def loadScratch (s : State) (c : Cur) (p : Party) (b : Block) (lanes : List (Nat × Int)) (w : Width) (sx : Bool)
    (dst : Opnd) : ReadRes (List RegWrite) :=
  withChecked s c (checkLanes (checkScratch b (widthBytes w)) false lanes s) (fun as s1 =>
    .ok (loadWrites p w sx dst (as.map (fun a => (a.lane, readScratch p b a.locs)))) s1)

/-- LDC (R159). -/
def loadConst (s : State) (c : Cur) (p : Party) (b : Block) (lanes : List (Nat × Int)) (bank : Nat) (w : Width)
    (sx : Bool) (dst : Opnd) : ReadRes (List RegWrite) :=
  withChecked s c (checkLanes (checkConst p b bank (widthBytes w)) false lanes s) (fun as s1 =>
    match onStop s1 c (readAccs c .ro as (touchAccs s1 b.core (octOf b p) true false false as)) with
    | .ok data s2 => .ok (loadWrites p w sx dst data) (renewAccs s2 c.q b.core true as)
    | .stop t => .stop t
    | .wait => .wait)

/-! ### Stores (R154-R156) -/

/-- The tag operations of a store to a page with TG (R156): the reference bit of each word written is cleared. -/
def storeTags (t : Tlb) (loc n : Nat) : List TagOp :=
  if t.tg then
    (List.range ((loc + n - 1) / 8 + 1 - loc / 8)).map (fun j =>
      let w := loc / 8 + j
      .mask (tagLoc (8 * w)) (if w % 2 = 0 then 11 else 7) 0)
  else []

/-- D is set for the pages of accesses that write (R296). -/
def dirtyPages (s : State) (core : Nat) (as : List Acc) : State :=
  (as.flatMap (·.trs)).foldl (fun s t => setDirty s core t.2) s

/-- An access as its translations stand once D is set (R299). -/
def dirtyAcc (a : Acc) : Acc := { a with trs := a.trs.map (fun t => (t.1, { t.2 with d := true })) }

/-- D is set and the lines taken for a store (R296, R299). -/
def openStores (s : State) (core oct : Nat) (nol1 : Bool) (as : List Acc) : State :=
  touchAccs (dirtyPages s core as) core oct false true nol1 (as.map dirtyAcc)

/-- The tag operations of a lane's store. -/
def accTags (a : Acc) : List TagOp :=
  a.trs.flatMap (fun t => storeTags t.2 (trLoc t.2 t.1) a.locs.length)

/-- Cells of an access. -/
def accCells (a : Acc) (bytes : List Byte) : List (Nat × Byte) := a.locs.zip bytes

end Sys2Proof.Machine
end

