-- ==== Sys2Proof/Machine/MemAccess.lean ====
section
/-!
DEFINITION. The group's memory instructions (spec/06): LD, ST, LDC, LDNR, LDS, STS, PREF, CCTL, and the events that write
the results of loads and of variable-latency arithmetic.
-/
namespace Sys2Proof.Machine

/-! ### Loads -/

/-- An outstanding read is made, at issue or again after a halt (R320, R420). -/
def loadPart (s : State) (c : Cur) (p : Party) (b : Block) : ReadReq → ReadRes (List RegWrite)
  | .mem lanes sp w sx order sc nol1 dst nr => loadMem s c p b lanes sp w sx order sc nol1 dst nr
  | .scratch lanes w sx dst => loadScratch s c p b lanes w sx dst
  | .const lanes bank w sx dst => loadConst s c p b lanes bank w sx dst
  | _ => .wait

/-- A load issues from `s`: its Read is taken now, its registers are written when it returns (R168, R320). -/
def loadIssue (s : State) (k : Ctx) (i : Insn) (req : ReadReq) (r : ReadRes (List RegWrite)) : Option State :=
  match r with
  | .ok [] s1 => some (finish k i s1)
  | .ok ws s1 =>
    let h := holdReads s s1 k.c.q
    some (addRead (finish k i h.2) k.c (.load req) i.h.set.toNat ws h.1)
  | .stop t => some t
  | .wait => none

/-- A load with its lanes' addresses: no effect where e is empty, SHADE_RANK before everything else (R198). -/
def loadOp (i : Insn) (req : Ctx → ReadReq) (k : Ctx) (s : State) : Option State :=
  if k.e = 0 then some (finish k i s)
  else if shadeRankBad k i.a then some (fault s k.c codeShade)
  else loadIssue s k i (req k) (loadPart s k.c k.p k.b (req k))

/-- A scalar destination: one access (R155). -/
def oneAccess (i : Insn) : Bool := match i.a with | .s _ => true | _ => false

/-- LD (R154-R158). -/
def execLd (m : LdMod) (i : Insn) (s : State) : Host.Outcome State Fault Refusal :=
  issue (.ld m i) i s (loadOp i (fun k =>
    .mem (laneEas k i (m.space == .global) true (oneAccess i)) m.space m.width m.sx m.order (xScope i) (m.cache == .nol1)
      i.a none))

/-- LDNR (R160): every lane of e is written its predicate, so every lane makes its access. -/
def execLdnr (m : LdnrMod) (i : Insn) (s : State) : Host.Outcome State Fault Refusal :=
  issue (.ldnr m i) i s (loadOp i (fun k =>
    .mem (laneEas k i true true false) .global m.width m.sx (if m.ro then .ro else .plain) .grp (m.cache == .nol1)
      i.a (some m.p)))

/-- The bank that LDC names (R159). -/
def bankOf (i : Insn) : Nat := match i.b with | .const b _ => b.toNat | _ => 0

/-- LDC (R159). -/
def execLdc (m : WidthMod) (i : Insn) (s : State) : Host.Outcome State Fault Refusal :=
  issue (.ldc m i) i s (loadOp i (fun k =>
    .const (laneEas k i false false (oneAccess i)) (bankOf i) m.width m.sx i.a))

/-- LDS (R161). -/
def execLds (m : WidthMod) (i : Insn) (s : State) : Host.Outcome State Fault Refusal :=
  issue (.lds m i) i s (loadOp i (fun k => .scratch (laneEas k i false true (oneAccess i)) m.width m.sx i.a))

/-! ### Stores -/

/-- The address and the data are uniform, so that a store makes one access (R144, R155). -/
def uniformStore (i : Insn) : Bool :=
  !(isVec i.b || isVec i.c || match i.a with | .v _ | .h _ _ => true | _ => false)

/-- The store of one lane after its checks (R155, R156): private bytes at once, an SC store performed and visible at its
point, any other into the buffer. -/
def storeLane (k : Ctx) (i : Insn) (sp : Space) (n : Nat) (order : StOrder) (s : State) (a : Acc) : State :=
  let cells := accCells a (storeBytes k n i.a a.lane)
  if sp = .priv then writePriv s k.c.q cells
  else match order with
    | .sc =>
      let s1 := (performBy s k.c.q (cells ++ tagCells s (accTags a)) (pointsTo s k.c.q (xScope i))).2
      refreshLater s1 k.c.q (scPlace s1 k.core)
    | .rel => pushBuf s k.c.q .general .store cells (accTags a) (some (xScope i)) false
    | .plain => pushBuf s k.c.q .general .store cells (accTags a) none false

/-- A store waits: a .SC store for its release condition, and any LOCK outstanding before it (R323, R347). -/
def scStoreWaits (s : State) (k : Ctx) (i : Insn) (order : StOrder) : Bool :=
  order == .sc && (!releaseReady s k.c.q (xScope i) || lockOutstanding s k.c.q k.p.serial)

/-- ST (R154-R158). -/
def execSt (m : StMod) (i : Insn) (s : State) : Host.Outcome State Fault Refusal :=
  issue (.st m i) i s (fun k s =>
    if k.e = 0 then some (finish k i s)
    else
      let n := widthBytes m.width
      let r := checkLanes (fun s l ea => checkLane s k.p k.b m.space n permW l ea) false
        (laneEas k i (m.space == .global) true (uniformStore i)) s
      match withChecked s k.c r (fun as s1 => .ok as s1) with
      | .ok as s1 =>
        if scStoreWaits s1 k i m.order then none
        else
          let s2 := openStores s1 k.core (octOf k.b k.p) (m.cache == .nol1) as
          some (finish k i (as.foldl (storeLane k i m.space n m.order) s2))
      | .stop t => some t
      | .wait => none)

/-- STS (R161). -/
def execSts (w : Width) (i : Insn) (s : State) : Host.Outcome State Fault Refusal :=
  issue (.sts w i) i s (fun k s =>
    if k.e = 0 then some (finish k i s)
    else
      let n := widthBytes w
      match withChecked s k.c (checkLanes (checkScratch k.b n) false (laneEas k i false true (uniformStore i)) s)
          (fun as s1 => .ok as s1) with
      | .ok as s1 =>
        some (finish k i (as.foldl (fun s a =>
          pushBuf s k.c.q .scratch .store (accCells a (storeBytes k n i.a a.lane)) [] none false) s1))
      | .stop t => some t
      | .wait => none)

/-! ### PREF and CCTL -/

/-- PREF (R163): the device may drop any prefetch, and this one drops each (log entry 22). -/
def execPref (t : PrefTarget) (i : Insn) (s : State) : Host.Outcome State Fault Refusal :=
  issue (.pref t i) i s (fun k s => some (finish k i s))

/-- CCTL (R164). -/
def cctlAct (op : CctlOp) (i : Insn) (k : Ctx) (s : State) : State :=
  let lines := (laneEas k i true true false).map (fun a => a.2.toNat / 128 * 128)
  let mine : L1Line → Bool := fun l => l.tr.ctx == k.p.ctx && !l.tr.priv && lines.contains l.va
  let ctx : L1Line → Bool := fun l => l.tr.ctx == k.p.ctx
  match op with
  | .wb => writeBackL1 s k.core mine
  | .wbinv => dropL1 s k.core mine
  | .invro => dropRo s k.core (fun l => l.ctx == k.p.ctx && lines.contains l.va)
  | .wbAll => writeBackL1 s k.core ctx
  | .wbinvAll => dropL1 s k.core ctx
  | .invroAll => dropRo s k.core (fun l => l.ctx == k.p.ctx)

/-- CCTL (R164). -/
def execCctl (op : CctlOp) (i : Insn) (s : State) : Host.Outcome State Fault Refusal :=
  issue (.cctl op i) i s (fun k s => some (finish k i (if k.e = 0 then s else cctlAct op i k s)))

/-! ### Results that come back (R31, R118, R320) -/

/-- The kind of an outstanding result of an active party. -/
def pendKind (s : State) (q n : Nat) : Option PendKind :=
  if active s q then (s.parties.get? q).bind (fun p => (p.pend.find? (·.n == n)).map (·.kind)) else none

/-- LOAD_RETURN: the data of a load, or the result of an atomic or a queue, is written and its token released (R31,
R320). -/
def execLoadReturn (q n : Nat) (s : State) : Host.Outcome State Fault Refusal :=
  match pendKind s q n with
  | some (.load _) | some .deliver => .next (landPend s q n)
  | _ => .next s

/-- VARIABLE_LATENCY_RESULT: a variable-latency arithmetic result is written and its token released (R31, R118). -/
def execVariableLatencyResult (q n : Nat) (s : State) : Host.Outcome State Fault Refusal :=
  match pendKind s q n with
  | some .compute => .next (landPend s q n)
  | _ => .next s

end Sys2Proof.Machine
end

