-- ==== Sys2Proof/Machine/Atomic.lean ====
section
/-!
DEFINITION. Atomics and fences (spec/15 R328-R333, spec/10 R229-R231): ATOM, RED, FENCE, PFENCE, ATOMS.
-/
namespace Sys2Proof.Machine

/-- ea of an atomic's lane: base + offset, no index; outside the global space the base is read as N32, whatever its form (R229,
R328). -/
def atomEa (k : Ctx) (i : Insn) (glob : Bool) (lane : Nat) : Int :=
  if glob then (baseVal k true i.b lane + xOff i) % 2 ^ 64 else operandInt k .n32 i.b lane + xOff i

/-- The instruction is uniform, so that it takes one step (R20, R155; log entry 23). -/
def uniformAtom (i : Insn) : Bool := !(perLaneOpnd i.a || perLaneOpnd i.b || perLaneOpnd i.c)

/-- The lanes that take a step, with their addresses. -/
def atomEas (k : Ctx) (i : Insn) (glob : Bool) : List (Nat × Int) :=
  (if uniformAtom i then (lanesOf k.e).take 1 else lanesOf k.e).map (fun l => (l, atomEa k i glob l))

/-- The operand, or the compare value of CAS. -/
def atomArg (k : Ctx) (t : Ty) (i : Insn) (lane : Nat) : Nat := operand k t i.c lane

/-- The new value of CAS: the next register or pair of its run (R229). -/
def atomSwap (k : Ctx) (t : Ty) (i : Insn) (lane : Nat) : Nat :=
  match i.c with
  | .v r => vecVal (k.pl lane) (r.toNat + if tyWide t then 2 else 1) lane (tyWide t)
  | .s r => (getS (k.pl lane) (r.toNat + 1)).toNat % 2 ^ tyWidth t
  | _ => 0

/-! ### ATOM (R328, R329) -/

/-- The order has a release part, an acquire part (R322). -/
def atomReleases : AtomOrder → Bool
  | .rel | .ar | .sc => true
  | _ => false
def atomAcquires : AtomOrder → Bool
  | .acq | .ar | .sc => true
  | _ => false

/-- The value that an atomic step reads: the last write in coherence order; free where the line holds data of another key
(R324, R393; log entry 9). -/
def atomRead (s : State) (a n : Nat) : Nat × State :=
  (lastValue s a n, if (addrs a n).any (foreign s) then { s with draws := s.draws + 1 } else s)

/-- The Atomic step of one lane (R324, R329): the old value, the flags, the state after it. -/
def atomStep (k : Ctx) (m : AtomMod) (i : Insn) (r : List (Nat × FRes) × State) (a : Acc) : List (Nat × FRes) × State :=
  let n := tyWidth m.ty / 8
  let loc := a.locs.headD 0
  let o := atomRead r.2 loc n
  let x := atomNew m.ty m.op o.1 (atomArg k m.ty i a.lane) (atomSwap k m.ty i a.lane)
  (r.1 ++ [(a.lane, ⟨o.1, x.fl⟩)], atomicWrite o.2 k.c.q (xScope i) loc n x.code (accTags a))

/-- A store or RED of the party to one of the bytes is still to be performed (R165, R321). -/
def bufTouches (buf : List BufEntry) (as : List Acc) : Bool :=
  as.any (fun a => a.locs.any (fun l => buf.any (fun e => (entryBytes e).contains l)))

/-- The fault of a lane that would receive poison, if there is one (R153). -/
def poisonFault (s : State) (c : Cur) (as : List Acc) : Option State :=
  as.findSome? (fun a => (a.locs.find? (poisoned s)).map (poisonLane s c a))

/-- The result and flags of each lane. -/
def atomWrites (k : Ctx) (t : Ty) (i : Insn) (rs : List (Nat × FRes)) : List RegWrite :=
  let val : Nat → FRes := fun l => match rs.find? (fun r => r.1 == l) with | some r => r.2 | none => ⟨0, 0⟩
  resultWrites k t i.a (fun l => (val l).code) ++ flagWrites k (if tyInt t then none
    else some (fun _ l => (val (if uniformAtom i then lowLane k.e % 8 else l)).fl))

/-- The end of an ATOM: its acquire, at its place where it is an SC step (R322, R323). -/
def atomAfter (m : AtomMod) (i : Insn) (k : Ctx) (s : State) : State :=
  if m.order = .sc then refreshSc s k.c.q (xScope i) (scPlace s k.core)
  else if atomAcquires m.order then refresh s k.c.q (xScope i)
  else s

/-- ATOM (R328, R329). -/
def execAtom (m : AtomMod) (i : Insn) (s : State) : Host.Outcome State Fault Refusal :=
  issue (.atom m i) i s (fun k s =>
    if k.e = 0 then some (finish k i s)
    else if shadeRankBad k i.a then some (fault s k.c codeShade)
    else
      let n := tyWidth m.ty / 8
      match withChecked s k.c (checkLanes (fun s l ea => checkLane s k.p k.b .global n permRW l ea) false
          (atomEas k i true) s) (fun as s1 => .ok as s1) with
      | .wait => none
      | .stop t => some t
      | .ok as s1 =>
        match poisonFault s1 k.c as with
        | some t => some t
        | none =>
          if bufTouches k.p.buf as || (atomReleases m.order && !releaseReady s1 k.c.q (xScope i)) then none
          else
            let r := as.foldl (atomStep k m i) ([], dirtyPages s1 k.core as)
            some (addResult (finish k i (atomAfter m i k r.2)) k.c .deliver i.h.set.toNat (atomWrites k m.ty i r.1)))

/-! ### RED (R306, R330) -/

/-- The RED of one lane enters the general buffer and, where R306 admits it and it has neither a release nor anything older to wait
for, its cluster's combining buffer (R306, R321). -/
def redLane (k : Ctx) (m : RedOpMod) (i : Insn) (s : State) (a : Acc) : State :=
  let loc := a.locs.headD 0
  let sc := xScope i
  let n := match s.parties.get? k.c.q with | some p => p.serial | none => 0
  let kind : BufKind := .red m.op m.ty loc (BitVec.ofNat 64 (atomArg k m.ty i a.lane)) sc
  let joins := !m.rel && combinable m.ty m.op sc && mayCombine s k.c.q n (addrs loc (tyWidth m.ty / 8))
  pushBuf (if joins then combineRed s (cluOf k.core) k.p.ctx loc m.ty m.op k.c.q n else s) k.c.q .general kind [] (accTags a)
    (if m.rel then some sc else none) joins

/-- The lanes of a RED, in increasing number. -/
def redLanes (k : Ctx) (m : RedOpMod) (i : Insn) (s : State) (as : List Acc) : State := as.foldl (redLane k m i) s

/-- RED (R330). -/
def execRed (m : RedOpMod) (i : Insn) (s : State) : Host.Outcome State Fault Refusal :=
  issue (.red m i) i s (fun k s =>
    if k.e = 0 then some (finish k i s)
    else
      let n := tyWidth m.ty / 8
      match withChecked s k.c (checkLanes (fun s l ea => checkLane s k.p k.b .global n permW l ea) false
          (atomEas k i true) s) (fun as s1 => .ok as s1) with
      | .wait => none
      | .stop t => some t
      | .ok as s1 => some (finish k i (redLanes k m i (dirtyPages s1 k.core as) as)))

/-! ### FENCE and PFENCE (R332, R333) -/

/-- The fence has a release part, an acquire part. -/
def fenceReleases : FenceKind → Bool
  | .acq => false
  | _ => true
def fenceAcquires : FenceKind → Bool
  | .rel => false
  | _ => true

/-- FENCE (R322, R323, R332): it waits for its release condition, then refreshes. -/
def execFence (m : FenceMod) (i : Insn) (s : State) : Host.Outcome State Fault Refusal :=
  issue (.fence m i) i s (fun k s =>
    if k.e = 0 then some (finish k i s)
    else if fenceReleases m.kind && !releaseReady s k.c.q m.scope then none
    else
      some (finish k i (if m.kind = .sc then refreshSc s k.c.q m.scope (scPlace s k.core)
        else if fenceAcquires m.kind then refresh s k.c.q m.scope else s)))

/-- An entry of the general buffer that is a store. -/
def isStoreEntry (e : BufEntry) : Bool := match e.kind with | .store | .object _ _ => true | _ => false

/-- PFENCE (R333): it waits until every older store of the general path is performed, then raises the bounds of the paths
that it names. -/
def execPfence (p : PfencePath) (i : Insn) (s : State) : Host.Outcome State Fault Refusal :=
  issue (.pfence p i) i s (fun k s =>
    if k.e = 0 then some (finish k i s)
    else if k.p.buf.any isStoreEntry then none
    else
      let s1 := if p = .plane then s else refreshPath s k.c.q .ro
      some (finish k i (if p = .ro then s1 else refreshPath s1 k.c.q (.plane 0))))

/-! ### ATOMS (R229, R230) -/

/-- The step of one lane on the scratchpad (R230). -/
def atomsStep (k : Ctx) (m : AtomsMod) (i : Insn) (r : List (Nat × FRes) × Block) (a : Acc) : List (Nat × FRes) × Block :=
  let n := tyWidth m.ty / 8
  let ea := a.ea.toNat
  let old := leNat ((addrs ea n).map (fun j => r.2.sp.getD j 0))
  let x := atomNew m.ty m.op old (atomArg k m.ty i a.lane) (atomSwap k m.ty i a.lane)
  (r.1 ++ [(a.lane, ⟨old, x.fl⟩)],
   { r.2 with sp := (bytesOf n x.code).zipIdx.foldl (fun (sp : AMap Byte) b => sp.put (ea + b.2) b.1 0) r.2.sp })

/-- ATOMS (R229, R230); with NORET it writes its flags alone. -/
def execAtoms (m : AtomsMod) (i : Insn) (s : State) : Host.Outcome State Fault Refusal :=
  issue (.atoms m i) i s (fun k s =>
    if k.e = 0 then some (finish k i s)
    else if shadeRankBad k i.a then some (fault s k.c codeShade)
    else
      let n := tyWidth m.ty / 8
      match withChecked s k.c (checkLanes (checkScratch k.b n) false (atomEas k i false) s) (fun as s1 => .ok as s1) with
      | .wait => none
      | .stop t => some t
      | .ok as s1 =>
        if bufTouches k.p.sbuf as then none
        else match blockOf s1 k.c.q with
          | none => none
          | some b =>
            let r := as.foldl (atomsStep k m i) ([], b)
            some (addResult (finish k i (setBlock s1 (bidOf k.c.q) r.2)) k.c .deliver i.h.set.toNat
              (atomWrites k m.ty i r.1)))

end Sys2Proof.Machine
end

