-- ==== Sys2Proof/Machine/Locks.lean ====
section
/-!
DEFINITION. The line-lock instructions (spec/16 R342-R347): LOCK, TRYLOCK, UNLOCK, LKQRY, and the event that performs an
UNLOCK. The records stand in LockUnit.lean.
-/
namespace Sys2Proof.Machine

/-- ea of `[sB + offset]` (spec/16 before R342). -/
def sbEa (k : Ctx) (i : Insn) : Nat := ((uniform64 k i.b : Int) + xOff i).emod (2 ^ 64) |>.toNat

/-- Checks 2 to 5 of a uniform access; `f` goes on with the translation (R343-R345). -/
def uniformCheck {α : Type} (s : State) (k : Ctx) (va : Nat) (perm : Perm) (f : Tlb → State → ReadRes α) : ReadRes α :=
  let r := checkVa s k.core k.p.ctx false va perm
  match r.1 with
  | .fault code level => .stop (faultAt r.2 k.c code (lowLane k.e % 8) level (BitVec.ofNat 64 va))
  | .nonres base bytes => .stop (parkIssue r.2 k.c [⟨false, base, bytes, va⟩])
  | .ok t => f t r.2

/-- The lowest free slot of a held table (R338). -/
def freeHeld (p : Party) : Option Nat := p.held.findIdx? (fun h => h.st == .free)

/-- The held table names the line, reserved or held. -/
def namesLine (p : Party) (line : Nat) : Bool := p.held.any (fun h => h.st != .free && h.line == line)

/-- What LOCK and TRYLOCK decide in the core (R343): a status at once, or the slot that they reserve. -/
def lockStart (p : Party) (line : Nat) : Nat ⊕ Nat :=
  if namesLine p line then .inl 5
  else match freeHeld p with
    | none => .inl 6
    | some n => .inr n

/-- The register of a status. -/
def statusWrite (i : Insn) (n : Nat) : List RegWrite := match i.a with | .s r => [.s r.toNat (BitVec.ofNat 64 n)] | _ => []

/-- The request that LOCK or TRYLOCK sends (R343). -/
def lockRequest (k : Ctx) (s : State) (line slot : Nat) (sc : Scope) (try_ : Bool) (deadline : Option Nat) : LockReq :=
  let n := match s.parties.get? k.c.q with | some p => p.serial | none => 0
  ⟨line, try_, ⟨reqId k.c.q n, gidOf k.p, k.c.q, slot, sc, deadline, 0, 0, 0⟩⟩

/-- A held-table entry is reserved, the result awaited and the request on its way (R338, R343). -/
def lockSend (k : Ctx) (i : Insn) (s : State) (line slot : Nat) (sc : Scope) (try_ : Bool) (deadline : Option Nat) :
    State :=
  let s1 := modParty s k.c.q (fun p => setHeld p slot ⟨.reserved, line, sc⟩)
  let r := lockRequest k s1 line slot sc try_ deadline
  let s2 := addPend s1 k.c .await i.h.set.toNat (statusWrite i 0)
  { s2 with lockReqs := s2.lockReqs ++ [r] }

/-- The deadline of LOCK (R343). -/
def lockDeadlineOf (k : Ctx) (i : Insn) : Option Nat :=
  let t := operand k .n32 i.c (lowLane k.e % 8)
  if t = 0 then none else some (ticksOf k.cycle + t)

/-- The body of LOCK and TRYLOCK after their checks. -/
def lockOp (k : Ctx) (i : Insn) (sc : Scope) (try_ : Bool) (go : FragState → State → State) (t : Tlb) (va : Nat)
    (s : State) : State :=
  let line := trPa t va / 128
  match lockStart k.p line with
  | .inl n => addResult (go .run s) k.c .deliver i.h.set.toNat (statusWrite i n)
  | .inr slot =>
    if try_ then lockSend k i (go .run s) line slot sc true none
    else lockSend k i (leaveMemSet (go (.blocked .lock) s) k.c.q) line slot sc false (lockDeadlineOf k i)

/-- LOCK (R342, R343): the party is BLOCKED until its status comes. -/
def execLock (sc : Scope) (i : Insn) (s : State) : Host.Outcome State Fault Refusal :=
  issue (.lock sc i) i s (fun k s =>
    if k.e = 0 then some (finishJoined k i .run s)
    else
      let va := sbEa k i
      match uniformCheck s k va permRW (fun t s1 => .ok t s1) with
      | .ok t s1 => some (lockOp k i sc false (fun st s => finishJoined k i st s) t va s1)
      | .stop t => some t
      | .wait => none)

/-- TRYLOCK (R342, R343). -/
def execTrylock (sc : Scope) (i : Insn) (s : State) : Host.Outcome State Fault Refusal :=
  issue (.trylock sc i) i s (fun k s =>
    if k.e = 0 then some (finish k i s)
    else
      let va := sbEa k i
      match uniformCheck s k va permRW (fun t s1 => .ok t s1) with
      | .ok t s1 => some (lockOp k i sc true (fun _ s => finish k i s) t va s1)
      | .stop t => some t
      | .wait => none)

/-- The slot that holds a line. -/
def heldSlot (p : Party) (line : Nat) : Option Nat := p.held.findIdx? (fun h => h.st == .held && h.line == line)

/-- UNLOCK (R344): no permission is needed; a line that is not held raises QUEUE_MISUSE. -/
def execUnlock (sc : Scope) (i : Insn) (s : State) : Host.Outcome State Fault Refusal :=
  issue (.unlock sc i) i s (fun k s =>
    if k.e = 0 then some (finish k i s)
    else
      let va := sbEa k i
      match uniformCheck s k va ⟨false, false, false, false⟩ (fun t s1 => .ok t s1) with
      | .wait => none
      | .stop t => some t
      | .ok t s1 =>
        let line := trPa t va / 128
        match heldSlot k.p line with
        | none => some (faultRec s1 k.c { partyRec s1 k.c.q codeQueue with
            detail := 0xFFFFFFFF, lane := lowLane k.e % 8, addr := BitVec.ofNat 64 va })
        | some slot =>
          let s2 := modParty s1 k.c.q (fun p => setHeld p slot heldFree)
          some (finish k i (pushBuf s2 k.c.q .general (.unlock line) [] [] (some sc) false)))

/-- The word of LKQRY (R345). -/
def lkqWord (s : State) (gid line : Nat) : Nat :=
  match lockAt s line with
  | none => 0xFFFFFFFF00000000
  | some r =>
    let holder := match r.holder with
      | some h => if h % 4096 = gid % 4096 then h else 0xFFFFFFFF
      | none => 0xFFFFFFFF
    (if r.holder.isSome then 1 else 0) + (if r.holder = some gid then 2 else 0) + (if r.poison then 4 else 0) +
    r.fifo.length * 8 + holder * 2 ^ 32

/-- LKQRY from its checks to its write (R345). -/
def lkqPart (s : State) (c : Cur) (p : Party) (b : Block) (va lane : Nat) (dst : Opnd) : ReadRes (List RegWrite) :=
  let r := checkVa s b.core p.ctx false va permR
  match r.1 with
  | .fault code level => .stop (faultAt r.2 c code lane level (BitVec.ofNat 64 va))
  | .nonres base bytes => .stop (parkIssue r.2 c [⟨false, base, bytes, va⟩])
  | .ok t =>
    let w := BitVec.ofNat 64 (lkqWord s (gidOf p) (trPa t va / 128))
    .ok (match dst with | .s n => [.s n.toNat w] | _ => []) r.2

/-- LKQRY (R342, R345): the home slice serves it as it issues, and again on resume (log entry 66). -/
def execLkqry (i : Insn) (s : State) : Host.Outcome State Fault Refusal :=
  issue (.lkqry i) i s (fun k s =>
    if k.e = 0 then some (finish k i s)
    else
      let va := sbEa k i
      loadIssue s k i (.lkq va i.a) (lkqPart s k.c k.p k.b va (lowLane k.e % 8) i.a))

/-- UNLOCK_PERFORMED: an UNLOCK leaves its buffer as a release, in its turn at the record; the record passes on or is freed (R321,
R339, R340, R344). -/
def execUnlockPerformed (q n : Nat) (s : State) : Host.Outcome State Fault Refusal :=
  match mayLeave s q n with
  | some e => match e.kind with
    | .unlock line => if inTurn s line rankUnlock then .next (performEntry (dropEntry s q n) q e) else .next s
    | _ => .next s
  | none => .next s

end Sys2Proof.Machine
end

