-- ==== Sys2Proof/Machine/Lumen.lean ====
section
/-!
DEFINITION. Lumen publication (spec/17 R360-R373) and PAGEREQ (spec/14 R304, R305): OBJNEW, STREF, PUBLISH, TAGRD,
PAGEREQ; the walker's steps and the completions.
-/
namespace Sys2Proof.Machine

/-! ### Tag searches (R361, R366) -/

/-- What comes of a search or a check of tags: the tag byte, nothing there, the address of a poisoned line, a page to wait
for, or a load that waits. -/
inductive Found
  | tag (b : Byte)
  | bad
  | poison (line : Nat)
  | park (m : Missing)
  | wait
  deriving DecidableEq, Repr

/-- A load of the tag of the granule at a virtual address, in its line (R320, R360, R367). -/
def loadTag (s : State) (q core : Nat) (t : Tlb) (va : Nat) : Option (Byte × State) :=
  readTag (touchL1 s core (partyOct s q) t va false false) q (tagLoc (trLoc t va))

/-- The tag of the granule at a virtual address, where its page is mapped with TG (R361). -/
def tagOf (s : State) (q core ctx va : Nat) : Found × State :=
  let r := checkVa s core ctx false va ⟨false, false, false, false⟩
  match r.1 with
  | .fault code level => (if code = codePoison then .poison level else .bad, r.2)
  | .nonres base bytes => (.park ⟨false, base, bytes, va⟩, r.2)
  | .ok t =>
    if !t.tg then (.bad, r.2)
    else if poisoned r.2 (trLoc t va) then (.poison (lineAddr (trLoc t va)), r.2)
    else match loadTag r.2 q core t va with
      | some (b, s1) => (.tag b, s1)
      | none => (.wait, r.2)

def tagS (b : Byte) : Bool := b.toNat.testBit 0
def tagP (b : Byte) : Bool := b.toNat.testBit 1

/-- The start granule of the container of the granule at `va` (R361): at most `fuel` granules are read. -/
def findContainer (q core ctx : Nat) : Nat → Nat → State → Found × State
  | 0, _, s => (.bad, s)
  | fuel + 1, va, s =>
    let r := tagOf s q core ctx va
    match r.1 with
    | .tag b => if tagS b then r else if va < 16 then (.bad, r.2) else findContainer q core ctx fuel (va - 16) r.2
    | _ => r

/-- A reference names an object start (R366 check 7). -/
def checkRef (s : State) (q core ctx v : Nat) : Found × State :=
  if 2 ^ 57 ≤ v ∨ v % 16 ≠ 0 then (.bad, s)
  else
    let r := tagOf s q core ctx v
    match r.1 with
    | .tag b => if tagS b then r else (.bad, r.2)
    | _ => r

/-- A search as the outcome of a lane's checks; a load that waits misses nothing by name. -/
def foundRes (code : Nat) : Found → LaneRes
  | .park m => .miss [m]
  | .wait => .miss []
  | .poison line => .fault codePoison line 0
  | _ => .fault code 0 0

/-! ### OBJNEW (R365) -/

/-- The size of a lane's object, read in N32. -/
def objSize (k : Ctx) (i : Insn) (lane : Nat) : Nat := operand k .n32 i.a lane

/-- The checks of an OBJNEW lane (R365): a store of its granules and of the terminator, then TG. -/
def checkObj (k : Ctx) (i : Insn) (s : State) (lane : Nat) (ea : Int) : LaneRes × State :=
  let size := objSize k i lane
  let va := ea.toNat
  if va % 16 ≠ 0 then (.fault codeMisaligned 0 0, s)
  else if size < 16 ∨ 4096 < size ∨ size % 16 ≠ 0 then (.fault codeBounds 0 0, s)
  else
    let r := checkPieces k.core k.p.ctx false permW ((List.range (size / 16 + 1)).map (fun j => va + 16 * j)) s
    match r.1 with
    | .ok a =>
      match a.trs.find? (fun t => !t.2.tg) with
      | some t => (.fault codeProtection (trLevel t.2) 0, r.2)
      | none => (.ok { a with lane := lane, ea := ea, locs := a.trs.map (fun t => trLoc t.2 t.1) }, r.2)
    | x => (x, r.2)

/-- One lane's OBJNEW enters the buffer as one write (R365): the tags of its granules, the terminator, zeros. -/
def objLane (k : Ctx) (zero : Bool) (s : State) (a : Acc) : State :=
  let gs := a.locs.dropLast
  let start := tagLoc (a.locs.headD 0)
  let tags := gs.zipIdx.map (fun g => TagOp.mask (tagLoc g.1) 0 (if g.2 = 0 then 1 else 0)) ++
    [.term (tagLoc (a.locs.getLastD 0))]
  let cells := if zero then gs.flatMap (fun g => cellsOf g (List.replicate 16 0)) else []
  pushBuf s k.c.q .general (.object start gs.length) cells tags none false

/-- OBJNEW (R364, R365). -/
def execObjnew (zero : Bool) (i : Insn) (s : State) : Host.Outcome State Fault Refusal :=
  issue (.objnew zero i) i s (fun k s =>
    if k.e = 0 then some (finish k i s)
    else match withChecked s k.c (checkLanes (checkObj k i) false (laneEas k i true true false) s) (fun as s1 => .ok as s1) with
      | .ok as s1 => some (finish k i (as.foldl (objLane k zero) (openStores s1 k.core (octOf k.b k.p) false as)))
      | .stop t => some t
      | .wait => none)

/-! ### STREF (R366) -/

/-- The reference of a lane. -/
def refVal (k : Ctx) (i : Insn) (lane : Nat) : Nat := operand k .n64 i.a lane

/-- Checks 6 to 8 of a STREF lane. -/
def checkRefs (k : Ctx) (i : Insn) (lane va : Nat) (a : Acc) (s : State) : LaneRes × State :=
  let v := refVal k i lane
  let c := findContainer k.c.q k.core k.p.ctx 256 (va / 16 * 16) s
  match c.1 with
  | .tag ct =>
    if v = 0 then (.ok a, c.2)
    else
      let r := checkRef c.2 k.c.q k.core k.p.ctx v
      match r.1 with
      | .tag vt => if tagP ct && !tagP vt then (.fault codeEscape 0 0, r.2) else (.ok a, r.2)
      | x => (foundRes codeTag x, r.2)
  | x => (foundRes codeTag x, c.2)

/-- The checks of a STREF lane in order (R366). -/
def checkStref (k : Ctx) (i : Insn) (s : State) (lane : Nat) (ea : Int) : LaneRes × State :=
  let r := checkLane s k.p k.b .global 8 ⟨false, true, false, true⟩ lane ea
  match r.1 with
  | .ok a => checkRefs k i lane ea.toNat a r.2
  | _ => r

/-- One lane's STREF enters the buffer (R366). -/
def strefLane (k : Ctx) (i : Insn) (rel : Bool) (s : State) (a : Acc) : State :=
  let loc := a.locs.headD 0
  pushBuf s k.c.q .general .store
    (accCells a (bytesOf 8 (refVal k i a.lane))) [.mask (tagLoc loc) 15 (if loc % 16 = 0 then 4 else 8)]
    (if rel then some (xScope i) else none) false

/-- STREF (R364, R366); the record of an ESCAPE carries the reference. -/
def execStref (rel : Bool) (i : Insn) (s : State) : Host.Outcome State Fault Refusal :=
  issue (.stref rel i) i s (fun k s =>
    if k.e = 0 then some (finish k i s)
    else
      let r := checkLanes (checkStref k i) false (laneEas k i true true false) s
      match r.1 with
      | .ok as => some (finish k i (as.foldl (strefLane k i rel) (openStores r.2 k.core (octOf k.b k.p) false as)))
      | .miss [] => none
      | .miss ms => some (parkIssue r.2 k.c ms)
      | .fault code lane level d ea =>
        let f := { laneRec r.2 k.c.q code lane level (BitVec.ofInt 64 ea) with detail := d }
        some (faultRec r.2 k.c (if code = codeEscape then { f with aux := BitVec.ofNat 64 (refVal k i lane) } else f)))

/-! ### TAGRD (R367) -/

/-- The tags that a TAGRD lane reads: one, or those of its line; none on a page without TG. -/
def tagLocs (line : Bool) (t : Tlb) (va : Nat) : List Nat :=
  let loc := trLoc t va
  if !t.tg then []
  else if line then (List.range 8).map (fun j => tagLoc (loc / 128 * 128 + 16 * j)) else [tagLoc loc]

/-- Tags read one after another. -/
def readTags (q : Nat) : List Nat → State → Option (List Byte × State)
  | [], s => some ([], s)
  | a :: l, s =>
    match readTag s q a with
    | none => none
    | some (b, s1) => (readTags q l s1).map (fun r => (b :: r.1, r.2))

/-- The lanes of a TAGRD are read; on a page without TG no data is (R367). Lanes that name one granule get the same tag
(R148). -/
def tagLanes (c : Cur) (line : Bool) (d : Nat) : List Acc → State → ReadRes (List (Nat × Nat))
  | [], s => .ok [] { s with draws := d + 8 }
  | a :: as, s =>
    match (a.locs.filter (fun _ => a.trs.any (fun t => t.2.tg))).find? (poisoned s) with
    | some loc => .stop (poisonLane s c a loc)
    | none => match readTags c.q (a.trs.flatMap (fun t => tagLocs line t.2 t.1)) { s with draws := d } with
      | none => .wait
      | some (bs, s1) =>
        match tagLanes c line d as s1 with
        | .ok l s2 => .ok ((a.lane, bs.foldr (fun b v => b.toNat % 16 + 16 * v) 0) :: l) s2
        | x => x

/-- The checks of a TAGRD lane: those of a one-byte load, with no alignment rule. -/
def checkTag (p : Party) (b : Block) (s : State) (lane : Nat) (ea : Int) : LaneRes × State :=
  checkLane s p b .global 1 permR lane ea

/-- TAGRD from its checks to its writes (R367). -/
def tagPart (s : State) (c : Cur) (p : Party) (b : Block) (lanes : List (Nat × Int)) (line : Bool) (dst : Opnd) :
    ReadRes (List RegWrite) :=
  withChecked s c (checkLanes (checkTag p b) false lanes s) (fun as s1 =>
    let s2 := touchAccs s1 b.core (octOf b p) false false false (as.filter (fun a => a.trs.any (fun t => t.2.tg)))
    match onStop s2 c (tagLanes c line s2.draws as s2) with
    | .ok vs s3 => .ok (match dst with
        | .v r => vs.map (fun v => .v r.toNat v.1 (BitVec.ofNat 32 v.2))
        | .s r => (vs.take 1).map (fun v => .s r.toNat (BitVec.ofNat 64 v.2))
        | _ => []) s3
    | .stop t => .stop t
    | .wait => .wait)

/-- TAGRD (R364, R367). -/
def execTagrd (line : Bool) (i : Insn) (s : State) : Host.Outcome State Fault Refusal :=
  issue (.tagrd line i) i s (fun k s =>
    if k.e = 0 then some (finish k i s)
    else
      let lanes := laneEas k i true true (oneAccess i)
      loadIssue s k i (.tag lanes line i.a) (tagPart s k.c k.p k.b lanes line i.a))

/-! ### PUBLISH (R368) -/

/-- The reference of PUBLISH. -/
def pubRef (k : Ctx) (i : Insn) : Nat := match i.c with | .s _ => uniform64 k i.c | _ => 0

/-- Check 4 of R368. -/
def checkPubRef (s : State) (k : Ctx) (v : Nat) : ReadRes Unit :=
  if v = 0 then .ok () s
  else
    let r := checkRef s k.c.q k.core k.p.ctx v
    match r.1 with
    | .tag _ => .ok () r.2
    | .bad => .stop (faultRec r.2 k.c { partyRec r.2 k.c.q codeTag with addr := BitVec.ofNat 64 v })
    | .poison line => .stop (faultAt r.2 k.c codePoison 0 line (BitVec.ofNat 64 v))
    | .park m => .stop (parkIssue r.2 k.c [m])
    | .wait => .wait

/-- PUBLISH (R364, R368): its walk begins. -/
def execPublish (sc : Scope) (i : Insn) (s : State) : Host.Outcome State Fault Refusal :=
  issue (.publish sc i) i s (fun k s =>
    if k.e = 0 then some (finish k i s)
    else if k.p.ctr.pub = 63 then some (fault s k.c codeCounter)
    else
      let slot := sbEa k i
      if slot % 8 ≠ 0 then some (faultRec s k.c { partyRec s k.c.q codeMisaligned with addr := BitVec.ofNat 64 slot })
      else match uniformCheck s k slot permW (fun t s1 => .ok t s1) with
        | .wait => none
        | .stop t => some t
        | .ok t s1 =>
          match checkPubRef s1 k (pubRef k i) with
          | .wait => none
          | .stop t => some t
          | .ok _ s2 =>
            some (finish k i (modParty (ctrUp s2 k.c.q .pub) k.c.q (fun p =>
              { p with pubs := p.pubs ++ [⟨p.serial, false, slot, t, pubRef k i, sc, false, [], false, k.c.iaddr, k.c.word⟩],
                       serial := p.serial + 1 }))))

/-! ### The walk (R369-R372) -/

/-- Entries of the walk stack (R371). -/
def walkDepth (p : Party) (b : Block) : Nat := walkBytes b.kern / (if p.bow then 128 else 16)

/-- What a step of the walker does. -/
inductive WalkRes
  | go (w : Pub) (s : State)
  | fail (code level addr : Nat) (s : State)
  | park (m : Missing) (s : State)
  | wait

/-- The page of granule `k` of an object of the walk: the extent rule checks those of k ≥ 1 (R369). -/
def walkPage (s : State) (p : Party) (b : Block) (k va : Nat) (f : Tlb → State → WalkRes) : WalkRes :=
  let r := checkVa s b.core p.ctx false va (if k = 0 then ⟨false, false, false, false⟩ else permR)
  match r.1 with
  | .fault code level => .fail code level va r.2
  | .nonres base bytes => .park ⟨false, base, bytes, va⟩ r.2
  | .ok t =>
    if !t.tg then .fail codeTag 0 va r.2
    else if poisoned r.2 (trLoc t va) then .fail codePoison (lineAddr (trLoc t va)) va r.2
    else f t r.2

/-- Enter (R369): P is written at the start granule as a write of the party, after every earlier write of it there. -/
def walkEnter (s : State) (q : Nat) (p : Party) (b : Block) (w : Pub) (v : Nat) : WalkRes :=
  if walkDepth p b ≤ w.stk.length then .fail codeWalkOverflow 0 v s
  else walkPage s p b 0 v (fun t s1 =>
    let a := tagLoc (trLoc t v)
    if p.buf.any (fun e => (entryBytes e).contains a) then .wait
    else
      let s2 := (performBy s1 q [(a, (lastWrite s1 a).2 ||| 2)] [.grp q]).2
      .go { w with started := true, stk := ⟨v, 0, [], []⟩ :: w.stk } s2)

/-- Flush (R369): the latest write visible at GRP(q) of every byte and tag goes to the S point. -/
def walkFlush (s : State) (q : Nat) (sc : Scope) (locs : List Nat) : State :=
  (locs.flatMap (fun g => tagLoc g :: addrs g 16)).foldl (fun s a => reach s q sc a (latest s (.grp q) a).1) s

/-- A reference word of the current granule is followed (R369). -/
def walkWord (s : State) (q : Nat) (p : Party) (b : Block) (w : Pub) (f : WalkFrame) (rest : List WalkFrame) (i : Nat)
    (is : List Nat) : WalkRes :=
  let va := f.obj + 16 * f.k
  walkPage s p b f.k va (fun t s1 =>
    let loc := trLoc t va
    let f1 : WalkFrame := if is.isEmpty then ⟨f.obj, f.k + 1, [], f.locs ++ [loc]⟩ else { f with words := is }
    let w1 := { w with stk := f1 :: rest }
    match readCells (touchL1 s1 b.core (partyOct s1 q) t va false false) q .general (addrs (loc + 8 * i) 8) with
      | none => .wait
      | some (bytes, s2) =>
        let v := leNat bytes
        if v = 0 then .go w1 s2
        else
          let r := checkRef s2 q b.core p.ctx v
          match r.1 with
          | .tag vt => if tagP vt then .go w1 r.2 else walkEnter r.2 q p b w1 v
          | .bad => .fail codeTag 0 v r.2
          | .poison line => .fail codePoison line v r.2
          | .park m => .park m r.2
          | .wait => .wait)

/-- The walk comes to granule `k` of the object on top (R369). -/
def walkGranule (s : State) (q : Nat) (p : Party) (b : Block) (w : Pub) (f : WalkFrame) (rest : List WalkFrame) : WalkRes :=
  let va := f.obj + 16 * f.k
  walkPage s p b f.k va (fun t s1 =>
    let loc := trLoc t va
    match loadTag s1 q b.core t va with
    | none => .wait
    | some (tg, s2) =>
      if 1 ≤ f.k ∧ tagS tg then
        .go { w with stk := rest, walked := rest.isEmpty } (walkFlush s2 q w.scope f.locs)
      else if f.k = 256 then .fail codeTag 0 va s2
      else
        let words := (if tg.toNat.testBit 2 then [0] else []) ++ (if tg.toNat.testBit 3 then [1] else [])
        let f1 : WalkFrame := if words.isEmpty then ⟨f.obj, f.k + 1, [], f.locs ++ [loc]⟩ else { f with words := words }
        .go { w with stk := f1 :: rest } s2)

/-- One step of a walk (R369). -/
def walkStep (s : State) (q : Nat) (p : Party) (b : Block) (w : Pub) : WalkRes :=
  if !w.started then
    if w.ref = 0 then .go { w with started := true, walked := true } s
    else
      let r := tagOf s q b.core p.ctx w.ref
      match r.1 with
      | .tag t => if tagP t then .go { w with started := true, walked := true } r.2 else walkEnter r.2 q p b w w.ref
      | .bad => .fail codeTag 0 w.ref r.2
      | .poison line => .fail codePoison line w.ref r.2
      | .park m => .park m r.2
      | .wait => .wait
  else match w.stk with
    | [] => .go { w with walked := true } s
    | f :: rest =>
      match f.words with
      | i :: is => walkWord s q p b w f rest i is
      | [] => walkGranule s q p b w f rest

/-- The PUBLISH of a party whose walk goes on: the oldest not yet walked (R371). -/
def walking (p : Party) : Option Nat := p.pubs.findIdx? (fun w => !w.walked)

/-- WALK_STEP: the walker of party `q` takes one step (R369, R372). -/
def execWalkStep (q : Nat) (s : State) : Host.Outcome State Fault Refusal :=
  match s.parties.get? q, blockOf s q with
  | some p, some b =>
    match (if present s q then walking p else none) with
    | none => .next s
    | some j =>
      match p.pubs[j]? with
      | none => .next s
      | some w =>
        match walkStep s q p b w with
        | .go w1 s1 => .next (modParty s1 q (fun p => { p with pubs := p.pubs.set j w1 }))
        | .fail code level addr s1 =>
          .next (modParty (engineFault s1 q code level w.iaddr w.word (BitVec.ofNat 64 addr)) q
            (fun p => { p with pubs := p.pubs.eraseIdx j }))
        | .park m s1 => .next (park s1 q w.iaddr w.word [m])
        | .wait => .next s
  | _, _ => .next s

/-- The release condition of a PUBLISH (R319, R322, R368): what its party issued before it is performed, its bounds have
reached the point, and no older LOCK or TRYLOCK is outstanding (R347). -/
def pubReady (s : State) (q : Nat) (p : Party) (w : Pub) : Bool :=
  p.buf.all (fun e => decide (w.n < e.n)) && (w.scope == .grp || p.sbuf.all (fun e => decide (w.n < e.n))) &&
  boundsReady s q w.scope && !lockOutstanding s q w.n

/-- The slot store (R368): eight bytes, and the word's reference bit where its page has TG. One to a frame that has been freed is
gone (R395). -/
def slotStore (s : State) (core q : Nat) (w : Pub) : State :=
  if w.lost then s
  else
  let loc := trLoc w.tr w.slot
  let s1 := setDirty s core w.tr
  let tags := if w.tr.tg then tagCells s1 [.mask (tagLoc loc) 15 (if loc % 16 = 0 then 4 else 8)] else []
  (performBy s1 q (cellsOf loc (bytesOf 8 w.ref) ++ tags) [.grp q]).2

/-- PUBLISH_COMPLETE: the oldest PUBLISH of party `q`, its walk ended, performs its slot store as a release, and the counter
falls (R226, R368, R369). -/
def execPublishComplete (q : Nat) (s : State) : Host.Outcome State Fault Refusal :=
  match s.parties.get? q with
  | none => .next s
  | some p =>
    match p.pubs with
    | w :: ws =>
      if present s q && w.walked && pubReady s q p w then
        .next (ctrDown (modParty (slotStore s (coreIx s q) q w) q (fun p => { p with pubs := ws })) q .pub)
      else .next s
    | [] => .next s

/-! ### PAGEREQ (R304, R305) -/

/-- The pages of a request. -/
def reqPages (va n : Nat) : List Nat := (List.range n).map (fun j => (va / 4096 + j) * 4096)

/-- A PAGEREQ's record (R305, R426). -/
def reqRec (s : State) (c : Cur) (w : Bool) (va : Nat) : FaultRec :=
  { parkRec s c.q c.iaddr c.word va with req := true, w := w }

/-- One page of a request is walked: a region that is not resident, once each, sends its record (R305). -/
def reqPage (k : Ctx) (w : Bool) (a : List (Nat × Nat) × State) (va : Nat) : List (Nat × Nat) × State :=
  let r := translate a.2 (cluOf k.core) k.p.ctx false va
  match r.1 with
  | .nonres base bytes =>
    if a.1.contains (base, bytes) then (a.1, r.2)
    else
      let part := ((r.2.chords.get? (cidOf (bidOf k.c.q))).map (·.part)).getD 0
      (a.1 ++ [(base, bytes)], fqPut r.2 part (reqRec r.2 k.c w va) none)
  | _ => (a.1, r.2)

/-- PAGEREQ (R304, R305). -/
def execPagereq (w : Bool) (i : Insn) (s : State) : Host.Outcome State Fault Refusal :=
  issue (.pagereq w i) i s (fun k s =>
    let va := uniform64 k i.b
    let n := uniform64 k i.c
    if k.e = 0 then some (finish k i s)
    else if k.p.ctr.page = 63 then some (fault s k.c codeCounter)
    else if n < 1 ∨ 16 < n then some (fault s k.c codeBounds)
    else match (reqPages va n).find? (fun a => 2 ^ 57 ≤ a) with
      | some a => some (faultRec s k.c { partyRec s k.c.q codeProtection with addr := BitVec.ofNat 64 a })
      | none =>
        let r := (reqPages va n).foldl (reqPage k w) ([], s)
        some (finish k i (modParty (ctrUp r.2 k.c.q .page) k.c.q (fun p => { p with pages := p.pages ++ [⟨r.1⟩] }))))

/-- PAGEREQ_COMPLETE: the oldest request of party `q`, every page of it done, completes and the counter falls (R226,
R305). -/
def execPagereqComplete (q : Nat) (s : State) : Host.Outcome State Fault Refusal :=
  match s.parties.get? q with
  | none => .next s
  | some p =>
    match p.pages with
    | r :: l =>
      if present s q && r.open_.isEmpty then .next (ctrDown (modParty s q (fun p => { p with pages := l })) q .page)
      else .next s
    | [] => .next s

end Sys2Proof.Machine
end

