-- ==== Sys2Proof/Machine/Sync.lean ====
section
/-!
DEFINITION. Barriers, chord barriers, cue queues and WAITC (spec/10 R215-R227, spec/14 R288-R290): the instructions over
the state of Barrier.lean.
-/
namespace Sys2Proof.Machine

/-- The number of a barrier or queue in B. -/
def bIndex (i : Insn) : Nat := match i.b with | .imm n => n.toNat | _ => 0

/-- A count in C. -/
def cCount (k : Ctx) (i : Insn) : Int := (operand k .n64 i.c 0 : Nat)

/-- A party waits for its IN bit to fall, where it is set (R217), whatever its executing set (log entry 63). -/
def waitIn (k : Ctx) (i : Insn) (bit : Nat) (w : Wait) (s : State) : State :=
  match s.parties.get? k.c.q with
  | none => s
  | some p =>
    if inBit p bit then
      checkStuck (leaveMemSet (finishJoined k i (.blocked w) s) k.c.q) (bidOf k.c.q)
    else finishJoined k i .run s

/-! ### BAR (R216-R219) -/

/-- An arrival at a named barrier (R217): a release at .BLK that waits until it is ready; the bow's waits also for the
staged operations on their way (R199). -/
def barArrive (k : Ctx) (i : Insn) (bytes : Int) (s : State) : Option State :=
  let b := bIndex i
  match s.parties.get? k.c.q, blockOf s k.c.q with
  | some p, some blk =>
    let n := cCount k i
    if arriveBad (barOf blk b) (inBit p b) (partyCount blk) n bytes then
      some (faultDetail s k.c codeBarrier (BitVec.ofNat 32 b))
    else if !releaseReady s k.c.q .blk || (p.bow && stagesOpen p) then none
    else some (arriveAt s k.c.q b n.toNat bytes)
  | _, _ => none

/-- A fault of an arrival is no arrival: `g` follows one that has been made. -/
def afterArrival (k : Ctx) (s1 : State) (g : State → State) : State :=
  match s1.parties.get? k.c.q with
  | some p => if p.stopped then s1 else g s1
  | none => s1

/-- The party's own observation of a release that its arrival brought about is an acquire (R219, R290). -/
def observeNow (k : Ctx) (bit : Nat) (sc : Scope) (s : State) : State :=
  match s.parties.get? k.c.q with
  | some p => if inBit p bit then s else refresh s k.c.q sc
  | none => s

/-- BAR.SYNC (R217). -/
def execBarSync (i : Insn) (s : State) : Host.Outcome State Fault Refusal :=
  issue (.barSync i) i s (fun k s =>
    (barArrive k i 0 s).map (fun s1 => afterArrival k s1 (fun s1 =>
      waitIn k i (bIndex i) (.bar (bIndex i)) (observeNow k (bIndex i) .blk s1))))

/-- BAR.ARR (R217). -/
def execBarArr (i : Insn) (s : State) : Host.Outcome State Fault Refusal :=
  issue (.barArr i) i s (fun k s =>
    (barArrive k i 0 s).map (fun s1 => afterArrival k s1 (fun s1 => finishJoined k i .run s1)))

/-- BAR.WAIT (R217). -/
def execBarWait (i : Insn) (s : State) : Host.Outcome State Fault Refusal :=
  issue (.barWait i) i s (fun k s => some (waitIn k i (bIndex i) (.bar (bIndex i)) s))

/-- The byte operand of BAR.EXP, read in S32 (R216). -/
def expBytes (k : Ctx) (i : Insn) : Int := match i.x with | .opnd o => operandInt k .s32 o 0 | _ => 0

/-- BAR.EXP (R217). -/
def execBarExp (i : Insn) (s : State) : Host.Outcome State Fault Refusal :=
  issue (.barExp i) i s (fun k s =>
    (barArrive k i (expBytes k i) s).map (fun s1 => afterArrival k s1 (fun s1 => finishJoined k i .run s1)))

/-! ### CBAR (R288-R290) -/

/-- An arrival at a chord barrier (R289, R290): a release at .CLU. -/
def cbarArrive (k : Ctx) (i : Insn) (s : State) : Option State :=
  let b := bIndex i
  let cid := cidOf (bidOf k.c.q)
  match s.parties.get? k.c.q, s.chords.get? cid with
  | some p, some ch =>
    let n := cCount k i
    if arriveBad (cbOf ch b) (inBit p (64 + b)) (chordCount s cid) n 0 then
      some (faultDetail s k.c codeBarrier (BitVec.ofNat 32 (256 + b)))
    else if !releaseReady s k.c.q .clu then none
    else some (arriveCb s k.c.q b n.toNat)
  | _, _ => none

/-- CBAR.SYNC (R288, R289). -/
def execCbarSync (i : Insn) (s : State) : Host.Outcome State Fault Refusal :=
  issue (.cbarSync i) i s (fun k s =>
    (cbarArrive k i s).map (fun s1 => afterArrival k s1 (fun s1 =>
      waitIn k i (64 + bIndex i) (.cbar (bIndex i)) (observeNow k (64 + bIndex i) .clu s1))))

/-- CBAR.ARR (R288, R289). -/
def execCbarArr (i : Insn) (s : State) : Host.Outcome State Fault Refusal :=
  issue (.cbarArr i) i s (fun k s =>
    (cbarArrive k i s).map (fun s1 => afterArrival k s1 (fun s1 => finishJoined k i .run s1)))

/-- CBAR.WAIT (R288, R289). -/
def execCbarWait (i : Insn) (s : State) : Host.Outcome State Fault Refusal :=
  issue (.cbarWait i) i s (fun k s => some (waitIn k i (64 + bIndex i) (.cbar (bIndex i)) s))

/-! ### QINIT (R221) -/

/-- A region overlaps that of another live queue. -/
def queueOverlaps (b : Block) (n base bytes : Nat) : Bool :=
  b.queues.any (fun e => e.1 != n && e.2.live && decide (e.2.base < base + bytes) && decide (base < e.2.base + 8 * e.2.depth))

/-- A queue holds entries or has a blocked party. -/
def queueBusy (x : Queue) : Bool := x.live && (x.count != 0 || !x.pushers.isEmpty || !x.poppers.isEmpty)

/-- A copy of one of the block's parties that is still in flight touches the region (R225; log entry 57). -/
def copyOver (s : State) (b base bytes : Nat) : Bool :=
  (blockParties b).any (fun q => match s.parties.get? q with
    | some p => p.copies.any (fun c => c.rows.any (fun r => decide (r.2 < base + bytes) && decide (base < r.2 + c.rowBytes)))
    | none => false)

/-- A queued Harp operation of the block has a range of scratchpad that touches the region (R225; log entry 57). -/
def harpOver (b : Block) (base bytes : Nat) : Bool :=
  match b.harp with
  | some h => h.ops.any (fun o => o.ranges.any (fun r => decide (r.1 < (base + bytes : Nat)) && decide ((base : Int) < r.1 + r.2)))
  | none => false

/-- QINIT (R221): what the block's parties stored to the region before it is in place, so that the region is the queue's alone
from now on (R225). -/
def execQinit (depthM1 : BitVec 8) (i : Insn) (s : State) : Host.Outcome State Fault Refusal :=
  issue (.qinit depthM1 i) i s (fun k s =>
    match (if k.e = 0 then none else blockOf s k.c.q) with
    | none => some (finish k i s)
    | some b =>
      let n := bIndex i
      let base := operandInt k .s32 i.c (lowLane k.e % 8)
      let depth := depthM1.toNat + 1
      if base % 8 ≠ 0 then some (faultRec s k.c { partyRec s k.c.q codeMisaligned with addr := BitVec.ofInt 64 base })
      else if base < 0 ∨ (b.kern.scratch : Int) < base + 8 * depth then
        some (faultRec s k.c { partyRec s k.c.q codeBounds with addr := BitVec.ofInt 64 base })
      else if queueOverlaps b n base.toNat (8 * depth) || queueBusy (queueOf b n) then
        some (faultDetail s k.c codeQueue (BitVec.ofNat 32 n))
      else if copyOver s (bidOf k.c.q) base.toNat (8 * depth) || harpOver b base.toNat (8 * depth) ||
          !mayPerformOver s (bidOf k.c.q) base.toNat (8 * depth) then none
      else some (finish k i (modBlock (performOver s (bidOf k.c.q) base.toNat (8 * depth)) (bidOf k.c.q) (fun b => setQueue b n
        { Queue.reset with live := true, base := base.toNat, depth := depth }))))

/-- QINIT.OFF (R221). -/
def execQinitOff (i : Insn) (s : State) : Host.Outcome State Fault Refusal :=
  issue (.qinitOff i) i s (fun k s =>
    match (if k.e = 0 then none else blockOf s k.c.q) with
    | none => some (finish k i s)
    | some b =>
      let n := bIndex i
      let x := queueOf b n
      if !x.live || queueBusy x then some (faultDetail s k.c codeQueue (BitVec.ofNat 32 n))
      else some (finish k i (setBlock s (bidOf k.c.q) (setQueue b n Queue.reset))))

/-! ### QPUSH, QPOP, QTRY (R222-R224) -/

/-- The value pushed. -/
def pushVal (k : Ctx) (i : Insn) : W64 := BitVec.ofNat 64 (operand k .n64 i.c (lowLane k.e % 8))

/-- A push would be placed or delivered at once. -/
def pushFits (x : Queue) : Bool := x.count < x.depth && x.pushers.isEmpty

/-- A pop would take an entry at once. -/
def popFits (x : Queue) : Bool := 0 < x.count && x.poppers.isEmpty

/-- A queue operation on a live queue, where M is not empty: `f` gets the queue (R222, R223). -/
def queueOp (k : Ctx) (i : Insn) (s : State) (f : Nat → Queue → Option State) : Option State :=
  match (if k.e = 0 then none else blockOf s k.c.q) with
  | none => some (finishJoined k i .run s)
  | some b =>
    let n := bIndex i
    let x := queueOf b n
    if !x.live then some (faultDetail s k.c codeQueue (BitVec.ofNat 32 n)) else f n x

/-- The issuing party blocks at a queue whose record becomes `x` (R223). -/
def blockAt (k : Ctx) (i : Insn) (n : Nat) (x : Queue) (w : Wait) (s : State) : State :=
  let s1 := modBlock s (bidOf k.c.q) (fun b => setQueue b n x)
  leaveMemSet (finishJoined k i (.blocked w) s1) k.c.q

/-- QPUSH (R222, R223): a release at .BLK (R224). -/
def execQpush (i : Insn) (s : State) : Host.Outcome State Fault Refusal :=
  issue (.qpush i) i s (fun k s => queueOp k i s (fun n x =>
    if !releaseReady s k.c.q .blk then none
    else if pushFits x then some (finishJoined k i .run (append s (bidOf k.c.q) n (pushVal k i)))
    else
      some (checkStuck (blockAt k i n { x with pushers := x.pushers ++ [⟨k.c.q, k.c.m, pushVal k i⟩] } (.qpush n) s)
        (bidOf k.c.q))))

/-- An entry taken is written once; a pop is an acquire at .BLK (R222, R224). -/
def takeEntry (k : Ctx) (i : Insn) (n : Nat) (more : List RegWrite) (s : State) : State :=
  let r := takeHead s (bidOf k.c.q) n
  addResult (finishJoined k i .run (refresh r.2 k.c.q .blk)) k.c .deliver i.h.set.toNat (entryWrites i.a k.e r.1 ++ more)

/-- QPOP (R222, R223). -/
def execQpop (i : Insn) (s : State) : Host.Outcome State Fault Refusal :=
  issue (.qpop i) i s (fun k s => queueOp k i s (fun n x =>
    if popFits x then some (takeEntry k i n [] s)
    else
      let m := match s.parties.get? k.c.q with | some p => p.serial | none => 0
      let s1 := blockAt k i n { x with poppers := x.poppers ++ [⟨k.c.q, i.a, k.e, m⟩] } (.qpop n) s
      some (checkStuck (addPend s1 k.c .await i.h.set.toNat (entryWrites i.a k.e 0)) (bidOf k.c.q))))

/-- The predicate of QTRY in every lane of M. -/
def tryPred (k : Ctx) (p : BitVec 3) (v : Bool) : List RegWrite := (lanesOf k.e).map (fun l => .p p.toNat l v)

/-- QTRY.POP (R222, R223). -/
def execQtryPop (p : BitVec 3) (i : Insn) (s : State) : Host.Outcome State Fault Refusal :=
  issue (.qtryPop p i) i s (fun k s => queueOp k i s (fun n x =>
    if popFits x then some (takeEntry k i n (tryPred k p true) s)
    else some (addResult (finishJoined k i .run s) k.c .deliver i.h.set.toNat (tryPred k p false))))

/-- QTRY.PUSH (R222, R223); a successful one is a release at .BLK (R224). -/
def execQtryPush (p : BitVec 3) (i : Insn) (s : State) : Host.Outcome State Fault Refusal :=
  issue (.qtryPush p i) i s (fun k s => queueOp k i s (fun n x =>
    if pushFits x then
      if !releaseReady s k.c.q .blk then none
      else some (addResult (finishJoined k i .run (append s (bidOf k.c.q) n (pushVal k i))) k.c .deliver i.h.set.toNat
        (tryPred k p true))
    else some (addResult (finishJoined k i .run s) k.c .deliver i.h.set.toNat (tryPred k p false))))

/-! ### WAITC (R227) -/

/-- A party that waits for its collectives finds one complete (R442). -/
def consortDone (s : State) (q : Nat) : Bool := s.cols.any (fun c => c.ranks.any (fun r => r.q == some q && r.closed))

/-- WAITC (R227): not ready until the counter is at most n; one that finds a collective complete takes Refresh(q, .FAB)
(R442). -/
def execWaitc (cls : Engine) (i : Insn) (s : State) : Host.Outcome State Fault Refusal :=
  issue (.waitc cls i) i s (fun k s =>
    if k.e = 0 then some (finish k i s)
    else if ctrGet cls k.p.ctr ≤ uniform64 k i.b then
      some (finish k i (if cls = .consort ∧ consortDone s k.c.q then refresh s k.c.q .fab else s))
    else none)

end Sys2Proof.Machine
end

