-- ==== Sys2Proof/Machine/Bridge.lean ====
section
/-!
DEFINITION. The Bridge copies (spec/10 R232-R238): BCOPY, BCOPY2, BGATH and the landing of a chunk.
-/
namespace Sys2Proof.Machine

/-- The scratchpad offset in C (R233). -/
def copyOff (k : Ctx) (i : Insn) : Int := match i.c with | .imm n => n.toInt | o => (operand k .n32 o (lowLane k.e % 8) : Nat)

/-- The operand in X[11:0]. -/
def copyX (i : Insn) : Opnd := match i.x with | .opnd o => o | _ => .unused

/-- The shape of a copy (R234): bytes of a row, rows, scratchpad pitch, whether a pitch is given, reserved bits, the global
pitch in bytes, the index list. -/
structure CopyShape where
  rowBytes : Nat
  rows : Nat
  sp : Nat
  given : Bool
  rsvd : Bool
  gstride : Int
  idx : Option Nat
  deriving DecidableEq, Repr

/-- BCOPY is one row of len bytes. -/
def shapeOne (len : Nat) : CopyShape := ⟨len, 1, len, false, false, 0, none⟩

/-- The shape pair of BCOPY2 and BGATH. -/
def shapePair (s0 s1 : Nat) (gath : Bool) : CopyShape :=
  let rb := fld s0 0 20
  let st := fld s0 48 16
  { rowBytes := rb, rows := fld s0 32 16, sp := if st = 0 then rb else 16 * st, given := st != 0,
    rsvd := fld s0 20 12 != 0, gstride := if gath then (16 * fld s1 32 32 : Nat) else sext 64 s1,
    idx := if gath then some (fld s1 0 32) else none }

/-- The pair of registers that X names. -/
def pairOf (k : Ctx) (i : Insn) : Nat × Nat :=
  match copyX i with
  | .s r => ((scalarOf k r.toNat).toNat, (scalarOf k (r.toNat + 1)).toNat)
  | _ => (0, 0)

/-- Check 2 of R235. -/
def copyMisaligned (g : Nat) (so : Int) (h : CopyShape) : Bool :=
  g % 16 != 0 || so % 16 != 0 || h.gstride % 16 != 0 || (match h.idx with | some a => a % 4 != 0 | none => false)

/-- Check 3 of R235. -/
def copyBounds (b : Block) (so : Int) (h : CopyShape) : Bool :=
  h.rowBytes < 16 || 524288 < h.rowBytes || h.rowBytes % 16 != 0 || h.rows < 1 || 4096 < h.rows || h.rsvd ||
  (h.given && h.sp < h.rowBytes) || decide (so < 0) ||
  decide ((b.kern.scratch : Int) < so + (h.rows - 1 : Nat) * h.sp + h.rowBytes) ||
  (match h.idx with | some a => b.kern.scratch < a + 4 * h.rows | none => false)

/-- Check 4 of R235: the live queue that a row or the index list touches. -/
def copyQueue (b : Block) (so : Nat) (h : CopyShape) : Option Nat :=
  let rows := (List.range h.rows).findSome? (fun r => queueTouched b (so + r * h.sp) h.rowBytes)
  match rows with
  | some k => some k
  | none => match h.idx with
    | some a => queueTouched b a (4 * h.rows)
    | none => none

/-- The rows of a copy (R234): the indices of BGATH are read now, before anything is written. -/
def copyRows (p : Party) (b : Block) (g so : Nat) (h : CopyShape) : List (Nat × Nat) :=
  (List.range h.rows).map (fun r =>
    let n : Nat := match h.idx with
      | some a => leNat (readScratch p b (addrs (a + 4 * r) 4))
      | none => r
    ((((g : Int) + h.gstride * n).emod (2 ^ 64)).toNat, so + r * h.sp))

/-- A copy instruction (R233-R235): its checks, then the copy is in flight. -/
def copyOp (m : CopyMod) (i : Insn) (h : Ctx → CopyShape) (k : Ctx) (s : State) : Option State :=
  if k.e = 0 then some (finish k i s)
  else if k.p.ctr.copy = 63 then some (fault s k.c codeCounter)
  else
    let g := uniform64 k i.b
    let so := copyOff k i
    let sh := h k
    if copyMisaligned g so sh then some (fault s k.c codeMisaligned)
    else if copyBounds k.b so sh then some (fault s k.c codeBounds)
    else match copyQueue k.b so.toNat sh with
      | some n => some (faultDetail s k.c codeQueue (BitVec.ofNat 32 n))
      | none =>
        some (finish k i (modParty (ctrUp s k.c.q .copy) k.c.q (fun p =>
          { p with copies := p.copies ++ [⟨p.serial, m.store, m.cnt.map (·.toNat), copyRows p k.b g so.toNat sh,
                     sh.rowBytes, 0, [], [], k.c.iaddr, k.c.word⟩],
                   serial := p.serial + 1 })))

/-- BCOPY (R233, R234). -/
def execBcopy (m : CopyMod) (i : Insn) (s : State) : Host.Outcome State Fault Refusal :=
  issue (.bcopy m i) i s (copyOp m i (fun k => shapeOne (uniform64 k (copyX i))))

/-- BCOPY2 (R233, R234). -/
def execBcopy2 (m : CopyMod) (i : Insn) (s : State) : Host.Outcome State Fault Refusal :=
  issue (.bcopy2 m i) i s (copyOp m i (fun k => shapePair (pairOf k i).1 (pairOf k i).2 false))

/-- BGATH (R233, R234). -/
def execBgath (m : CopyMod) (i : Insn) (s : State) : Host.Outcome State Fault Refusal :=
  issue (.bgath m i) i s (copyOp m i (fun k => shapePair (pairOf k i).1 (pairOf k i).2 true))

/-- CHUNK_LAND: a chunk of a copy lands, is counted on its barrier, and may complete the copy (R218, R235-R237). -/
def execChunkLand (q copy chunk : Nat) (s : State) : Host.Outcome State Fault Refusal :=
  match (s.parties.get? q).bind (fun p => p.copies[copy]?) with
  | none => .next s
  | some c =>
    if !present s q then .next s
    else match landChunk s q copy chunk with
      | .landed s1 => .next (checkStuck s1 (bidOf q))
      | .fail s1 => .next (checkStuck s1 (bidOf q))
      | .wait => .next s
      | .park base n va s1 => .next (park s1 q c.iaddr c.word [⟨false, base, n, va⟩])

end Sys2Proof.Machine
end

