-- ==== Sys2Proof/Machine/Approx.lean ====
section
/-!
DEFINITION. The approximations FRSQ, FEX2, FLG2, FSIN, FCOS and FTNH (spec/05 R135, R136): the special inputs, the exact
results, the flags, and the bounds. Within its bound the result is a free function of the input (log entry 3); the bound is
taken about the value of the function to 400 binary places (log entry 10).
-/
namespace Sys2Proof.Machine

/-- The functions of R135. -/
inductive Fn
  | rsq | ex2 | lg2 | sin | cos | tnh
  deriving DecidableEq, Repr

/-! ### Fixed point with 400 binary places -/

def fxP : Nat := 400
def fxOne : Int := (2 ^ fxP : Nat)
def fxMul (a b : Int) : Int := (a * b).fdiv fxOne
def fxDiv (a b : Int) : Int := if b = 0 then 0 else (a * fxOne).fdiv b

/-- n·2^q in fixed point. -/
def fxOf (n : Nat) (q : Int) : Int :=
  let s := q + (fxP : Int)
  if 0 ≤ s then ((n * 2 ^ s.toNat : Nat) : Int) else ((n / 2 ^ (-s).toNat : Nat) : Int)

/-- Σ z^(2j+1)·s^j/(2j+1) for j below 140: artanh for s = 1, arctan for s = -1, with |z| at most 1/3. -/
def fxAtan (s : Int) (z : Int) : Int :=
  let z2 := s * fxMul z z
  fxMul z ((List.range 140).foldr (fun (j : Nat) (r : Int) => fxOne / (2 * (j : Int) + 1) + fxMul z2 r) 0)

def fxLn2 : Int := 2 * fxAtan 1 (fxOne / 3)
def fxPi : Int := 16 * fxAtan (-1) (fxOne / 5) - 4 * fxAtan (-1) (fxOne / 239)

/-- e^x for x between -1 and 1. -/
def fxExp (x : Int) : Int := (List.range 100).foldr (fun (j : Nat) (r : Int) => fxOne + fxMul x r / ((j : Int) + 1)) fxOne

/-- 2^t. -/
def fxExp2 (t : Int) : Int :=
  let k := t.fdiv fxOne
  let e := fxExp (fxMul (t - k * fxOne) fxLn2)
  if 0 ≤ k then e * (2 ^ k.toNat : Nat) else e.fdiv (2 ^ (-k).toNat : Nat)

/-- log2 of n·2^q, n positive. -/
def fxLog2 (n : Nat) (q : Int) : Int :=
  let k : Int := (n.log2 : Int) + q
  let m := fxOf n (q - k)
  k * fxOne + fxDiv (2 * fxAtan 1 (fxDiv (m - fxOne) (m + fxOne))) fxLn2

/-- The sine of r, r between -4 and 4. -/
def fxSin (r : Int) : Int :=
  let r2 := fxMul r r
  fxMul r ((List.range 80).foldr (fun (j : Nat) (x : Int) => fxOne - fxMul r2 x / ((2 * (j : Int) + 2) * (2 * j + 3))) fxOne)

/-- The cosine of r. -/
def fxCos (r : Int) : Int :=
  let r2 := fxMul r r
  (List.range 80).foldr (fun (j : Nat) (x : Int) => fxOne - fxMul r2 x / ((2 * (j : Int) + 1) * (2 * j + 2))) fxOne

/-- x less the nearest multiple of 2π. -/
def fxReduce (x : Int) : Int :=
  let w := 2 * fxPi
  x - (2 * x + w).fdiv (2 * w) * w

/-- tanh of x, x between -64 and 64. -/
def fxTanh (x : Int) : Int :=
  let e := fxExp2 (fxDiv (2 * x) fxLn2)
  fxDiv (e - fxOne) (e + fxOne)

/-- The value of the function at ±n·2^q, in fixed point; tanh beyond 64 is taken at 64. -/
def fnValue (g : Fn) (neg : Bool) (n : Nat) (q : Int) : Int :=
  let a := fxOf n q
  let x := if neg then -a else a
  match g with
  | .rsq =>
    let even := q.emod 2 = 0
    let m := if even then n else 2 * n
    let h := if even then q / 2 else (q - 1) / 2
    fxOf (isqrt (2 ^ 1200 / m)) (-600 - h)
  | .ex2 => fxExp2 x
  | .lg2 => fxLog2 n q
  | .sin => fxSin (fxReduce x)
  | .cos => fxCos (fxReduce x)
  | .tnh => if 64 * fxOne < a then (if neg then -(fxTanh (64 * fxOne)) else fxTanh (64 * fxOne)) else fxTanh x

/-! ### Bounds (R135) -/

/-- The ulp of R135 at the value y, in fixed point. -/
def fxUlp (f : Fmt) (y : Int) : Int :=
  fxOf 1 (max ((y.natAbs.log2 : Int) - fxP) (fmtEmin f) - f.m)

/-- The bound on the error at input ±n·2^q, y the value of the function; none where only the range -1 to 1 is given. -/
def fnBound (g : Fn) (t : Ty) (n : Nat) (q : Int) (y : Int) : Option Int :=
  let f := tyFmt t
  let wide := t == .f32
  let a := fxOf n q
  match g with
  | .rsq => some (fxUlp f y)
  | .ex2 => some ((if wide then 2 else 1) * fxUlp f y)
  | .lg2 =>
    if fxOne ≤ 2 * a ∧ a ≤ 2 * fxOne then some (fxOf 1 (if wide then -22 else -10))
    else some ((if wide then 2 else 1) * fxUlp f y)
  | .sin | .cos =>
    if wide then (if a ≤ fxOf 1 20 then some (fxOf 1 (-22)) else none) else some (fxOf 1 (-10))
  | .tnh =>
    if wide then (if a < fxOf 1 (-4) then some (fxOf 1 (-23)) else some (2 * fxUlp f y)) else some (fxUlp f y)

/-- A finite code as a fixed-point value. -/
def fxCode (f : Fmt) (c : Nat) : Option Int :=
  match fval f .ieee c with
  | .zero _ => some 0
  | .num neg n q => let x := fxOf n q; some (if neg then -x else x)
  | _ => none

/-- The code is within the bound of the value. -/
def fnAdmits (g : Fn) (t : Ty) (n : Nat) (q : Int) (y : Int) (c : Nat) : Bool :=
  match fxCode (tyFmt t) c with
  | none => false
  | some v => match fnBound g t n q y with
    | some b => (v - y).natAbs ≤ b.natAbs
    | none => v.natAbs ≤ fxOne.natAbs

/-- The nearest code to the value. -/
def fnNearest (t : Ty) (y : Int) : Nat :=
  if y = 0 then 0 else (roundInt2 (tyFmt t) .rne .ieee false y (-(fxP : Int))).code

def fnCode : Fn → Nat
  | .rsq => 0x111 | .ex2 => 0x114 | .lg2 => 0x115 | .sin => 0x116 | .cos => 0x117 | .tnh => 0x118

/-- The bounded result: the free choice where the bound admits it, else the nearest code; NX, and UF below 2^emin; a
subnormal is flushed under FTZ (R103, R135). -/
def fnApprox (g : Fn) (t : Ty) (ftz : Bool) (code : Nat) (neg : Bool) (n : Nat) (q : Int) : FRes :=
  let f := tyFmt t
  let y := fnValue g neg n q
  let c0 := Config.approx (fnCode g) (tyCode t) ftz code % 2 ^ tyWidth t
  let c := if fnAdmits g t n q y c0 then c0 else fnNearest t y
  let tiny := c % fmtSign f < 2 ^ f.m
  ⟨if ftz && tiny then c / fmtSign f * fmtSign f else c, if tiny then flNX ||| flUF else flNX⟩

/-! ### Special and exact results (R135) -/

/-- n·2^q is an integer: its value. -/
def dyadicInt (neg : Bool) (n : Nat) (q : Int) : Option Int :=
  let h := halvesDyadic n q
  if h.exact then some (if neg then -((h.t2 / 2 : Nat) : Int) else ((h.t2 / 2 : Nat) : Int)) else none

/-- n·2^q is a power of two: its exponent. -/
def dyadicLog (n : Nat) (q : Int) : Option Int := if n = 2 ^ n.log2 then some ((n.log2 : Int) + q) else none

/-- FEX2 of a finite nonzero input. -/
def fnEx2 (t : Ty) (ftz : Bool) (code : Nat) (neg : Bool) (n : Nat) (q : Int) : FRes :=
  let f := tyFmt t
  let lim := fmtEmin f - f.m
  let big : Bool := !neg && decide (fxOf (f.bias + 1) 0 ≤ fxOf n q)
  let small : Bool := neg && decide (fxOf (-lim).toNat 0 < fxOf n q)
  if big then ⟨fmtInf f, flOF ||| flNX⟩
  else if small then ⟨0, flUF ||| flNX⟩
  else match dyadicInt neg n q with
    | some k => roundDyadic f .rne .ieee ftz false 1 k
    | none => fnApprox .ex2 t ftz code neg n q

/-- FLG2 of a positive input. -/
def fnLg2 (t : Ty) (ftz : Bool) (code n : Nat) (q : Int) : FRes :=
  match dyadicLog n q with
  | some k => fOfInt (tyFmt t) .rne .ieee ftz k
  | none => fnApprox .lg2 t ftz code false n q

/-- FRSQ of a positive input: exact at 4^n. -/
def fnRsq (t : Ty) (ftz : Bool) (code n : Nat) (q : Int) : FRes :=
  match dyadicLog n q with
  | some k => if k.emod 2 = 0 then roundDyadic (tyFmt t) .rne .ieee ftz false 1 (-(k / 2)) else fnApprox .rsq t ftz code false n q
  | none => fnApprox .rsq t ftz code false n q

/-- An approximation (R135) of the code `c`. -/
def fnApply (g : Fn) (t : Ty) (ftz : Bool) (c : Nat) : FRes :=
  let f := tyFmt t
  let nan := fmtNaN f .ieee
  let one := f.bias * 2 ^ f.m
  match fvalFtz f .ieee ftz c, g with
  | .nan sg, _ => ⟨nan, ivIf sg⟩
  | .inf true, .ex2 => ⟨0, flNone⟩
  | .inf true, .tnh => ⟨signed f true one, flNone⟩
  | .inf true, _ => ⟨nan, flIV⟩
  | .inf false, .rsq => ⟨0, flNone⟩
  | .inf false, .ex2 | .inf false, .lg2 => ⟨fmtInf f, flNone⟩
  | .inf false, .tnh => ⟨one, flNone⟩
  | .inf false, _ => ⟨nan, flIV⟩
  | .zero s, .rsq => ⟨signed f s (fmtInf f), flDZ⟩
  | .zero _, .lg2 => ⟨signed f true (fmtInf f), flDZ⟩
  | .zero _, .ex2 | .zero _, .cos => ⟨one, flNone⟩
  | .zero s, .sin | .zero s, .tnh => ⟨signed f s 0, flNone⟩
  | .num true _ _, .rsq | .num true _ _, .lg2 => ⟨nan, flIV⟩
  | .num _ n q, .rsq => fnRsq t ftz c n q
  | .num _ n q, .lg2 => fnLg2 t ftz c n q
  | .num s n q, .ex2 => fnEx2 t ftz c s n q
  | .num s n q, h => fnApprox h t ftz c s n q

end Sys2Proof.Machine
end

