-- ==== Sys2Proof/Machine/Float.lean ====
section
/-!
DEFINITION. Floating-point and conversion instructions (spec/05 R129-R140).
-/
namespace Sys2Proof.Machine

/-! ### Shared forms -/

/-- A fixed-latency float instruction: a code and flags for each lane. -/
def floatOp (ins : Instr) (L : Nat) (t : Ty) (i : Insn) (s : State) (f : Ctx → Nat → FRes) :
    Host.Outcome State Fault Refusal :=
  issue ins i s (fixedOp L t i (fun k l => (f k l).code) (some (fun k l => (f k l).fl)))

/-- A variable-latency float instruction (R118). -/
def floatVar (ins : Instr) (t : Ty) (i : Insn) (s : State) (f : Ctx → Nat → FRes) : Host.Outcome State Fault Refusal :=
  issue ins i s (variableOp t i (fun k l => (f k l).code) (some (fun k l => (f k l).fl)))

/-- The value of element `h` (0 low, 1 high) of a code under FTZ (R96, R106). -/
def elemVal (t : Ty) (ftz : Bool) (code h : Nat) : FVal :=
  fvalFtz (tyFmt t) .ieee ftz (code / 2 ^ (16 * h) % 2 ^ tyWidth (tyElem t))

/-- A computation on each element (R96). -/
def byElem (t : Ty) (f : Nat → FRes) : FRes := packed (tyX2 t) f 0 1

/-- FADD, FSUB, FMUL on two operands (R130). -/
def float2 (ins : Instr) (m : FMod) (i : Insn) (s : State) (f : FVal → FVal → FRes) : Host.Outcome State Fault Refusal :=
  floatOp ins 5 m.ty i s (fun k l =>
    let b := operand k m.ty i.b l
    let c := operand k m.ty i.c l
    byElem m.ty (fun h => fSat (tyFmt m.ty) m.sat (f (elemVal m.ty m.ftz b h) (elemVal m.ty m.ftz c h))))

/-! ### Addition and multiplication (R130) -/

/-- FADD (R130). -/
def execFadd (m : FMod) (i : Insn) (s : State) : Host.Outcome State Fault Refusal :=
  float2 (.fadd m i) m i s (fun b c => fAdd (tyFmt m.ty) m.rnd m.ftz b c)

/-- FSUB (R130). -/
def execFsub (m : FMod) (i : Insn) (s : State) : Host.Outcome State Fault Refusal :=
  float2 (.fsub m i) m i s (fun b c => fAdd (tyFmt m.ty) m.rnd m.ftz b (fvalNeg c))

/-- FMUL (R130). -/
def execFmul (m : FMod) (i : Insn) (s : State) : Host.Outcome State Fault Refusal :=
  float2 (.fmul m i) m i s (fun b c => fMul (tyFmt m.ty) m.rnd m.ftz b c)

/-- FFMA (R130). -/
def execFfma (m : FMod) (i : Insn) (s : State) : Host.Outcome State Fault Refusal :=
  floatOp (.ffma m i) 5 m.ty i s (fun k l =>
    let b := operand k m.ty i.b l
    let c := operand k m.ty i.c l
    let x := operand k m.ty (xOpnd i) l
    byElem m.ty (fun h => fSat (tyFmt m.ty) m.sat
      (fFma (tyFmt m.ty) m.rnd m.ftz (elemVal m.ty m.ftz b h) (elemVal m.ty m.ftz c h) (elemVal m.ty m.ftz x h))))

/-! ### Minimum, maximum, sign (R131) -/

/-- FMIN and FMAX on two operands. -/
def floatMM (ins : Instr) (m : FtzMod) (mx : Bool) (i : Insn) (s : State) : Host.Outcome State Fault Refusal :=
  floatOp ins 5 m.ty i s (fun k l =>
    let b := operand k m.ty i.b l
    let c := operand k m.ty i.c l
    byElem m.ty (fun h => fMinMax (tyFmt m.ty) mx (elemVal m.ty m.ftz b h) (elemVal m.ty m.ftz c h)))

/-- FMIN (R131). -/
def execFmin (m : FtzMod) (i : Insn) (s : State) : Host.Outcome State Fault Refusal := floatMM (.fmin m i) m false i s

/-- FMAX (R131). -/
def execFmax (m : FtzMod) (i : Insn) (s : State) : Host.Outcome State Fault Refusal := floatMM (.fmax m i) m true i s

/-- The sign bits of a code: one for each element. -/
def signBits (t : Ty) : Nat := if tyX2 t then 0x80008000 else 2 ^ (tyWidth t - 1)

/-- FNEG (R131). -/
def execFneg (ty : Ty) (i : Insn) (s : State) : Host.Outcome State Fault Refusal :=
  intOp (.fneg ty i) 5 ty i s (fun k l => operand k ty i.b l ^^^ signBits ty)

/-- FABS (R131). -/
def execFabs (ty : Ty) (i : Insn) (s : State) : Host.Outcome State Fault Refusal :=
  intOp (.fabs ty i) 5 ty i s (fun k l => operand k ty i.b l &&& (2 ^ tyWidth ty - 1 - signBits ty))

/-- FSET (R131). -/
def execFset (m : NotMod) (i : Insn) (s : State) : Host.Outcome State Fault Refusal :=
  intOp (.fset m i) 5 m.ty i s (fun k l => if operandP k i.b l != m.inv then (intCode m.ty 1).code else 0)

/-! ### Rounding and classes (R132, R133) -/

/-- FRND (R132). -/
def execFrnd (m : FrndMod) (i : Insn) (s : State) : Host.Outcome State Fault Refusal :=
  floatOp (.frnd m i) 5 m.ty i s (fun k l =>
    byElem m.ty (fun h => fRnd (tyFmt m.ty) m.rnd m.exact (elemVal m.ty m.ftz (operand k m.ty i.b l) h)))

/-- FCLS (R133). -/
def execFcls (m : FtzMod) (i : Insn) (s : State) : Host.Outcome State Fault Refusal :=
  intOp (.fcls m i) 5 .n32 i s (fun k l =>
    operand k .n32 i.c l / 2 ^ fClass (tyFmt m.ty) m.ftz (operand k m.ty i.b l) % 2)

/-- FCLS.ONE (R133). -/
def execFclsOne (m : FtzMod) (i : Insn) (s : State) : Host.Outcome State Fault Refusal :=
  intOp (.fclsOne m i) 5 .n32 i s (fun k l => 2 ^ fClass (tyFmt m.ty) m.ftz (operand k m.ty i.b l))

/-! ### Division and roots (R134) -/

/-- FRCP (R134). -/
def execFrcp (m : FdivMod) (i : Insn) (s : State) : Host.Outcome State Fault Refusal :=
  floatVar (.frcp m i) m.ty i s (fun k l => fRcp (tyFmt m.ty) m.rnd m.ftz (elemVal m.ty m.ftz (operand k m.ty i.b l) 0))

/-- FSQRT (R134). -/
def execFsqrt (m : FdivMod) (i : Insn) (s : State) : Host.Outcome State Fault Refusal :=
  floatVar (.fsqrt m i) m.ty i s (fun k l => fSqrt (tyFmt m.ty) m.rnd m.ftz (elemVal m.ty m.ftz (operand k m.ty i.b l) 0))

/-- FDIV (R134). -/
def execFdiv (m : FdivMod) (i : Insn) (s : State) : Host.Outcome State Fault Refusal :=
  floatVar (.fdiv m i) m.ty i s (fun k l => fDiv (tyFmt m.ty) m.rnd m.ftz
    (elemVal m.ty m.ftz (operand k m.ty i.b l) 0) (elemVal m.ty m.ftz (operand k m.ty i.c l) 0))

/-! ### Approximations (R135) -/

/-- A function of one operand. -/
def floatFn (ins : Instr) (g : Fn) (m : FtzMod) (i : Insn) (s : State) : Host.Outcome State Fault Refusal :=
  floatVar ins m.ty i s (fun k l => fnApply g m.ty m.ftz (operand k m.ty i.b l))

/-- FRSQ (R135). -/
def execFrsq (m : FtzMod) (i : Insn) (s : State) : Host.Outcome State Fault Refusal := floatFn (.frsq m i) .rsq m i s

/-- FEX2 (R135). -/
def execFex2 (m : FtzMod) (i : Insn) (s : State) : Host.Outcome State Fault Refusal := floatFn (.fex2 m i) .ex2 m i s

/-- FLG2 (R135). -/
def execFlg2 (m : FtzMod) (i : Insn) (s : State) : Host.Outcome State Fault Refusal := floatFn (.flg2 m i) .lg2 m i s

/-- FSIN (R135). -/
def execFsin (m : FtzMod) (i : Insn) (s : State) : Host.Outcome State Fault Refusal := floatFn (.fsin m i) .sin m i s

/-- FCOS (R135). -/
def execFcos (m : FtzMod) (i : Insn) (s : State) : Host.Outcome State Fault Refusal := floatFn (.fcos m i) .cos m i s

/-- FTNH (R135). -/
def execFtnh (m : FtzMod) (i : Insn) (s : State) : Host.Outcome State Fault Refusal := floatFn (.ftnh m i) .tnh m i s

/-! ### CVT (R137, R138) -/

/-- The reading of a type in CVT: RD for F8A and F8B (R98). -/
def cvtRd (m : CvtMod) (t : Ty) : Reading := if tyF8 t then m.rd else .ieee

/-- One element converted (R138). -/
def cvtElem (m : CvtMod) (c : Nat) : FRes :=
  let src : FVal := fvalFtz (tyFmt m.src) (cvtRd m m.src) m.ftz (c % 2 ^ tyWidth (tyElem m.src))
  if tyInt m.src then
    if tyInt m.dst then ⟨narrow m.dst m.sat (tyVal m.src c), flNone⟩
    else fOfInt (tyFmt m.dst) m.rnd (cvtRd m m.dst) m.ftz (tyVal m.src c)
  else if tyInt m.dst then
    let r := fToInt m.dst m.rnd src
    ⟨pat (tyWidth m.dst) r.1, r.2⟩
  else fConv (tyFmt m.dst) m.rnd (cvtRd m m.dst) m.ftz src

/-- CVT (R138). It writes %fflags for every pair of types, so that one between integers, which raises no flag, counts as such a
write as well (log entry 64). -/
def execCvt (m : CvtMod) (i : Insn) (s : State) : Host.Outcome State Fault Refusal :=
  floatOp (.cvt m i) 6 m.dst i s (fun k l =>
    packed (tyX2 m.src) (fun h => cvtElem m (operand k m.src i.b l / 2 ^ (16 * h))) 0 1)

/-! ### QNT and DQNT (R139, R140) -/

/-- Elements of a register of codes. -/
def qCount (nib : Bool) : Nat := if nib then 8 else 4

/-- The code type's limits. -/
def qClamp (m : QntMod) (n : Int) : Int :=
  if m.nib then (if n < 0 then 0 else if 15 < n then 15 else n) else tyClamp (if m.sgn then .s8 else .n8) n

/-- The zero point in bits 23:16 of C. -/
def qZero (m : QntMod) (c : Nat) : Int :=
  if m.nib then (c / 65536 % 16 : Nat) else tyVal (if m.sgn then .s8 else .n8) (c / 65536)

/-- The scale in bits 15:0 of C. -/
def qScale (m : QntMod) (c : Nat) : FVal := fval fmtF16 m.rd (c % 65536)

/-- One element quantised (R139). Whether a scale that is a quiet NaN raises IV is a free value, since R102 and R139 differ (log entry
61). -/
def qntElem (m : QntMod) (x sc : FVal) (z : Int) : Int × FFlags :=
  match sc, x with
  | .num ns n2 q2, .num nx n1 q1 =>
    let neg := ns != nx
    let h := halvesQuot n1 n2 (q1 - q2)
    let r := roundInt h m.rnd neg
    let n : Int := if neg then -(r : Int) else r
    let q := qClamp m (n + z)
    (q, if !h.exact || q != n + z then flNX else flNone)
  | .num _ _ _, .zero _ => (qClamp m z, flNone)
  | .num _ _ _, .inf neg => (qClamp m (if neg then -1000 else 1000), flIV)
  | .nan false, _ => (z, if Config.quietScaleIv z then flIV else flNone)
  | _, _ => (z, flIV)

/-- The packed codes of one lane, and their flags. -/
def qntLane (m : QntMod) (xs : List Nat) (c : Nat) : FRes :=
  let w := if m.nib then 4 else 8
  let rs := xs.map (fun x => qntElem m (fval fmtF32 .ieee x) (qScale m c) (qZero m c))
  ⟨rs.foldr (fun r n => pat w r.1 + 2 ^ w * n) 0, rs.foldl (fun f r => f ||| r.2) 0⟩

/-- QNT (R139). -/
def execQnt (m : QntMod) (i : Insn) (s : State) : Host.Outcome State Fault Refusal :=
  floatOp (.qnt m i) 6 .n32 i s (fun k l =>
    let xs := match i.b with
      | .v r => (List.range (qCount m.nib)).map (fun j => (getV (k.pl l) (r.toNat + j) l).toNat)
      | _ => []
    qntLane m xs (operand k .n32 i.c l))

/-- One code dequantised (R102, R140): the sign of a zero is the XOR of the signs of its factors (R105). -/
def dqntElem (sc : FVal) (d : Int) : FRes :=
  match sc with
  | .nan sg => ⟨fmtNaN fmtF32 .ieee, ivIf sg⟩
  | .inf n => if d = 0 then ⟨fmtNaN fmtF32 .ieee, flIV⟩ else ⟨signed fmtF32 (n != decide (d < 0)) (fmtInf fmtF32), flNone⟩
  | .zero n => ⟨signed fmtF32 (n != decide (d < 0)) 0, flNone⟩
  | .num n k q =>
    if d = 0 then ⟨signed fmtF32 n 0, flNone⟩
    else roundDyadic fmtF32 .rne .ieee false (n != decide (d < 0)) (k * d.natAbs) q

/-- Element `j` of the codes in `b`. -/
def dqntAt (m : QntMod) (b c j : Nat) : FRes :=
  let w := if m.nib then 4 else 8
  let q := b / 2 ^ (w * j) % 2 ^ w
  dqntElem (qScale m c) ((if m.sgn then tyVal .s8 q else (q : Int)) - qZero m c)

/-- DQNT's results in the register run that starts at A (R140). -/
def dqntWrites (m : QntMod) (i : Insn) (k : Ctx) : List RegWrite :=
  match i.a with
  | .v r => (List.range (qCount m.nib)).flatMap (fun j => (lanesOf k.e).map (fun l =>
      .v (r.toNat + j) l (BitVec.ofNat 32 (dqntAt m (operand k .n32 i.b l) (operand k .n32 i.c l) j).code)))
  | _ => []

/-- DQNT (R140). -/
def execDqnt (m : QntMod) (i : Insn) (s : State) : Host.Outcome State Fault Refusal :=
  issue (.dqnt m i) i s (fun k s =>
    some (addFixed (finish k i s) k.c 6 (dqntWrites m i k ++ flagWrites k (some (fun k l =>
      (List.range (qCount m.nib)).foldl (fun f j =>
        f ||| (dqntAt m (operand k .n32 i.b l) (operand k .n32 i.c l) j).fl) 0)))))

end Sys2Proof.Machine
end

