-- ==== Sys2Proof/Machine/HarpOps.lean ====
section
/-!
DEFINITION. The Harp instructions (spec/12): their checks at issue (R264-R266), plane loads line by line (R267-R270), and
the completion of the queued operations in order (R243, R271-R276); the self-test (R257, R258); Prism windows (spec/18 R396).
-/
namespace Sys2Proof.Machine

/-! ### Issue (R264-R266) -/

/-- What an instruction asks of the checks of R265: a limit is broken, the offsets to be aligned, the scratchpad ranges;
and the P, G and RD that it fixes. -/
structure HarpPlan where
  shape : Bool
  offs : List Int
  al : Nat
  ranges : List (Int × Nat)
  planes : Nat
  g : GSize
  rd : Reading
  deriving DecidableEq, Repr

/-- A plan that fixes no slot. -/
def harpPlan (shape : Bool) (offs : List Int) (al : Nat) (ranges : List (Int × Nat)) : HarpPlan :=
  { shape := shape, offs := offs, al := al, ranges := ranges, planes := 0, g := .g32, rd := .ieee }

/-- The rows of a scratchpad operand. -/
def scratchRows (off : Int) (pitch m len : Nat) : List (Int × Nat) :=
  (List.range m).map (fun (r : Nat) => (off + (r * pitch : Nat), len))

/-- The slot that an HPLANE fills, and any slot that an operation uses. -/
def planeSlot : Instr → Option Bool
  | .hplaneWin s _ => some s
  | .hplaneRaw m _ => some m.slot
  | _ => none

def usesSlot : Instr → Option Bool
  | .hmma m _ => some m.slot
  | o => planeSlot o

/-- The issue view of a slot (R266): P and G. -/
def issueView (h : Harp) (i : Bool) : Nat × GSize :=
  match (h.ops.filter (fun o => planeSlot o.op == some i)).getLast? with
  | some o => (o.planes, o.g)
  | none => ((h.slot i).planes, (h.slot i).g)

/-- The operand values in the order A, B, C, X (R264, R278). -/
def harpVals (k : Ctx) (i : Insn) : List Int :=
  let x := match i.x with | .opnd o => o | _ => .unused
  [i.a, i.b, i.c, x].map (fun o => operandInt k .s64 o 0)

/-- r0 and m outside their limits (R273). -/
def rowsBad (r0 m : Int) : Bool := decide (r0 < 0) || decide (255 < r0) || decide (m < 1) || decide (256 < r0 + m)

/-- Checks 1 to 6 of R265: the state after the first that fails. -/
def harpCheck (k : Ctx) (pl : HarpPlan) (s : State) : Option State :=
  let out : Int × Nat → Bool := fun r => decide (r.1 < 0) || decide ((k.b.kern.scratch : Int) < r.1 + r.2)
  if (coreOf s k.core).harp = .offline then some (fault s k.c codeOffline)
  else if k.p.ctr.harp = 63 then some (fault s k.c codeCounter)
  else if pl.shape then some (fault s k.c codeShape)
  else match pl.offs.find? (fun a => a % (pl.al : Int) != 0) with
    | some a => some (faultLane s k.c codeMisaligned 0 0 (BitVec.ofInt 64 a))
    | none => match pl.ranges.find? out with
      | some r => some (faultLane s k.c codeBounds 0 0 (BitVec.ofInt 64 r.1))
      | none => (pl.ranges.findSome? (fun r => queueTouched k.b r.1.toNat r.2)).map (fun n =>
          faultDetail s k.c codeQueue (BitVec.ofNat 32 n))

/-- The operation enters the queue and the HARP counter rises (R264); it sees the writes that the operations before it have still to
make (R243). -/
def harpQueue (ins : Instr) (i : Insn) (k : Ctx) (vals : List Int) (pl : HarpPlan) (s : State) : State :=
  let late : List (Nat × Byte) := match k.b.harp with | some h => h.ops.flatMap (fun o => o.late.getD []) | none => []
  let op : HarpOp :=
    { n := k.p.serial, op := ins, vals := vals, planes := pl.planes, g := pl.g, rd := pl.rd, progress := 0, landed := false,
      snap := putCells (putCells k.b.sp late) (k.p.sbuf.flatMap (·.cells)), late := none, ranges := pl.ranges,
      cur := List.replicate pl.planes 0, iaddr := k.c.iaddr, word := k.c.word }
  let s1 := modHarp (ctrUp s k.c.q .harp) (bidOf k.c.q) (fun h => { h with ops := h.ops ++ [op] })
  finish k i (modParty s1 k.c.q (fun p => { p with serial := p.serial + 1 }))

/-- A self-test is queued: whether the Harp stays in service is not yet known (R259). -/
def testQueued (h : Harp) : Bool := h.ops.any (fun o => match o.op with | .htest _ => true | _ => false)

/-- A Harp instruction (R264): `plan` from the Harp and the operand values, `last` the check that is left. -/
def harpIssue (ins : Instr) (i : Insn) (s : State) (plan : Harp → List Int → HarpPlan)
    (last : Ctx → List Int → HarpPlan → State → Option State) : Host.Outcome State Fault Refusal :=
  issue ins i s (fun k s =>
    if k.e = 0 then some (finish k i s)
    else match k.b.harp with
      | none => some (fault s k.c (illegalCode .context))
      | some h =>
        if testQueued h then none
        else
          let vals := harpVals k i
          let pl := plan h vals
          match harpCheck k pl s with
          | some t => some t
          | none => last k vals pl s)

/-- Nothing is left to check. -/
def harpEnter (ins : Instr) (i : Insn) (k : Ctx) (vals : List Int) (pl : HarpPlan) (s : State) : Option State :=
  some (harpQueue ins i k (vals ++ [0]) pl s)

def valAt (vals : List Int) (i : Nat) : Int := vals.getD i 0

/-! ### HPLANE (R268-R270) -/

/-- The origin of a tile: i0 div K and i0 mod K (R269). -/
def tileOrigin (x : Window) (pa : Nat) : Nat × Nat :=
  let i := (pa - x.pb) * 8 / x.w
  (i / x.k, i % x.k)

/-- The window does not hold the tile (R269, R396). -/
def windowBad (x : Window) (pa : Nat) : Bool :=
  let o := tileOrigin x pa
  x.w == 0 || x.k == 0 || x.k % gNum x.g != 0 || o.2 % gNum x.g != 0 || decide (x.k < o.2 + 256) ||
  decide ((x.top - x.pb) * 8 / x.w / x.k < o.1 + 256)

/-- Check 7 of R265: the first byte of the tile, then `g` on its translation. -/
def planeFirst (k : Ctx) (va : Nat) (s : State) (g : Tlb → State → Option State) : Option State :=
  let r := checkVa s k.core k.p.ctx false va permR
  match r.1 with
  | .fault code level => some (faultAt r.2 k.c code 0 level (BitVec.ofNat 64 va))
  | .nonres base n => some (parkIssue r.2 k.c [⟨false, base, n, va⟩])
  | .ok t => g t r.2

/-- The address of a tile. -/
def planeVa (vals : List Int) : Nat := pat 64 (valAt vals 1)

/-- HPLANE.WIN (R268, R269). -/
def execHplaneWin (slot : Bool) (i : Insn) (s : State) : Host.Outcome State Fault Refusal :=
  harpIssue (.hplaneWin slot i) i s (fun _ v => harpPlan false [valAt v 1] 16 []) (fun k v pl s =>
    planeFirst k (planeVa v) s (fun t s1 =>
      let pa := trPa t (planeVa v)
      match windowOf s1 pa with
      | none => some (fault s1 k.c codeShape)
      | some n =>
        let x := windowAt s1 n
        if windowBad x pa then some (fault s1 k.c codeShape)
        else some (harpQueue (.hplaneWin slot i) i k (v ++ [(pa : Int)]) { pl with planes := x.w, g := x.g, rd := x.rd } s1)))

/-- HPLANE.RAW (R268, R270). -/
def execHplaneRaw (m : PlaneMod) (i : Insn) (s : State) : Host.Outcome State Fault Refusal :=
  harpIssue (.hplaneRaw m i) i s
    (fun _ v => { harpPlan false [valAt v 1] 128 [] with planes := m.pm1.toNat + 1, g := m.gsel, rd := m.rd })
    (fun k v pl s => planeFirst k (planeVa v) s (fun _ s1 => harpEnter (.hplaneRaw m i) i k v pl s1))

/-! ### The other instructions at issue -/

/-- The kind of A row that HALIGN reads, in bytes of an element. -/
def alignBytes : AlignFmt → Nat
  | .f16 | .bf16 => 2
  | _ => 1

/-- HALIGN (R272). -/
def execHalign (m : HalignMod) (i : Insn) (s : State) : Host.Outcome State Fault Refusal :=
  let src := 256 * alignBytes m.fmt
  harpIssue (.halign m i) i s (fun _ v =>
    let n := valAt v 2
    let x := valAt v 3
    harpPlan (decide (n < 1) || decide (256 < n) || pitchBad x (aPitch .a16 m.gsel) || pitchBad (x / 2 ^ 32) src)
      [valAt v 0, valAt v 1] 16
      (scratchRows (valAt v 0) (pitchOf x (aPitch .a16 m.gsel)) n.toNat (aRowBytes .a16 m.gsel) ++
       scratchRows (valAt v 1) (pitchOf (x / 2 ^ 32) src) n.toNat src)) (harpEnter (.halign m i) i)

/-- HMMA (R273). -/
def execHmma (m : HmmaMod) (i : Insn) (s : State) : Host.Outcome State Fault Refusal :=
  harpIssue (.hmma m i) i s (fun h v =>
    let sl := issueView h m.slot
    harpPlan (sl.1 == 0 || rowsBad (valAt v 0) (valAt v 1) || pitchBad (valAt v 3) (aPitch m.kind sl.2)) [valAt v 2] 16
      (scratchRows (valAt v 2) (pitchOf (valAt v 3) (aPitch m.kind sl.2)) (valAt v 1).toNat (aRowBytes m.kind sl.2)))
    (harpEnter (.hmma m i) i)

/-- The natural pitch of HACCST (R274). -/
def accPitch : AccFmt → Nat
  | .f32 => 1024 | .f16 | .bf16 => 512 | .s8 | .n8 => 256

/-- The plan of HACCLD and HACCST (R274). -/
def accPlan (nat : Nat) (v : List Int) : HarpPlan :=
  harpPlan (rowsBad (valAt v 0) (valAt v 1) || pitchBad (valAt v 3) nat) [valAt v 2] 16
    (scratchRows (valAt v 2) (pitchOf (valAt v 3) nat) (valAt v 1).toNat nat)

/-- HACCLD (R274). -/
def execHaccld (i : Insn) (s : State) : Host.Outcome State Fault Refusal :=
  harpIssue (.haccld i) i s (fun _ v => accPlan 1024 v) (harpEnter (.haccld i) i)

/-- HACCST (R274, R275). -/
def execHaccst (m : HaccstMod) (i : Insn) (s : State) : Host.Outcome State Fault Refusal :=
  harpIssue (.haccst m i) i s (fun _ v => accPlan (accPitch m.fmt) v) (harpEnter (.haccst m i) i)

/-- HZERO (R274). -/
def execHzero (i : Insn) (s : State) : Host.Outcome State Fault Refusal :=
  harpIssue (.hzero i) i s (fun _ v => harpPlan (rowsBad (valAt v 0) (valAt v 1)) [] 16 []) (harpEnter (.hzero i) i)

/-- The plan of HTEST (R276). -/
def testPlan (v : List Int) : HarpPlan := harpPlan false [valAt v 1] 4 [(valAt v 1, 4)]

/-- HTEST (R276). -/
def execHtest (i : Insn) (s : State) : Host.Outcome State Fault Refusal :=
  harpIssue (.htest i) i s (fun _ v => testPlan v) (harpEnter (.htest i) i)

/-- HTEST.FLAGS (R276). -/
def execHtestFlags (i : Insn) (s : State) : Host.Outcome State Fault Refusal :=
  harpIssue (.htestFlags i) i s (fun _ v => testPlan v) (harpEnter (.htestFlags i) i)

/-! ### Plane lines (R267, R269, R270) -/

/-- A 32-element chunk of codes of a .WIN load: column, chunk of the column, element number in the window. -/
structure TileChunk where
  n : Nat
  c : Nat
  el : Nat
  deriving DecidableEq, Repr

/-- The chunks of a tile, in the order of their elements. -/
def tileChunks (x : Window) (pa : Nat) : List TileChunk :=
  let o := tileOrigin x pa
  (List.range 256).flatMap (fun n => (List.range 8).map (fun c => ⟨n, c, (o.1 + n) * x.k + o.2 + 32 * c⟩))

/-- The bit plane of a load whose line is next: of those that have received least of the tile, the lowest (log entry 62). -/
def nextBit (cur : List Nat) : Nat := (cur.findIdx? (fun c => cur.all (fun d => decide (c ≤ d)))).getD 0

/-- The chunks that the next line of a plane brings, from chunk `c` of the tile on: those of one unit of 1,024 elements (R398). -/
def lineChunks (x : Window) (pa c : Nat) : List TileChunk :=
  match (tileChunks x pa).drop c with
  | [] => []
  | t :: l => t :: l.takeWhile (fun u => u.el / 1024 == t.el / 1024)

/-- A piece of memory that a plane line is built from: the address that a fault logs, its locations. -/
structure Piece where
  va : Nat
  locs : List Nat
  deriving DecidableEq, Repr

/-- What comes of the checks of a plane line. -/
inductive LineRes
  | ok (ps : List Piece)
  | fault (code level va : Nat)
  | miss (m : Missing)
  deriving DecidableEq, Repr

/-- The pieces of a plane line, each checked in turn: `want` says whether a physical address is where it must be (R269,
R270), `more` gives what is read beside the codes. -/
def checkLine (core ctx : Nat) (want : Nat → Nat → Bool) (more : Tlb → Nat → List Nat) :
    List (Nat × Nat) → State → LineRes × State
  | [], s => (.ok [], s)
  | (va, n) :: l, s =>
    let r := checkVa s core ctx false va permR
    match r.1 with
    | .fault code level => (.fault code level va, r.2)
    | .nonres base b => (.miss ⟨false, base, b, va⟩, r.2)
    | .ok t =>
      if !want va (trPa t va) then (.fault codeShape 0 va, r.2)
      else
        let r2 := checkLine core ctx want more l r.2
        match r2.1 with
        | .ok ps => (.ok (⟨va, addrs (trLoc t va) n ++ more t va⟩ :: ps), r2.2)
        | x => (x, r2.2)

/-- The address of a chunk's codes: its distance from the tile's first byte. -/
def chunkDist (x : Window) (pa : Nat) (t : TileChunk) : Nat :=
  let o := tileOrigin x pa
  (t.el - (o.1 * x.k + o.2)) * x.w / 8

/-- Plane `j` of a chunk's codes, a number of 32 bits (R398). -/
def chunkBits (w j : Nat) (bytes : List Byte) : Nat :=
  (List.range 32).foldl (fun (v i : Nat) =>
    let q := if w = 8 then (bytes.getD i 0).toNat else (bytes.getD (i / 2) 0).toNat / 2 ^ (4 * (i % 2)) % 16
    v + if q.testBit j then 2 ^ i else 0) 0

/-- A chunk's bits of plane `j` and its group's scale and zero point enter the slot, in place of what is there (R269). -/
def fillChunk (x : Window) (j : Nat) (sl : PlaneSlot) (t : TileChunk) (bytes : List Byte) : PlaneSlot :=
  let key := 256 * j + t.n
  let old := sl.cols.getD key 0
  let hole := old / 2 ^ (32 * t.c) % 2 ^ 32
  let z := (bytes.getD (4 * x.w + 2) 0).toNat
  let zb := if x.w = 4 then z / 2 ^ (4 * (t.el / gNum x.g % 2)) % 16 else z
  let gi := 32 * t.c / gNum sl.g
  { sl with cols := sl.cols.put key (old - hole * 2 ^ (32 * t.c) + chunkBits x.w j bytes * 2 ^ (32 * t.c)) 0,
            side := sl.side.put (256 * gi + t.n) ⟨BitVec.ofNat 16 (leNat ((bytes.drop (4 * x.w)).take 2)), zb, 0⟩ ⟨0, 0, 0⟩ }

/-- Line `l` of a .RAW load of P planes enters the slot (R270). -/
def fillRaw (l : Nat) (sl : PlaneSlot) (bytes : List Byte) : PlaneSlot :=
  let p := sl.planes
  if l < 64 * p then
    { sl with cols := (List.range 4).foldl (fun (m : AMap Nat) i =>
        m.put (4 * l + i) (leNat ((bytes.drop (32 * i)).take 32)) 0) sl.cols }
  else
    { sl with side := (List.range 16).foldl (fun (m : AMap Side) i =>
        let e := leNat ((bytes.drop (8 * i)).take 4)
        m.put (16 * (l - 64 * p) + i) ⟨BitVec.ofNat 16 e, e / 65536 % 2 ^ p, 0⟩ ⟨0, 0, 0⟩) sl.side }

/-- Bytes dealt out to pieces. -/
def dealBytes : List Piece → List Byte → List (List Byte)
  | [], _ => []
  | p :: ps, bs => bs.take p.locs.length :: dealBytes ps (bs.drop p.locs.length)

/-- The outcome of one plane line. -/
inductive PlaneRes
  | landed (sl : PlaneSlot) (cur : List Nat) (last : Bool) (s : State)
  | fail (code level va : Nat) (s : State)
  | miss (m : Missing) (s : State)
  | wait

/-- The pieces of a plane line are read together, as of one instant (R398), from its point in the plane partition, and enter the slot
through `fill`; `cur` is what of the tile its planes have received then. -/
def readLine (s : State) (q : Nat) (path : List Piece → Path) (r : LineRes × State) (cur : List Nat) (last : Bool)
    (fill : List (List Byte) → PlaneSlot) : PlaneRes :=
  match r.1 with
  | .fault code level va => .fail code level va r.2
  | .miss m => .miss m r.2
  | .ok ps =>
    match ps.findSome? (fun p => (p.locs.find? (poisoned s)).map (fun a => (p.va, a))) with
    | some x => .fail codePoison (lineAddr x.2) x.1 r.2
    | none =>
      match readCells r.2 q (path ps) (ps.flatMap (·.locs)) with
      | none => .wait
      | some (bytes, s1) =>
        let sl := fill (dealBytes ps bytes)
        .landed (if last then withColumnSums sl else sl) cur last s1

/-- The next plane line of a .WIN load, under the window's present fields (R269); the order of the lines and the window of a line
that lies in two are the model's (log entry 62). -/
def winLine (s : State) (q core ctx : Nat) (op : HarpOp) (sl : PlaneSlot) : PlaneRes :=
  let pa := (op.val 4).toNat
  let va := planeVa op.vals
  match windowOf s pa with
  | none => .fail codeShape 0 va s
  | some n =>
    let x := windowAt s n
    if windowBad x pa then .fail codeShape 0 va s
    else
      let j := nextBit op.cur
      let ts := lineChunks x pa (op.cur.getD j 0)
      let cur := op.cur.set j (op.cur.getD j 0 + ts.length)
      let unit := match ts with | t :: _ => unitNo x (t.el / 1024) | [] => 0
      let at_ : Nat → Option TileChunk := fun v => ts.find? (fun t => va + chunkDist x pa t == v)
      let r := checkLine core ctx (fun v p => p == pa + (v - va) && windowOf s p == some n)
        (fun t v => match at_ v with | some c => groupLocs x t.key (c.el / gNum x.g) | none => [])
        (ts.map (fun t => (va + chunkDist x pa t, 4 * x.w))) s
      readLine s q (fun _ => .plane (j + 8 * unit)) r cur (cur.all (fun c => decide (2048 ≤ c))) (fun bs =>
        (ts.zip bs).foldl (fun sl t => fillChunk x j sl t.1 t.2) sl)

/-- The next line of a .RAW load (R270). -/
def rawLine (s : State) (q core ctx : Nat) (op : HarpOp) (sl : PlaneSlot) : PlaneRes :=
  let va := planeVa op.vals + 128 * op.progress
  let r := checkLine core ctx (fun _ p => (windowOf s p).isNone) (fun _ _ => []) [(va, 128)] s
  readLine s q (fun ps => .plane (8 * lineOf ((ps.flatMap (·.locs)).headD 0))) r op.cur (decide (64 * op.planes + 16 * gCount op.g ≤ op.progress + 1)) (fun bs =>
    fillRaw op.progress sl (bs.headD []))

/-- The first queued HPLANE whose slot no earlier queued operation uses, with its place (R243). -/
def nextPlane (h : Harp) : Option (Nat × HarpOp) :=
  (h.ops.zipIdx.find? (fun o =>
    match planeSlot o.1.op with
    | some i => !o.1.landed && (h.ops.take o.2).all (fun e => usesSlot e.op != some i) && !(o.1.progress != 0 && (h.slot i).undef)
    | none => false)).map (fun o => (o.2, o.1))

/-- PLANE_LINE_READ: the next line of a plane load is read and lands, pauses the load, or ends it (R267). The slot takes the
load's P, G and RD with the first line, and its column sums with the last (log entry 62). -/
def execPlaneLineRead (blk : Nat) (s : State) : Host.Outcome State Fault Refusal :=
  let q := 65 * blk + 64
  match s.parties.get? q, (s.blocks.get? blk), ((s.blocks.get? blk).bind (·.harp)).bind nextPlane with
  | some p, some b, some (ix, op) =>
    match b.harp, planeSlot op.op with
    | some h, some i =>
      if !present s q then .next s
      else
        let sl := if op.progress = 0 then { PlaneSlot.empty with planes := op.planes, g := op.g, rd := op.rd } else h.slot i
        let r := match op.op with
          | .hplaneWin _ _ => winLine s q b.core p.ctx op sl
          | _ => rawLine s q b.core p.ctx op sl
        match r with
        | .landed sl1 cur last s1 =>
          .next (modHarp s1 blk (fun h => { h.setSlot i sl1 with
            ops := listModify h.ops ix (fun o => { o with progress := o.progress + 1, cur := cur, landed := last }) }))
        | .fail code level va s1 =>
          let s2 := modHarp s1 blk (fun h => { h.setSlot i { sl with undef := true } with
            ops := listModify h.ops ix (fun o => { o with progress := max 1 o.progress }) })
          .next (engineFault s2 q code level op.iaddr op.word (BitVec.ofNat 64 va))
        | .miss m s1 => .next (park s1 q op.iaddr op.word [m])
        | .wait => .next s
    | _, _ => .next s
  | _, _, _ => .next s

/-! ### Self-test (R256-R258) -/

/-- The outcome of a self-test: the sub-arrays found in error, the spare in error, the core after it. -/
structure TestRes where
  err : Nat
  sp : Bool
  core : Core

/-- The self-test of a core's Harp and the transition it calls for (R257, R258). A fenced sub-array is not in service and
is not tested. SPAREFOR keeps its number from SPARED to OFFLINE, and is 0 where NORMAL or NOSPARE becomes OFFLINE (log entry 62). -/
def selfTest (c : Core) : TestRes :=
  let bad := (List.range 16).filter (fun i => c.bad.getLsbD i && !(c.harp == .spared && c.spareFor == i))
  let sp := c.bad.getLsbD 16
  let st : HarpSt × Nat := match c.harp with
    | .normal =>
      (match bad, sp with
       | [], false => (.normal, 0)
       | [i], false => (.spared, i)
       | [], true => (.nospare, 0)
       | _, _ => (.offline, 0))
    | .nospare => if bad.isEmpty then (.nospare, 0) else (.offline, 0)
    | .spared => if bad.isEmpty && !sp then (.spared, c.spareFor) else (.offline, c.spareFor)
    | .offline => (.offline, c.spareFor)
  { err := bad.foldl (fun (n i : Nat) => n + 2 ^ i) 0, sp := sp, core := { c with harp := st.1, spareFor := st.2 } }

def harpStCode : HarpSt → Nat
  | .normal => 0 | .spared => 1 | .offline => 2 | .nospare => 3

/-- The status word of HTEST (R276). -/
def testWord (r : TestRes) : Nat :=
  r.err + (if r.sp then 2 ^ 16 else 0) + harpStCode r.core.harp * 2 ^ 17 + r.core.spareFor % 16 * 2 ^ 20

/-! ### Completion (R243, R272-R276) -/

/-- The Harp of a block, empty where it holds none. -/
def harpOf (s : State) (b : Nat) : Harp := ((s.blocks.get? b).bind (·.harp)).getD Harp.empty

/-- The type of HALIGN's elements, and their reading. -/
def alignFmt : AlignFmt → Fmt
  | .f16 => fmtF16 | .bf16 => fmtBF16 | .f8a => fmtF8A | .f8b => fmtF8B

/-- Row `r` of HALIGN (R252, R272): it is read once the rows before it are written, so that the operation sees its own writes. -/
def halignRow (m : HalignMod) (q : Nat) (a : State × HarpOp) (r : Nat) : State × HarpOp :=
  let s := a.1
  let op := a.2
  let w := alignBytes m.fmt
  let x := op.val 3
  let row := harpRead s q op ((op.val 1).toNat + r * pitchOf (x / 2 ^ 32) (256 * w)) (256 * w)
  let rd := match m.fmt with | .f16 | .bf16 => .ieee | _ => m.rd
  let xs := (List.range 256).map (fun k => fval (alignFmt m.fmt) rd (leNat ((row.drop (w * k)).take w)))
  let gs := (List.range (gCount m.gsel)).map (fun g => alignGroup ((xs.drop (gNum m.gsel * g)).take (gNum m.gsel)))
  let out := gs.flatMap (fun a => a.a.flatMap (fun v => bytesOf 2 (pat 16 v))) ++
    gs.flatMap (fun a => bytesOf 4 (pat 16 a.ea + if a.nan then 2 ^ 24 else 0))
  let off := (op.val 0).toNat + r * pitchOf x (aPitch .a16 m.gsel)
  (modHarp (harpWrite s q op off out) (bidOf q) (fun h => raiseH h (gs.foldl (fun f a => f ||| a.fl) 0)),
   { op with snap := putCells op.snap (cellsOf off out) })

/-- Row `r` of HACCLD (R274). -/
def haccldRow (q : Nat) (op : HarpOp) (s : State) (r : Nat) : State :=
  let row := harpRead s q op ((op.val 2).toNat + r * pitchOf (op.val 3) 1024) 1024
  modHarp s (bidOf q) (fun h => setAccRow h ((op.val 0).toNat + r)
    ((List.range 256).map (fun n => BitVec.ofNat 32 (leNat ((row.drop (4 * n)).take 4)))))

/-- Out (R275): the bytes of one element and its flags; `x` is the operand X. -/
def accOut (m : HaccstMod) (x : Int) (y : W32) : List Byte × FFlags :=
  let v := fval fmtF32 .ieee y.toNat
  let conv : Fmt → List Byte × FFlags := fun f =>
    let r := fConv f m.rnd .ieee false v
    (bytesOf 2 r.code, r.fl)
  let quant : Bool → List Byte × FFlags := fun sg =>
    let z := pat 64 x / 2 ^ 48
    let r := qntElem ⟨sg, false, m.rnd, m.rd⟩ v (fval fmtF16 m.rd (pat 64 x / 2 ^ 32 % 65536)) (tyVal (if sg then .s8 else .n8) z)
    (bytesOf 1 (pat 8 r.1), r.2)
  match m.fmt with
  | .f32 => (bytesOf 4 y.toNat, flNone)
  | .f16 => conv fmtF16
  | .bf16 => conv fmtBF16
  | .s8 => quant true
  | .n8 => quant false

/-- Row `r` of HACCST (R274, R275). -/
def haccstRow (m : HaccstMod) (q : Nat) (op : HarpOp) (s : State) (r : Nat) : State :=
  let row := (op.val 0).toNat + r
  let outs := (List.range 256).map (fun n => accOut m (op.val 3) (accAt (harpOf s (bidOf q)) row n))
  let s1 := harpWrite s q op ((op.val 2).toNat + r * pitchOf (op.val 3) (accPitch m.fmt)) (outs.flatMap (·.1))
  modHarp s1 (bidOf q) (fun h =>
    raiseH (if m.clr then zeroAccRow h row else h) (outs.foldl (fun f o => f ||| o.2) 0))

/-- The effect of the operation at the head of the queue (R243): none where an HPLANE has lines still to land. -/
def harpRun (s : State) (q core : Nat) (op : HarpOp) : Option State :=
  let b := bidOf q
  let rows : Nat → List Nat := fun i => List.range (op.val i).toNat
  match op.op with
  | .hplaneWin _ _ | .hplaneRaw _ _ => if op.landed then some s else none
  | .halign m _ => some ((rows 2).foldl (halignRow m q) (s, op)).1
  | .hmma m _ => some (hmmaRows m 256 s b op).1
  | .haccld _ => some ((rows 1).foldl (haccldRow q op) s)
  | .haccst m _ => some ((rows 1).foldl (haccstRow m q op) s)
  | .hzero _ => some (modHarp s b (fun h => (rows 1).foldl (fun h r => zeroAccRow h ((op.val 0).toNat + r)) h))
  | .htest _ =>
    let t := selfTest (coreOf s core)
    some (harpWrite (setCore s core t.core) q op (op.val 1).toNat (bytesOf 4 (testWord t)))
  | .htestFlags _ =>
    let s1 := harpWrite s q op (op.val 1).toNat (bytesOf 4 (harpOf s b).hflags.toNat)
    some (modHarp s1 b (fun h => { h with hflags := 0 }))
  | _ => some s

/-- The oldest queued operation of a block has taken its effect whole. -/
def harpDone (s : State) (blk : Nat) (op : HarpOp) : Option State :=
  match op.late, s.blocks.get? blk with
  | some cells, _ => some (landLate s blk op cells (fun _ => true))
  | none, some b => harpRun s (65 * blk + 64) b.core op
  | none, none => none

/-- An operation that writes scratchpad. -/
def writesScratch : Instr → Bool
  | .halign _ _ | .haccst _ _ | .htest _ | .htestFlags _ => true
  | _ => false

/-- An operation that writes scratchpad waits for the LOCKs and TRYLOCKs of the bow before it, as its stores do (R347). -/
def mustWait (s : State) (blk : Nat) (op : HarpOp) : Bool := writesScratch op.op && lockOutstanding s (65 * blk + 64) op.n

/-- HARP_OP_COMPLETE: the oldest queued operation of a block takes its effect and completes; the HARP counter falls (R226,
R243). -/
def execHarpOpComplete (blk : Nat) (s : State) : Host.Outcome State Fault Refusal :=
  match (harpOf s blk).ops with
  | op :: _ =>
    if !present s (65 * blk + 64) || mustWait s blk op then .next s
    else match harpDone s blk op with
      | none => .next s
      | some s1 => .next (harpPop { s1 with draws := s1.draws + 1 } blk)
  | [] => .next s

/-- The oldest queued operation of a block takes its effect but for its writes of scratchpad, which come chunk by chunk (R255). -/
def harpBegin (s : State) (blk : Nat) (op : HarpOp) : State :=
  let q := 65 * blk + 64
  let s0 := performSome s q ((bufOf s q .scratch).filter (fun e => decide (e.n < op.n)))
  match s0.blocks.get? blk with
  | none => s
  | some b0 => match harpRun s0 (65 * blk + 64) b0.core op with
    | none => s
    | some s1 =>
      let sp1 : AMap Byte := match s1.blocks.get? blk with | some b1 => b1.sp | none => []
      let diff := ((b0.sp ++ sp1).filter (fun (c : Nat × Byte) => b0.sp.getD c.1 0 != sp1.getD c.1 0)).map (fun (c : Nat × Byte) => (c.1, sp1.getD c.1 0))
      let s2 := modBlock s1 blk (fun b => { b with sp := b0.sp })
      modHarp { s2 with draws := s2.draws + 1 } blk (fun h => { h with ops := h.ops.map (fun o => if o.n = op.n then { o with late := some diff } else o) })

/-- A queued operation that writes scratchpad goes on: it begins, or its writes to one aligned chunk of 16 bytes are made (R255). -/
def harpStep (s : State) (blk chunk : Nat) : State :=
  match (harpOf s blk).ops with
  | op :: _ =>
    if present s (65 * blk + 64) && writesScratch op.op && !mustWait s blk op then
      match op.late with
      | none => harpBegin s blk op
      | some cells => landLate s blk op cells (fun a => a / 16 == chunk)
    else s
  | [] => s

end Sys2Proof.Machine
end

