-- ==== Sys2Proof/Machine/Fabric.lean ====
section
/-!
DEFINITION. Consort collectives (spec/21 R435-R445): CONSORT, CNSQRY, the run of a collective, its completion at a rank and
its timeout.
-/
namespace Sys2Proof.Machine

/-! ### Descriptors (R435, R436) -/

/-- A collective descriptor (R436). -/
structure ColDesc where
  comm : Nat
  rank : Nat
  root : Nat
  count : Nat
  seq : Nat
  src : Nat
  dst : Nat
  timeout : Nat
  /-- A byte that must be zero is not. -/
  rsvd : Bool
  deriving DecidableEq, Repr

/-- The descriptor in 64 bytes read as one number. -/
def colDesc (d : Nat) : ColDesc :=
  { comm := fld d 0 8, rank := fld d 16 16, root := fld d 32 16, count := fld d 64 32, seq := fld d 96 32,
    src := fld d 128 64, dst := fld d 192 64, timeout := fld d 256 32,
    rsvd := fld d 8 8 != 0 || fld d 48 16 != 0 || fld d 288 32 != 0 || fld d 384 128 != 0 }

/-- CNS_COMM of a communicator: V, N, CTX (R435). -/
def commReg (s : State) (c : Nat) : Nat := (s.regs.comm.getD c 0).toNat
def commSize (s : State) (c : Nat) : Nat := fld (commReg s c) 1 12 + 1
def commOk (s : State) (c ctx : Nat) : Bool := (commReg s c).testBit 0 && fld (commReg s c) 16 12 == ctx

/-- The bytes of an element of a collective; 1 where it has no type. -/
def colBytes (m : ConsortMod) : Nat := match m.ty with | some t => tyWidth t / 8 | none => 1

/-- A field lies outside R436 (check 4 of R438). -/
def colBad (s : State) (m : ConsortMod) (d : ColDesc) : Bool :=
  let rooted := m.kind == .reduce || m.kind == .broadcast
  d.rsvd || decide (commSize s d.comm ≤ d.rank) || (if rooted then decide (commSize s d.comm ≤ d.root) else d.root != 0) ||
  (if m.kind = .barrier then d.count != 0 else d.count == 0 || decide (2 ^ 24 < d.count)) ||
  d.src % colBytes m != 0 || d.dst % colBytes m != 0

/-! ### Collectives (R439-R441) -/

/-- The type and operation of a rank's collective. -/
def rankTy (r : ColRank) : Ty := (tyOf r.ty).getD .n32
def rankOp (r : ColRank) : RedOp := (redOpOf r.rop).getD .add

/-- The rank is one of the collective. -/
def rankIn (c : Collective) (rank : Nat) : Option ColRank := c.ranks.find? (fun r => r.rank == rank)

/-- The collective that a CONSORT of this name and rank joins: one that has not run and in which the rank is not closed; a rank on
another package is closed once its collective has ended. -/
def joinsCol (comm seq rank : Nat) (c : Collective) : Bool :=
  c.comm == comm && c.seq == seq && !c.running &&
  match rankIn c rank with
  | some r => !r.closed && !(r.q.isNone && c.ended)
  | none => true

/-- Two ranks disagree (R441). -/
def disagree (a b : ColRank) : Bool :=
  a.kind != b.kind || a.rop != b.rop || a.ty != b.ty || a.count != b.count || a.root != b.root

/-- A rank whose TIMEOUT has passed (R441). -/
def timedOut (now : Nat) (r : ColRank) : Bool := r.timeout != 0 && r.done == 0 && decide (r.issued + r.timeout ≤ now)

/-- Every rank with no completion state takes one; the collective has ended. -/
def endCol (f : ColRank → Nat) (c : Collective) : Collective :=
  { c with ended := true, ranks := c.ranks.map (fun r => if r.done = 0 then { r with done := f r } else r) }

/-- The ranks whose TIMEOUT has passed complete with TIMEOUT, the others that have issued with ABORTED (R441). -/
def timeoutCol (now : Nat) (c : Collective) : Collective :=
  if !c.ended && !c.running && c.ranks.any (timedOut now) then endCol (fun r => if timedOut now r then 5 else 6) c else c

/-- The ranks of a collective that have issued, each once. -/
def arrived (c : Collective) : Nat := ((c.ranks.map (·.rank)).foldl (fun l r => if l.contains r then l else r :: l) []).length

/-- A rank issues into a collective of `size` ranks, whose TIMEOUTs count while ranks are missing: a second issue or a rank that disagrees makes it a MISMATCH; one that comes to a
collective that has ended takes its end (R441). -/
def addRank (now size : Nat) (c0 : Collective) (r : ColRank) : Collective :=
  let c := if arrived c0 < size then timeoutCol now c0 else c0
  if c.ended then { c with ranks := c.ranks ++ [{ r with done := if c.ranks.any (·.done == 4) then 4 else 6 }] }
  else
    let c1 := { c with ranks := c.ranks ++ [r] }
    if (rankIn c r.rank).isSome || c.ranks.any (disagree r) then endCol (fun _ => 4) c1 else c1

/-- A rank's collective is handed to the engine (R438, R439). -/
def enterCol (s : State) (comm seq : Nat) (r : ColRank) : State :=
  let now := ticksOf s.cycle
  match s.cols.findIdx? (joinsCol comm seq r.rank) with
  | some i => { s with cols := listModify s.cols i (fun c => addRank now (commSize s comm) c r) }
  | none =>
    let c : Collective := { n := s.colSerial, comm := comm, seq := seq, ranks := [r], running := false, flags := 0, ended := false }
    { s with cols := s.cols ++ [c], colSerial := s.colSerial + 1 }

/-- The collective numbered `n` is changed. -/
def modCol (s : State) (n : Nat) (f : Collective → Collective) : State :=
  { s with cols := s.cols.map (fun c => if c.n = n then f c else c) }

/-! ### CONSORT (R437, R438) -/

/-- The descriptor is read once, as a snapshot (R438). -/
def readDesc (s : State) (k : Ctx) (va : Nat) (perm : Perm) : ReadRes ColDesc :=
  match readGlobal s k.c k.p.ctx k.core false va 64 (lowLane k.e % 8) perm with
  | .ok d s1 => .ok (colDesc d) s1
  | .stop t => .stop t
  | .wait => .wait

/-- The rank that a CONSORT issues. -/
def newRank (m : ConsortMod) (k : Ctx) (va : Nat) (d : ColDesc) : ColRank :=
  { rank := d.rank, q := some k.c.q, ctx := k.p.ctx, kind := colKindCode m.kind, rop := redOpCode m.rop,
    ty := match m.ty with | some t => tyCode t | none => 0, count := d.count, root := d.root, src := d.src, dst := d.dst,
    desc := va, timeout := d.timeout, issued := ticksOf k.cycle, n := k.p.serial, data := none, ready := false, done := 0,
    closed := false, iaddr := k.c.iaddr, word := k.c.word }

/-- CONSORT (R438). -/
def execConsort (m : ConsortMod) (i : Insn) (s : State) : Host.Outcome State Fault Refusal :=
  issue (.consort m i) i s (fun k s =>
    let va := sbEa k i
    if k.e = 0 then some (finish k i s)
    else if k.p.ctr.consort = 63 then some (fault s k.c codeCounter)
    else if va % 64 ≠ 0 then some (faultLane s k.c codeMisaligned (lowLane k.e % 8) 0 (BitVec.ofNat 64 va))
    else match readDesc s k va permRW with
      | .stop t => some t
      | .wait => none
      | .ok d s1 =>
        if colBad s1 m d then some (fault s1 k.c codeBounds)
        else if !commOk s1 d.comm k.p.ctx then some (fault s1 k.c codeProtection)
        else
          let s2 := enterCol (ctrUp s1 k.c.q .consort) d.comm d.seq (newRank m k va d)
          some (finish k i (modParty s2 k.c.q (fun p => { p with serial := p.serial + 1 }))))

/-! ### CNSQRY (R445) -/

/-- The latest collective of a communicator and sequence number. -/
def colNamed (s : State) (comm seq : Nat) : Option Collective :=
  (s.cols.filter (fun c => c.comm == comm && c.seq == seq)).getLast?

/-- The snapshot of CNSQRY (R445). -/
def cnsWord (s : State) (d : ColDesc) : Nat :=
  match colNamed s d.comm d.seq with
  | none => 0
  | some c =>
    let done := match rankIn c d.rank with | some r => r.done | none => 0
    (if done ≠ 0 then done else if c.running then 2 else 1) + (if done = 3 then c.flags.toNat * 256 else 0) +
    arrived c * 65536

/-- CNSQRY from its checks to its write (R445). -/
def cnsPart (s : State) (c : Cur) (p : Party) (b : Block) (va lane : Nat) (dst : Opnd) : ReadRes (List RegWrite) :=
  if va % 64 ≠ 0 then .stop (faultLane s c codeMisaligned lane 0 (BitVec.ofNat 64 va))
  else match readGlobal s c p.ctx b.core false va 64 lane permR with
    | .ok x s1 =>
      let d := colDesc x
      if !commOk s1 d.comm p.ctx then .stop (fault s1 c codeProtection)
      else .ok (match dst with | .s n => [.s n.toNat (BitVec.ofNat 64 (cnsWord s1 d))] | _ => []) s1
    | .stop t => .stop t
    | .wait => .wait

/-- CNSQRY (R445). -/
def execCnsqry (i : Insn) (s : State) : Host.Outcome State Fault Refusal :=
  issue (.cnsqry i) i s (fun k s =>
    if k.e = 0 then some (finish k i s)
    else loadIssue s k i (.cns (sbEa k i) i.a) (cnsPart s k.c k.p k.b (sbEa k i) (lowLane k.e % 8) i.a))

/-! ### The engine (R439-R443) -/

/-- What comes of the engine's access to a rank's memory. -/
inductive ColRes (α : Type)
  | ok (v : α) (s : State)
  | fail (code level va : Nat) (s : State)
  | wait

/-- `n` elements of `w` bytes read from address `a` on, for a party on the general path (R439). -/
def readElems (q core ctx w : Nat) : Nat → Nat → State → ColRes (List W64)
  | 0, _, s => .ok [] s
  | n + 1, a, s =>
    let r := checkVa s core ctx false a permR
    match r.1 with
    | .fault code level => .fail code level a r.2
    | .nonres _ _ => .wait
    | .ok t =>
      let loc := trLoc t a
      if poisoned r.2 loc then .fail codePoison (lineAddr loc) a r.2
      else match readCells (touchL1 r.2 core (partyOct r.2 q) t a false false) q .general (addrs loc w) with
        | none => .wait
        | some (bytes, s1) =>
          match readElems q core ctx w n (a + w) s1 with
          | .ok l s2 => .ok (BitVec.ofNat 64 (leNat bytes) :: l) s2
          | x => x

/-- Where `n` elements are to be stored: their locations and translations, all checked first (R439). -/
def destElems (core ctx w : Nat) : Nat → Nat → State → ColRes (List (Nat × Tlb))
  | 0, _, s => .ok [] s
  | n + 1, a, s =>
    let r := checkVa s core ctx false a permW
    match r.1 with
    | .fault code level => .fail code level a r.2
    | .nonres _ _ => .wait
    | .ok t =>
      match destElems core ctx w n (a + w) r.2 with
      | .ok l s2 => .ok ((trLoc t a, t) :: l) s2
      | x => x

/-- A store of the engine as a store of the rank's party, carried to the FAB point (R439, R442). -/
def storeElem (q core w : Nat) (s : State) (e : (Nat × Tlb) × W64) : State :=
  let s1 := setDirty s core e.1.2
  let tags := if e.1.2.tg then tagCells s1 [.mask (tagLoc e.1.1) (if e.1.1 / 8 % 2 = 0 then 11 else 7) 0] else []
  (performBy s1 q (cellsOf e.1.1 (bytesOf w e.2.toNat) ++ tags) (pointsTo s1 q .fab)).2

/-- Comb of R90 in a type (R440). -/
def colComb (t : Ty) (op : RedOp) (a b : FRes) : FRes :=
  let r := combine t op false a.code b.code
  ⟨r.code, a.fl ||| b.fl ||| r.fl⟩

/-- One level of the tree of R440: neighbours combine, a last one without a neighbour stays. -/
def colLevel (t : Ty) (op : RedOp) : List FRes → List FRes
  | a :: b :: l => colComb t op a b :: colLevel t op l
  | l => l

/-- Tree(i) over the elements of all ranks in order (R440): N is at most 4,096, so twelve levels are enough. -/
def colTree (t : Ty) (op : RedOp) (xs : List FRes) : FRes :=
  ((List.range 12).foldl (fun l _ => colLevel t op l) xs).headD ⟨0, 0⟩

/-- The source elements of rank `r`. -/
def colData (c : Collective) (r : Nat) : List W64 := ((rankIn c r).bind (·.data)).getD []

/-- Tree(i) of a collective of N ranks. -/
def colElem (c : Collective) (n : Nat) (r : ColRank) (i : Nat) : FRes :=
  colTree (rankTy r) (rankOp r) ((List.range n).map (fun j => ⟨((colData c j).getD i 0).toNat, flNone⟩))

/-- What rank `r` receives (R439). -/
def colResult (c : Collective) (n : Nat) (r : ColRank) : List W64 :=
  let tree : List W64 := (List.range r.count).map (fun i => BitVec.ofNat 64 (colElem c n r i).code)
  match colKindOf r.kind with
  | some .allreduce => tree
  | some .reduce => if r.rank = r.root then tree else []
  | some .broadcast => colData c r.root
  | some .allgather => (List.range n).flatMap (colData c)
  | _ => []

/-- The flags of every step over all elements (R440). -/
def colFlags (c : Collective) (n : Nat) : FFlags :=
  match c.ranks with
  | r :: _ =>
    if r.kind ≤ 1 then (List.range r.count).foldl (fun f i => f ||| (colElem c n r i).fl) 0 else 0
  | [] => 0

/-- The rank's source is read (R439): none is where the kind does not read it. -/
def readsSource (r : ColRank) : Bool := r.kind == 0 || r.kind == 1 || r.kind == 3 || (r.kind == 2 && r.rank == r.root)

/-- A rank's stores issued before its CONSORT are performed and at the FAB point (R438). -/
def rankReleased (s : State) (r : ColRank) : Bool :=
  match r.q with
  | none => true
  | some q => match s.parties.get? q with
    | none => true
    | some p => p.buf.all (fun e => r.n ≤ e.n) && p.sbuf.all (fun e => r.n ≤ e.n) && boundsReady s q .fab

/-- A fault of the engine for a rank: its context is terminated, and the other ranks are aborted (R439, R441). -/
def failRank (s : State) (c : Collective) (r : ColRank) (code level va : Nat) : State :=
  let shut : ColRank → ColRank := fun x => if x.rank = r.rank then { x with closed := true } else x
  let s1 := modCol s c.n (fun c => endCol (fun _ => 6) { c with ranks := c.ranks.map shut })
  match r.q with
  | some q => engineFault s1 q code level r.iaddr r.word (BitVec.ofNat 64 va)
  | none => s1

/-- The source elements of a rank have been read. -/
def setData (rank : Nat) (l : List W64) (c : Collective) : Collective :=
  { c with ranks := c.ranks.map (fun x => if x.rank = rank then { x with data := some l } else x) }

/-- The engine reads the sources of a running collective, rank by rank; a page that is not resident pauses it (R439). -/
def readSources (s : State) (n : Nat) (r : ColRank) : State :=
  match s.cols.find? (fun c => c.n == n), r.q with
  | some c, some q =>
    if c.ended || r.data.isSome || r.closed then s
    else if !readsSource r then modCol s n (setData r.rank [])
    else match readElems q (coreIx s q) r.ctx (tyWidth (rankTy r) / 8) r.count r.src s with
      | .ok l s1 => modCol s1 n (setData r.rank l)
      | .fail code level va s1 => failRank s1 c r code level va
      | .wait => s
  | _, _ => s

/-- A rank whose release is taken is ready from now on. -/
def markReady (s : State) (r : ColRank) : ColRank := { r with ready := r.ready || rankReleased s r }

/-- COLLECTIVE_RUN: a collective starts once every rank has issued and every local rank's release at .FAB is taken; while
it runs, the sources still unread are read (R438, R439). -/
def execCollectiveRun (n : Nat) (s : State) : Host.Outcome State Fault Refusal :=
  match s.cols.find? (fun c => c.n == n) with
  | none => .next s
  | some c =>
    if c.ended then .next s
    else
      let c1 := { c with ranks := c.ranks.map (markReady s) }
      let go := c1.running || (decide (c1.ranks.length = commSize s c1.comm) && c1.ranks.all (·.ready))
      let s1 := modCol s n (fun _ => { c1 with running := go })
      .next (if go then c1.ranks.foldl (fun s r => readSources s n r) s1 else s1)

/-- STATUS at completion (R441). -/
def colStatus (c : Collective) (done : Nat) : Nat := done + (if done = 3 then c.flags.toNat * 256 else 0)

/-- The status is written and the rank's counter falls, in the save record too (R441, R443). -/
def closeRank (s : State) (c : Collective) (r : ColRank) (q done : Nat) : State :=
  let va := r.desc + 0x28
  let st := checkVa s (coreIx s q) r.ctx false va permW
  match st.1 with
  | .fault code level => failRank st.2 c r code level va
  | .nonres _ _ => s
  | .ok t =>
    let s1 := storeElem q (coreIx s q) 8 st.2 ((trLoc t va, t), BitVec.ofNat 64 (colStatus c done))
    let shut : ColRank → ColRank := fun x => if x.q = some q ∧ x.n = r.n then { x with done := done, closed := true } else x
    let s2 := modCol (ctrDown s1 q .consort) c.n (fun c => { c with ranks := c.ranks.map shut })
    match blockOf s2 q with
    | some b => if b.resident then s2 else saveBlock s2 (bidOf q)
    | none => s2

/-- An earlier collective of the party is not complete (R226). -/
def earlierOpen (s : State) (q n : Nat) : Bool :=
  s.cols.any (fun c => c.ranks.any (fun r => r.q == some q && decide (r.n < n) && !r.closed))

/-- The destination of a rank is written and its state is DONE (R439, R442). -/
def finishRank (s : State) (c : Collective) (r : ColRank) (q : Nat) : State :=
  let n := commSize s c.comm
  let w := tyWidth (rankTy r) / 8
  let xs := colResult c n r
  match destElems (coreIx s q) r.ctx w xs.length r.dst s with
  | .wait => s
  | .fail code level va s1 => failRank s1 c r code level va
  | .ok ds s1 =>
    let fl := colFlags c n
    let s2 := (ds.zip xs).foldl (storeElem q (coreIx s q) w) s1
    closeRank (modCol s2 c.n (fun c => { c with flags := fl })) { c with flags := fl } r q 3

/-- COLLECTIVE_COMPLETE: the engine writes a rank's destination and STATUS and lowers its CONSORT counter, in the party's
order of issue (R226, R439, R441), its release taken (R438). -/
def execCollectiveComplete (n rank : Nat) (s : State) : Host.Outcome State Fault Refusal :=
  match s.cols.find? (fun c => c.n == n) with
  | none => .next s
  | some c =>
    match c.ranks.find? (fun r => r.rank == rank && r.q.isSome && !r.closed) with
    | none => .next s
    | some r =>
      match r.q with
      | none => .next s
      | some q =>
        if earlierOpen s q r.n then .next s
        else if r.done ≠ 0 then .next (if r.ready || rankReleased s r then closeRank s c r q r.done else s)
        else if c.running && c.ranks.all (fun x => x.data.isSome) then .next (finishRank s c r q)
        else .next s

/-- COLLECTIVE_TIMEOUT: the TIMEOUT of a rank has passed before every rank has issued (R441). -/
def execCollectiveTimeout (n rank : Nat) (s : State) : Host.Outcome State Fault Refusal :=
  match s.cols.find? (fun c => c.n == n) with
  | none => .next s
  | some c =>
    let now := ticksOf s.cycle
    if decide (arrived c < commSize s c.comm) && c.ranks.any (fun r => r.rank == rank && timedOut now r) then
      .next (modCol s n (timeoutCol now))
    else .next s

/-- The ranks of a context that ends leave their collectives, and every other rank is aborted (R441). -/
def abortRanks (s : State) (mine : ColRank → Bool) : State :=
  let shut : ColRank → ColRank := fun r => if mine r then { r with closed := true, done := max 6 r.done } else r
  let cut : Collective → Collective := fun c =>
    if c.ranks.any (fun r => mine r && !r.closed) then endCol (fun _ => 6) { c with ranks := c.ranks.map shut } else c
  { s with cols := s.cols.map cut }

end Sys2Proof.Machine
end

