-- ==== Sys2Proof/Machine/SysReg.lean ====
section
/-!
DEFINITION. System registers (spec/08 R187-R192): RDSR and WRSR; and the reissue of any outstanding read after a halt
(spec/19 R420).
-/
namespace Sys2Proof.Machine

/-- ISSUE_CTL (R191): MODE 3 reads as 0. -/
def issueCtl (c : Core) : Nat := (if c.mode = 3 then 0 else c.mode % 4) + c.fixn % 128 * 256

/-- LOC_SCORE of an octant (R192). -/
def locScore (o : Octant) : Nat := min 0xFFFF o.score + o.n % 128 * 65536

/-- CORE_ID (R189). -/
def coreIdReg (core oct : Nat) : Nat := core % 512 + core / 4 % 128 * 512 + core / 72 % 4 * 65536 + oct % 8 * 2 ^ 18

/-- The system register numbered `n` as a party reads it (R188). -/
def sysRead (s : State) (p : Party) (b : Block) (n : Nat) : Nat :=
  match n with
  | 0x000 => 0xFFF
  | 0x008 => coreIdReg b.core (octOf b p)
  | 0x010 => if p.check then 1 else 0
  | 0x018 => issueCtl (coreOf s b.core)
  | 0x019 => locScore ((coreOf s b.core).octs.getD (octOf b p) Octant.reset)
  | _ => 0

/-- RDSR's register writes (R187). -/
def srWrites (s : State) (p : Party) (b : Block) (n : Nat) (e : Mask) (dst : Opnd) : List RegWrite :=
  let x := sysRead s p b n
  match dst with
  | .s r => [.s r.toNat (BitVec.ofNat 64 x)]
  | .v r => (lanesOf e).map (fun l => .v r.toNat l (BitVec.ofNat 32 x))
  | _ => []

/-- RDSR (R187). -/
def execRdsr (n : BitVec 10) (i : Insn) (s : State) : Host.Outcome State Fault Refusal :=
  issue (.rdsr n i) i s (fun k s =>
    if k.e = 0 then some (finish k i s)
    else loadIssue s k i (.sr n.toNat k.e i.a) (.ok (srWrites s k.p k.b n.toNat k.e i.a) s))

/-- WRSR (R187): only GRP_CTL may be written (R188, R190). -/
def execWrsr (n : BitVec 10) (i : Insn) (s : State) : Host.Outcome State Fault Refusal :=
  issue (.wrsr n i) i s (fun k s =>
    if k.e = 0 then some (finish k i s)
    else if n ≠ 0x010 then some (fault s k.c codeProtection)
    else
      let x := operand k .n32 i.b (lowLane k.e % 8)
      some (finish k i (modParty s k.c.q (fun p => { p with check := x % 2 == 1 }))))

/-- An outstanding read is made again, with all its checks (R420). -/
def reissue (s : State) (c : Cur) (p : Party) (b : Block) : ReadReq → ReadRes (List RegWrite)
  | .tag lanes line dst => tagPart s c p b lanes line dst
  | .lkq va dst => lkqPart s c p b va 0 dst
  | .cns va dst => cnsPart s c p b va 0 dst
  | .sr n e dst => .ok (srWrites s p b n e dst) s
  | r => loadPart s c p b r

end Sys2Proof.Machine
end

