-- ==== Sys2Proof/Machine/DevAccess.lean ====
section
/-!
DEFINITION. The accesses that the device makes for a card or a launch (spec/19 R412, R414, R416): read at the SYS point and
written as Atomic steps at .SYS, in the card's context, under checks 2 to 5 of R150.
-/
namespace Sys2Proof.Machine

/-- What comes of a device access: a value; a fault with its level; a page that is not resident. -/
inductive DevRes (α : Type)
  | ok (v : α) (s : State)
  | fault (code level : Nat) (s : State)
  | nonres (base bytes : Nat) (s : State)

/-- The translation of a device access: a walk of the context's global tables, its leaf's A set, and D for a store (R150,
R295, R296). -/
def devTr (s : State) (ctx va : Nat) (perm : Perm) : DevRes Tlb :=
  if 2 ^ 57 ≤ va then .fault codeProtection 0 s
  else
    let d := descOf s ctx
    match (if poisoned s (descLoc s ctx) then .fault codePoison (lineAddr (descLoc s ctx)) else (walk s ctx false va 5 d.tableRoot).1) with
    | .fault code level => .fault code level s
    | .nonres base bytes => .nonres base bytes s
    | .ok t =>
      if !trServed s d t va || !permitted t perm then .fault codeProtection (trLevel t) s
      else
        let s1 := t.leaves.foldl (fun s a => orEntry s ctx a 7) (notePages s t)
        .ok t (if perm.w && !t.d then t.leaves.foldl (fun s a => orEntry s ctx a 8) s1 else s1)

/-- The bytes of a read within one page. -/
def devPiece (s : State) (ctx va n : Nat) : DevRes Nat :=
  match devTr s ctx va permR with
  | .ok t s1 =>
    match (addrs (trLoc t va) n).find? (poisoned s1) with
    | some a => .fault codePoison (lineAddr a) s1
    | none => .ok (readSys s1 (trLoc t va) n) { s1 with draws := s1.draws + 1 }
  | .fault code level s1 => .fault code level s1
  | .nonres base bytes s1 => .nonres base bytes s1

/-- A read of `n` bytes, little-endian, at most one page border inside (R412, R414). -/
def devRead (s : State) (ctx va n : Nat) : DevRes Nat :=
  let k := min n (4096 - va % 4096)
  match devPiece s ctx va k with
  | .ok v s1 =>
    if k = n then .ok v s1
    else match devPiece s1 ctx (va + k) (n - k) with
      | .ok w s2 => .ok (v + 2 ^ (8 * k) * w) s2
      | x => x
  | x => x

/-- An 8-byte write of `f` of the value at its home, as one Atomic step at .SYS (R414, R416). -/
def devWrite (s : State) (ctx va : Nat) (perm : Perm) (f : Nat → Nat) : DevRes Unit :=
  match devTr s ctx va perm with
  | .ok t s1 =>
    let loc := trLoc t va
    if poisoned s1 loc && perm.r then .fault codePoison (lineAddr loc) s1
    else .ok () (homeWrite s1 (cellsOf loc (bytesOf 8 (f (lastValue s1 loc 8))) ++ tagCells s1 (storeTags t loc 8)))
  | .fault code level s1 => .fault code level s1
  | .nonres base bytes s1 => .nonres base bytes s1

/-- A record of the device's own for a context: CORE 0xFFFF, GID 0, IADDR 0 (R412, R414). -/
def devRec (s : State) (ctx code level : Nat) (addr : Nat) : FaultRec :=
  atLevel
    { code := code, async := true, term := true, req := false, w := false, level := 0, lane := 0, ctx := ctx,
      core := 0xFFFF, gid := 0, detail := 0, iaddr := 0, addr := BitVec.ofNat 64 addr, aux := 0, word := 0,
      ticks := ticksOf s.cycle } level

/-- The PAGE_PARK record of an access that waits (R412, R414). -/
def devPark (s : State) (part ctx addr : Nat) : State :=
  fqPut s part { devRec s ctx codePark 0 addr with async := false, term := false } none

/-! ### Units of a partition (R402) -/

/-- The last cluster of a partition; the package has clusters 0 to 71 (R4, R5; log entry 59). -/
def lastCluster (p : Part) : Nat := min 71 p.climit

/-- The clusters of a partition. -/
def partClusters (p : Part) : List Nat := (List.range (lastCluster p + 1 - p.cbase)).map (p.cbase + ·)

/-- The cores of a partition. -/
def partCores (p : Part) : List Nat := (partClusters p).flatMap (fun c => (List.range 4).map (4 * c + ·))

/-- The kernel sets HARP or HALIGN (R177). -/
def needsHarp (k : Kernel) : Bool := k.features.testBit 1 || k.features.testBit 2

/-- The partition holds a core whose Harp is in service (R180, R259). -/
def harpServed (s : State) (p : Part) : Bool := (partCores p).any (fun c => (coreOf s c).harp != .offline)

/-- Core cycles delivered to a core since the compute dies left reset (R7, R419). -/
def delivered (s : State) (core : Nat) : Nat := clockOf s core

end Sys2Proof.Machine
end

