-- ==== Sys2Proof/Machine/Launch.lean ====
section
/-!
DEFINITION. Launches, the front end, job cards and their checks, POST (spec/19 R411-R418; spec/01 R43-R46).
-/
namespace Sys2Proof.Machine

/-! ### The kernel header (R43-R46) -/

/-- The limits and streams that a header of 128 bytes declares (R43). -/
def kernelOf (image h : Nat) : Kernel :=
  { image := image, features := fld h 64 32, gOff := fld h 192 32, gLen := fld h 224 32, bOff := fld h 256 32,
    bLen := fld h 288 32, vregs := fld h 320 16, shade := fld h 336 8, spill := fld h 344 8, scratch := fld h 352 32,
    barriers := fld h 384 8, queues := fld h 392 8, check := (fld h 400 8).testBit 0, priv := fld h 416 32,
    walk := fld h 448 32, consts := BitVec.ofNat 16 (fld h 480 16) }

/-- The lowest feature bit that the device lacks (R46): CAPS0 is 0xFFF, the other CAPS registers 0. -/
def missingFeature (h : Nat) : Option Nat :=
  (List.range 128).find? (fun i => (fld h 64 128).testBit i && decide (12 ≤ i))

/-- The ranges [a, a + n) and [b, b + m) overlap. -/
def overlap (a n b m : Nat) : Bool := decide (a < b + m) && decide (b < a + n)

/-- The end of the last constant bank bound under CONSTS (R468), 0 where none is. -/
def constEnd (k : Kernel) : Nat :=
  if k.consts = 0 then 0
  else constBase k + 65536 * ((List.range 16).filter k.consts.toNat.testBit).length

/-- The lowest offset of the conditions that hold. -/
def lowestOf (l : List (Bool × Nat)) : Option Nat :=
  ((l.filter (·.1)).map (·.2)).foldl (fun r o => match r with | none => some o | some p => some (min p o)) none

/-- The conditions of R44 with the offsets that R46 charges. -/
def headerBad (h : Nat) : Option Nat :=
  let k := kernelOf 0 h
  let bow := k.bLen != 0
  let len := fld h 512 32
  lowestOf [(fld h 0 32 != 0x31564D55, 0x00), (fld h 32 16 != 1, 0x04), (fld h 48 16 != 128, 0x06),
    (k.gOff % 128 != 0 || decide (k.gOff < 128), 0x18), (k.gLen == 0 || k.gLen % 12 != 0, 0x1C),
    (k.bOff % 128 != 0 || (!bow && k.bOff != 0) || (bow && decide (k.bOff < 128)) ||
      (bow && overlap k.gOff k.gLen k.bOff k.bLen), 0x20),
    (k.bLen % 12 != 0, 0x24), (decide (k.vregs < 8) || decide (256 < k.vregs) || k.vregs % 8 != 0, 0x28),
    (decide (32 < k.shade), 0x2A), (decide (64 < k.spill), 0x2B), (k.scratch % 128 != 0 || decide (524288 < k.scratch), 0x2C),
    (decide (64 < k.barriers) || (bow && k.barriers == 0), 0x30), (decide (16 < k.queues), 0x31), (fld h 401 7 != 0, 0x32),
    (fld h 408 8 != 0, 0x33), (k.priv % 4 != 0, 0x34), (k.walk % 1024 != 0, 0x38), (fld h 496 8 != 0, 0x3E),
    (fld h 504 8 != 0, 0x3F),
    (len % 128 != 0 || decide (len < k.gOff + k.gLen) || decide (len < k.bOff + k.bLen) || decide (len < constEnd k), 0x40)] |>.orElse
  (fun _ => ((List.range 60).find? (fun i => fld h (8 * (0x44 + i)) 8 != 0)).map (0x44 + ·))

/-! ### Cards that end (R412, R416) -/

/-- A launch is complete and leaves INFLIGHT (R411). -/
def closeLaunch (s : State) (l : Nat) (x : Launch) : State :=
  let p := partOf s x.part
  { setPart s x.part { p with launches := p.launches.filter (· != l) } with launches := s.launches.erase l }

/-- A fault of a device access terminates the context (R414, R416). -/
def devFault (s : State) (ctx code level addr : Nat) : State := raiseFor s (devRec s ctx code level addr)

/-- LDONE is decremented once every card of the launch has completed or failed (R412, R416). -/
def payLaunch (s : State) (l : Nat) : State :=
  match s.launches.get? l with
  | none => s
  | some x =>
    if x.dead || x.waits.isSome || !x.read || decide (x.ended < x.ncards) then s
    else if x.ldone = 0 then closeLaunch s l x
    else match devWrite s x.ctx x.ldone permRW (fun v => (v + 2 ^ 64 - 1) % 2 ^ 64) with
      | .ok _ s1 => closeLaunch s1 l x
      | .nonres base n s1 => devPark (modLaunch s1 l (fun x => { x with waits := some (base, n) })) x.part x.ctx x.ldone
      | .fault code level s1 => devFault (modLaunch s1 l (fun x => { x with dead := true })) x.ctx code level x.ldone

/-- A card has completed or failed. -/
def endCard (s : State) (k : Nat) (c : Card) : State :=
  let s1 := { s with cards := s.cards.erase k }
  match c.launch with
  | none => s1
  | some l => payLaunch (modLaunch s1 l (fun x => { x with ended := x.ended + 1 })) l

/-- The failure word is written to DEP0 (R414). -/
def payFail (s : State) (k : Nat) (c : Card) (w : Nat) : State :=
  let va := (c.va + 0x20) % 2 ^ 64
  match devWrite s c.ctx va permW (fun _ => w) with
  | .ok _ s1 => endCard s1 k c
  | .nonres base n s1 => devPark (modCard s1 k (fun c => { c with waits := some (base, n) })) c.part c.ctx va
  | .fault code level s1 => devFault s1 c.ctx code level va

/-- DONE is decremented: the card's completion (R416). -/
def payDone (s : State) (k : Nat) (c : Card) : State :=
  if c.done = 0 then endCard s k c
  else match devWrite s c.ctx c.done permRW (fun v => (v + 2 ^ 64 - 1) % 2 ^ 64) with
    | .ok _ s1 => endCard s1 k c
    | .nonres base n s1 =>
      devPark (modCard s1 k (fun c => { c with waits := some (base, n), doneOwed := true })) c.part c.ctx c.done
    | .fault code level s1 => devFault (modCard s1 k (fun c => { c with doneOwed := true })) c.ctx code level c.done

/-! ### The front end (R411, R412) -/

/-- A card enters the wait list (R412, R418). -/
def enterCard (s : State) (part ctx va prio : Nat) (launch target : Option Nat) : State :=
  let k := s.nextCard
  let c : Card :=
    { ctx := ctx, part := part, va := va, prio := prio, launch := launch, target := target, taken := false, waits := none, snap := none,
      failOwed := none, doneOwed := false, args := 0, done := 0, blocks := 0, groups := 0, c := 0, kern := Kernel.empty,
      blocksLeft := 0 }
  let p := partOf s part
  { setPart s part { p with waitList := p.waitList ++ [k] } with cards := s.cards.insert k c, nextCard := k + 1 }

/-- A submission or a record is rejected (R411, R412). -/
def rejectSubmit (s : State) (part : Nat) : State := setPart s part { partOf s part with reject := true }

/-- A launch record breaks the limits of R412. -/
def recordBad (v : Nat) : Bool :=
  decide (3 < fld v 0 8) || fld v 8 24 != 0 || fld v 32 32 == 0 || decide (65536 < fld v 32 32) || fld v 128 64 % 8 != 0 ||
  fld v 192 320 != 0

/-- The front end reads a launch record (R412). -/
def readRecord (s : State) (part l : Nat) (x : Launch) : State :=
  match devRead s x.ctx x.va 64 with
  | .nonres base n s1 => devPark (modLaunch s1 l (fun x => { x with waits := some (base, n) })) part x.ctx x.va
  | .fault code level s1 =>
    if code = codePoison then devFault (modLaunch s1 l (fun x => { x with dead := true })) x.ctx code level x.va
    else rejectSubmit (closeLaunch s1 l x) part
  | .ok v s1 =>
    if recordBad v then rejectSubmit (closeLaunch s1 l x) part
    else modLaunch s1 l (fun x => { x with
      read := true, prio := fld v 0 8, ncards := fld v 32 32, cards := fld v 64 64, ldone := fld v 128 64 })

/-- The front end reads the next card address of a launch and enters the card (R412). -/
def readCard (s : State) (part l : Nat) (x : Launch) : State :=
  let va := (x.cards + 8 * x.entered) % 2 ^ 64
  match devRead s x.ctx va 8 with
  | .nonres base n s1 => devPark (modLaunch s1 l (fun x => { x with waits := some (base, n) })) part x.ctx va
  | .fault code level s1 => devFault (modLaunch s1 l (fun x => { x with dead := true })) x.ctx code level va
  | .ok v s1 => enterCard (modLaunch s1 l (fun x => { x with entered := x.entered + 1 })) part x.ctx v x.prio (some l) none

/-- The submission that the front end serves: the oldest with something left to read (R412). -/
def feHead (s : State) (part : Nat) : Option (Nat × Launch) :=
  (partOf s part).launches.findSome? (fun l => (s.launches.get? l).bind (fun x =>
    if !x.read || decide (x.entered < x.ncards) then some (l, x) else none))

/-- The front end reads on until it waits, the wait list is full or nothing is left (R412). -/
def feRun : Nat → State → Nat → State
  | 0, s, _ => s
  | n + 1, s, part =>
    match feHead s part with
    | none => s
    | some (l, x) =>
      if x.waits.isSome || x.dead then s
      else if !x.read then feRun n (readRecord s part l x) part
      else if 4096 ≤ (partOf s part).waitList.length then s
      else feRun n (readCard s part l x) part

/-- Steps that are enough for a front end between two waits: 4,096 cards and 64 records. -/
def feFuel : Nat := 4224

/-- A write of FE_SUBMITn (R411); it does nothing while the dies are held in reset (R455). A submission after the termination of
its context is that of the next context of this ID. -/
def feSubmit (s : State) (part : Nat) (v : W64) : State :=
  let p := partOf s part
  let d := descOf s p.feCtx
  if 72 ≤ part ∨ s.released = none then s
  else if p.v && poisoned s (descLoc s p.feCtx) then
    devFault (rejectSubmit s part) p.feCtx codePoison (lineAddr (descLoc s p.feCtx)) (descLoc s p.feCtx % 2 ^ 52)
  else if v.toNat % 64 ≠ 0 ∨ 2 ^ 57 ≤ v.toNat ∨ 64 ≤ p.launches.length ∨ !p.v ∨ !d.v ∨ d.part ≠ part then
    rejectSubmit s part
  else
    let s0 := if (ctxOf s p.feCtx).terminated then setCtx s p.feCtx CtxDev.reset else s
    let x : Launch :=
      { ctx := p.feCtx, part := part, va := v.toNat, read := false, prio := 0, ncards := 0, cards := 0, ldone := 0, entered := 0,
        ended := 0, waits := none, dead := false }
    let s1 := { setPart s0 part { p with launches := p.launches ++ [s.nextLaunch] } with
      launches := s0.launches.insert s.nextLaunch x, nextLaunch := s.nextLaunch + 1 }
    feRun feFuel s1 part

/-- FE_SUBMIT: a launch record is submitted to a front end (R411, R412). -/
def execFeSubmit (part : Nat) (v : W64) (s : State) : Host.Outcome State Fault Refusal := .next (feSubmit s part v)

/-! ### Examination of a card (R414, R415) -/

/-- The fields of a card against R413: the lowest offset that fails. -/
def cardBad (v : Nat) (posted : Bool) : Option Nat :=
  let blocks := fld v 192 32
  let c := fld v 232 8
  lowestOf [(fld v 0 64 % 128 != 0, 0x00), (fld v 128 64 % 8 != 0, 0x10),
    (blocks == 0 || decide (2 ^ 24 < blocks) || (decide (1 ≤ c) && decide (c ≤ 4) && blocks % c != 0), 0x18),
    (fld v 224 8 == 0 || decide (64 < fld v 224 8), 0x1C), (c == 0 || decide (4 < c), 0x1D),
    (posted && decide (3 < fld v 240 8), 0x1E), (fld v 248 8 != 0, 0x1F)]

/-- The failure word (R414). -/
def failWord (reason detail : Nat) : Nat := 2 ^ 63 + reason * 2 ^ 56 + detail % 65536

/-- Checks 1 and 2 of R414, on the card's snapshot and the descriptor of its context: the failure word. -/
def earlyChecks (s : State) (c : Card) (v : Nat) : Option Nat :=
  match cardBad v c.launch.isNone with
  | some o => some (failWord 3 o)
  | none => (descBad s c.ctx (descOf s c.ctx)).map (failWord 4)

/-- Checks 3 to 6 of R414, on the snapshot and the kernel header: the failure word. -/
def lateChecks (s : State) (c : Card) (v h : Nat) : Option Nat :=
  let d := descOf s c.ctx
  let k := kernelOf 0 h
  match missingFeature h with
  | some b => some (failWord 1 b)
  | none => match headerBad h with
    | some o => some (failWord 2 o)
    | none =>
      if needsHarp k && !harpServed s (partOf s c.part) then some (failWord 5 (if k.features.testBit 1 then 1 else 2))
      else if d.privStride < 8 * frameQ k then some (failWord 4 0x20)
      else if d.saveBlocks < fld v 232 8 then some (failWord 3 0x1D)
      else none

/-- The cluster after one in a partition, wrapping from its last to CBASE (R417). -/
def nextCluster (p : Part) (c : Nat) : Nat := if lastCluster p ≤ c then p.cbase else c + 1

/-- The clusters of the first `n` front-end chords from a pointer on, and the pointer after them (R417). -/
def spread (p : Part) : Nat → Nat → List Nat × Nat
  | 0, c => ([], c)
  | n + 1, c => let r := spread p n (nextCluster p c); (c :: r.1, r.2)

/-- The chords of a card enter their cluster queues in increasing index (R415, R417). -/
def queueChords (s : State) (k : Nat) (c : Card) : State :=
  let p := partOf s c.part
  let n := c.blocks / c.c
  let r := match c.target with
    | some t => (List.replicate n t, p.rr)
    | none => spread p n p.rr
  let ids := r.1.zipIdx.map (fun (x : Nat × Nat) => (x.1, s.nextChord + x.2))
  let chord : Nat × Nat → Chord := fun x =>
    { card := k, idx := x.2 - s.nextChord, ctx := c.ctx, part := c.part, prio := c.prio, cluster := x.1, n := c.c, st := .queued,
      missing := [], cb0 := Barrier.reset, cb1 := Barrier.reset, cbMap := [], blocksLeft := c.c }
  let q := ids.foldl (fun (q : AMap (List Nat)) x => q.insert x.1 (q.getD x.1 [] ++ [x.2])) p.queues
  { setPart s c.part { p with queues := q, rr := r.2 } with
    chords := ids.foldl (fun (m : AMap Chord) x => m.insert x.2 (chord x)) s.chords, nextChord := s.nextChord + n }

/-- The card leaves the wait list; the front end reads on (R412). -/
def unlistCard (s : State) (k part : Nat) : State :=
  let p := partOf s part
  setPart s part { p with waitList := p.waitList.filter (· != k) }

/-- A card that has passed its checks: its snapshot is kept and its chords are queued (R414, R415). -/
def takeCard (s : State) (k : Nat) (c : Card) (v h : Nat) : State :=
  let c1 := { c with
    taken := true, args := BitVec.ofNat 64 (fld v 64 64), done := fld v 128 64, blocks := fld v 192 32, groups := fld v 224 8,
    c := fld v 232 8, blocksLeft := fld v 192 32, snap := none, kern := kernelOf (fld v 0 64) h,
    prio := if c.launch.isNone then fld v 240 8 else c.prio }
  queueChords (modCard (unlistCard s k c.part) k (fun _ => c1)) k c1

/-- A card that fails a check: it is not placed, and its failure word is owed to DEP0 (R414). -/
def failCard (s : State) (k : Nat) (c : Card) (w : Nat) : State :=
  let c1 := { c with taken := true, failOwed := some w }
  payFail (modCard (unlistCard s k c.part) k (fun _ => c1)) k c1 w

/-- A card waits for a page of a region, with the snapshot that has been read of it. -/
def holdCard (s : State) (k : Nat) (c : Card) (snap : Option Nat) (base n va : Nat) : State :=
  devPark (modCard s k (fun c => { c with waits := some (base, n), snap := snap })) c.part c.ctx va

/-- The kernel header of a placeable card of snapshot `v` is read, and checks 3 to 6 are made (R414). -/
def examineHeader (s : State) (k : Nat) (c : Card) (v : Nat) : State :=
  match devRead s c.ctx (fld v 0 64) 128 with
  | .nonres base n s1 => holdCard s1 k c (some v) base n (fld v 0 64)
  | .fault code level s1 => devFault s1 c.ctx code level (fld v 0 64)
  | .ok h s1 => match lateChecks s1 c v h with
    | some w => failCard s1 k c w
    | none => takeCard s1 k c v h

/-- A waiting card is examined (R414): placeable when its four DEP words read 0, it is read once and checked from that snapshot; one
that has waited for its header's page makes that access alone again. -/
def examineCard (s : State) (k : Nat) (c : Card) : State :=
  match c.snap with
  | some v => examineHeader s k c v
  | none => match devRead s c.ctx c.va 64 with
    | .nonres base n s1 => holdCard s1 k c none base n c.va
    | .fault code level s1 => devFault s1 c.ctx code level c.va
    | .ok v s1 =>
      if fld v 256 256 ≠ 0 then s1
      else match earlyChecks s1 c v with
        | some w => failCard s1 k c w
        | none => examineHeader s1 k c v

/-- CARD_EXAMINE: a waiting card is examined; a failure word or a completion that waited for a page is made (R414, R416).
The front end then reads on (R412). -/
def execCardExamine (card : Nat) (s : State) : Host.Outcome State Fault Refusal :=
  match s.cards.get? card with
  | none => .next s
  | some c =>
    if c.waits.isSome then .next s
    else
      let s1 := match c.failOwed with
        | some w => payFail s card c w
        | none => if c.doneOwed then payDone s card c else if c.taken then s else examineCard s card c
      .next (feRun feFuel s1 c.part)

/-! ### POST (R418) -/

/-- The cluster queue that a POST names (R418). -/
def postCluster (p : Part) (t : PostTarget) (clu : Nat) : Nat :=
  match t with
  | .self => clu
  | .next => nextCluster p clu
  | .prev => if clu ≤ p.cbase then lastCluster p else clu - 1

/-- POST (R418): not ready until ReleaseReady(q, .SYS) holds and the wait list has room. -/
def execPost (t : PostTarget) (i : Insn) (s : State) : Host.Outcome State Fault Refusal :=
  issue (.post t i) i s (fun k s =>
    let va := sbEa k i
    if k.e = 0 then some (finish k i s)
    else if va % 64 ≠ 0 then some (faultLane s k.c codeMisaligned (lowLane k.e % 8) 0 (BitVec.ofNat 64 va))
    else match uniformCheck s k va permRW (fun t s1 => .ok t s1) with
      | .stop s1 => some s1
      | .wait => none
      | .ok _ s1 =>
        let part := (descOf s1 k.p.ctx).part
        let p := partOf s1 part
        if !releaseReady s1 k.c.q .sys || decide (4096 ≤ p.waitList.length) then none
        else some (finish k i (enterCard s1 part k.p.ctx va 0 none (some (postCluster p t (cluOf k.core))))))

end Sys2Proof.Machine
end

