-- ==== Sys2Proof/Machine/Place.lean ====
section
/-!
DEFINITION. Placement, retirement, slices and resumption (spec/08 R176-R182; spec/14 R286, R287, R303; spec/19 R410, R416,
R417, R419, R423).
-/
namespace Sys2Proof.Machine

/-! ### What a core has free (R176-R178) -/

/-- What a resident block takes of its core. -/
structure Use where
  core : Nat
  groups : Nat
  kern : Kernel
  base : Nat
  bars : List Nat
  ques : List Nat
  slots : List Nat
  deriving DecidableEq, Repr

/-- The groups of a block of G that an octant receives, and the bow's slot (R177). -/
def octGroups (g o : Nat) : Nat := ((List.range g).filter (fun (i : Nat) => i % 8 == o)).length
def octSlots (k : Kernel) (g o : Nat) : Nat := octGroups g o + (if k.bLen ≠ 0 ∧ g % 8 = o then 1 else 0)

/-- V (R177). -/
def rowsOf (k : Kernel) : Nat := k.vregs + 8 * ((k.shade + 7) / 8)

def useOf (b : Block) : Use := ⟨b.core, b.groups, b.kern, b.scratchBase, b.barBase, b.queBase, b.slots⟩

/-- The uses of a core by its resident blocks. -/
def usesOf (s : State) (core : Nat) : List Use :=
  (s.blocks.filter (fun (e : Nat × Block) => e.2.resident && e.2.core == core)).map (fun e => useOf e.2)

def sumOf (l : List Nat) : Nat := l.foldl (· + ·) 0

/-- The lowest `m` numbers below `n` that are not taken (R178). -/
def lowestFree (n : Nat) (taken : List Nat) (m : Nat) : Option (List Nat) :=
  let l := ((List.range n).filter (fun (i : Nat) => !taken.contains i)).take m
  if l.length = m then some l else none

/-- The lowest base of a free scratchpad range of `n` bytes (R178). -/
def scratchFree (us : List Use) (n : Nat) : Option Nat :=
  let fits : Nat → Bool := fun a => decide (a + n ≤ 524288) && us.all (fun u => !overlap a n u.base u.kern.scratch)
  ((0 :: us.map (fun u => u.base + u.kern.scratch)).filter fits).foldl
    (fun r a => match r with | none => some a | some b => some (min a b)) none

/-- Some block holds group slot `n` of octant `o`: the party at place `i` of its list, the bow after the groups, is in octant
i mod 8 (R177). -/
def slotHeld (us : List Use) (o n : Nat) : Bool := us.any (fun u => u.slots.zipIdx.any (fun e => e.2 % 8 == o && e.1 == n))

/-- The group slots of a block's `m` parties: each the lowest free one of its octant (R178). -/
def giveSlots (us : List Use) (m : Nat) : List Nat :=
  (List.range m).foldl (fun (l : List Nat) (i : Nat) =>
    let mine : Nat → Bool := fun n => l.zipIdx.any (fun e => e.2 % 8 == i % 8 && e.1 == n)
    l ++ [((List.range 64).find? (fun (n : Nat) => !slotHeld us (i % 8) n && !mine n)).getD 64]) []

/-- The slots and rows of each octant suffice (R176, R177). -/
def octsFit (us : List Use) (k : Kernel) (g : Nat) : Bool :=
  (List.range 8).all (fun (o : Nat) =>
    decide (sumOf (us.map (fun u => octSlots u.kern u.groups o)) + octSlots k g o ≤ 64) &&
    decide (sumOf (us.map (fun u => octGroups u.groups o * rowsOf u.kern)) + octGroups g o * rowsOf k ≤ 4096))

/-- A block on a core, given what is already on it (R177, R178). -/
def seatOn (s : State) (extra : List Use) (core : Nat) (k : Kernel) (g : Nat) : Option Use :=
  let us := usesOf s core ++ extra.filter (fun u => u.core == core)
  let harp := !needsHarp k || ((coreOf s core).harp != .offline && us.all (fun u => !needsHarp u.kern))
  if us.length < 64 ∧ octsFit us k g ∧ harp then
    match scratchFree us k.scratch, lowestFree 64 (us.flatMap (·.bars)) k.barriers,
        lowestFree 16 (us.flatMap (·.ques)) k.queues with
    | some a, some bs, some qs => some ⟨core, g, k, a, bs, qs, giveSlots us (g + (if k.bLen = 0 then 0 else 1))⟩
    | _, _, _ => none
  else none

/-- The blocks of a chord, each to the lowest-indexed core of the cluster that can take it (R286). -/
def seatChord (s : State) (clu : Nat) (k : Kernel) (g : Nat) : Nat → List Use → Option (List Use)
  | 0, _ => some []
  | n + 1, extra =>
    match (List.range 4).findSome? (fun (i : Nat) => seatOn s extra (4 * clu + i) k g) with
    | some u => (seatChord s clu k g n (u :: extra)).map (fun l => u :: l)
    | none => none

/-- The two chord barriers of a chord of two blocks or more: the lowest free of the cluster's eight (R287). -/
def chordBars (s : State) (clu n : Nat) : Option (List Nat) :=
  if n < 2 then some []
  else lowestFree 8 ((s.chords.filter (fun (e : Nat × Chord) => e.2.st == .resident && e.2.cluster == clu)).flatMap
    (fun e => e.2.cbMap)) 2

/-! ### Which context runs, and which chord is next (R410, R417, R419) -/

/-- A chord that stands off its core may resume (R303, R419, R427). -/
def resumable (s : State) (cid : Nat) (c : Chord) : Bool :=
  c.st == .saved || (c.st == .parked && c.missing.isEmpty && !fqHolds s cid)

/-- The chords of a partition that wait for a core. -/
def waitingChords (s : State) (part : Nat) : List (Nat × Chord) :=
  s.chords.filter (fun (e : Nat × Chord) => e.2.part == part && (e.2.st == .queued || resumable s e.1 e.2))

/-- The context holds a resident block. -/
def hasResident (s : State) (ctx : Nat) : Bool := s.chords.any (fun e => e.2.ctx == ctx && e.2.st == .resident)

/-- The next context of a partition (R419): the highest waiting priority; among equals the next ID after `last`. -/
def nextCtx (s : State) (part : Nat) (last : Option Nat) : Option Nat :=
  let w := waitingChords s part
  let top := (w.map (fun e => e.2.prio)).foldl max 0
  let ids := (w.filter (fun e => e.2.prio == top)).map (fun e => e.2.ctx)
  let low : List Nat → Option Nat := fun l =>
    l.foldl (fun r a => match r with | none => some a | some b => some (min a b)) none
  match last with
  | some k => (low (ids.filter (fun i => decide (k < i)))).orElse (fun _ => low ids)
  | none => low ids

/-- A chord of the context waits for a core. -/
def hasWaiting (s : State) (part ctx : Nat) : Bool := (waitingChords s part).any (fun e => e.2.ctx == ctx)

/-- The state without the chords of a context. -/
def withoutCtx (s : State) (ctx : Nat) : State := { s with chords := s.chords.filter (fun (e : Nat × Chord) => e.2.ctx != ctx) }

/-- The blocks of a context that have been placed are all parked, and none may resume (R419). -/
def allParked (s : State) (ctx : Nat) : Bool :=
  let placed := s.chords.filter (fun (e : Nat × Chord) => e.2.ctx == ctx && e.2.st != .queued)
  !placed.isEmpty && placed.all (fun e => e.2.st == .parked && !resumable s e.1 e.2)

/-- The context whose chords may be placed now: the running one while it has a resident block or has still to place the
first chord of its slice, else the next, since it has yielded (R419): another one, where its own blocks are all parked and another
waits. -/
def runner (s : State) (part : Nat) : Option Nat :=
  match (partOf s part).running with
  | some k =>
    if hasResident s k || ((partOf s part).fresh && hasWaiting s part k) then some k
    else (if allParked s k then nextCtx (withoutCtx s k) part (some k) else none).orElse (fun _ => nextCtx s part (some k))
  | none => nextCtx s part none

/-- The head of a cluster queue for a context: the first chord of its highest class (R417). -/
def headChord (s : State) (p : Part) (clu ctx : Nat) : Option Nat :=
  let l := (p.queues.getD clu []).filterMap (fun c => (s.chords.get? c).map (fun x => (c, x)))
  let mine := l.filter (fun e => e.2.ctx == ctx)
  let top := (mine.map (fun e => e.2.prio)).foldl max 0
  (mine.find? (fun e => e.2.prio == top)).map (fun e => e.1)

/-- The blocks of a context that are placed and not retired (R410). -/
def ctxBlocks (s : State) (ctx : Nat) : List (Nat × Block) :=
  s.blocks.filter (fun (e : Nat × Block) => match s.chords.get? (cidOf e.1) with | some c => c.ctx == ctx | none => false)

/-- A chord of a context is placed: the partition runs the context (R419). -/
def runContext (s : State) (part ctx : Nat) : State :=
  let p := partOf s part
  setPart s part { p with
    running := some ctx, fresh := false, sliceStart := if p.running = some ctx then p.sliceStart else delivered s (4 * p.cbase) }

/-- A chord leaves every queue of its partition. -/
def unqueue (s : State) (part cid : Nat) : State :=
  let p := partOf s part
  setPart s part { p with queues := p.queues.map (fun (e : Nat × List Nat) => (e.1, e.2.filter (fun c => c != cid))) }

/-! ### Placement (R47, R49, R179, R181, R286, R336, R409) -/

/-- The lowest PARTY that no live party of the context holds (R336). -/
def freeNum (s : State) (ctx : Nat) : Nat :=
  let used := (s.parties.filter (fun (e : Nat × Party) => e.2.ctx == ctx && !e.2.retired)).map (fun e => e.2.party)
  ((List.range (used.length + 1)).find? (fun (n : Nat) => !used.contains n)).getD used.length

/-- A party at its start (R47, R49, R181). -/
def newParty (bow : Bool) (g ctx num : Nat) (args : W64) (k : Kernel) : Party :=
  let live : Mask := if bow then 1 else 255
  let pc := BitVec.ofNat 64 (k.image + if bow then k.bOff else k.gOff)
  { bow := bow, grpid := g, ctx := ctx, party := num, live := live, v := [], s := AMap.put [] 0 args 0, p := [], ff := [],
    slot0 := some ⟨live, live, pc, none, none, 0, .run⟩, slot1 := none, spill := [], splits := [], tokens := 0,
    nextIssue := 0, pend := [], serial := 0, lastSlot := true, lastMem := none, yieldHint := false, yielded := [], check := k.check,
    ctr := ⟨0, 0, 0, 0, 0⟩, held := [heldFree, heldFree, heldFree, heldFree], inb := 0, buf := [], sbuf := [], bnd := [], scs := [],
    hG := [], hL := [], priv := [], gen := 0, copies := [], pubs := [], pages := [], stopped := false, retired := false }

/-- A party enters its block, with Refresh at the SYS point (R415), on the paths of its code and of plane lines as well, so
that it sees what was written before the launch there too (R42, R284). -/
def addParty (b : Nat) (c : Card) (s : State) (g : Nat) : State :=
  let q := 65 * b + g
  let s1 := refresh (setParty s q (newParty (g == 64) g c.ctx (freeNum s c.ctx) c.args c.kern)) q .sys
  refreshPath (refreshPath s1 q .ro) q (.plane 0)

/-- The lowest save record that no block of the context uses (R422). -/
def freeSave (s : State) (ctx : Nat) : Nat :=
  let used := (ctxBlocks s ctx).map (fun e => e.2.save)
  ((List.range (used.length + 1)).find? (fun (n : Nat) => !used.contains n)).getD used.length

/-- Block `i` of a chord takes its place (R179, R183). -/
def placeBlock (cid : Nat) (ch : Chord) (c : Card) (s : State) (i : Nat) (u : Use) : State :=
  let b := 4 * cid + i
  let blk : Block :=
    { core := u.core, blkid := ch.idx * ch.n + i, chordid := ch.idx, cardVa := c.va, groups := c.groups, age := s.nextAge,
      resident := true, save := freeSave s ch.ctx, pts := 0, scratchBase := u.base, barBase := u.bars, queBase := u.ques,
      slots := u.slots, kern := c.kern, sp := [], hB := [], staged := [], stageBase := 0,
      bars := [], queues := [], harp := if needsHarp c.kern then some Harp.empty else none }
  let s1 := { setBlock s b blk with nextAge := s.nextAge + 1 }
  ((List.range c.groups) ++ (if c.kern.bLen = 0 then [] else [64])).foldl (addParty b c) s1

/-- A chord takes its place on a cluster. -/
def placeChord (s : State) (cid : Nat) (ch : Chord) (c : Card) (us : List Use) (cbs : List Nat) : State :=
  let s1 := modChord (unqueue (runContext s ch.part ch.ctx) ch.part cid) cid (fun x => { x with st := .resident, cbMap := cbs })
  us.zipIdx.foldl (fun s e => placeBlock cid ch c s e.2 e.1) s1

/-! ### Resumption (R303, R315, R326, R351, R420, R423) -/

/-- The status that a LOCK or TRYLOCK of a halted party has received, in its packet (R351, R420). -/
def packetStatus (s : State) (q n : Nat) : Option LockStatus := s.lockStats.find? (fun t => t.n == q * 2 ^ 32 + n)

/-- The packets of a party run in issue order (R420, R423): reads are made again, and the bounds that they raise stand with their
results; arithmetic computes and writes, results that had come are written once, where no older result has still to write their
registers. -/
def runPackets (s : State) (q : Nat) : List Pend → ReadRes Unit
  | [] => .ok () s
  | d :: l =>
    match d.kind, s.parties.get? q, blockOf s q with
    | .load req, some p, some b =>
      (match reissue s ⟨q, false, p.live, d.iaddr, d.word, []⟩ p b req with
       | .ok ws s1 =>
         let h := holdReads s s1 q
         let redo : Pend → Pend := fun e => if e.n == d.n then { e with writes := ws, reads := h.1 } else e
         runPackets (modParty h.2 q (fun p => { p with pend := p.pend.map redo })) q l
       | .stop s1 => .stop s1
       | .wait => .wait)
    | .compute, _, _ | .deliver, _, _ => runPackets (landPend s q d.n) q l
    | .await, _, _ =>
      (match packetStatus s q d.n with
       | some t => runPackets (if statusFree s t then takeStatus { s with lockStats := s.lockStats.filter (fun u => u.n != t.n) } t else s) q l
       | none => runPackets s q l)
    | _, _, _ => runPackets s q l

/-- One party is restored: the stall that remained, Refresh at .PKG, its lock requests (R326, R351, R423). -/
def restoreParty (s : State) (q : Nat) : State :=
  match s.parties.get? q with
  | none => s
  | some p =>
    let s1 := refresh (setParty s q { p with nextIssue := partyClock s q + p.nextIssue }) q .pkg
    if p.retired then s1 else rejoinLocks s1 q

/-- The packets of parties run, one party after another; a fault of one leaves the others theirs, and a park halts them all, with
the packets that have still to run (R420, R423). -/
def runAll (s : State) : List Nat → ReadRes Unit
  | [] => .ok () s
  | q :: l =>
    match s.parties.get? q with
    | none => runAll s l
    | some p =>
      if p.retired then runAll s l
      else match runPackets s q p.pend with
        | .ok _ s1 => runAll s1 l
        | .stop s1 => if (blockOf s1 q).any (fun b => b.resident) then runAll s1 l else .stop s1
        | .wait => .wait

/-- The parties of a chord resume: each is restored, then their packets run. -/
def resumeParties (s : State) (qs : List Nat) : ReadRes Unit := runAll (qs.foldl restoreParty s) qs

/-- A block is restored on a core (R315, R423). -/
def restoreBlock (cid : Nat) (s : State) (b : Nat) (u : Use) : State :=
  match s.blocks.get? b with
  | none => s
  | some x =>
    let core := coreOf s u.core
    let s1 := setCore s u.core { core with pts := max core.pts x.pts }
    let y := { x with core := u.core, scratchBase := u.base, barBase := u.bars, queBase := u.ques, slots := u.slots, resident := true, age := s.nextAge }
    if cidOf b = cid then { setBlock s1 b y with nextAge := s.nextAge + 1 } else s

/-- The place that a chord can take on a cluster as a whole at this moment (R286, R287). -/
def seatsFor (s : State) (clu : Nat) (ch : Chord) (k : Kernel) (g n : Nat) : Option (List Use × List Nat) :=
  match seatChord s clu k g n [], chordBars s clu ch.n with
  | some us, some cbs => some (us, cbs)
  | _, _ => none

/-- A chord resumes on a cluster. -/
def resumeOn (s : State) (cid clu : Nat) (ch : Chord) (us : List Use) (cbs : List Nat) : ReadRes Unit :=
  let s1 := modChord (unqueue (runContext s ch.part ch.ctx) ch.part cid) cid
    (fun x => { x with st := .resident, cbMap := cbs, cluster := clu })
  let s2 := ((chordBlocks s cid).zip us).foldl (fun s e => restoreBlock cid s e.1 e.2) s1
  resumeParties s2 (chordLive s2 cid)

/-- The kernel and the groups of a chord's blocks; those that have retired do not come back. -/
def chordShape (s : State) (cid : Nat) : Option (Kernel × Nat × Nat) :=
  match (chordBlocks s cid).findSome? (fun b => s.blocks.get? b) with
  | some x => some (x.kern, x.groups, (chordBlocks s cid).length)
  | none => none

/-- The clusters of a partition from `c` on, wrapping from the last to CBASE (R417). -/
def clustersFrom (p : Part) (c : Nat) : List Nat :=
  let l := partClusters p
  l.filter (fun i => decide (c ≤ i)) ++ l.filter (fun i => decide (i < c))

/-- The chord enters the queue of the cluster it left, ahead of every chord of its class not yet placed (R417). -/
def queueAhead (s : State) (cid : Nat) (ch : Chord) : State :=
  let p := partOf s ch.part
  let l := p.queues.getD ch.cluster []
  let behind : Nat → Bool := fun c => match s.chords.get? c with | some x => x.prio == ch.prio && x.st == .queued | none => false
  let l1 := l.takeWhile (fun c => !behind c) ++ [cid] ++ l.dropWhile (fun c => !behind c)
  setPart s ch.part { p with queues := p.queues.insert ch.cluster l1 }

def queuedSomewhere (p : Part) (cid : Nat) : Bool := p.queues.any (fun e => e.2.contains cid)

/-- RESUME: a switched-out or parked chord of the context that runs is offered to the clusters of its partition (R303, R417,
R423). -/
def execResume (chord : Nat) (s : State) : Host.Outcome State Fault Refusal :=
  match s.chords.get? chord with
  | none => .next s
  | some ch =>
    let p := partOf s ch.part
    if !resumable s chord ch || queuedSomewhere p chord || runner s ch.part != some ch.ctx then .next s
    else match chordShape s chord with
      | none => .next s
      | some (k, g, n) =>
        match (clustersFrom p ch.cluster).findSome? (fun c => (seatsFor s c ch k g n).map (fun x => (c, x))) with
        | none => .next (queueAhead s chord ch)
        | some (c, us, cbs) => match resumeOn s chord c ch us cbs with
          | .ok _ s1 => .next s1
          | .stop s1 => .next s1
          | .wait => .next s

/-- CHORD_PLACE: the chord at the head of its cluster queue is placed whole, where it can be (R177-R181, R286, R410, R417). -/
def execChordPlace (chord : Nat) (s : State) : Host.Outcome State Fault Refusal :=
  match (if s.released.isSome then s.chords.get? chord else none) with
  | none => .next s
  | some ch =>
    let p := partOf s ch.part
    if runner s ch.part != some ch.ctx || headChord s p ch.cluster ch.ctx != some chord || !(partClusters p).contains ch.cluster
    then .next s
    else if ch.st = .queued then
      match s.cards.get? ch.card with
      | none => .next s
      | some c =>
        if (descOf s ch.ctx).saveBlocks < (ctxBlocks s ch.ctx).length + ch.n then .next s
        else match seatsFor s ch.cluster ch c.kern c.groups ch.n with
          | some (us, cbs) => .next (placeChord s chord ch c us cbs)
          | none => .next s
    else if !resumable s chord ch then .next s
    else match chordShape s chord with
      | none => .next s
      | some (k, g, n) => match seatsFor s ch.cluster ch k g n with
        | none => .next s
        | some (us, cbs) => match resumeOn s chord ch.cluster ch us cbs with
          | .ok _ s1 => .next s1
          | .stop s1 => .next s1
          | .wait => .next s

/-! ### Retirement (R48, R179, R182, R287, R416) -/

/-- Nothing of a retired party is left to do (R48, R416); an outstanding PAGEREQ is abandoned. -/
def partyDone (s : State) (q : Nat) : Bool :=
  match s.parties.get? q with
  | none => true
  | some p =>
    p.retired && p.copies.isEmpty && p.pubs.isEmpty && p.sbuf.isEmpty && releaseReady s q .sys &&
    !lockOutstanding s q (2 ^ 32) && !s.cols.any (fun c => c.ranks.any (fun r => r.q == some q && !r.closed))

/-- The parties and the block are gone. -/
def removeBlock (s : State) (b : Nat) : State :=
  let own : Nat → Bool := fun q => bidOf q == b
  let keep : Point → Bool := fun pt => match pt with | .grp q => !own q | _ => true
  { s with parties := s.parties.filter (fun (e : Nat × Party) => !own e.1), blocks := s.blocks.erase b,
           vis := s.vis.filter (fun e => keep e.1) }

/-- BLOCK_RETIRE: a block whose parties have all retired, and whose accesses are all done, frees its resources; with the last
block of a card the card completes (R179, R182, R416). -/
def execBlockRetire (blk : Nat) (s : State) : Host.Outcome State Fault Refusal :=
  match s.blocks.get? blk, s.chords.get? (cidOf blk) with
  | some b, some ch =>
    let ops := match b.harp with | some h => h.ops.isEmpty | none => true
    if !b.resident || !ops || !(blockParties blk).all (partyDone s) then .next s
    else
      let s1 := removeBlock s blk
      let cid := cidOf blk
      let s2 := if ch.blocksLeft ≤ 1 then { s1 with chords := s1.chords.erase cid }
        else modChord s1 cid (fun c => { c with blocksLeft := c.blocksLeft - 1 })
      match s2.cards.get? ch.card with
      | none => .next s2
      | some c =>
        let c1 := { c with blocksLeft := c.blocksLeft - 1 }
        let s3 := { s2 with cards := s2.cards.insert ch.card c1 }
        .next (feRun feFuel (if c1.blocksLeft = 0 then payDone s3 ch.card c1 else s3) ch.part)
  | _, _ => .next s

/-! ### Slices (R419) -/

/-- SLICE (R408). -/
def sliceOf (s : State) (ctx : Nat) : Nat := let n := (descOf s ctx).slice; if n = 0 then 2 ^ 22 else n

/-- A chord of the running context is switched out at the end of its slice (R420). -/
def sliceOut (s : State) (cid : Nat) : State :=
  switchOut (haltChord s cid) cid .saved

/-- SLICE_END: the slice counter has reached SLICE (R419). -/
def execSliceEnd (part : Nat) (s : State) : Host.Outcome State Fault Refusal :=
  let p := partOf s part
  match p.running with
  | none => .next s
  | some k =>
    let now := delivered s (4 * p.cbase)
    if now - p.sliceStart < sliceOf s k then .next s
    else
      let others := (waitingChords s part).any (fun e => e.2.ctx != k)
      let other := nextCtx (withoutCtx s k) part (some k)
      match others, other with
      | true, some n =>
        let mine := (s.chords.filter (fun (e : Nat × Chord) => e.2.ctx == k && e.2.st == .resident)).map (fun e => e.1)
        let s1 := mine.foldl sliceOut s
        .next (setPart s1 part { partOf s1 part with running := some n, sliceStart := now, fresh := true })
      | _, _ => .next (setPart s part { p with sliceStart := now })

end Sys2Proof.Machine
end

