-- ==== Sys2Proof/Machine/Terminate.lean ====
section
/-!
DEFINITION. The termination of a context (spec/20 R429; spec/16 R353; spec/18 R394; spec/21 R441), the advance of time up to
which it must have come, and the blocks that no Harp can serve (spec/11 R259, R263).
-/
namespace Sys2Proof.Machine

/-! ### The record (R429) -/

/-- The candidate that is recorded: the earliest TICKS, and among equals the lowest CORE. -/
def pickCand (l : List FaultRec) : Option FaultRec :=
  l.foldl (fun b r => match b with
    | none => some r
    | some x => if r.ticks < x.ticks ∨ (r.ticks = x.ticks ∧ r.core < x.core) then some r else some x) none

/-! ### The parts of a termination -/

/-- The combining entries of a context drain (R394). -/
def drainCombOf (s : State) (out : CombEntry → Bool) : State :=
  s.clusters.foldl (fun s e =>
    let ks := (clusterOf s e.1).comb.filter out
    let s1 := ks.foldl drainEntry s
    let cl := clusterOf s1 e.1
    setCluster s1 e.1 { cl with comb := cl.comb.filter (fun k => !out k) }) s

/-- The stores that a party has made to a line are performed and written to the home slice (R353). -/
def lineHome (s : State) (q line : Nat) : State :=
  match s.parties.get? q with
  | none => s
  | some p =>
    let on : BufEntry → Bool := fun e => e.kind == .store && e.cells.any (fun c => lineOf c.1 == line)
    let s1 := (p.buf.filter on).foldl (fun s e => performEntry (dropEntry s q e.n) q e) s
    match s1.parties.get? q with
    | none => s1
    | some p1 => (boundsOf p1).foldl (fun s e =>
        if e.1 % 4 = 0 ∧ lineOf (e.1 / 4) = line then reach s q .pkg (e.1 / 4) e.2 else s) s1

/-- The lines locked by parties of a context go home, and the locks are released poisoned (R353). -/
def endLocks (s : State) (ctx : Nat) : State :=
  let held := s.locks.filterMap (fun (e : Nat × LockRec) => match e.2.holder with
    | some g => if g % 4096 = ctx then some (e.2.holderQ, e.1) else none
    | none => none)
  terminateLocks (held.foldl (fun s e => lineHome s e.1 e.2) s) ctx

/-- The parties, blocks and chords of a context are gone; nothing is saved (R429). -/
def dropChords (s : State) (ctx : Nat) : State :=
  let mine := (s.chords.filter (fun (e : Nat × Chord) => e.2.ctx == ctx)).map (fun e => e.1)
  let blocks := mine.flatMap (fun c => chordBlocks s c)
  let s1 := (mine.flatMap (fun c => chordLive s c)).foldl leaveMemSet s
  let s2 := blocks.foldl removeBlock s1
  { s2 with chords := s2.chords.filter (fun (e : Nat × Chord) => e.2.ctx != ctx),
            parts := s2.parts.map (fun (e : Nat × Part) =>
              (e.1, { e.2 with queues := e.2.queues.map (fun (x : Nat × List Nat) => (x.1, x.2.filter (fun c => !mine.contains c))) })) }

/-- Cards and launches of a context are discarded, and the launches leave INFLIGHT; its records that wait in their producers
go with those (R427, R429). -/
def dropCards (s : State) (ctx : Nat) : State :=
  let cs := (s.cards.filter (fun (e : Nat × Card) => e.2.ctx == ctx)).map (fun e => e.1)
  let ls := (s.launches.filter (fun (e : Nat × Launch) => e.2.ctx == ctx)).map (fun e => e.1)
  let cut : Part → Part := fun p =>
    { p with launches := p.launches.filter (fun l => !ls.contains l), waitList := p.waitList.filter (fun c => !cs.contains c),
             fqWait := p.fqWait.filter (fun w => w.1.ctx != ctx),
             running := if p.running = some ctx then none else p.running }
  { s with cards := s.cards.filter (fun (e : Nat × Card) => e.2.ctx != ctx),
           launches := s.launches.filter (fun (e : Nat × Launch) => e.2.ctx != ctx),
           parts := s.parts.map (fun (e : Nat × Part) => (e.1, cut e.2)) }

/-- A key ID is retired (R394): its combining entries drain, its lines leave every cache of the package, the bytes that parties
left in its frames are gone, and its slot receives a fresh key pair, so that nothing written under the old pair can be read
again. -/
def retireKey (s : State) (key : Nat) : State :=
  let s1 := drainCombOf s (fun k => keyOf k.addr == key)
  let s2 := (s1.cores.map (fun e => e.1)).foldl (fun s c =>
    dropRo (dropL1 s c (fun l => l.tr.key == key)) c (fun l => l.key == key || l.ctx == key)) s1
  let mine : Nat → Bool := fun line => match s2.owner.get? line with | some o => o % 4096 == key | none => false
  let cut : CtxDev → CtxDev := fun c => { c with left := c.left.filter (fun (e : Nat × List Byte) => keyOf e.1 != key) }
  { s2 with dieLine := s2.dieLine.filter (fun (e : Nat × DirSt) => !mine (e.1 / 4)),
            sectors := s2.sectors.filter (fun (e : Nat × BitVec 8) => !mine (e.1 / 4)),
            victims := s2.victims.filter (fun v => !mine v.line), sliceBad := s2.sliceBad.filter (fun e => !mine e.1),
            ctxs := s2.ctxs.map (fun (e : Nat × CtxDev) => (e.1, cut e.2)),
            keyGen := s2.keyGen.insert key (s2.keyGen.getD key 0 + 1) }

/-- The termination of context `ctx`, recorded by `r` (R429). -/
def terminateWith (s : State) (ctx : Nat) (r : FaultRec) : State :=
  let part := (descOf s ctx).part
  let s1 := fqPut s part r none
  let s2 := endLocks (drainCombOf s1 (fun k => k.ctx == ctx)) ctx
  let s3 := dropCards (dropChords (abortRanks s2 (fun x => x.ctx == ctx && x.q.isSome)) ctx) ctx
  let s4 := setCtx (retireKey s3 ctx) ctx { terminated := true, cands := [], pinned := [], left := [] }
  feRun feFuel s4 part

/-- A context that has a candidate is terminated. -/
def terminate (s : State) (ctx : Nat) : State :=
  let c := ctxOf s ctx
  match pickCand c.cands with
  | some r => if c.terminated then s else terminateWith s ctx r
  | none => s

/-- CONTEXT_TERMINATION: the termination point of a context that has raised a terminating fault (R429). -/
def execContextTermination (ctx : Nat) (s : State) : Host.Outcome State Fault Refusal := .next (terminate s ctx)

/-! ### Time (R7, R30, R429) -/

/-- The contexts that have a candidate. -/
def faulted (s : State) : List Nat := (s.ctxs.filter (fun (e : Nat × CtxDev) => !e.2.cands.isEmpty && !e.2.terminated)).map (fun e => e.1)

/-- Cycles until tick `t` begins. -/
def untilTick (s : State) (t : Nat) : Nat := (45 * t + 1) / 2 - s.cycle

/-- The contexts with a candidate are terminated at the end of the tick (R429): in its last cycle, or, where their locks and waits
would leave a record out of turn there, as the next one begins (R340). -/
def endTick (s : State) : State :=
  let go : Nat → State := fun n => (faulted s).foldl terminate { s with cycle := s.cycle + n, undone := false }
  let d := untilTick s (ticksOf s.cycle + 1)
  if (faulted s).isEmpty then s else { (if (go (d - 1)).undone then go d else go (d - 1)) with undone := s.undone }

/-- `n` core cycles pass; a context with a candidate is terminated before its tick ends (R429), and results that fall due
land (R30). -/
def advance (s : State) (n : Nat) : State :=
  let s1 := if ticksOf (s.cycle + n) = ticksOf s.cycle then s else endTick s
  settleAll { s1 with cycle := s.cycle + n }

/-! ### Blocks that no Harp can serve (R259, R263) -/

/-- The kernel of a chord. -/
def chordKernel (s : State) (cid : Nat) (ch : Chord) : Kernel :=
  match chordShape s cid with
  | some (k, _, _) => k
  | none => match s.cards.get? ch.card with | some c => c.kern | none => Kernel.empty

/-- A context raises HARP_OFFLINE, once. -/
def raiseOffline (s : State) (ctx : Nat) : State :=
  if (ctxOf s ctx).cands.any (fun r => r.code == codeOffline && r.core == 0xFFFF) then s else raiseFor s (devRec s ctx codeOffline 0 0)

/-- In a partition with no Harp in service, each context with a chord that needs one and stands on no core raises
HARP_OFFLINE (R259, R263). -/
def harpSweep (s : State) : State :=
  if s.cores.all (fun e => e.2.harp != .offline) then s
  else
    let lost : Nat × Chord → Bool := fun e => e.2.st != .resident && needsHarp (chordKernel s e.1 e.2) && !harpServed s (partOf s e.2.part)
    (s.chords.filter lost).foldl (fun s e => raiseOffline s e.2.ctx) s

end Sys2Proof.Machine
end

