-- ==== Sys2Proof/Machine/Directory.lean ====
section
/-!
DEFINITION. The home-die directory's events (spec/18 R379-R388): requests for a line and how a bank serves them, message by
message; write-backs, back-invalidations, splits and merges. What each message does stands in Lines.lean.
-/
namespace Sys2Proof.Machine

/-- The request at the head of a line's queue, under way or taken up now (R382, R386). -/
def serve (s : State) (line : Nat) : Option (State × DirReq × List DirReq) := serveWhen false s line

/-- A die may send a request for a line: it has none under way, and the line is not in its victim buffer. -/
def mayAsk (s : State) (d line : Nat) : Bool :=
  decide (d < 4) && decide (line < 2 ^ 45) && (reqsOf s line).all (fun r => r.d != d) &&
  s.victims.all (fun v => !(v.d == d && v.line == line))

/-- READS: a die asks for a line that it does not hold (R382). -/
def execReadS (d line : Nat) (s : State) : Host.Outcome State Fault Refusal :=
  if mayAsk s d line && heldBy s d line == .i then .next (askHome s line .readS d) else .next s

/-- READM: a die asks for the ownership of a line that it does not hold (R382). -/
def execReadM (d line : Nat) (s : State) : Host.Outcome State Fault Refusal :=
  if mayAsk s d line && heldBy s d line == .i then .next (askHome s line .readM d) else .next s

/-- UPGRADE: a die that holds a line in S or O asks for its ownership (R382, R387). -/
def execUpgrade (d line : Nat) (s : State) : Host.Outcome State Fault Refusal :=
  if mayAsk s d line && (heldBy s d line == .s || heldBy s d line == .o) then .next (askHome s line .upgrade d) else .next s

/-- FWDS: the owner forwards the line to the requester and keeps it read-only (R382, R384). -/
def execFwdS (line : Nat) (s : State) : Host.Outcome State Fault Refusal :=
  match serve s line with
  | none => .next s
  | some (s1, r, l) => match r.fwd with
    | some x => if r.kind = .readS ∧ heldBy s1 x line ≠ .i then .next (fwdSTo s1 line x r l) else .next s
    | none => .next s

/-- FWDM: the owner forwards the line with its ownership and drops it (R382, R384, R385); a die that won the line in the
cycle of a later request makes its access first (R386). -/
def execFwdM (line : Nat) (s : State) : Host.Outcome State Fault Refusal :=
  match serve s line with
  | none => .next s
  | some (s1, r, l) => match r.fwd with
    | some x =>
      if r.kind ≠ .readS ∧ heldBy s1 x line ≠ .i ∧ !waitsAccess s1 line r then .next (fwdMTo s1 line x r l) else .next s
    | none => .next s

/-- INV: a die drops every copy of the line; its acknowledgement is on its way (R384). -/
def execInvMsg (d line : Nat) (s : State) : Host.Outcome State Fault Refusal :=
  match serve s line with
  | none => .next s
  | some (s1, r, l) => if r.toInv.contains d then .next (invAt s1 line d r l) else .next s

/-- MISS: a die that no longer holds the line answers Miss, and the home serves the request from memory (R383). -/
def execMissMsg (line : Nat) (s : State) : Host.Outcome State Fault Refusal :=
  match serve s line with
  | none => .next s
  | some (s1, r, l) => match r.fwd with
    | some x => if heldBy s1 x line = .i then .next (missAt s1 line x r l) else .next s
    | none => .next s

/-- DONE: the requester has its data and every acknowledgement; the states settle, and the next request may be served
(R382). -/
def execDoneMsg (line : Nat) (s : State) : Host.Outcome State Fault Refusal :=
  match serve s line with
  | none => .next s
  | some (s1, r, l) => if answered r && recordFits s1 line r then .next (finishReq s1 line r l) else .next s

/-! ### Write-backs (R385) -/

/-- WBREQ: a die evicts a line that it holds in O or M; the line goes to its victim buffer of 32 (R385). A line in a pinned way of
its home is never evicted there (R405). -/
def execWbReq (d line : Nat) (s : State) : Host.Outcome State Fault Refusal :=
  let h := heldBy s d line
  if mayAsk s d line && (h == .o || h == .m) && !pinnedHere s d line && decide ((s.victims.filter (fun v => v.d == d)).length < 32) then
    .next { s with victims := s.victims ++ [⟨d, line, .asked⟩] }
  else .next s

/-- No request of the line is being served, so that the home may answer a WbReq. -/
def quiet (s : State) (line : Nat) : Bool := (reqsOf s line).all (fun r => !r.served) && !backing s line

/-- A WbReq of the die waits for the home's answer, and the home may give it. -/
def wbAsked (s : State) (d line : Nat) : Bool :=
  s.victims.any (fun v => v.d == d && v.line == line && v.st == .asked) && quiet s line

/-- WBGRANT: the die is still the recorded owner (R385). -/
def execWbGrant (d line : Nat) (s : State) : Host.Outcome State Fault Refusal :=
  if wbAsked s d line && isOwner s d line then .next (setVictim s d line .granted) else .next s

/-- WBCANCEL: the die is the recorded owner no longer, and the buffered line is discarded (R385). -/
def execWbCancel (d line : Nat) (s : State) : Host.Outcome State Fault Refusal :=
  if wbAsked s d line && !isOwner s d line then .next (dropVictim s d line) else .next s

/-- WBDATA: the line is written to memory and the die is recorded as I; dies in S stay S (R385). -/
def execWbData (d line : Nat) (s : State) : Host.Outcome State Fault Refusal :=
  if s.victims.any (fun v => v.d == d && v.line == line && v.st == .granted) then
    match entryOf s line with
    | none => .next s
    | some e => if roomFor s (homeDie s line) (some e) (splitFor line e) then .next (writeBack s d line e (splitFor line e)) else .next s
  else .next s

/-! ### Back-invalidation and merging (R381, R388) -/

/-- The back-invalidation of the entry that covers a line begins, where its set needs the room. -/
def beginBack (s : State) (line : Nat) : State :=
  match entryOf s line with
  | none => s
  | some e => if backing s line || !isChosen s (homeDie s line) e then s else startBack s (homeDie s line) e

/-- BACKINV: a bank evicts an entry: BackInv goes to a die for a line, and the die drops its copies (R388). -/
def execBackInv (d line : Nat) (s : State) : Host.Outcome State Fault Refusal :=
  let s1 := beginBack s line
  match backOf s1 (fun b => b.toSend) d line with
  | some b => .next (backAt s1 d line b)
  | none => .next s1

/-- INVACK: a die acknowledges an invalidation; the data of an O or M line goes to memory (R382, R388). -/
def execInvAck (d line : Nat) (s : State) : Host.Outcome State Fault Refusal :=
  match backOf s (fun b => b.toAck) d line with
  | some b => .next (backAck s d line b)
  | none => match reqsOf s line with
    | r :: l => if r.toAck.contains d then .next (ackFrom s line d r l) else .next s
    | [] => .next s

/-- ENTRY_MERGE: two sibling entries of one state, with no request for 2^16 cycles, become their parent (R381). -/
def execEntryMerge (d base : Nat) (s : State) : Host.Outcome State Fault Refusal :=
  match s.dir.find? (fun e => e.1 == d && e.2.base == base) with
  | none => .next s
  | some (_, a) =>
    let sib := if base / 2 ^ a.k % 2 = 0 then base + 2 ^ a.k else base - 2 ^ a.k
    match s.dir.find? (fun e => e.1 == d && e.2.base == sib && e.2.k == a.k) with
    | none => .next s
    | some (_, b) =>
      let p : DirEntry := { base := min base sib, k := a.k + 1, st := a.st, last := max a.last b.last }
      if a.k < 16 ∧ a.st = b.st ∧ a.last + 65536 ≤ dieClock s d ∧ b.last + 65536 ≤ dieClock s d ∧ entryIdle s a ∧ entryIdle s b ∧
          !backing s (base / 128) ∧ !backing s (sib / 128) then
        .next (swapEntry (swapEntry s d b []) d a [p])
      else .next s

end Sys2Proof.Machine
end

