-- ==== Sys2Proof/Machine/Throttle.lean ====
section
/-!
DEFINITION. The issue throttle (spec/08 R185, R186, R191, R192): the groups that are throttled, the end of an epoch on a core, and
the entry of a group that has been throttled for long.
-/
namespace Sys2Proof.Machine

/-- N after an epoch with a score, under ISSUE_CTL (R185, R191). -/
def nextN (c : Core) (score : Nat) : Nat :=
  match c.mode with
  | 1 => max 8 (min 64 c.fixn)
  | 2 => 64
  | _ => max 8 (64 - 8 * (score / 32))

/-- An order of age on the parties of a core, older first (R184). -/
def ageOf (s : State) (q : Nat) : Nat :=
  match s.parties.get? q, blockOf s q with
  | some p, some b => 65 * b.age + (if p.bow then 0 else p.grpid + 1)
  | _, _ => 0

/-- Insertion by a rising key. -/
def insertBy {α : Type} (f : α → Nat) (a : α) : List α → List α
  | [] => [a]
  | b :: l => if f a ≤ f b then a :: b :: l else b :: insertBy f a l

def sortBy {α : Type} (f : α → Nat) (l : List α) : List α := l.foldr (insertBy f) []

/-- The groups of an octant that may be members: on the core, neither retired nor BLOCKED (R185). -/
def octParties (s : State) (core o : Nat) : List Nat :=
  (s.parties.filter (fun (e : Nat × Party) => match blockOf s e.1 with
    | some b => b.resident && b.core == core && octOf b e.2 == o && !e.2.bow && !e.2.retired && !partyBlocked e.2
    | none => false)).map (fun e => e.1)

/-- An octant at the start of an epoch (R185). -/
def startEpoch (s : State) (core o : Nat) (c : Core) (x : Octant) : Octant :=
  let n := nextN c x.events
  let mem := (sortBy (ageOf s) (octParties s core o)).take n
  { x with n := n, score := x.events, events := 0, mem := if c.mode = 2 then none else some mem,
           thr := if c.mode = 2 then [] else x.thr.filter (fun e => !mem.contains e.1) }

/-- EPOCH_END: 4,096 cycles have passed since the epoch of a core began (R185). -/
def execEpochEnd (core : Nat) (s : State) : Host.Outcome State Fault Refusal :=
  let c := coreOf s core
  if core < 288 ∧ c.epochStart + 4096 ≤ coreClock s core then
    .next (setCore s core { c with
      epochStart := c.epochStart + 4096, octs := c.octs.zipIdx.map (fun e => startEpoch s core e.2 c e.1) })
  else .next s

/-- The member that an entry displaces: the one whose last memory instruction is longest ago; one that has issued none comes
before, the youngest of those first (R185). -/
def displaced (s : State) (l : List Nat) : Option Nat :=
  let last : Nat → Option Nat := fun q => (s.parties.get? q).bind (fun p => p.lastMem)
  match (sortBy (ageOf s) (l.filter (fun q => (last q).isNone))).getLast? with
  | some q => some q
  | none => (sortBy (fun q => (last q).getD 0) l).head?

/-- The throttled group of an octant that enters its memory set now: the one that has waited longest, for 512 cycles or more, at
most one in a cycle (R185). -/
def dueEntry (s : State) (core oct : Nat) : Option Nat :=
  let o := octAt s core oct
  let now := coreClock s core
  match longestThrottled o.thr with
  | some g => if o.mem.isSome && decide (o.thr.getD g now + 512 ≤ now) && o.lastEntry != some now then some g else none
  | none => none

/-- THROTTLE_ENTRY: the group that has been throttled for longest, 512 cycles or more, enters the memory set (R185). -/
def execThrottleEntry (core oct : Nat) (s : State) : Host.Outcome State Fault Refusal :=
  let o := octAt s core oct
  match (if core < 288 ∧ oct < 8 then dueEntry s core oct else none), o.mem with
  | some g, some l =>
    let l1 := match displaced s l with | some q => l.filter (fun m => m != q) | none => l
    .next (setOct s core oct { o with mem := some (l1 ++ [g]), thr := o.thr.erase g, lastEntry := some (coreClock s core) })
  | _, _ => .next s

/-! ### The groups that are throttled (R185) -/

/-- The places where a group could issue from: those of its slots' fragments that run, or of a group-wide instruction that it
has reached as a whole (R62). -/
def standsAt (p : Party) : List (Bool × Frag) :=
  if reconverged p then
    match convergePc p with
    | some pc => ((fragList p).find? (fun f => f.st == .converging && f.pc == pc)).toList.map (fun f => (false, f))
    | none => []
  else ((p.slot0.toList.map (fun f => (false, f))) ++ p.slot1.toList.map (fun f => (true, f))).filter (fun e => isRun e.2)

/-- A group has reached a memory instruction. -/
def atMemory (s : State) (q : Nat) (p : Party) (b : Block) : Bool :=
  (standsAt p).any (fun e => match fetchWord s ⟨q, e.1, e.2.mask, e.2.pc, (0 : W96), []⟩ p b with
    | .ok w _ => memOpcode w
    | _ => false)

/-- A group that is no member of its octant's memory set is throttled while it has reached a memory instruction. -/
def noteGroup (s : State) (q : Nat) : State :=
  match s.parties.get? q, blockOf s q with
  | some p, some b =>
    let i := octOf b p
    let o := octAt s b.core i
    match o.mem with
    | none => s
    | some l =>
      if p.bow || !active s q || l.contains q then s
      else if atMemory s q p b then
        (if (o.thr.get? q).isSome then s else setOct s b.core i { o with thr := o.thr.insert q (coreClock s b.core) })
      else if (o.thr.get? q).isSome then setOct s b.core i { o with thr := o.thr.erase q }
      else s
  | _, _ => s

/-- The groups that are throttled from now on, and those that are so no longer. -/
def noteGroups (s : State) : State := (s.parties.map (fun e => e.1)).foldl noteGroup s

end Sys2Proof.Machine
end

