-- ==== Sys2Proof/Machine/Registers.lean ====
section
/-!
DEFINITION. The management register space (spec/21 R450, R451, R454), the front-end registers of the host (R446), what loads of both return, the
partition registers (spec/19 R401, R404), the fault-queue registers (spec/20 R425) and the Prism windows (spec/18 R396, R399).
-/
namespace Sys2Proof.Machine

/-! ### Wide registers (R450) -/

/-- `n` bits of `v` at bit `o`. -/
def place (o n v : Nat) : Nat := v % 2 ^ n * 2 ^ o

/-- The fields of `m` keep the bits of `old`, the others take those of `new`. -/
def keepBits (m old new : Nat) : Nat := (old &&& m) + (new - (new &&& m))

/-- The mask of bits `lo` to `lo + n - 1`. -/
def maskAt (lo n : Nat) : Nat := (2 ^ n - 1) * 2 ^ lo

def setRegs (s : State) (f : Regs → Regs) : State := { s with regs := f s.regs }

/-- The words staged for a register of `n` words at `base` are staged no longer (R450). -/
def unstage (s : State) (base n : Nat) : State :=
  setRegs s (fun r => { r with staged := (List.range n).foldl (fun (m : AMap W64) i => m.erase (base + 8 * i)) r.staged })

/-- A store to a word of a register of `n` words at `base`, whose current bits are `cur`: a lower word is staged; the highest
makes the register take its value whole (R450). -/
def wideWrite (s : State) (base n off : Nat) (v : W64) (cur : Nat) (take : State → Nat → State) : State :=
  if off < base + 8 * (n - 1) then setRegs s (fun r => { r with staged := r.staged.insert off v })
  else
    let low := (List.range (n - 1)).foldl (fun (a i : Nat) =>
      a + place (64 * i) 64 (match s.regs.staged.get? (base + 8 * i) with | some x => x.toNat | none => fld cur (64 * i) 64)) 0
    take (unstage s base n) (low + place (64 * (n - 1)) 64 v.toNat)

/-! ### Partition registers (R401, R404) -/

/-- PARTn (R401). -/
def partReg (p : Part) : Nat :=
  (if p.v then 1 else 0) + place 1 7 p.cbase + place 8 7 p.climit + (if p.waybusy then 2 ^ 15 else 0) + p.waymask.toNat * 2 ^ 16 +
  place 64 9 p.memShare + place 73 9 p.bridgeShare + place 82 9 p.linkShare

/-- The ways that contexts of a partition hold pinned (R404). -/
def pinnedWays (s : State) (n : Nat) : Nat :=
  s.ctxs.foldl (fun a e => if !e.2.pinned.isEmpty && (descOf s e.1).part == n then a ||| (descOf s e.1).pinWays else a) 0

/-- The partition has a resident block or a parked chord (R401). -/
def partBusy (s : State) (n : Nat) : Bool :=
  s.chords.any (fun e => e.2.part == n && (e.2.st == .resident || e.2.st == .parked))

/-- The cases in which a write of PARTn is ignored (R401, R404); a cluster number above 71 is none of them (log entry 59). -/
def partBad (s : State) (n v : Nat) : Bool :=
  let p := partOf s n
  let lo := fld v 1 7
  let hi := fld v 8 7
  let meets : Nat × Part → Bool := fun e => e.1 != n && e.2.v && decide (lo ≤ e.2.climit) && decide (e.2.cbase ≤ hi)
  (v.testBit 0 && (decide (hi < lo) || s.parts.any meets)) || decide (256 < fld v 64 9) || decide (256 < fld v 73 9) ||
  decide (256 < fld v 82 9) || ((lo != p.cbase || hi != p.climit) && partBusy s n) ||
  (p.waymask.toNat &&& pinnedWays s n) &&& (2 ^ 24 - 1 - fld v 16 24) != 0

/-- The ways that are being walked for other partitions (R404). -/
def walkedFor (s : State) (n : Nat) : BitVec 24 := s.parts.foldl (fun a e => if e.1 = n then a else a ||| e.2.walking) 0

/-- A write of PARTn (R401, R404): removed ways are walked, and ways that are granted while another partition's walk of them runs
wait for its end; the round-robin pointer is set so that the first chord of a partition that becomes valid goes to CBASE
(R417). -/
def writePart (s : State) (n v : Nat) : State :=
  if 72 ≤ n ∨ partBad s n v then s
  else
    let p := partOf s n
    let way := BitVec.ofNat 24 (fld v 16 24)
    let gone := p.waymask &&& ~~~way
    let fresh := v.testBit 0 && !p.v
    let p1 := { p with v := v.testBit 0, cbase := fld v 1 7, climit := fld v 8 7, waymask := way, memShare := fld v 64 9, bridgeShare := fld v 73 9, linkShare := fld v 82 9 }
    let p2 := { p1 with walking := p.walking ||| gone, waybusy := p.waybusy || gone != 0,
                        granting := way &&& (p.granting ||| ~~~p.waymask) &&& walkedFor s n, rr := if fresh then fld v 1 7 else p.rr }
    setPart s n p2

/-- PART_WRITE: both words of PARTn are stored (R401, R404, R450). -/
def execPartWrite (part : Nat) (v : BitVec 128) (s : State) : Host.Outcome State Fault Refusal :=
  .next (if part < 72 then writePart (unstage s (0x5000 + 0x10 * part) 2) part v.toNat else s)

/-- The dirty lines that slices hold in some ways are written back to memory, and stay there clean (R404). Which way a slice gives
a line is a free value (log entry 60). -/
def cleanWays (s : State) (ways : BitVec 24) : State :=
  (s.sectors.filter (fun (e : Nat × BitVec 8) => 16 ≤ e.2.toNat && ways.getLsbD (Config.lineWay e.1 % 24))).foldl (fun s e =>
    setSectors (passLine s (e.1 / 4) [.pkg]) (e.1 % 4) (e.1 / 4) (e.2 &&& 15)) s

/-- WAY_WALK_END: the removed ways have been walked and written back; WAYBUSY clears, and grants of them take effect (R404). -/
def execWayWalkEnd (part : Nat) (s : State) : Host.Outcome State Fault Refusal :=
  if (partOf s part).waybusy then
    let s1 := setPart (cleanWays s (partOf s part).walking) part { partOf s part with waybusy := false, walking := 0 }
    .next { s1 with parts := s1.parts.map (fun (e : Nat × Part) => (e.1, { e.2 with granting := e.2.granting &&& walkedFor s1 e.1 })) }
  else .next s

/-! ### Fault-queue registers (R425) -/

/-- FQn (R425). -/
def fqReg (p : Part) : Nat :=
  (if p.fqEn then 1 else 0) + place 1 5 p.fqLog + place 12 40 p.fqBase + p.fqTail.toNat * 2 ^ 64 + p.fqHead.toNat * 2 ^ 80 +
  (if p.fqOvf then 2 ^ 96 else 0) + place 97 15 p.fqDropped

/-- A write of FQn (R425). -/
def writeFq (s : State) (n v : Nat) : State :=
  let p := partOf s n
  let log := if 4 ≤ fld v 1 5 ∧ fld v 1 5 ≤ 16 then fld v 1 5 else p.fqLog
  let head := BitVec.ofNat 16 (fld v 80 16)
  let p1 := { p with fqEn := v.testBit 0, fqLog := log, fqBase := fld v 12 40 }
  let p2 := { p1 with fqHead := if (p.fqTail - head).toNat ≤ 2 ^ log then head else p.fqHead }
  setPart s n (if v.testBit 96 then { p2 with fqOvf := false, fqDropped := 0 } else p2)

/-! ### Prism windows (R396, R399) -/

/-- The physical address of a data or tag location. -/
def dataPa (a : Nat) : Nat := if a < 2 ^ 64 then paOf a else paOf ((a - 2 ^ 64) * 16)

/-- A point takes the latest write of each byte of which `f` holds from its parent, as a copy that is dropped and filled
again (R319). -/
def refillBytes (s : State) (pt : Point) (f : Nat → Bool) : State :=
  ((s.hist.map (fun e => e.1)).filter (fun a => f (dataPa a))).foldl (fun s a =>
    match parentOf s pt with
    | some up => let w := (latest s up a).1; if w = 0 then s else addVis s pt w
    | none => s) s

/-- The bytes that plane lines of a window are built from (R101, R398). -/
def windowHolds (x : Window) (pa : Nat) : Bool :=
  let n := if x.w = 0 then 0 else (x.top - x.pb) * 8 / x.w / gNum x.g
  (decide (x.pb ≤ pa) && decide (pa < x.top)) || (decide (x.sb ≤ pa) && decide (pa < x.sb + 2 * n)) ||
  (decide (x.zb ≤ pa) && decide (pa < x.zb + n))

/-- The points in the plane partitions of the dies of the plane lines that hold bytes of which `f` holds (R398). -/
def planePoints (s : State) (f : Nat → Bool) : List Point :=
  let at_ : Nat → Nat := fun pa => match unitOf s pa with | some (x, u) => unitNo x u | none => pa / 128
  let lines := (((s.hist.map (fun e => dataPa e.1)).filter f).map at_).eraseDups
  lines.flatMap (fun n => (List.range 32).map (fun i => .pl (32 * n + i)))

/-- Every plane line built through a window is dropped from every plane partition (R399). -/
def dropWindow (s : State) (n : Nat) : State :=
  let f := windowHolds (windowAt s n)
  (planePoints s f).foldl (fun s pt => refillBytes s pt f) s

/-- A write of PRISMn or, with `z`, of PRISMZn: it takes effect after the plane lines built through the window have been
dropped (R396, R399). -/
def writePrism (s : State) (n v : Nat) (z : Bool) : State :=
  if 64 ≤ n then s
  else
    let s1 := dropWindow s n
    if z then setRegs s1 (fun r => { r with prismz := r.prismz.put n (BitVec.ofNat 64 (v % 2 ^ 40)) 0 })
    else
      let old := (s.regs.prism.getD n 0).toNat
      let rw := 0x7F ||| maskAt 8 20 ||| maskAt 64 40 ||| maskAt 128 40 ||| maskAt 192 40
      let keep := (if fld v 3 2 = 3 then maskAt 3 2 else 0) ||| (if fld v 5 2 = 3 then maskAt 5 2 else 0)
      setRegs s1 (fun r => { r with prism := r.prism.put n (BitVec.ofNat 256 (keepBits keep old (v &&& rw))) 0 })

/-- PRISM_WRITE: every word of PRISMn, or PRISMZn, is stored (R399, R450). -/
def execPrismWrite (n : Nat) (v : BitVec 256) (zbase : Bool) (s : State) : Host.Outcome State Fault Refusal :=
  .next (if n < 64 then writePrism (if zbase then s else unstage s (0x3000 + 0x20 * n) 4) n v.toNat zbase else s)

/-! ### The other registers (R450) -/

/-- A write of ARTn: a STRIDE of 15 keeps the field (R310). -/
def writeArt (s : State) (n v : Nat) : State :=
  let old := (s.regs.art.getD n 0).toNat
  let rw := 0x1F ||| maskAt 8 4 ||| maskAt 16 48 ||| maskAt 64 31 ||| maskAt 96 31
  let keep := if fld v 1 4 = 15 then maskAt 1 4 else 0
  setRegs s (fun r => { r with art := r.art.put n (BitVec.ofNat 128 (keepBits keep old (v &&& rw))) 0 })

/-- A write of MRTn: a GRAN of 7 keeps the field (R391). -/
def writeMrt (s : State) (n v : Nat) : State :=
  let old := (s.regs.mrt.getD n 0).toNat
  let rw := 0xF ||| maskAt 8 24 ||| maskAt 64 22 ||| maskAt 96 22
  let keep := if fld v 1 3 = 7 then maskAt 1 3 else 0
  setRegs s (fun r => { r with mrt := r.mrt.put n (BitVec.ofNat 128 (keepBits keep old (v &&& rw))) 0 })

/-- A write of CNS_COMMn (R435). -/
def writeComm (s : State) (n v : Nat) : State :=
  setRegs s (fun r => { r with comm := r.comm.put n (BitVec.ofNat 64 (v &&& (0x1FFF ||| maskAt 16 12))) 0 })

/-- A write of ISSUE_CTL: MODE 3 reads as 0 (R191). -/
def writeIssueCtl (s : State) (c v : Nat) : State :=
  setCore s c { coreOf s c with mode := if v % 4 = 3 then 0 else v % 4, fixn := fld v 8 7 }

/-- A write of DCQ_BASE: a LOG2N outside 4 to 12 keeps the field (R451). -/
def writeDcqBase (s : State) (v : Nat) : State :=
  let ok := 4 ≤ fld v 1 4 ∧ fld v 1 4 ≤ 12
  setRegs s (fun r => { r with dcqEn := v.testBit 0, dcqLog := if ok then fld v 1 4 else r.dcqLog, dcqBase := fld v 12 40 })

/-- A write of DCQ_PTR: TAIL, unless it would run more than 2^LOG2N past DONE (R451). -/
def writeDcqPtr (s : State) (v : Nat) : State :=
  let t := BitVec.ofNat 16 (v % 65536)
  if 2 ^ s.regs.dcqLog < (t - s.regs.dcqDone).toNat then s else setRegs s (fun r => { r with dcqTail := t })

/-- A front-end register of partition `n` (R411, R446). -/
def writeFe (s : State) (n o : Nat) (v : W64) : State :=
  let p := partOf s n
  if o = 0 then setPart s n { p with feCtx := v.toNat % 4096 }
  else if o = 8 then feSubmit s n v
  else if o = 0x10 then (if v.toNat.testBit 9 then setPart s n { p with reject := false } else s)
  else s

/-- The RAS registers from offset 0x002_0000 on (R454). -/
def writeRas (s : State) (o v : Nat) : State :=
  if o < 8 * 516 then setRegs s (fun r => { r with rasCe := r.rasCe.put (o / 8) (BitVec.ofNat 32 v) 0 })
  else if o = 0x2000 then setRegs s (fun r => { r with rasThresh := BitVec.ofNat 32 v })
  else s

/-- Offset `off` lies in a table of `n` registers of `stride` bytes at `base`. -/
def inTable (off base stride n : Nat) : Bool := decide (base ≤ off) && decide (off < base + stride * n)

/-- The registers of more than one 64-bit word (R450). -/
def writeWide (s : State) (off : Nat) (v : W64) : State :=
  let ix : Nat → Nat → Nat := fun base stride => (off - base) / stride
  let at_ : Nat → Nat → Nat := fun base stride => base + stride * ix base stride
  if inTable off 0x1000 0x10 64 then
    wideWrite s (at_ 0x1000 0x10) 2 off v (s.regs.art.getD (ix 0x1000 0x10) 0).toNat (fun s x => writeArt s (ix 0x1000 0x10) x)
  else if inTable off 0x2000 0x10 16 then
    wideWrite s (at_ 0x2000 0x10) 2 off v (s.regs.mrt.getD (ix 0x2000 0x10) 0).toNat (fun s x => writeMrt s (ix 0x2000 0x10) x)
  else if inTable off 0x3000 0x20 64 then
    wideWrite s (at_ 0x3000 0x20) 4 off v (s.regs.prism.getD (ix 0x3000 0x20) 0).toNat (fun s x => writePrism s (ix 0x3000 0x20) x false)
  else if inTable off 0x5000 0x10 72 then
    wideWrite s (at_ 0x5000 0x10) 2 off v (partReg (partOf s (ix 0x5000 0x10))) (fun s x => writePart s (ix 0x5000 0x10) x)
  else if inTable off 0x6000 0x10 72 then
    wideWrite s (at_ 0x6000 0x10) 2 off v (fqReg (partOf s (ix 0x6000 0x10))) (fun s x => writeFq s (ix 0x6000 0x10) x)
  else s

/-- The registers of one word (R450). -/
def writeNarrow (s : State) (off : Nat) (v : W64) : State :=
  let x := v.toNat
  if off = 0 then setRegs s (fun r => { r with ctxTable := x &&& maskAt 12 40 })
  else if off = 8 then setRegs s (fun r => { r with mrsErr := r.mrsErr &&& ~~~(v.truncate 2) })
  else if off = 0x10 then setRegs s (fun r => { r with probe := x % 2 ^ 24 })
  else if inTable off 0x100 8 4 then setRegs s (fun r => { r with lease := r.lease.set ((off - 0x100) / 8) (x % 65536) })
  else if inTable off 0x4000 8 64 then writePrism s ((off - 0x4000) / 8) x true
  else if inTable off 0x7000 8 256 then writeComm s ((off - 0x7000) / 8) x
  else if inTable off 0x8000 8 288 then writeIssueCtl s ((off - 0x8000) / 8) x
  else if off = 0x10000 then writeDcqBase s x
  else if off = 0x10008 then writeDcqPtr s x
  else if inTable off 0x20000 0x6000 1 then writeRas s (off - 0x20000) x
  else if inTable off 0x100000 0x1000 72 then writeFe s ((off - 0x100000) / 0x1000) (off % 0x1000) v
  else s

/-- A store to the management register space: one that is not aligned to 8 bytes is ignored and noted (R450). -/
def regWrite (s : State) (off : Nat) (v : W64) : State :=
  if off % 8 ≠ 0 then setRegs s (fun r => { r with mrsErr := r.mrsErr ||| 1 })
  else if decide (0x1000 ≤ off) && decide (off < 0x4000) || decide (0x5000 ≤ off) && decide (off < 0x7000) then writeWide s off v
  else writeNarrow s off v

/-- REGISTER_WRITE: a 64-bit store of the management complex at an offset of its register space, or of the host to its page
of front-end registers (R446, R450). -/
def execRegisterWrite (off : Nat) (v : W64) (s : State) : Host.Outcome State Fault Refusal := .next (regWrite s off v)

/-! ### Loads (R13, R446, R450) -/

/-- Word `i` of 64 bits of a number. -/
def wordAt (v i : Nat) : Nat := fld v (64 * i) 64

/-- FE_STATUSn (R411). -/
def feStatus (p : Part) : Nat :=
  place 0 8 p.launches.length + (if p.launches.length = 64 then 2 ^ 8 else 0) + (if p.reject then 2 ^ 9 else 0)

/-- A front-end register as it reads: FE_SUBMIT is write-only (R13, R411, R446). -/
def readFe (p : Part) (o : Nat) : Nat :=
  if o = 0 then p.feCtx % 4096 else if o = 0x10 then feStatus p else 0

/-- RETIREDi (R454). -/
def retiredReg (s : State) (i : Nat) : Nat :=
  match s.regs.retired[i]? with | some x => 1 + place 16 36 x | none => 0

/-- The RAS registers as they read (R454). -/
def readRas (s : State) (o : Nat) : Nat :=
  if o < 8 * 1024 then (s.regs.rasCe.getD (o / 8) 0).toNat
  else if o = 0x2000 then s.regs.rasThresh.toNat
  else if o = 0x3000 then place 0 10 s.regs.retired.length + (if s.regs.retiredFull then 2 ^ 10 else 0)
  else if inTable o 0x4000 8 512 then retiredReg s ((o - 0x4000) / 8)
  else 0

/-- DCQ_BASE and DCQ_PTR (R451). -/
def dcqBaseReg (r : Regs) : Nat := (if r.dcqEn then 1 else 0) + place 1 4 r.dcqLog + place 12 40 r.dcqBase
def dcqPtrReg (r : Regs) : Nat := r.dcqTail.toNat + r.dcqHead.toNat * 2 ^ 16 + r.dcqDone.toNat * 2 ^ 32

/-- The word at an aligned offset of the management register space, as it reads; every offset not listed reads zero
(R450). -/
def regRead (s : State) (off : Nat) : Nat :=
  let r := s.regs
  let ix : Nat → Nat → Nat := fun base stride => (off - base) / stride
  let wide : Nat → Nat → Nat → Nat := fun base stride v => wordAt v ((off - base) % stride / 8)
  if off = 0 then r.ctxTable
  else if off = 8 then r.mrsErr.toNat
  else if off = 0x10 then r.probe
  else if inTable off 0x100 8 4 then r.lease.getD ((off - 0x100) / 8) 0
  else if inTable off 0x1000 0x10 64 then wide 0x1000 0x10 (r.art.getD (ix 0x1000 0x10) 0).toNat
  else if inTable off 0x2000 0x10 16 then wide 0x2000 0x10 (r.mrt.getD (ix 0x2000 0x10) 0).toNat
  else if inTable off 0x3000 0x20 64 then wide 0x3000 0x20 (r.prism.getD (ix 0x3000 0x20) 0).toNat
  else if inTable off 0x4000 8 64 then (r.prismz.getD (ix 0x4000 8) 0).toNat
  else if inTable off 0x5000 0x10 72 then wide 0x5000 0x10 (partReg (partOf s (ix 0x5000 0x10)))
  else if inTable off 0x6000 0x10 72 then wide 0x6000 0x10 (fqReg (partOf s (ix 0x6000 0x10)))
  else if inTable off 0x7000 8 256 then (r.comm.getD (ix 0x7000 8) 0).toNat
  else if inTable off 0x8000 8 288 then issueCtl (coreOf s (ix 0x8000 8))
  else if off = 0x10000 then dcqBaseReg r
  else if off = 0x10008 then dcqPtrReg r
  else if inTable off 0x20000 0x6000 1 then readRas s (off - 0x20000)
  else if inTable off 0x100000 0x1000 72 then readFe (partOf s (ix 0x100000 0x1000)) (off % 0x1000)
  else 0

/-- A load of `n` bytes by the management complex: one of another width or alignment than an aligned word reads zero and is noted
(R450). -/
def mgmtLoad (s : State) (off n : Nat) : State :=
  if n = 8 ∧ off % 8 = 0 then { s with mgmtData := BitVec.ofNat 64 (regRead s off) }
  else { setRegs s (fun r => { r with mrsErr := r.mrsErr ||| 1 }) with mgmtData := 0 }

/-- A store of `n` bytes by the management complex (R450). -/
def mgmtStore (s : State) (off n : Nat) (v : W64) : State :=
  if n = 8 then regWrite s off v else setRegs s (fun r => { r with mrsErr := r.mrsErr ||| 1 })

/-- A byte of BAR0 (R446). -/
def bar0Byte (s : State) (o : Nat) : Nat :=
  if o / 0x1000 < 72 then fld (readFe (partOf s (o / 0x1000)) (o % 0x1000 / 8 * 8)) (8 * (o % 8)) 8 else 0

/-- BOOT_STATUS (R456). -/
def bootStatus (s : State) : Nat :=
  place 0 3 s.bootStep + (if s.bootFail then 2 ^ 3 else 0) + (if s.bootReady then 2 ^ 4 else 0)

/-- MBX_STATUS (R447). -/
def mbxStatus (m : Mailbox) : Nat := (if m.busy then 1 else 0) + (if m.ready then 2 else 0)

/-- A byte of BAR2: BOOT_STATUS and the mailbox, in which H2D is write-only (R446, R447). -/
def bar2Byte (s : State) (o : Nat) : Nat :=
  if o < 4 then fld (bootStatus s) (8 * o) 8
  else if inTable o 0x1008 8 1 then fld s.mbx.d2h.toNat (8 * (o - 0x1008)) 8
  else if inTable o 0x1010 8 1 then fld (mbxStatus s.mbx) (8 * (o - 0x1010)) 8
  else if inTable o 0x1800 2048 1 then (s.mbx.req.getD (o - 0x1800) 0).toNat
  else if inTable o 0x2000 8192 1 then (s.mbx.rsp.getD (o - 0x2000) 0).toNat
  else 0

/-- A load of `n` bytes, eight at most, by the host (R446). -/
def hostLoad (s : State) (bar2 : Bool) (off n : Nat) : State :=
  let b := if bar2 then bar2Byte s else bar0Byte s
  { s with hostData := BitVec.ofNat 64 (((List.range (min n 8)).map (fun i => b (off + i) * 2 ^ (8 * i))).sum) }

/-- A 64-bit store of the host in BAR0 (R446). -/
def hostStore (s : State) (off : Nat) (v : W64) : State :=
  if off / 0x1000 < 72 then writeFe s (off / 0x1000) (off % 0x1000) v else s

end Sys2Proof.Machine
end

