-- ==== Sys2Proof/Machine/Commands.lean ====
section
/-!
DEFINITION. The device commands (spec/21 R451-R453) with what they do: invalidation (spec/14 R301), residency notices and
refusals (R303, R305), pinning (spec/19 R405, R406), the freeing and assigning of frames (spec/18 R395), flushing (spec/15
R312), the retiring of keys (R394), termination (spec/20 R429) and the self-test (spec/11 R257).
-/
namespace Sys2Proof.Machine

/-! ### A command and its completion (R451-R453) -/

/-- The fields of a command (R452). -/
structure Command where
  op : Nat
  flags : Nat
  ctx : Nat
  addr : Nat
  len : Nat
  arg : Nat
  cpl : Nat
  /-- The bytes that must be zero. -/
  zero : Nat
  deriving DecidableEq, Repr

def commandOf (v : Nat) : Command :=
  { op := fld v 0 8, flags := fld v 8 8, ctx := fld v 16 16, addr := fld v 64 64, len := fld v 128 64, arg := fld v 192 64,
    cpl := fld v 256 64, zero := fld v 32 32 + fld v 320 192 }

/-- Where the command at HEAD lies (R451). -/
def commandLoc (r : Regs) : Nat := locOf 0 (r.dcqBase * 4096 + 64 * (r.dcqHead.toNat % 2 ^ r.dcqLog))

/-- What the device makes of a command that reads as poison: one of no assigned OP (R392; log entry 47). -/
def lostCommand : Command := { op := 0xFF, flags := 0, ctx := 0, addr := 0, len := 0, arg := 0, cpl := 0, zero := 0 }

/-- The command at HEAD, where the device takes one now (R451). -/
def nextCommand (s : State) : Option Command :=
  let r := s.regs
  if r.dcqEn ∧ r.dcqHead ≠ r.dcqTail then
    some (if poisoned s (commandLoc r) then lostCommand else commandOf (readSys s (commandLoc r) 64))
  else none

/-- A physical address that the device can write: an entry serves it and its port works (R391, R392). -/
def writable (s : State) (pa : Nat) : Bool :=
  match portOf s pa with | some p => !s.portsDown.contains p | none => false

/-- The completion word is written, DONE advances, and a command with NOTIFY raises its source (R453). -/
def completeCommand (s : State) (c : Command) (status high : Nat) : State :=
  let s1 :=
    if c.cpl = 0 then s
    else if c.cpl % 8 = 0 ∧ c.cpl < 2 ^ 52 ∧ writable s c.cpl then deviceWrite s (locOf 0 c.cpl) (bytesOf 8 (status + 2 ^ 32 * high))
    else setRegs s (fun r => { r with mrsErr := r.mrsErr ||| 2 })
  let s2 := setRegs s1 (fun r => { r with dcqHead := r.dcqHead + 1, dcqDone := r.dcqDone + 1 })
  if c.flags % 2 = 1 then notify s2 73 else s2

/-- What a command comes to: status, bits 63:32 of the completion word, the state. -/
abbrev CmdRes := Nat × Nat × State

def cmdDone (s : State) : CmdRes := (1, 0, s)
def cmdRefused (s : State) : CmdRes := (2, 0, s)
def cmdBad (s : State) : CmdRes := (3, 0, s)

/-- The context of a command is valid (R453). -/
def ctxValid (s : State) (c : Command) : Bool := (descOf s c.ctx).v

/-- The range of a command is within `top` and made of pages (R452, R453). -/
def rangeOk (c : Command) (top : Nat) : Bool :=
  c.addr % 4096 == 0 && c.len % 4096 == 0 && decide (c.addr + c.len ≤ top)

/-- A completion address outside its limits (R452, R453). -/
def cplBad (c : Command) : Bool := c.cpl != 0 && (c.cpl % 8 != 0 || decide (2 ^ 52 ≤ c.cpl))

/-- The device takes the command at HEAD, whose OP is `op` (R451-R453). -/
def runCommand (op : Nat) (f : Command → State → CmdRes) (s : State) : Host.Outcome State Fault Refusal :=
  match nextCommand s with
  | none => .next s
  | some c =>
    if c.op ≠ op then .next s
    else
      let r := if 2 ≤ c.flags ∨ 4096 ≤ c.ctx ∨ c.zero ≠ 0 ∨ cplBad c then cmdBad s else f c s
      .next (completeCommand r.2.2 c r.1 r.2.1)

/-! ### INVAL (R301) -/

/-- The ranges [a, a + n) and [b, b + m) meet. -/
def meets (a n b m : Nat) : Bool := decide (a < b + m) && decide (b < a + n)

/-- The part of a cluster's translations that an invalidation leaves (R301). -/
def invalCluster (ctx : Nat) (priv : Bool) (va len : Nat) (c : Cluster) : Cluster :=
  let tlb : Tlb → Bool := fun t => t.ctx == ctx && t.priv == priv && meets va len t.va t.size
  let wc : WalkEnt → Bool := fun w =>
    w.ctx == ctx && w.priv == priv && meets va len (w.pre * levelBytes w.level) (levelBytes w.level)
  { c with tlb := c.tlb.filter (fun t => !tlb t), walk := c.walk.filter (fun w => !wc w) }

/-- The invalidation of a range of a context (R301). -/
def invalidate (s : State) (ctx : Nat) (priv : Bool) (va len : Nat) : State :=
  let s1 := { s with clusters := s.clusters.map (fun (e : Nat × Cluster) => (e.1, invalCluster ctx priv va len e.2)) }
  let s2 := (s1.cores.map (fun e => e.1)).foldl (fun s c =>
    dropL1 s c (fun l => l.tr.ctx == ctx && l.tr.priv == priv && meets va len l.va 128)) s1
  let x := ctxOf s2 ctx
  if priv then s2 else setCtx s2 ctx { x with pinned := x.pinned.filter (fun p => !meets va len (p / 2 ^ 45 * 128) 128) }

/-- INVAL (R301, R452). -/
def execInval (s : State) : Host.Outcome State Fault Refusal :=
  runCommand 0x01 (fun c s =>
    if !ctxValid s c || !rangeOk c (2 ^ 57) then cmdBad s
    else cmdDone (invalidate s c.ctx (c.arg % 2 == 1) c.addr c.len)) s

/-! ### NOTICE and REFUSE (R303, R305) -/

def coversAddr (va : Nat) (r : Nat × Nat) : Bool := decide (r.1 ≤ va) && decide (va < r.1 + r.2)

/-- The PAGEREQ entries of a context that cover an address are done (R305). -/
def endPages (s : State) (ctx va : Nat) : State :=
  let cut : Party → Party := fun p =>
    if p.ctx = ctx then { p with pages := p.pages.map (fun r => { r with open_ := r.open_.filter (fun e => !coversAddr va e) }) } else p
  { s with parties := s.parties.map (fun (e : Nat × Party) => (e.1, cut e.2)) }

/-- What waits for a page that is resident now goes on: launches, and the front ends of their partitions (R412, R416). -/
def wakeLaunches (s : State) (ctx va : Nat) : State :=
  let up : Launch → Launch := fun l => if l.ctx = ctx ∧ (l.waits.any (coversAddr va)) then { l with waits := none } else l
  let upc : Card → Card := fun c => if c.ctx = ctx ∧ (c.waits.any (coversAddr va)) then { c with waits := none } else c
  let s1 := { s with launches := s.launches.map (fun (e : Nat × Launch) => (e.1, up e.2)),
                     cards := s.cards.map (fun (e : Nat × Card) => (e.1, upc e.2)) }
  let s2 := (s1.launches.map (fun e => e.1)).foldl payLaunch s1
  feRun feFuel s2 (descOf s2 ctx).part

/-- A residency notice (R303): each parked chord of the context that counts an entry covering the address counts one less, the
first such entry. -/
def noticePage (s : State) (ctx va : Nat) : State :=
  let hit : Bool × Nat × Nat → Bool := fun m => coversAddr va (m.2.1, m.2.2)
  let up : Chord → Chord := fun c =>
    if c.ctx = ctx ∧ c.st = .parked then
      { c with missing := c.missing.takeWhile (fun m => !hit m) ++ (c.missing.dropWhile (fun m => !hit m)).drop 1 }
    else c
  wakeLaunches (endPages { s with chords := s.chords.map (fun (e : Nat × Chord) => (e.1, up e.2)) } ctx va) ctx va

/-- NOTICE (R303, R452). -/
def execNotice (s : State) : Host.Outcome State Fault Refusal :=
  runCommand 0x02 (fun c s => if !ctxValid s c || decide (2 ^ 57 ≤ c.addr) then cmdBad s else cmdDone (noticePage s c.ctx c.addr)) s

/-- REFUSE (R305, R452). -/
def execRefuse (s : State) : Host.Outcome State Fault Refusal :=
  runCommand 0x03 (fun c s => if !ctxValid s c || decide (2 ^ 57 ≤ c.addr) then cmdBad s else cmdDone (endPages s c.ctx c.addr)) s

/-! ### PIN and UNPIN (R405, R406) -/

/-- The virtual and physical lines of a context's pinned region; none where a page has no leaf (R405). -/
def regionLines (s : State) (ctx : Nat) (d : Desc) : Option (List (Nat × Nat)) :=
  ((List.range (d.pinBytes / 128)).map (fun (i : Nat) => d.pinVa + 128 * i)).foldr (fun va r =>
    match r, (walk s ctx false va 5 d.tableRoot).1 with
    | some l, .ok t => if trServed s d t va then some ((va / 128, trPa t va / 128) :: l) else none
    | _, _ => none) (some [])

/-- A slice would need more lines than its pinned ways hold (R405): a physical line counts once. -/
def slicesOver (s : State) (d : Desc) (l : List (Nat × Nat)) : Bool :=
  let homes := (l.map (fun e => e.2)).eraseDups.map (fun n => homeOf s (128 * n))
  homes.any (fun h => decide (4096 * ones 24 d.pinWays < (homes.filter (fun x => x == h)).length))

/-- The home slice of a line comes to hold the line whole (R405). -/
def fillHome (s : State) (line : Nat) : State :=
  let d := homeDie s line
  let s1 := holdLine s d line
  setSectors s1 d line (sectorsAt s1 d line ||| 15)

/-- PIN: every line of the range is filled (R405, R452). -/
def execPin (s : State) : Host.Outcome State Fault Refusal :=
  runCommand 0x04 (fun c s =>
    if !ctxValid s c then cmdBad s
    else
      let d := descOf s c.ctx
      match regionLines s c.ctx d with
      | none => cmdRefused s
      | some l =>
        if slicesOver s d l then cmdRefused s
        else cmdDone ((l.map (fun e => e.2)).eraseDups.foldl fillHome (setCtx s c.ctx
          { ctxOf s c.ctx with pinned := l.map (fun e => pinCode e.1 e.2) }))) s

/-- UNPIN (R406, R452). -/
def execUnpin (s : State) : Host.Outcome State Fault Refusal :=
  runCommand 0x05 (fun c s =>
    if !ctxValid s c then cmdBad s else cmdDone (setCtx s c.ctx { ctxOf s c.ctx with pinned := [] })) s

/-! ### FREE, ASSIGN and FLUSH (R312, R395) -/

/-- The lines of a physical range. -/
def rangeLines (pa len : Nat) : List Nat := (List.range (len / 128)).map (fun (i : Nat) => pa / 128 + i)

def inRange (pa len a : Nat) : Bool := decide (pa ≤ a) && decide (a < pa + len)

/-- Every cached copy of a range leaves the L1s, the read-only caches, the slices and the victim buffers; its lines are pinned no
longer, and the directory entries of the range alone are free (R395). -/
def purgeRange (s : State) (pa len : Nat) : State :=
  let mine : Nat → Bool := fun line => inRange pa len (128 * line)
  let s1 := (s.cores.map (fun e => e.1)).foldl (fun s c =>
    dropRo (dropL1 s c (fun l => mine l.pline)) c (fun l => mine l.pline)) s
  let unpin : CtxDev → CtxDev := fun c => { c with pinned := c.pinned.filter (fun p => !mine (p % 2 ^ 45)) }
  let inside : DirEntry → Bool := fun e => decide (pa ≤ e.base) && decide (e.base + 2 ^ e.k ≤ pa + len)
  { s1 with dieLine := s1.dieLine.filter (fun (e : Nat × DirSt) => !mine (e.1 / 4)),
            sectors := s1.sectors.filter (fun (e : Nat × BitVec 8) => !mine (e.1 / 4)),
            sliceBad := s1.sliceBad.filter (fun e => !mine e.1),
            victims := s1.victims.filter (fun v => !mine v.line), dir := s1.dir.filter (fun e => !inside e.2),
            ctxs := s1.ctxs.map (fun (e : Nat × CtxDev) => (e.1, unpin e.2)) }

/-- The runs of pages with TG without those whose frames are `lo` to `hi - 1`. -/
def cutPages (lo hi : Nat) (l : AMap (Nat × Nat)) : AMap (Nat × Nat) :=
  (l.flatMap (fun e => let f := e.2.1 % 2 ^ 40
    cutRun e (lo - f) (hi - f))).foldl (fun (m : AMap (Nat × Nat)) e => m.insert e.1 e.2) []

/-- What is left of a buffered store or RED once the locations of which `f` holds are freed: nothing, where it goes nowhere else
(R395). -/
def cutEntry (f : Nat → Bool) (e : BufEntry) : Option BufEntry :=
  let e1 := { e with cells := e.cells.filter (fun c => !f c.1), tags := e.tags.filter (fun t => !f (tagAt t)) }
  match e.kind with
  | .unlock _ => some e
  | .red _ _ a _ _ => if f a then none else some e
  | .store | .object _ _ => if e1.cells.isEmpty && e1.tags.isEmpty then none else some e1

/-- The chunks of a copy to freed locations bring nothing there (R395). -/
def cutCopy (f : Nat → Bool) (c : Copy) : Copy :=
  { c with data := c.data.map (fun d => if c.store && f (trLoc d.2.1 (chunkAt c d.1).1) then (d.1, d.2.1, []) else d) }

/-- A party has written nothing to the locations of which `f` holds, nor has it a write to them on its way (R395). -/
def cutParty (f : Nat → Bool) (p : Party) : Party :=
  { p with priv := p.priv.filter (fun (e : Nat × Byte) => !f e.1), buf := p.buf.filterMap (cutEntry f),
           copies := p.copies.map (cutCopy f),
           pubs := p.pubs.map (fun w => if f (trLoc w.tr w.slot) then { w with lost := true } else w) }

/-- Nothing that was written into a range is left or on its way, data, tags or private bytes (R395); a retired region stays
poisoned (R431). -/
def forget (s : State) (pa len : Nat) : State :=
  let mine : Nat → Bool := fun a => inRange pa len (dataPa a)
  let kept : Nat → Bool := fun line => !inRange pa len (128 * line) || s.rasLog.contains (128 * line / 65536)
  let leave : CtxDev → CtxDev := fun c => { c with left := c.left.filter (fun (e : Nat × List Byte) => !mine e.1) }
  { s with mem := s.mem.filter (fun (e : Nat × Byte) => !mine e.1), hist := s.hist.filter (fun (e : Nat × Hist) => !mine e.1),
           creator := s.creator.filter (fun (e : Nat × Nat) => !mine e.1),
           tgPages := cutPages (pa / 4096) ((pa + len) / 4096) s.tgPages,
           parties := s.parties.map (fun (e : Nat × Party) => (e.1, cutParty mine e.2)),
           ctxs := s.ctxs.map (fun (e : Nat × CtxDev) => (e.1, leave e.2)),
           poison := s.poison.filter kept }

/-- Each line of a range was last written under the owner code `o` (R393). -/
def ownRange (s : State) (pa len o : Nat) : State :=
  { s with owner := (rangeLines pa len).foldl (fun m l => m.insert l o) s.owner }

/-- An owner code that is none of a key: ciphertext under a one-time key (R395). -/
def oneTime : Nat := 2 ^ 128

/-- The free of a range (R395). -/
def freeRange (s : State) (pa len : Nat) : State :=
  let s1 := drainCombOf s (fun k => inRange pa len (paOf k.addr))
  let lines := (s1.locks.map (fun e => e.1)).filter (fun l => inRange pa len (128 * l))
  let held := (s1.parties.flatMap (fun e => e.2.held.map (fun h => h.line))).filter (fun l => inRange pa len (128 * l))
  let s2 := freeLocks (purgeRange s1 pa len) (lines ++ held)
  ownRange (forget s2 pa len) pa len oneTime

/-- FREE (R395, R452). -/
def execFree (s : State) : Host.Outcome State Fault Refusal :=
  runCommand 0x06 (fun c s => if !rangeOk c (2 ^ 52) then cmdBad s else cmdDone (freeRange s c.addr c.len)) s

/-- The range holds a frame of a retired region, which is never assigned again (R431). -/
def retiredIn (s : State) (pa len : Nat) : Bool :=
  (s.rasLog ++ s.regs.retired).any (fun r => decide (65536 * r < pa + len) && decide (pa < 65536 * (r + 1)))

/-- ASSIGN: zero plaintext and zero tags under the key ID (R395, R431, R452). -/
def execAssign (s : State) : Host.Outcome State Fault Refusal :=
  runCommand 0x07 (fun c s =>
    if !rangeOk c (2 ^ 52) then cmdBad s
    else if retiredIn s c.addr c.len then cmdRefused s
    else cmdDone (ownRange (forget s c.addr c.len) c.addr c.len (ownerCode s (c.arg % 4096)))) s

/-- The points whose copies a flush drops: those of dies, clusters, cores and plane partitions, and memory beside them (R312). -/
def flushPoints (s : State) (f : Nat → Bool) : List Point :=
  .pkg :: (List.range 4).map .die ++ s.cores.flatMap (fun e => [.blk e.1, .clu (cluOf e.1)]) ++ planePoints s f

/-- The writes that L1s and slices hold of some bytes are written back: each such byte has its latest write at every point
but the parties' own (R312). -/
def writeHome (s : State) (f : Nat → Bool) : State :=
  let inner : Point → Bool := fun pt => match pt with | .grp _ | .ro _ => false | _ => true
  let pts := (s.vis.map (fun e => e.1)).filter inner
  ((s.hist.map (fun e => e.1)).filter (fun a => f (dataPa a))).foldl (fun s a =>
    let best := pts.foldl (fun (b : Nat) pt => let w := (latest s pt a).1; if coIx s a b < coIx s a w then w else b) 0
    if best = 0 then s else (flushPoints s f ++ pts).foldl (fun s pt => addVis s pt best) s) s

/-- FLUSH (R312, R452). -/
def execFlush (s : State) : Host.Outcome State Fault Refusal :=
  runCommand 0x08 (fun c s =>
    if !rangeOk c (2 ^ 52) then cmdBad s
    else
      let mine : Nat → Bool := fun line => inRange c.addr c.len (128 * line)
      let s1 := writeHome s (inRange c.addr c.len)
      let s2 := (s1.cores.map (fun e => e.1)).foldl (fun s k => dropL1 s k (fun l => mine l.pline)) s1
      let gone : DirEntry → DirEntry := fun e => if e.k = 7 ∧ mine (e.base / 128) then { e with st := [.i, .i, .i, .i] } else e
      cmdDone { s2 with dieLine := s2.dieLine.filter (fun (e : Nat × DirSt) => !mine (e.1 / 4)),
                        sectors := s2.sectors.filter (fun (e : Nat × BitVec 8) => !mine (e.1 / 4)),
                        victims := s2.victims.filter (fun v => !mine v.line), dir := s2.dir.map (fun e => (e.1, gone e.2)) }) s

/-! ### RETIRE, TERMINATE and SELFTEST -/

/-- A key ID that a valid context owns (R408, R452). -/
def keyOwned (s : State) (key : Nat) : Bool :=
  let d := descOf s key
  d.v && decide ((d.keys.getD 0 0) % 4096 = key) && decide (32768 ≤ d.keys.getD 0 0)

/-- RETIRE (R394, R452). -/
def execRetire (s : State) : Host.Outcome State Fault Refusal :=
  runCommand 0x09 (fun c s =>
    let key := c.arg % 4096
    if key = 0 ∨ keyOwned s key then cmdRefused s else cmdDone (retireKey s key)) s

/-- A context is terminated by the management complex, once (R429). -/
def killContext (s : State) (ctx : Nat) : State :=
  if (ctxOf s ctx).terminated then s
  else match pickCand ((ctxOf s ctx).cands ++ [devRec s ctx codeKilled 0 0]) with
    | some r => terminateWith s ctx r
    | none => s

/-- TERMINATE (R429, R452). -/
def execTerminate (s : State) : Host.Outcome State Fault Refusal :=
  runCommand 0x0A (fun c s => if !ctxValid s c then cmdBad s else cmdDone (killContext s c.ctx)) s

/-- A resident block holds the Harp of a core. -/
def harpHeld (s : State) (core : Nat) : Bool := s.blocks.any (fun e => e.2.resident && e.2.core == core && e.2.harp.isSome)

/-- SELFTEST (R257, R258, R452). -/
def execSelftest (s : State) : Host.Outcome State Fault Refusal :=
  runCommand 0x0B (fun c s =>
    let core := c.arg % 512
    if 288 ≤ core then cmdBad s
    else if harpHeld s core then cmdRefused s
    else
      let t := selfTest (coreOf s core)
      (1, testWord t, setCore s core t.core)) s

/-- A command whose OP is unassigned (R453); of one that reads as poison, the management complex is told (R431). -/
def badCommand (s : State) : State :=
  match nextCommand s with
  | some c =>
    if c.op = 0 ∨ 0x0B < c.op then
      completeCommand (if poisoned s (commandLoc s.regs) then notify s 75 else s) c 3 0
    else s
  | none => s

end Sys2Proof.Machine
end

