-- ==== Sys2Proof/Machine/Mailbox.lean ====
section
/-!
DEFINITION. The mailbox between the host and the device OS (spec/21 R447, R448) and the attestation report (R457).
-/
namespace Sys2Proof.Machine

/-! ### Requests and responses (R447) -/

/-- `n` little-endian bytes of the request at offset `o`. -/
def reqField (s : State) (o n : Nat) : Nat := leNat ((List.range n).map (fun i => s.mbx.req.getD (o + i) 0))

def reqCode (s : State) : Nat := reqField s 0 2
def reqLen (s : State) : Nat := reqField s 8 4

/-- A request is there to be served. -/
def mbxOpen (s : State) : Bool := s.mbx.asked && s.mbx.ready

/-- Bytes at an offset of a message. -/
def putBytes (m : AMap Byte) (o : Nat) (bs : List Byte) : AMap Byte := bs.zipIdx.foldl (fun m e => m.put (o + e.2) e.1 0) m

/-- The device OS begins to serve a request (R447). -/
def mbxTake (s : State) : State := if mbxOpen s then { s with mbx := { s.mbx with busy := true } } else s

/-- The device OS writes RSP and D2H and clears BUSY (R447). -/
def respond (s : State) (status : Nat) (payload : List Byte) : State :=
  let head := bytesOf 2 (reqCode s) ++ bytesOf 2 status ++ bytesOf 4 (reqField s 4 4) ++ bytesOf 4 payload.length ++ bytesOf 4 0
  { s with mbx := { s.mbx with rsp := putBytes s.mbx.rsp 0 (head ++ payload), d2h := BitVec.ofNat 64 (reqField s 4 4), asked := false, busy := false } }

/-! ### ATTEST (R448, R457) -/

/-- The 128 bytes of a kernel header that a waiting card names; none where they cannot be read. -/
def waitingHeader (s : State) (k : Nat) : List Byte :=
  match s.cards.get? k with
  | none => []
  | some c => match devRead s c.ctx c.va 8 with
    | .ok va s1 => (match devRead s1 c.ctx va 128 with | .ok h _ => bytesOf 128 h | _ => [])
    | _ => []

/-- What CFG digests for a partition (R457). -/
def configBytes (s : State) (n : Nat) : List Byte :=
  let p := partOf s n
  let ctxs := (List.range 4096).filter (fun (k : Nat) => (descOf s k).v && (descOf s k).part == n)
  bytesOf 16 (partReg p) ++
  ctxs.flatMap (fun k => heldBytes s (descLoc s k) 128) ++ p.waitList.flatMap (waitingHeader s)

def digestBytes (d : BitVec 512) : List Byte := bytesOf 64 d.toNat

/-- The report of R457 up to its signature. -/
def reportBody (s : State) (kind part : Nat) (nonce : List Byte) : List Byte :=
  let cfg := if kind = 1 then digestBytes (Config.shake256 (configBytes s part)) else List.replicate 64 0
  bytesOf 4 0x54544152 ++ bytesOf 2 kind ++ bytesOf 2 (if kind = 1 then part else 0xFFFF) ++ nonce ++
  s.meas.flatMap digestBytes ++ cfg ++ bytesOf 8 (ticksOf s.cycle)

/-- RSIG: the signature in its 1,280 bytes, zeros after a shorter one. -/
def rsig (d : BitVec 512) : List Byte := (Config.falconSign d ++ List.replicate 1280 0).take 1280

/-- The signed report. -/
def report (s : State) (kind part : Nat) (nonce : List Byte) : List Byte :=
  let b := reportBody s kind part nonce
  b ++ rsig (Config.shake256 b)

/-- ATTEST (R448, R457); Burael has completed a request (R453). -/
def execAttest (s : State) : Host.Outcome State Fault Refusal :=
  if !mbxOpen s || reqCode s != 1 then .next s
  else
    let kind := reqField s 16 2
    let part := reqField s 18 2
    if reqLen s ≠ 68 ∨ 1 < kind ∨ (kind = 1 ∧ 72 ≤ part) then .next (respond s 3 [])
    else .next (respond (notify s 76) 0 (report s kind part ((List.range 64).map (fun i => s.mbx.req.getD (20 + i) 0))))

/-! ### FAULTS (R425, R448) -/

/-- FAULTS: fault records are read, oldest first; HEAD goes past them and OVF is cleared (R448). -/
def execFaults (s : State) : Host.Outcome State Fault Refusal :=
  if !mbxOpen s || reqCode s != 2 then .next s
  else
    let n := reqField s 16 2
    let max_ := reqField s 18 2
    if reqLen s ≠ 4 ∨ 72 ≤ n ∨ max_ = 0 ∨ 127 < max_ then .next (respond s 3 [])
    else
      let p := partOf s n
      let count := min max_ (p.fqTail - p.fqHead).toNat
      let rec_ : Nat → List Byte := fun i =>
        bytesOf 64 (readSys s (locOf 0 (p.fqBase * 4096 + 64 * ((p.fqHead.toNat + i) % 65536 % 2 ^ p.fqLog))) 64)
      let out := bytesOf 4 count ++ bytesOf 4 (if p.fqOvf then 1 else 0) ++ (List.range count).flatMap rec_
      let s1 := setPart s n { p with fqHead := p.fqHead + BitVec.ofNat 16 count, fqOvf := false, fqDropped := 0 }
      .next (respond s1 0 out)

/-! ### The host's side, and the codes of the device OS (R447, R448) -/

/-- The host writes bytes of REQ; a write while BUSY is ignored. -/
def hostReq (s : State) (off : Nat) (bs : List Byte) : State :=
  if s.mbx.busy then s
  else { s with mbx := { s.mbx with req := putBytes s.mbx.req off (bs.take (2048 - off)) } }

/-- The host writes H2D, which raises the mailbox interrupt; a write while BUSY is ignored (R447). -/
def hostRing (s : State) (seq : W64) : State :=
  if s.mbx.busy then s else notify { s with mbx := { s.mbx with h2d := seq, asked := true } } 74

/-- A request whose code the device does not define: from 0x8000 on it is answered as the device OS will, else with STATUS 1
and no payload. -/
def otherRequest (s : State) (status : Nat) (payload : List Byte) : State :=
  if !mbxOpen s || reqCode s == 1 || reqCode s == 2 then s
  else if 0x8000 ≤ reqCode s then respond s status (payload.take 8176)
  else respond s 1 []

end Sys2Proof.Machine
end

