-- ==== Sys2Proof/Machine/Reliability.lean ====
section
/-!
DEFINITION. Errors and their containment (spec/20 R430-R432), failures of CXL ports (spec/18 R392), lanes and links of the
Synor Link (spec/21 R433, R444), RAS counters (R454).
-/
namespace Sys2Proof.Machine

/-! ### RAS counters (R454) -/

/-- A unit counts a corrected error, saturating; a count that reaches RAS_THRESH raises source 75 (R453, R454). -/
def countCorrected (s : State) (unit : Nat) : State :=
  if 516 ≤ unit then s
  else
    let c := s.regs.rasCe.getD unit 0
    if c = BitVec.allOnes 32 then s
    else
      let s1 := setRegs s (fun r => { r with rasCe := r.rasCe.put unit (c + 1) 0 })
      if c + 1 = s.regs.rasThresh then notify s1 75 else s1

/-! ### A bad line in a slice (R430, R431) -/

/-- A 64 KiB region is retired (R431, R454); the RAS log keeps it. -/
def retireRegion (s : State) (region : Nat) : State :=
  let s1 := if s.rasLog.contains region then s else { s with rasLog := s.rasLog ++ [region] }
  if s.regs.retired.contains region then s1
  else if 512 ≤ s.regs.retired.length then setRegs s1 (fun r => { r with retiredFull := true })
  else setRegs s1 (fun r => { r with retired := r.retired ++ [region] })

/-- The global number of a slice (R5). -/
def sliceNo (h : Nat × Nat) : Nat := 48 * h.1 + h.2

/-- The way that holds a pinned line of a context whose pinned ways are `ways` (R405; log entry 60). -/
def pinnedWay (ways pline : Nat) : Nat := setBitAt 24 ways (Config.pinSlot pline % ones 24 ways)

/-- The pinned lines of a quarantined way are unpinned: the bad line itself, and those homed in that slice that the way holds
(R406, R431). -/
def unpinWay (s : State) (slice way line : Nat) : State :=
  s.ctxs.foldl (fun s e =>
    let gone : Nat → Bool := fun p =>
      let pl := p % 2 ^ 45
      pl == line || (sliceNo (homeOf s (128 * pl)) == slice && pinnedWay (descOf s e.1).pinWays pl == way)
    setCtx s e.1 { ctxOf s e.1 with pinned := e.2.pinned.filter (fun p => !gone p) }) s

/-- The record of an uncorrectable error in a slice line of context `k` (R431). -/
def poisonRec (s : State) (k line : Nat) : FaultRec :=
  { devRec s k codePoison 0 0 with aux := BitVec.ofNat 64 (128 * line) }

/-- The containment of an uncorrectable error in a dirty slice line (R431). -/
def containLine (s : State) (line way : Nat) : State :=
  let k := match s.owner.get? line with | some o => o % 4096 | none => 0
  let s1 := if k = 0 then s else raiseFor s (poisonRec s k line)
  let s2 := { s1 with sliceBad := s1.sliceBad.filter (fun e => e.1 != line), poison := if s1.poison.contains line then s1.poison else s1.poison ++ [line] }
  let slice := sliceNo (homeOf s (128 * line))
  let s3 := retireRegion s2 (line / 512)
  let s4 := { s3 with quarantined := if s3.quarantined.contains (slice, way) then s3.quarantined else s3.quarantined ++ [(slice, way)] }
  notify (unpinWay s4 slice way line) 75

/-- SCRUB: the background scrub reads a slice line and finds an uncorrectable error in it, if there is one (R430, R431). -/
def execScrub (line : Nat) (s : State) : Host.Outcome State Fault Refusal :=
  match s.sliceBad.find? (fun e => e.1 == line) with
  | some e => .next (containLine s line e.2)
  | none => .next s

/-- An uncorrectable error in a word that a party owns, found by a scrub or a transfer: MEMORY_POISON for its context, and the
party stops (R429, R430). -/
def partyError (s : State) (q : Nat) : State :=
  match s.parties.get? q with
  | some _ => notify (modParty (raiseFor s { partyRec s q codePoison with async := true }) q (fun p => { p with stopped := true })) 75
  | none => s

/-- The instruction that a party's fragment comes to receives a word with an uncorrectable error: MEMORY_POISON under R153, and
nothing is written (R430). -/
def accessError (s : State) (q : Nat) (slot : Bool) (lane : Nat) : State :=
  match s.parties.get? q, blockOf s q with
  | some p, some b =>
    (match fragAt p (slotIx slot) with
     | some f =>
       let c : Cur := ⟨q, slot, f.mask, f.pc, (0 : W96), []⟩
       (match fetchWord s c p b with
        | .ok w s1 =>
          if active s q && isRun f then
            notify (faultRec s1 { c with word := BitVec.ofNat 96 w } { partyRec s1 q codePoison with lane := lane % 8 }) 75
          else s
        | _ => s)
     | none => s)
  | _, _ => s

/-- An uncorrectable error in a line of an L1: a clean line is dropped and filled again; a dirty one is MEMORY_POISON for the
context of its tag, and is lost (R430). -/
def l1Error (s : State) (core n : Nat) : State :=
  match (coreOf s core).l1[n]? with
  | none => s
  | some l =>
    let s1 := dropL1 s core (fun m => m == l)
    if l.dirty then notify (raiseFor s1 { devRec s l.tr.ctx codePoison (128 * l.pline) l.va with core := core }) 75 else s1

/-- The contexts that the device knows or whose descriptors are valid. -/
def knownCtxs (s : State) : List Nat :=
  let l := s.ctxs.map (fun e => e.1) ++ s.launches.map (fun e => e.2.ctx) ++ s.cards.map (fun e => e.2.ctx) ++ s.chords.map (fun e => e.2.ctx)
  (l ++ (List.range 4096).filter (fun (k : Nat) => k != 0 && (descOf s k).v)).eraseDups

/-- Both copies of a protected table are bad: every context is terminated with CONTEXT_KILLED (R430). -/
def tableError (s : State) : State := (knownCtxs s).foldl (fun s k => raiseFor s (devRec s k codeKilled 0 0)) s

/-! ### Bad lines that an access or a transfer finds (R430, R431) -/

/-- Some context has raised MEMORY_POISON for a line. -/
def lineFound (s : State) (line : Nat) : Bool :=
  s.ctxs.any (fun e => e.2.cands.any (fun r => r.code == codePoison && r.aux.toNat == 128 * line))

/-- A die had dirty data of a line in `s0` that it no longer has so in `s1`: it has passed it on or written it back. -/
def lineMoved (s0 s1 : State) (line : Nat) : Bool :=
  (List.range 4).any (fun (d : Nat) =>
    let a := heldBy s0 d line
    let b := heldBy s1 d line
    ((a == .m || a == .o) && b != a) || (sectorsAt s0 d line &&& ~~~ sectorsAt s1 d line).toNat / 16 != 0)

/-- The line of a command that has been fetched (R451). -/
def linesRead (s : State) : Move → List Nat
  | .input .badCommand => if (nextCommand s).isSome then [lineOf (commandLoc s.regs)] else []
  | _ => []

/-- Every bad line that an access, a transfer or a write-back between `s0` and `s1` has read, or that stands in `read`, is
contained (R430, R431). -/
def containFound (s0 : State) (read : List Nat) (s1 : State) : State :=
  s1.sliceBad.foldl (fun s e =>
    if lineFound s e.1 || lineMoved s0 s1 e.1 || read.contains e.1 then containLine s e.1 e.2 else s) s1

/-! ### Ports and links (R392, R433, R444) -/

/-- PORT_FAILURE: a CXL port fails; every line that it serves reads as poisoned from now on (R392). -/
def execPortFailure (port : Nat) (s : State) : Host.Outcome State Fault Refusal :=
  if 24 ≤ port ∨ s.portsDown.contains port then .next s else .next { s with portsDown := s.portsDown ++ [port] }

/-- LANE_SPARE: a lane past its error threshold is replaced by one of the port's two spares (R433). -/
def execLaneSpare (port lane : Nat) (s : State) : Host.Outcome State Fault Refusal :=
  if s.laneBad.contains (port, lane) && !s.laneSpared.contains (port, lane) &&
      decide ((s.laneSpared.filter (fun e => e.1 == port)).length < 2) then
    .next { s with laneSpared := s.laneSpared ++ [(port, lane)] }
  else .next s

/-- A collective with traffic over a port that goes down: it runs with a rank on another package, some rank here is not complete,
and a free value says that its traffic takes that port (R444). -/
def overPort (c : Collective) (free : Nat) : Bool :=
  c.running && !c.ended && c.ranks.any (fun r => r.q.isNone) && c.ranks.any (fun r => r.q.isSome && !r.closed) && free == 1

/-- The contexts of a collective's ranks on this package are terminated with LINK_FAULT, and the others abort (R441, R444). -/
def breakCol (port : Nat) (s : State) (n : Nat) : State :=
  match s.cols.find? (fun c => c.n == n) with
  | none => s
  | some c =>
    let d := draw s 2
    if overPort c d.1 then
      let s1 := modCol d.2 n (endCol (fun _ => 6))
      let ctxs := (c.ranks.filter (fun r => r.q.isSome)).map (fun r => r.ctx)
      ctxs.foldl (fun s k => raiseFor s { devRec s k codeLink 0 0 with detail := BitVec.ofNat 32 port }) s1
    else d.2

/-- LINK_DOWN: a Synor Link port goes down (R433, R444). -/
def execLinkDown (port : Nat) (s : State) : Host.Outcome State Fault Refusal :=
  if 8 ≤ port ∨ s.linksDown.contains port then .next s
  else .next ((s.cols.map (fun c => c.n)).foldl (breakCol port) { s with linksDown := s.linksDown ++ [port] })

end Sys2Proof.Machine
end

