-- ==== Sys2Proof/Machine/Power.lean ====
section
/-!
DEFINITION. Boot and power states (spec/21 R455, R456, R458; spec/00 R9; spec/20 R432).
-/
namespace Sys2Proof.Machine

/-! ### What survives (R9, R458) -/

/-- The harness of a core that a reset leaves: which of its sub-arrays are faulty is no state of the device. -/
def coldCore (c : Core) : Core := { Core.reset with bad := c.bad }

/-- The package with nothing but what keeps its contents without power (R9). The pooled memory still holds what was written,
under keys that are lost. -/
def cold (s : State) : State :=
  { State.reset with
    schedule := s.schedule, draws := s.draws, mem := s.mem, poison := s.poison,
    owner := s.owner.map (fun (e : Nat × Nat) => (e.1, oneTime)),
    cores := s.cores.map (fun (e : Nat × Core) => (e.1, coldCore e.2)),
    laneBad := s.laneBad, failedClusters := s.failedClusters,
    failedSlices := s.failedSlices, power := s.power, v48 := s.v48, aux := s.aux, rasLog := s.rasLog }

/-- The package is without power in a state `p`. -/
def unpowered (s : State) (p : Power) : State := { cold s with power := p, cur := none }

/-! ### Boot (R455, R456) -/

def flashBytes (o n : Nat) : List Byte := (List.range n).map (fun i => Config.flash (o + i))
def flashNat (o n : Nat) : Nat := leNat (flashBytes o n)

/-- The digest of step 2 (R455): header bytes 0x0000 to 0x0A0F and the image. -/
def bootDigest : BitVec 512 := Config.shake256 (flashBytes 0 0xA10 ++ flashBytes (flashNat 0x10 8) (flashNat 8 8))

/-- The header and the signature of the first stage are accepted (R455, R456). -/
def bootGood : Bool :=
  let vkey := flashBytes 0x18 1793
  flashNat 0 4 == 0x4C525542 && decide (flashNat 8 8 ≤ 2 ^ 26) && flashNat 0x10 8 % 4096 == 0 &&
  Config.shake256 vkey == Config.vendorDigest && decide (Config.minSvn ≤ flashNat 4 4) &&
  Config.falconVerify vkey bootDigest (flashBytes 0xA10 1280)

/-- MEASi := SHAKE256(MEASi followed by d) (R455). -/
def extendMeas (m d : BitVec 512) : BitVec 512 := Config.shake256 (digestBytes m ++ digestBytes d)

/-- The measurements after a boot (R455). -/
def measured : List (BitVec 512) :=
  [extendMeas 0 bootDigest, extendMeas 0 (Config.stageDigest 1), BitVec.ofNat 512 Config.minSvn] ++
  [3, 4, 5, 6, 7].map (fun i => extendMeas 0 (Config.stageDigest i))

/-- A die has more failed clusters or slices than its one spare of each (R432). -/
def beyondSpares (s : State) : Bool :=
  (List.range 4).any (fun (d : Nat) => decide (1 < (s.failedClusters.filter (fun x => x == d)).length) ||
    decide (1 < (s.failedSlices.filter (fun x => x == d)).length))

/-- The reset self-tests of the Harps (R257, R258). -/
def testHarps (s : State) : State := { s with cores := s.cores.map (fun (e : Nat × Core) => (e.1, (selfTest e.2).core)) }

/-- The boot of a package that comes out of reset (R455): it stops in reset at a step that fails. -/
def bootSteps (s : State) : State :=
  if !bootGood then { s with bootStep := 2, bootFail := true }
  else if !Config.osGood then { s with bootStep := 3, bootFail := true, meas := s.meas.set 0 (extendMeas 0 bootDigest) }
  else if beyondSpares s then { s with bootStep := 4, bootFail := true, meas := measured }
  else { testHarps s with bootStep := 4, bootReady := true, meas := measured, released := some s.cycle }

/-- BOOT: the 48 V input has been applied, or the host asserts reset while it is present (R455, R458). -/
def execBoot (s : State) : Host.Outcome State Fault Refusal :=
  if s.v48 then .next (bootSteps { cold s with power := .on, cur := none }) else .next s

/-! ### Power states (R458) -/

/-- POWER_LOSS: the 48 V input is removed; every context ends at once and no record is written (R458). -/
def execPowerLoss (s : State) : Host.Outcome State Fault Refusal :=
  if s.v48 then .next { unpowered s (if s.aux then .standby else .off) with v48 := false } else .next s

/-- STANDBY_REQUEST: every context is terminated with CONTEXT_KILLED and the power stages are disabled (R458). -/
def execStandbyRequest (s : State) : Host.Outcome State Fault Refusal :=
  if s.power = .on ∧ s.bootReady then .next (unpowered ((knownCtxs s).foldl killContext { s with bootReady := false }) .standby)
  else .next s

/-- AUXILIARY_RAIL_LOSS (R458). -/
def execAuxiliaryRailLoss (s : State) : Host.Outcome State Fault Refusal :=
  .next { s with aux := false, power := if s.power = .standby ∧ !s.v48 then .off else s.power }

/-- AUXILIARY_RAIL_RETURN (R458). -/
def execAuxiliaryRailReturn (s : State) : Host.Outcome State Fault Refusal :=
  .next { s with aux := true, power := if s.power = .off then .standby else s.power }

end Sys2Proof.Machine
end

