-- ==== Sys2Proof/Machine/Predicate.lean ====
section
/-!
DEFINITION. Predicate instructions (spec/03 R81-R85): PSET, FPSET, PLOP, PMOV, PMOV.PACK, PMOV.UNPACK.
-/
namespace Sys2Proof.Machine

/-- PSET (R81). -/
def execPset (m : CmpMod) (i : Insn) (s : State) : Host.Outcome State Fault Refusal :=
  intOp (.pset m i) 4 .n32 i s (fun k l =>
    if iCompare m.cmp (operandInt k m.ty i.b l) (operandInt k m.ty i.c l) then 1 else 0)

/-- The comparison of FPSET in a lane: the result and its flags (R82). -/
def fpsetAt (m : FpsetMod) (k : Ctx) (i : Insn) (l : Nat) : Bool × FFlags :=
  fCompare m.cmp m.u (fvalFtz (tyFmt m.ty) .ieee m.ftz (operand k m.ty i.b l))
    (fvalFtz (tyFmt m.ty) .ieee m.ftz (operand k m.ty i.c l))

/-- FPSET (R82). -/
def execFpset (m : FpsetMod) (i : Insn) (s : State) : Host.Outcome State Fault Refusal :=
  issue (.fpset m i) i s (fixedOp 4 .n32 i (fun k l => if (fpsetAt m k i l).1 then 1 else 0)
    (some (fun k l => (fpsetAt m k i l).2)))

/-- The table entry of PLOP (R83). -/
def plopBit (lut : BitVec 8) (b c d : Bool) : Bool :=
  lut.toNat.testBit ((if b then 4 else 0) + (if c then 2 else 0) + (if d then 1 else 0))

/-- PLOP (R83). -/
def execPlop (lut : BitVec 8) (i : Insn) (s : State) : Host.Outcome State Fault Refusal :=
  intOp (.plop lut i) 4 .n32 i s (fun k l =>
    if plopBit lut (operandP k i.b l) (operandP k i.c l) (operandP k (xOpnd i) l) then 1 else 0)

/-- PMOV (R84). -/
def execPmov (inv : Bool) (i : Insn) (s : State) : Host.Outcome State Fault Refusal :=
  intOp (.pmov inv i) 4 .n32 i s (fun k l => if operandP k i.b l != inv then 1 else 0)

/-- The predicates of a lane packed, with bit 7 set (R84). -/
def packP (p : Party) (l : Nat) : Nat := maskNat ((List.range 8).map (fun r => getP p r l))

/-- PMOV.PACK (R84). -/
def execPmovPack (i : Insn) (s : State) : Host.Outcome State Fault Refusal :=
  intOp (.pmovPack i) 4 .n32 i s (fun k l => packP (k.pl l) l)

/-- The predicate writes of PMOV.UNPACK. -/
def unpackWrites (i : Insn) (k : Ctx) : List RegWrite :=
  (lanesOf k.e).flatMap (fun l => (List.range 7).map (fun r => .p r l ((operand k .n32 i.b l).testBit r)))

/-- PMOV.UNPACK (R84). -/
def execPmovUnpack (i : Insn) (s : State) : Host.Outcome State Fault Refusal :=
  issue (.pmovUnpack i) i s (fun k s => some (addFixed (finish k i s) k.c 4 (unpackWrites i k)))

end Sys2Proof.Machine
end

