-- ==== Sys2Proof/Machine/Shade.lean ====
section
/-!
DEFINITION. The shade instructions (spec/09 R203-R208): HMOV, UNISON, UNISON.B, HPEEK, HDROP.
-/
namespace Sys2Proof.Machine

/-- The register of a shade operand. -/
def shadeIx : Opnd → Nat
  | .h k _ => k.toNat
  | _ => 0

/-! ### HMOV (R204) -/

/-- HMOV (R204); with CLR a staged operation of the bow that clears every group's copies at its commit (R200). -/
def execHmov (clr : Bool) (i : Insn) (s : State) : Host.Outcome State Fault Refusal :=
  issue (.hmov clr i) i s (fun k s =>
    if clr then
      some (addFixed (finish k i s) k.c 4
        (if k.e = 0 then [] else [.stage (shadeIx i.a) (BitVec.ofNat 32 (operand k .n32 i.c (lowLane k.e % 8))) true]))
    else fixedOp 4 .n32 i (fun k l => operand k .n32 i.c l) noFlags k s)

/-! ### UNISON (R205) -/

/-- The values to which the live lanes of the issuing group resolve a register, each lane's as that lane reads it (R33). -/
def liveVals (k : Ctx) (r : Nat) : List W32 := (lanesOf k.p.live).map (fun l => resolve (k.pl l) k.b r l)

/-- Every live lane resolves the register to one value. -/
def agreeing (k : Ctx) (r : Nat) : Bool := (liveVals k r).all (fun v => some v == (liveVals k r).head?)

/-- The writes of UNISON: the rank at which the common value is held, and the predicate in the lanes of M (R205). -/
def unisonWrites (i : Insn) (k : Ctx) : List RegWrite :=
  let r := shadeIx i.b
  let v := (liveVals k r).headD 0
  let ok := agreeing k r
  let preds := match i.a with | .p n => (lanesOf k.e).map (fun l => .p n.toNat l ok) | _ => []
  if k.e = 0 then []
  else if !ok then preds
  else if v = blockCopy k.b r then .drop r 255 true :: preds
  else .shade r .g k.p.live (List.replicate 8 v) :: preds

/-- UNISON (R205). -/
def execUnison (i : Insn) (s : State) : Host.Outcome State Fault Refusal :=
  issue (.unison i) i s (fun k s => some (addFixed (finishJoined k i .run s) k.c 4 (unisonWrites i k)))

/-! ### UNISON.B (R206) -/

/-- The resolved values of every live lane of every group of a block. -/
def allResolved (s : State) (b k : Nat) : List W32 :=
  match s.blocks.get? b with
  | none => []
  | some blk => (blockParties b).flatMap (fun q => match s.parties.get? q with
    | some p => if p.bow then [] else (lanesOf p.live).map (resolve p blk k)
    | none => [])

/-- A write is a staged operation on a register. -/
def stages (k : Nat) : RegWrite → Bool
  | .stage j _ _ | .stageDrop j => j == k
  | _ => false

/-- A staged operation on a register is pending, in the block or on its way to it (R199, R206). -/
def stagePending (s : State) (q k : Nat) : Bool :=
  (match s.parties.get? q with | some p => p.pend.any (fun d => d.writes.any (stages k)) | none => false) ||
  (match blockOf s q with
   | some b => b.staged.any (fun o => match o with | .write j _ _ => j == k | .drop j => j == k)
   | none => false)

/-- Block(K) becomes `v` and every group's copies are cleared (R206). -/
def foldBlock (s : State) (b k : Nat) (v : W32) : State :=
  let s1 := modBlock s b (fun blk => { blk with hB := blk.hB.put k v 0 })
  (blockParties b).foldl (fun s q => modParty s q (fun p => dropG (dropL p k 255) k)) s1

/-- What UNISON.B answers, and the state after it (R206). -/
def unisonB (s : State) (q k : Nat) : Bool × State :=
  if stagePending s q k then (false, s)
  else match allResolved s (bidOf q) k with
    | [] => (true, s)
    | v :: vs => if vs.all (· == v) then (true, foldBlock s (bidOf q) k v) else (false, s)

/-- UNISON.B (R206). -/
def execUnisonB (i : Insn) (s : State) : Host.Outcome State Fault Refusal :=
  issue (.unisonB i) i s (fun k s =>
    if k.e = 0 then some (finish k i s)
    else
      let r := unisonB s k.c.q (shadeIx i.b)
      some (addFixed (finish k i r.2) k.c 4 (resultWrites k .n32 i.a (fun _ => if r.1 then 1 else 0))))

/-! ### HPEEK (R207) -/

/-- A group or lane copy of a register in some group of the block. -/
def copyAnywhere (s : State) (b k : Nat) : Bool :=
  (blockParties b).any (fun q => match s.parties.get? q with
    | some p => gBit p k || lMask p k != 0
    | none => false)

/-- Pending as the bow sees it when it issues (R33, R207). -/
def viewPending (b : Block) (k : Nat) : Bool :=
  b.staged.any (fun o => match o with | .write j _ _ => j == k | .drop j => j == k)

/-- The word of HPEEK (R207), read once. -/
def peekWord (s : State) (k : Ctx) (all : Bool) (r : Nat) : Nat :=
  let b := bidOf k.c.q
  let p := k.pl (lowLane k.e % 8)
  if all then
    maskNat ((List.range k.b.kern.shade).map (fun j =>
      if k.p.bow then viewPending k.b j || copyAnywhere s b j else gBit p j || lMask p j != 0))
  else if k.p.bow then
    (if viewPending k.b r then 512 else 0) + (if copyAnywhere s b r then 1024 else 0)
  else (lMask p r).toNat + (if gBit p r then 256 else 0)

/-- HPEEK (R207). -/
def execHpeek (all : Bool) (i : Insn) (s : State) : Host.Outcome State Fault Refusal :=
  issue (.hpeek all i) i s (fun k s =>
    some (addFixed (finish k i s) k.c 4 (resultWrites k .n32 i.a (fun _ => peekWord s k all (shadeIx i.b)))))

/-! ### HDROP (R208) -/

/-- HDROP.G and HDROP.ALL of a group by some of its live lanes: SHADE_RANK (R208). -/
def dropBad (m : DropMode) (k : Ctx) : Bool := !k.p.bow && m != .l && k.e != 0 && k.e != k.p.live

/-- The write of HDROP. -/
def dropWrites (m : DropMode) (i : Insn) (k : Ctx) : List RegWrite :=
  let r := shadeIx i.b
  if k.e = 0 then []
  else if k.p.bow then [.stageDrop r]
  else match m with
    | .l => [.drop r k.e false]
    | .g => [.drop r 0 true]
    | .all => [.drop r k.e true]

/-- HDROP (R208). -/
def execHdrop (m : DropMode) (i : Insn) (s : State) : Host.Outcome State Fault Refusal :=
  issue (.hdrop m i) i s (fun k s =>
    if dropBad m k then some (fault s k.c codeShade)
    else some (addFixed (finish k i s) k.c 4 (dropWrites m i k)))

end Sys2Proof.Machine
end

