-- ==== Sys2Proof/Machine/Dispatch.lean ====
section
/-!
DEFINITION. The one match from an instruction or event to its meaning.
-/
namespace Sys2Proof.Machine

/-- What an instruction or event does to the state. -/
def exec (i : Instr) (s : State) : Host.Outcome State Fault Refusal :=
  match i with
  | .nop x => Sys2Proof.Machine.execNop x s
  | .bra join x => Sys2Proof.Machine.execBra join x s
  | .brx join x => Sys2Proof.Machine.execBrx join x s
  | .call x => Sys2Proof.Machine.execCall x s
  | .callx x => Sys2Proof.Machine.execCallx x s
  | .ret x => Sys2Proof.Machine.execRet x s
  | .exit x => Sys2Proof.Machine.execExit x s
  | .yield x => Sys2Proof.Machine.execYield x s
  | .trap x => Sys2Proof.Machine.execTrap x s
  | .brz x => Sys2Proof.Machine.execBrz x s
  | .mset x => Sys2Proof.Machine.execMset x s
  | .msave x => Sys2Proof.Machine.execMsave x s
  | .mrest x => Sys2Proof.Machine.execMrest x s
  | .pset m x => Sys2Proof.Machine.execPset m x s
  | .fpset m x => Sys2Proof.Machine.execFpset m x s
  | .plop lut x => Sys2Proof.Machine.execPlop lut x s
  | .pmov inv x => Sys2Proof.Machine.execPmov inv x s
  | .pmovPack x => Sys2Proof.Machine.execPmovPack x s
  | .pmovUnpack x => Sys2Proof.Machine.execPmovUnpack x s
  | .vote m x => Sys2Proof.Machine.execVote m x s
  | .shfl m x => Sys2Proof.Machine.execShfl m x s
  | .bcast m x => Sys2Proof.Machine.execBcast m x s
  | .redux m x => Sys2Proof.Machine.execRedux m x s
  | .scan m x => Sys2Proof.Machine.execScan m x s
  | .matchOp m x => Sys2Proof.Machine.execMatchOp m x s
  | .iadd m x => Sys2Proof.Machine.execIadd m x s
  | .isub m x => Sys2Proof.Machine.execIsub m x s
  | .imul m x => Sys2Proof.Machine.execImul m x s
  | .imulh ty x => Sys2Proof.Machine.execImulh ty x s
  | .imad m x => Sys2Proof.Machine.execImad m x s
  | .imadw m x => Sys2Proof.Machine.execImadw m x s
  | .idiv m x => Sys2Proof.Machine.execIdiv m x s
  | .irem ty x => Sys2Proof.Machine.execIrem ty x s
  | .imin ty x => Sys2Proof.Machine.execImin ty x s
  | .imax ty x => Sys2Proof.Machine.execImax ty x s
  | .iabs m x => Sys2Proof.Machine.execIabs m x s
  | .ineg m x => Sys2Proof.Machine.execIneg m x s
  | .iset m x => Sys2Proof.Machine.execIset m x s
  | .sel m x => Sys2Proof.Machine.execSel m x s
  | .lea m x => Sys2Proof.Machine.execLea m x s
  | .dp4 m x => Sys2Proof.Machine.execDp4 m x s
  | .and ty x => Sys2Proof.Machine.execAnd ty x s
  | .or ty x => Sys2Proof.Machine.execOr ty x s
  | .xor ty x => Sys2Proof.Machine.execXor ty x s
  | .not ty x => Sys2Proof.Machine.execNot ty x s
  | .lop3 ty x => Sys2Proof.Machine.execLop3 ty x s
  | .shl m x => Sys2Proof.Machine.execShl m x s
  | .shr m x => Sys2Proof.Machine.execShr m x s
  | .sar m x => Sys2Proof.Machine.execSar m x s
  | .rol ty x => Sys2Proof.Machine.execRol ty x s
  | .fshl ty x => Sys2Proof.Machine.execFshl ty x s
  | .popc ty x => Sys2Proof.Machine.execPopc ty x s
  | .clz ty x => Sys2Proof.Machine.execClz ty x s
  | .ctz ty x => Sys2Proof.Machine.execCtz ty x s
  | .brev ty x => Sys2Proof.Machine.execBrev ty x s
  | .bfx ty x => Sys2Proof.Machine.execBfx ty x s
  | .bfi ty x => Sys2Proof.Machine.execBfi ty x s
  | .mov ty x => Sys2Proof.Machine.execMov ty x s
  | .movi hi x => Sys2Proof.Machine.execMovi hi x s
  | .prmt x => Sys2Proof.Machine.execPrmt x s
  | .fadd m x => Sys2Proof.Machine.execFadd m x s
  | .fsub m x => Sys2Proof.Machine.execFsub m x s
  | .fmul m x => Sys2Proof.Machine.execFmul m x s
  | .ffma m x => Sys2Proof.Machine.execFfma m x s
  | .fmin m x => Sys2Proof.Machine.execFmin m x s
  | .fmax m x => Sys2Proof.Machine.execFmax m x s
  | .fneg ty x => Sys2Proof.Machine.execFneg ty x s
  | .fabs ty x => Sys2Proof.Machine.execFabs ty x s
  | .fset m x => Sys2Proof.Machine.execFset m x s
  | .frnd m x => Sys2Proof.Machine.execFrnd m x s
  | .fcls m x => Sys2Proof.Machine.execFcls m x s
  | .fclsOne m x => Sys2Proof.Machine.execFclsOne m x s
  | .frcp m x => Sys2Proof.Machine.execFrcp m x s
  | .frsq m x => Sys2Proof.Machine.execFrsq m x s
  | .fsqrt m x => Sys2Proof.Machine.execFsqrt m x s
  | .fdiv m x => Sys2Proof.Machine.execFdiv m x s
  | .fex2 m x => Sys2Proof.Machine.execFex2 m x s
  | .flg2 m x => Sys2Proof.Machine.execFlg2 m x s
  | .fsin m x => Sys2Proof.Machine.execFsin m x s
  | .fcos m x => Sys2Proof.Machine.execFcos m x s
  | .ftnh m x => Sys2Proof.Machine.execFtnh m x s
  | .cvt m x => Sys2Proof.Machine.execCvt m x s
  | .qnt m x => Sys2Proof.Machine.execQnt m x s
  | .dqnt m x => Sys2Proof.Machine.execDqnt m x s
  | .hmov clr x => Sys2Proof.Machine.execHmov clr x s
  | .unison x => Sys2Proof.Machine.execUnison x s
  | .unisonB x => Sys2Proof.Machine.execUnisonB x s
  | .hpeek all x => Sys2Proof.Machine.execHpeek all x s
  | .hdrop m x => Sys2Proof.Machine.execHdrop m x s
  | .ld m x => Sys2Proof.Machine.execLd m x s
  | .st m x => Sys2Proof.Machine.execSt m x s
  | .ldc m x => Sys2Proof.Machine.execLdc m x s
  | .ldnr m x => Sys2Proof.Machine.execLdnr m x s
  | .lds m x => Sys2Proof.Machine.execLds m x s
  | .sts w x => Sys2Proof.Machine.execSts w x s
  | .pref t x => Sys2Proof.Machine.execPref t x s
  | .cctl op x => Sys2Proof.Machine.execCctl op x s
  | .atom m x => Sys2Proof.Machine.execAtom m x s
  | .red m x => Sys2Proof.Machine.execRed m x s
  | .fence m x => Sys2Proof.Machine.execFence m x s
  | .pfence p x => Sys2Proof.Machine.execPfence p x s
  | .atoms m x => Sys2Proof.Machine.execAtoms m x s
  | .lock sc x => Sys2Proof.Machine.execLock sc x s
  | .trylock sc x => Sys2Proof.Machine.execTrylock sc x s
  | .unlock sc x => Sys2Proof.Machine.execUnlock sc x s
  | .lkqry x => Sys2Proof.Machine.execLkqry x s
  | .objnew zero x => Sys2Proof.Machine.execObjnew zero x s
  | .stref rel x => Sys2Proof.Machine.execStref rel x s
  | .publish sc x => Sys2Proof.Machine.execPublish sc x s
  | .tagrd line x => Sys2Proof.Machine.execTagrd line x s
  | .pagereq w x => Sys2Proof.Machine.execPagereq w x s
  | .barSync x => Sys2Proof.Machine.execBarSync x s
  | .barArr x => Sys2Proof.Machine.execBarArr x s
  | .barWait x => Sys2Proof.Machine.execBarWait x s
  | .barExp x => Sys2Proof.Machine.execBarExp x s
  | .qinit depthM1 x => Sys2Proof.Machine.execQinit depthM1 x s
  | .qinitOff x => Sys2Proof.Machine.execQinitOff x s
  | .qpush x => Sys2Proof.Machine.execQpush x s
  | .qpop x => Sys2Proof.Machine.execQpop x s
  | .qtryPop p x => Sys2Proof.Machine.execQtryPop p x s
  | .qtryPush p x => Sys2Proof.Machine.execQtryPush p x s
  | .waitc cls x => Sys2Proof.Machine.execWaitc cls x s
  | .bcopy m x => Sys2Proof.Machine.execBcopy m x s
  | .bcopy2 m x => Sys2Proof.Machine.execBcopy2 m x s
  | .bgath m x => Sys2Proof.Machine.execBgath m x s
  | .chunkLand q copy chunk => Sys2Proof.Machine.execChunkLand q copy chunk s
  | .cbarSync x => Sys2Proof.Machine.execCbarSync x s
  | .cbarArr x => Sys2Proof.Machine.execCbarArr x s
  | .cbarWait x => Sys2Proof.Machine.execCbarWait x s
  | .post t x => Sys2Proof.Machine.execPost t x s
  | .hplaneWin slot x => Sys2Proof.Machine.execHplaneWin slot x s
  | .hplaneRaw m x => Sys2Proof.Machine.execHplaneRaw m x s
  | .halign m x => Sys2Proof.Machine.execHalign m x s
  | .hmma m x => Sys2Proof.Machine.execHmma m x s
  | .haccld x => Sys2Proof.Machine.execHaccld x s
  | .haccst m x => Sys2Proof.Machine.execHaccst m x s
  | .hzero x => Sys2Proof.Machine.execHzero x s
  | .htest x => Sys2Proof.Machine.execHtest x s
  | .htestFlags x => Sys2Proof.Machine.execHtestFlags x s
  | .harpOpComplete blk => Sys2Proof.Machine.execHarpOpComplete blk s
  | .consort m x => Sys2Proof.Machine.execConsort m x s
  | .cnsqry x => Sys2Proof.Machine.execCnsqry x s
  | .rdsr n x => Sys2Proof.Machine.execRdsr n x s
  | .wrsr n x => Sys2Proof.Machine.execWrsr n x s
  | .loadReturn q n => Sys2Proof.Machine.execLoadReturn q n s
  | .variableLatencyResult q n => Sys2Proof.Machine.execVariableLatencyResult q n s
  | .perform q n sp => Sys2Proof.Machine.execPerform q n sp s
  | .propagate w pt => Sys2Proof.Machine.execPropagate w pt s
  | .fill pt a => Sys2Proof.Machine.execFill pt a s
  | .combiningDrain c n => Sys2Proof.Machine.execCombiningDrain c n s
  | .lockRequestArrival n => Sys2Proof.Machine.execLockRequestArrival n s
  | .unlockPerformed q n => Sys2Proof.Machine.execUnlockPerformed q n s
  | .lockStatusArrival n => Sys2Proof.Machine.execLockStatusArrival n s
  | .lockDeadline line gid => Sys2Proof.Machine.execLockDeadline line gid s
  | .lockProbeSend line gid => Sys2Proof.Machine.execLockProbeSend line gid s
  | .probeArrival n => Sys2Proof.Machine.execProbeArrival n s
  | .walkStep q => Sys2Proof.Machine.execWalkStep q s
  | .publishComplete q => Sys2Proof.Machine.execPublishComplete q s
  | .pagereqComplete q => Sys2Proof.Machine.execPagereqComplete q s
  | .collectiveRun n => Sys2Proof.Machine.execCollectiveRun n s
  | .collectiveComplete n rank => Sys2Proof.Machine.execCollectiveComplete n rank s
  | .collectiveTimeout n rank => Sys2Proof.Machine.execCollectiveTimeout n rank s
  | .readS d line => Sys2Proof.Machine.execReadS d line s
  | .readM d line => Sys2Proof.Machine.execReadM d line s
  | .upgrade d line => Sys2Proof.Machine.execUpgrade d line s
  | .fwdS line => Sys2Proof.Machine.execFwdS line s
  | .fwdM line => Sys2Proof.Machine.execFwdM line s
  | .invMsg d line => Sys2Proof.Machine.execInvMsg d line s
  | .missMsg line => Sys2Proof.Machine.execMissMsg line s
  | .doneMsg line => Sys2Proof.Machine.execDoneMsg line s
  | .wbReq d line => Sys2Proof.Machine.execWbReq d line s
  | .wbGrant d line => Sys2Proof.Machine.execWbGrant d line s
  | .wbCancel d line => Sys2Proof.Machine.execWbCancel d line s
  | .wbData d line => Sys2Proof.Machine.execWbData d line s
  | .backInv d line => Sys2Proof.Machine.execBackInv d line s
  | .invAck d line => Sys2Proof.Machine.execInvAck d line s
  | .entryMerge d base => Sys2Proof.Machine.execEntryMerge d base s
  | .epochEnd core => Sys2Proof.Machine.execEpochEnd core s
  | .throttleEntry core oct => Sys2Proof.Machine.execThrottleEntry core oct s
  | .chordPlace chord => Sys2Proof.Machine.execChordPlace chord s
  | .blockRetire blk => Sys2Proof.Machine.execBlockRetire blk s
  | .cardExamine card => Sys2Proof.Machine.execCardExamine card s
  | .sliceEnd part => Sys2Proof.Machine.execSliceEnd part s
  | .resume chord => Sys2Proof.Machine.execResume chord s
  | .contextTermination ctx => Sys2Proof.Machine.execContextTermination ctx s
  | .faultRecordWrite part => Sys2Proof.Machine.execFaultRecordWrite part s
  | .feSubmit part v => Sys2Proof.Machine.execFeSubmit part v s
  | .fqHeadWrite part v => Sys2Proof.Machine.execFqHeadWrite part v s
  | .fqOvfClear part => Sys2Proof.Machine.execFqOvfClear part s
  | .partWrite part v => Sys2Proof.Machine.execPartWrite part v s
  | .wayWalkEnd part => Sys2Proof.Machine.execWayWalkEnd part s
  | .prismWrite n v zbase => Sys2Proof.Machine.execPrismWrite n v zbase s
  | .registerWrite off v => Sys2Proof.Machine.execRegisterWrite off v s
  | .inval => Sys2Proof.Machine.execInval s
  | .notice => Sys2Proof.Machine.execNotice s
  | .refuse => Sys2Proof.Machine.execRefuse s
  | .pin => Sys2Proof.Machine.execPin s
  | .unpin => Sys2Proof.Machine.execUnpin s
  | .free => Sys2Proof.Machine.execFree s
  | .assign => Sys2Proof.Machine.execAssign s
  | .flush => Sys2Proof.Machine.execFlush s
  | .retire => Sys2Proof.Machine.execRetire s
  | .terminate => Sys2Proof.Machine.execTerminate s
  | .selftest => Sys2Proof.Machine.execSelftest s
  | .attest => Sys2Proof.Machine.execAttest s
  | .faults => Sys2Proof.Machine.execFaults s
  | .scrub line => Sys2Proof.Machine.execScrub line s
  | .portFailure port => Sys2Proof.Machine.execPortFailure port s
  | .laneSpare port lane => Sys2Proof.Machine.execLaneSpare port lane s
  | .linkDown port => Sys2Proof.Machine.execLinkDown port s
  | .boot => Sys2Proof.Machine.execBoot s
  | .powerLoss => Sys2Proof.Machine.execPowerLoss s
  | .planeLineRead blk => Sys2Proof.Machine.execPlaneLineRead blk s
  | .standbyRequest => Sys2Proof.Machine.execStandbyRequest s
  | .auxiliaryRailLoss => Sys2Proof.Machine.execAuxiliaryRailLoss s
  | .auxiliaryRailReturn => Sys2Proof.Machine.execAuxiliaryRailReturn s

end Sys2Proof.Machine
end

