-- ==== Sys2Proof/Machine/Inputs.lean ====
section
/-!
DEFINITION. What reaches the device from outside, or happens in a unit at a moment that no rule fixes: the effect of each
`Input`.
-/
namespace Sys2Proof.Machine

/-- A store of the host or of the management complex: visible at the SYS point (R434). -/
def outsideStore (s : State) (key pa : Nat) (bytes : List Byte) : State :=
  (performCells s (cellsOf (locOf key pa) bytes) [.sys]).2

/-- A store of another package to pooled memory that it shares: visible at the FAB point, as a rank's stores are before it issues
(R316, R434, R442). -/
def poolStore (s : State) (key pa : Nat) (bytes : List Byte) : State :=
  (performCells s (cellsOf (locOf key pa) bytes) [.fab]).2

/-- A line leaves an L1 (R299). -/
def evictL1 (s : State) (core n : Nat) : State :=
  match (coreOf s core).l1[n]? with
  | some l => dropL1 s core (fun m => m == l)
  | none => s

/-- A rank on another package issues (R439): its part of a collective, whose source comes over the fabric. -/
def remoteIssue (s : State) (comm seq : Nat) (r : ColRank) : State :=
  if s.remote.contains (comm, r.rank) && decide (r.rank < commSize s comm) then enterCol s comm seq r else s

def remoteRankOf (rank kind rop ty count root : Nat) (src : List W64) : ColRank :=
  { rank := rank, q := none, ctx := 0, kind := kind, rop := rop, ty := ty, count := count, root := root, src := 0, dst := 0,
    desc := 0, timeout := 0, issued := 0, n := 0, data := some src, ready := true, done := 0, closed := false, iaddr := 0,
    word := 0 }

/-- The context of a rank on another package is terminated: every rank here completes with ABORTED (R441). -/
def remoteEnd (s : State) (comm seq : Nat) : State :=
  { s with cols := s.cols.map (fun c => if c.comm = comm ∧ c.seq = seq ∧ !c.ended then endCol (fun _ => 6) c else c) }

/-- A cycle in which the clock of some cores is withheld: time passes, and they count nothing (R7). -/
def withhold (s : State) (cores : List Nat) : State :=
  advance (cores.eraseDups.foldl (fun s c => setCore s c { coreOf s c with withheld := (coreOf s c).withheld + 1 }) s) 1

/-- The input that a move names. -/
def takeInput (a : Input) (s : State) : State :=
  match a with
  | .store key pa bytes => outsideStore s key pa bytes
  | .poolStore key pa bytes => poolStore s key pa bytes
  | .mgmtLoad off n => mgmtLoad s off n
  | .mgmtStore off n v => mgmtStore s off n v
  | .hostLoad bar2 off n => hostLoad s bar2 off n
  | .hostStore off v => hostStore s off v
  | .mbxTake => mbxTake s
  | .harpStep blk chunk => harpStep s blk chunk
  | .accessError q slot lane => accessError s q slot lane
  | .l1Error core n => l1Error s core n
  | .mbxReq off bytes => hostReq s off bytes
  | .mbxRing seq => hostRing s seq
  | .mbxOther st bs => otherRequest s st bs
  | .mbxReady on => { s with mbx := { s.mbx with ready := on } }
  | .badCommand => badCommand s
  | .claimIrq src => { s with irq := s.irq.filter (fun x => x != src) }
  | .tlbEvict c n => setCluster s c { clusterOf s c with tlb := (clusterOf s c).tlb.eraseIdx n }
  | .walkEvict c n => setCluster s c { clusterOf s c with walk := (clusterOf s c).walk.eraseIdx n }
  | .l1Evict core n => evictL1 s core n
  | .roEvict core n => setCore s core { coreOf s core with ro := (coreOf s core).ro.eraseIdx n }
  | .poison line => if s.poison.contains line then s else { s with poison := s.poison ++ [line] }
  | .sliceError line way => if s.sliceBad.any (fun e => e.1 == line) then s else { s with sliceBad := s.sliceBad ++ [(line, way)] }
  | .partyError q => partyError s q
  | .tableError => tableError s
  | .corrected unit => countCorrected s unit
  | .harpFault core sub bad =>
    let c := coreOf s core
    let bit : BitVec 17 := BitVec.ofNat 17 (2 ^ sub)
    setCore s core { c with bad := if bad then c.bad ||| bit else c.bad &&& ~~~bit }
  | .laneError port lane => if s.laneBad.contains (port, lane) then s else { s with laneBad := s.laneBad ++ [(port, lane)] }
  | .portUp port => { s with linksDown := s.linksDown.filter (fun x => x != port) }
  | .remoteRank comm seq rank kind rop ty count root src => remoteIssue s comm seq (remoteRankOf rank kind rop ty count root src)
  | .remoteAbort comm seq _ => remoteEnd s comm seq
  | .rankMap comm rank here =>
    { s with remote := if here then s.remote.filter (fun x => x != (comm, rank))
        else if s.remote.contains (comm, rank) then s.remote else s.remote ++ [(comm, rank)] }
  | .withhold cores n => match n with
    | 0 => s
    | m + 1 => withhold { s with schedule := ⟨0, .input (.withhold cores m)⟩ :: s.schedule } cores
  | .power48 => { s with v48 := true }
  | .dropLine d line => if (heldBy s d line = .s ∨ heldBy s d line = .e) ∧ !pinnedHere s d line then dropCopies s d line else s
  | .unitFailed slice d => if slice then { s with failedSlices := s.failedSlices ++ [d] } else { s with failedClusters := s.failedClusters ++ [d] }

end Sys2Proof.Machine
end

