-- ==== Sys2Proof/Machine/Moves.lean ====
section
/-!
DEFINITION. Moves: which one comes next, what it does, and what is done around it (log entry 2). The schedule names the moves
to come; where it is empty the next move is a free value.
-/
namespace Sys2Proof.Machine

/-- The move that comes next, and the state without it. -/
def takeMove (s : State) : Pick × State :=
  match s.schedule with
  | p :: l => (p, { s with schedule := l })
  | [] => (Config.pick s.draws, { s with draws := s.draws + 1 })

/-- Moves that a package without power can make (R458). -/
def powerMove : Move → Bool
  | .event .boot | .event .powerLoss | .event .auxiliaryRailLoss | .event .auxiliaryRailReturn | .input .power48 => true
  | _ => false

/-- What is done after a move: the block of the issuer cannot be left stuck unseen (R239, R290), and no instruction issues. -/
def afterIssue (c : Option Cur) (s : State) : State :=
  match c with
  | some c => { checkStuck s (bidOf c.q) with cur := none }
  | none => { s with cur := none }

/-- A part of an outcome that goes on. -/
def mapNext (f : State → State) : Host.Outcome State Fault Refusal → Host.Outcome State Fault Refusal
  | .next s => .next (f s)
  | .fault r => .fault r
  | .refused r => .refused r

/-! ### Issue (R34, R51, R77, R184, R420) -/

/-- Party `q`, which issued from `s0`, has issued in `s`, or it has come to a stop in a fault or a park. -/
def issuedNow (s0 : State) (q : Nat) (s : State) : Bool :=
  !active s q || (octAt s (coreIx s0 q) (partyOct s0 q)).lastIssue == some (partyClock s0 q)

/-- The results that a party has outstanding would not fit its 64 packets (R420), or one would not be written at its moment
behind an older one of its registers (R32). -/
def tooMany (s : State) (q : Nat) : Bool :=
  match s.parties.get? q with | some p => decide (64 < openPends p) || interlocked p | none => false

/-- A party has a status of a TRYLOCK still to come, which the register writes before a fault include (R39, R343). -/
def awaitsStatus (s : State) (q : Nat) : Bool :=
  match s.parties.get? q with
  | some p => p.pend.any (fun d => d.kind == .await && d.word.toNat % 1024 == 0x1E1)
  | none => false

/-- A party has come to a stop in a fault. -/
def faultedNow (s : State) (q : Nat) : Bool := match s.parties.get? q with | some p => p.stopped | none => false

/-- A YIELD that issues learns which other parties of its octant are ready (R77). -/
def withPeers (i : Instr) (peers : Unit → List Nat) (s : State) : State :=
  match i with
  | .yield _ => { s with cur := s.cur.map (fun c => { c with peers := peers () }) }
  | _ => s

/-- What an octant issues: the party, the instruction where one is known, and what comes of it. -/
structure Issued where
  q : Nat
  ins : Option Instr
  out : Host.Outcome State Fault Refusal

/-- What comes of an issue of party `q` from a slot; none where its fragment there is not ready (R51), or the move would be undone. The
octant has issued in
this cycle, whatever came of it (R184); a fault waits for the results before it that are still to come (R39). -/
def tryIssue (peers : Unit → List Nat) (s : State) (q : Nat) (slot : Bool) : Option Issued :=
  let noted : State → State := fun t => octIssued t (coreIx s q) (partyOct s q)
  let early : State → Bool := fun t => faultedNow t q && awaitsStatus s q
  match prepare s q slot with
  | .stay _ => none
  | .halt s1 => if early s1 || s1.undone then none else some ⟨q, none, .next { noted s1 with cur := none }⟩
  | .run i s1 => match exec i (withPeers i peers s1) with
    | .next s2 =>
      if issuedNow s q s2 && !tooMany s2 q && !early s2 && !s2.undone then some ⟨q, some i, .next (noted (afterIssue s1.cur s2))⟩ else none
    | x => some ⟨q, some i, x⟩

/-- The slots of a party in the order in which it issues from them: the one that did not issue last first (R51). -/
def slotOrder (s : State) (q : Nat) : List Bool :=
  match s.parties.get? q with | some p => [!p.lastSlot, p.lastSlot] | none => []

/-- A party is ready: a fragment of it could issue now. -/
def ready (s : State) (q : Nat) : Bool := (slotOrder s q).any (fun k => (tryIssue (fun _ => []) s q k).isSome)

/-- A party is ready under R51, a YIELD of its own that holds it back apart (R77). -/
def readyApart (s : State) (q : Nat) : Bool := ready (modParty s q (fun p => { p with yielded := [] })) q

/-- The active parties of an octant, oldest first (R184). -/
def octMates (s : State) (core o : Nat) : List Nat :=
  sortBy (ageOf s) ((s.parties.map (fun e => e.1)).filter (fun q => active s q && coreIx s q == core && partyOct s q == o))

/-- The issue of a party that is ready. -/
def partyIssue (s : State) (mates : List Nat) (q : Nat) : Option Issued :=
  (slotOrder s q).findSome? (tryIssue (fun _ => mates.filter (fun r => r != q && readyApart s r)) s q)

/-- A party whose previous issue carried YIELD = 1 and that has not been passed over since (R34). -/
def hinted (s : State) (q : Nat) : Bool := match s.parties.get? q with | some p => p.yieldHint | none => false

/-- The hints of parties that are passed over are spent (R184). -/
def spendHints (l : List Nat) (s : State) : State := l.foldl (fun s q => modParty s q (fun p => { p with yieldHint := false })) s

/-- The candidate that an octant picks among the ready ones, oldest first: each with a hint is passed over where another comes
after it (R34, R184; log entry 13). -/
def pickOf (s : State) : List Nat → Option Nat
  | [] => none
  | [q] => some q
  | q :: l => if hinted s q then pickOf s l else some q

/-- The issue of an octant: the oldest ready candidate, one with a hint passed over once (R184). -/
def octantIssue (s : State) (mates : List Nat) : Option Issued :=
  let able := mates.filter (ready s)
  (pickOf s able).bind (fun q => (partyIssue s mates q).map (fun r =>
    { r with out := mapNext (spendHints (able.takeWhile (fun x => x != q))) r.out }))

/-- The queue that an instruction acts on. -/
def queueNo : Instr → Option Nat
  | .qpush i | .qpop i | .qtryPop _ i | .qtryPush _ i => some (bIndex i)
  | _ => none

/-- The issue of an octant, or one that comes before it: of the operations of a block's parties on one queue in one cycle the
oldest party's is taken first, whatever their octants (R184, R223). -/
def inQueueOrder (s : State) (x : Issued) : Host.Outcome State Fault Refusal :=
  match x.ins.bind queueNo with
  | none => x.out
  | some k =>
    let older := ((byAge (bidOf x.q)).takeWhile (fun r => r != x.q)).filter (fun r => mayIssue s r && partyOct s r != partyOct s x.q)
    ((older.findSome? (fun r => (octantIssue s (octMates s (coreIx s r) (partyOct s r))).filter (fun y =>
      y.q == r && y.ins.bind queueNo == some k))).getD x).out

/-- How many fragments of a party wait. -/
def waitCount (s : State) (q : Nat) : Nat :=
  match s.parties.get? q with | some p => ((fragList p).filter isWaiting).length | none => 0

/-- The fragment of a slot comes to a group-wide instruction that others have not reached, and waits there (R62). -/
def reaches (s : State) (q : Nat) (slot : Bool) : Option State :=
  match prepare s q slot with
  | .stay s1 => if waitCount s q < waitCount s1 q && !s1.undone then some s1 else none
  | _ => none

/-- The octant of party `q` issues, where a candidate is ready, queue operations in order of age; or the fragment of the slot begins
to wait. -/
def runIssue (s : State) (q : Nat) (slot : Bool) : Host.Outcome State Fault Refusal :=
  match reaches s q slot with
  | some s1 => .next s1
  | none => match octantIssue s (octMates s (coreIx s q) (partyOct s q)) with
    | some x => inQueueOrder s x
    | none => .next s

/-! ### Events, inputs, moves -/

/-- An event that is no issue. -/
def runEvent (i : Instr) (s : State) : Host.Outcome State Fault Refusal :=
  match insnOf i with
  | some _ => .next s
  | none => exec i { s with cur := none }

/-- What an issue, an event or an input does. -/
def moveOf (m : Move) (s : State) : Host.Outcome State Fault Refusal :=
  if s.power ≠ .on ∧ !powerMove m then .next s
  else match m with
    | .issue q slot => runIssue s q slot
    | .event i => runEvent i s
    | .input a => .next (takeInput a s)

/-- What is done after a move from `s0`: bad lines that it has read or passed on are contained (R430), blocks that no Harp can serve
are found (R259, R263), the groups that are throttled are noted (R185). -/
def afterMove (s0 : State) (m : Move) (s : State) : State := noteGroups (harpSweep (containFound s0 (linesRead s0 m) s))

/-- A move, with what is done after it; none where it cannot be made as it stands (`State.undone`). -/
def tryMove (m : Move) (s : State) : Option (Host.Outcome State Fault Refusal) :=
  match moveOf m s with
  | .next t => if t.undone then none else some (.next (afterMove s m t))
  | x => some x

/-- A move that cannot be made waits for another time. -/
def runMove (m : Move) (s : State) : Host.Outcome State Fault Refusal := (tryMove m s).getD (.next (afterMove s m s))

/-! ### Events whose moment a rule fixes (R185, R306, R348, R349, R419, R441; log entry 13) -/

/-- An event in `d` cycles, or in the next one where it is not in turn at its record in this (R340). -/
def inTime (ok : Bool) (d : Nat) : Nat := if d = 0 ∧ !ok then 1 else d

/-- The events of cores: ends of epochs, entries of throttled groups (R185). -/
def coreEvents (s : State) : List (Nat × Instr) :=
  (s.cores.filter (fun (e : Nat × Core) => decide (e.1 < 288))).flatMap (fun e =>
    let now := coreClock s e.1
    (e.2.epochStart + 4096 - now, Instr.epochEnd e.1) :: e.2.octs.zipIdx.filterMap (fun o =>
      match longestThrottled o.1.thr with
      | some g =>
        if o.1.mem.isSome ∧ o.2 < 8 then
          some (inTime (o.1.lastEntry != some now) (o.1.thr.getD g now + 512 - now), Instr.throttleEntry e.1 o.2)
        else none
      | none => none))

/-- The events of lock units: deadlines, and probes to be sent, or on their way, which arrive before their tick ends (R348,
R349). -/
def lockEvents (s : State) : List (Nat × Instr) :=
  s.locks.flatMap (fun e => (e.2.fifo.filter (fun w => waiterAt s e.1 w.gid == some w)).flatMap (fun w =>
    (match w.deadline with
     | some t => [(inTime (inTurn s e.1 rankDeadline) (untilTick s t), Instr.lockDeadline e.1 w.gid)]
     | none => []) ++
    (if w.probe = 0 then [] else [(untilTick s w.nextProbe, Instr.lockProbeSend e.1 w.gid)]))) ++
  s.probes.map (fun p => (untilTick s (ticksOf s.cycle + 1) - 1, Instr.probeArrival p.n))

/-- The events of combining buffers: 64 cycles have passed since an entry was taken (R306). -/
def combEvents (s : State) : List (Nat × Instr) :=
  s.clusters.flatMap (fun e => e.2.comb.zipIdx.filterMap (fun k =>
    if (combREDs s k.1).isEmpty then none else some (k.1.since + 64 - clusterClock s e.1, Instr.combiningDrain e.1 k.2)))

/-- The events of collectives and slices (R419, R441). -/
def otherEvents (s : State) : List (Nat × Instr) :=
  s.cols.flatMap (fun c =>
    if commSize s c.comm ≤ arrived c then []
    else (c.ranks.filter (fun r => !c.running && !c.ended && r.timeout != 0 && r.done == 0)).map (fun r =>
      (untilTick s (r.issued + r.timeout), Instr.collectiveTimeout c.n r.rank))) ++
  s.parts.filterMap (fun e => e.2.running.map (fun k =>
    (e.2.sliceStart + sliceOf s k - delivered s (4 * e.2.cbase), Instr.sliceEnd e.1)))

/-- The events whose moments rules fix, and in how many cycles each comes. -/
def dueEvents (s : State) : List (Nat × Instr) :=
  if s.power ≠ .on ∨ s.released = none then []
  else coreEvents s ++ lockEvents s ++ combEvents s ++ otherEvents s

/-- The place of a due event among the moves: before a move of the same cycle, but for deadlines and returning probes, which come
after it (R340). -/
def dueKey (e : Nat × Instr) : Nat :=
  2 * e.1 + (match e.2 with | .lockDeadline _ _ | .probeArrival _ => 1 | _ => 0)

/-- The events that come before a move of `n` cycles from now, in their order. -/
def dueBefore (s : State) (n : Nat) : List (Nat × Instr) := sortBy dueKey ((dueEvents s).filter (fun e => dueKey e ≤ 2 * n))

/-! ### A move of the device -/

/-- An event `d` cycles from now, the move `p` that would come next staying to come. -/
def tryDue (rest : State) (p : Pick) (d : Nat) (i : Instr) : Option (Host.Outcome State Fault Refusal) :=
  if p.after < d then none
  else tryMove (.event i) (advance { rest with schedule := ⟨p.after - d, p.move⟩ :: rest.schedule } d)

/-- The first due event that comes before the move `p`: one that cannot be made at its moment comes in the next cycle, where it can
be made then. -/
def dueMove (s rest : State) (p : Pick) : Option (Host.Outcome State Fault Refusal) :=
  (dueBefore s p.after).findSome? (fun e => (tryDue rest p e.1 e.2).orElse (fun _ => tryDue rest p (e.1 + 1) e.2))

/-- One move of the device: time passes and the move is made; an event that falls due before it, or with it, comes first. -/
def move (s : State) : Host.Outcome State Fault Refusal :=
  let r := takeMove s
  (dueMove s r.2 r.1).getD (runMove r.1.move (advance r.2 r.1.after))

/-! ### The place of the next instruction (`State.withFetchWord`, log entry 26) -/

/-- The widest limits that a kernel header declares, with the Harp, and the streams of one instruction (R43). -/
def fetchKernel : Kernel :=
  { image := 0x200000, features := 6, gOff := 128, gLen := 12, bOff := 256, bLen := 12, vregs := 256, shade := 32, spill := 16,
    scratch := 524288, barriers := 64, queues := 16, check := false, priv := 0, walk := 0, consts := 0 }

/-- The block that runs it. -/
def fetchBlock : Block :=
  { core := 0, blkid := 0, chordid := 0, cardVa := 0, groups := 1, age := 0, resident := true, save := 0, pts := 0,
    scratchBase := 0, barBase := List.range 64, queBase := List.range 16, slots := [0, 0],
    kern := fetchKernel, sp := [], hB := [], staged := [], stageBase := 0, bars := [], queues := [], harp := some Harp.empty }

/-- The chord of the block, of two blocks as the chord barriers need (R287). -/
def fetchChord : Chord :=
  { card := 0, idx := 0, ctx := 1, part := 0, prio := 0, cluster := 0, n := 2, st := .resident, missing := [], cb0 := Barrier.reset,
    cb1 := Barrier.reset, cbMap := [0, 1], blocksLeft := 2 }

/-- The translation of the page that holds it. -/
def fetchTlb : Tlb :=
  { ctx := 1, priv := false, va := 0x200000, size := 0x200000, pa := 0x200000, key := 1, r := true, w := true, x := true,
    tg := false, cp := 0, d := true, leaves := [] }

/-- The machine about to fetch the instruction of bits `w` for the bow's or the group's party of a new block. -/
def fetchState (s : State) (bow : Bool) (w : Nat) : State :=
  let cid := s.nextChord
  let b := 4 * cid
  let q := 65 * b + if bow then 64 else 0
  let loc := locOf 1 (0x200000 + if bow then 256 else 128)
  let c := clusterOf s 0
  let core := coreOf s 0
  let party : Bool → Party := fun w => newParty w (if w then 64 else 0) 1 (if w then 1 else 0) 0 fetchKernel
  let bytes := (List.range 12).map (fun (i : Nat) => loc + i)
  let s1 := { s with
    power := .on, released := some (s.released.getD 0), cur := none, schedule := ⟨0, .issue q false⟩ :: s.schedule, nextChord := cid + 1,
    parties := (s.parties.insert (65 * b) (party false)).insert (65 * b + 64) (party true), blocks := s.blocks.insert b fetchBlock, chords := s.chords.insert cid fetchChord,
    hist := s.hist.filter (fun (e : Nat × Hist) => !bytes.contains e.1), mem := writeBytes s.mem loc (leBytes 12 w),
    owner := s.owner.insert (lineOf loc) (ownerCode s 1), poison := s.poison.filter (fun l => l != lineOf loc),
    sliceBad := s.sliceBad.filter (fun e => e.1 != lineOf loc) }
  setCore (setCluster s1 0 { c with tlb := fetchTlb :: c.tlb }) 0
    { core with l1 := core.l1.filter (fun l => !(l.tr.ctx == 1 && l.va == 0x200000 + if bow then 256 else 128)),
                ro := core.ro.filter (fun l => l.pline != lineOf loc) }

/-- The bow's stream is the one that accepts the bits (R37). -/
def bowWord (w : Nat) : Bool :=
  match decodeNat (envMax false) w, decodeNat (envMax true) w with
  | .error _, .ok _ => true
  | _, _ => false

end Sys2Proof.Machine
end

