-- ==== Sys2Proof/Machine/Step.lean ====
section
/-!
DEFINITION. The step of the device, and the machine about to fetch a given word.
-/
namespace Sys2Proof.Machine

/-- One step: the next move (log entry 2). -/
def step (s : State) : Host.Outcome State Fault Refusal := move s

/-- `s` with the instruction of an opcode-table row's bits where the very next step fetches (log entry 26). -/
def State.withFetchWord (s : State) (nbits w : Nat) : State := fetchState s (bowWord (w % 2 ^ nbits)) (w % 2 ^ nbits)

end Sys2Proof.Machine
end

