-- ==== Sys2Proof/Safety.lean ====
section
/-!
DEFINITION. The terms in which claims about the machine are made: when an instruction comes to its own effect, what an issue
leaves as it was, what a result on its way is, what reads leave behind them, and the canonical form of memory. A run of this
machine is safe where no step stops: a fault of the hardware is a next state (R429).
-/
namespace Sys2Proof.Machine

/-- The registers as the instruction `ins` of the party `p` reads them (R33). -/
def viewOf (ins : Instr) (i : Insn) (s : State) (c : Cur) (p : Party) (b : Block) : View :=
  earlyView s (readRuns (envOf s p b c.q) ins i) p b

/-- Its executing set (R25). -/
def execSet (ins : Instr) (i : Insn) (s : State) (c : Cur) (p : Party) (b : Block) : Mask :=
  guardMask (viewOf ins i s c p b).lane i.g c.m

/-- The instruction `ins` with operands `i` comes to its own effect at `s`: a party of a held block issues it; under CHECK no
register that it reads is still to be written (R33); its constant operand, where it has one and e is not empty, is read (R23).
`k` is what the effect works on (the party and the block as they are read, e, the constant), `s1` the state it starts from. -/
def Issues (ins : Instr) (i : Insn) (s : State) (k : Ctx) (s1 : State) : Prop :=
  ∃ p b, s.cur = some k.c ∧ s.parties.get? k.c.q = some p ∧ blockOf s k.c.q = some b ∧
    let v := viewOf ins i s k.c p b
    let e := execSet ins i s k.c p b
    let s0 := { s with draws := v.draws }
    (p.check && readsEarly p (readKeys (envOf s p b k.c.q) ins i k.c.m e)) = false ∧
    (e = 0 ∨ constOf (envOf s p b k.c.q) ins i = none → s1 = s0 ∧ k = mkCtx s k.c p v e 0) ∧
    ∀ kc, e ≠ 0 → constOf (envOf s p b k.c.q) ins i = some kc →
      ∃ x, readConst s0 k.c p b (lowLane e % 8) kc = .ok x s1 ∧ k = mkCtx s k.c p v e x

/-- The fragments and split records of a party (R50, R52). -/
def fragsOf (p : Party) : Option Frag × Option Frag × List Frag × AMap Split := (p.slot0, p.slot1, p.spill, p.splits)

/-- The fragment in the issuing slot goes to the next instruction, and what follows from that (R54-R56). -/
def advanced (slot : Bool) (p : Party) : Party :=
  match fragAt p (slotIx slot) with
  | some f => settleFrags (putFrag p (slotIx slot) { f with pc := nextPc f.pc })
  | none => p

/-- The issuing fragment's MASK becomes `g` of it (R79). -/
def masked (slot : Bool) (g : Frag → Mask) (p : Party) : Party :=
  match fragAt p (slotIx slot) with
  | some f => putFrag p (slotIx slot) { f with mask := g f }
  | none => p

/-- The issuing fragment goes to `t` (R73). -/
def jumped (slot : Bool) (t : W64) (p : Party) : Party :=
  match fragAt p (slotIx slot) with
  | some f => settleFrags (putFrag p (slotIx slot) { f with pc := t })
  | none => p

/-- The resolution of a branch or call of `k` in party `p` (R52, R53, R57). -/
def resolved (k : Ctx) (p : Party) (target : W64) (j : Option W64) (link : W64) : Option Party :=
  resolveBranch p (spillDepth k.b.kern) (slotIx k.c.slot) k.e target j (linkOf k) link

/-- The fragments that joined a group-wide issue at `c` go on in state `st` (R62). -/
def joinedOn (c : Cur) (st : FragState) (p : Party) : Party := resumeJoined p (2 + p.spill.length) c.iaddr st

/-- Of a party, `p'` differs from `p` at most in its fragments and in the bookkeeping of its issue: every register, %fflags,
shade copy, private byte, counter, lock, barrier bit, buffered store, copy and publication is as before. -/
def RegistersKept (p p' : Party) : Prop :=
  p' = { p with slot0 := p'.slot0, slot1 := p'.slot1, spill := p'.spill, splits := p'.splits, tokens := p'.tokens,
                nextIssue := p'.nextIssue, lastSlot := p'.lastSlot, lastMem := p'.lastMem, yieldHint := p'.yieldHint, yielded := p'.yielded,
                pend := p'.pend, serial := p'.serial }

/-- Besides the party `q`, `t` differs from `s` at most in what the issue slots note (R77, R184, R185): every field of the
state but `parties` and `cores` is as before, memory among them; another party at most no longer waits for `q` under a YIELD; a
core at most in the last issue of its octants. -/
structure OthersKept (s t : State) (q : Nat) : Prop where
  fields : t = { s with parties := t.parties, cores := t.cores }
  parties : ∀ r, r ≠ q →
    t.parties.get? r = (s.parties.get? r).map (fun p => { p with yielded := p.yielded.filter (fun x => x != q) })
  cores : ∀ c, coreOf t c = { coreOf s c with octs := (coreOf t c).octs } ∧
    (coreOf t c).octs.map (fun o => ({ o with lastIssue := none } : Octant)) =
      (coreOf s c).octs.map (fun o => ({ o with lastIssue := none } : Octant))

/-- The result that an issue adds: the writes `ws` are on their way under the token `token`, with the bounds `rs` that its reads
have raised, or, with no write, nothing is (R30, R31, R320). -/
def resultOf (k : Ctx) (p : Party) (kind : PendKind) (token : Nat) (ws : List RegWrite) (rs : List (Nat × Nat)) : List Pend :=
  if ws = [] then [] else [⟨p.serial, kind, token, k.c.iaddr, k.c.word, ws, rs⟩]

/-- The tokens of a party after an issue whose writes `ws` set `token`. -/
def tokensOf (p : Party) (token : Nat) (ws : List RegWrite) : BitVec 8 :=
  if ws = [] ∨ token = 0 then p.tokens else p.tokens ||| BitVec.ofNat 8 (2 ^ token)

/-- From `s` to `t` the instruction of `k` has issued with the writes `ws` on their way, and with them the bounds `rs`: the issuing party's registers and
everything else are as they were, its fragments go on through `go`, which drops at most writes of %link on their way to
fragments that cease to exist (R55), and its results are those that are left and this one. -/
def IssuedRead (k : Ctx) (s t : State) (go : Party → Party) (kind : PendKind) (token : Nat) (ws : List RegWrite)
    (rs : List (Nat × Nat)) : Prop :=
  OthersKept s t k.c.q ∧
  ∃ p p', s.parties.get? k.c.q = some p ∧ t.parties.get? k.c.q = some p' ∧ RegistersKept p p' ∧
    fragsOf p' = fragsOf (go p) ∧ p'.pend = (go p).pend ++ resultOf k p kind token ws rs ∧ p'.tokens = tokensOf p token ws ∧
    ∃ own, (go p).pend = (cutLinks p own).pend

/-- The same of an instruction whose result has read nothing. -/
def IssuedWith (k : Ctx) (s t : State) (go : Party → Party) (kind : PendKind) (token : Nat) (ws : List RegWrite) : Prop :=
  IssuedRead k s t go kind token ws []

/-- The same for a fixed-latency result of latency `L` on the fragment's way to the next instruction (R30). -/
def FixedResult (k : Ctx) (s t : State) (L : Nat) (ws : List RegWrite) : Prop :=
  IssuedWith k s t (advanced k.c.slot) (.fixed (partyClock s k.c.q + L)) 0 ws

/-- The instruction has issued and nothing is on its way. -/
def IssuedOnly (k : Ctx) (s t : State) : Prop := IssuedWith k s t (advanced k.c.slot) .deliver 0 []

/-- The instruction `ins` completes: wherever it comes to its own effect with `pre`, the machine answers a next state, and that
state is as `post` says. -/
def Completes (ins : Instr) (i : Insn) (pre : Ctx → State → Prop) (post : Ctx → State → State → Prop) : Prop :=
  ∀ s s1 k, Issues ins i s k s1 → pre k s1 → ∃ t, exec ins s = .next t ∧ post k s1 t

/-- A branch or call has been resolved: everything is as it was but the issuing party's fragments, which are those of the
resolution, and the writes of %link on their way to fragments that cease to exist or, for a call that is taken, to this one, which
are dropped (R32, R53, R55, R72). -/
def Branched (k : Ctx) (s t : State) (target : W64) (j : Option W64) (link : W64) (call : Bool) : Prop :=
  OthersKept s t k.c.q ∧
  ∃ p p' p2, s.parties.get? k.c.q = some p ∧ t.parties.get? k.c.q = some p' ∧ RegistersKept p p' ∧
    resolved k (if call ∧ k.e ≠ 0 then cutLink p k.c.slot else p) target j link = some p2 ∧ fragsOf p' = fragsOf p2 ∧
    p'.tokens = p.tokens ∧ p'.pend = p2.pend ∧ ∃ own, p2.pend = (cutLinks p own).pend

/-- The spill area has room for the resolution (R57). -/
def Fits (k : Ctx) (s : State) (target : W64) (j : Option W64) (link : W64) : Prop :=
  ∀ p, s.parties.get? k.c.q = some p → (resolved k p target j link).isSome = true

/-- `ins` completes with a per-lane result of fixed latency `L` in type `t` and no flag: `val` gives each lane's pattern. -/
def IntOf (ins : Instr) (i : Insn) (L : Nat) (t : Ty) (val : Ctx → Nat → Nat) : Prop :=
  Completes ins i (fun k _ => shadeRankBad k i.a = false) (fun k s u => FixedResult k s u L (resultWrites k t i.a (val k)))

/-- The same with a code and flags for each lane (R112, R117). -/
def FloatOf (ins : Instr) (i : Insn) (L : Nat) (t : Ty) (f : Ctx → Nat → FRes) : Prop :=
  Completes ins i (fun k _ => shadeRankBad k i.a = false) (fun k s u =>
    FixedResult k s u L (resultWrites k t i.a (fun l => (f k l).code) ++ flagWrites k (some (fun k l => (f k l).fl))))

/-- A result of variable latency with flags under the token that the instruction sets (R31, R118). -/
def VariableOf (ins : Instr) (i : Insn) (t : Ty) (f : Ctx → Nat → FRes) : Prop :=
  Completes ins i (fun k _ => shadeRankBad k i.a = false) (fun k s u =>
    IssuedWith k s u (advanced k.c.slot) .compute i.h.set.toNat
      (resultWrites k t i.a (fun l => (f k l).code) ++ flagWrites k (some (fun k l => (f k l).fl))))

/-- The same without a flag. -/
def IntVariableOf (ins : Instr) (i : Insn) (t : Ty) (val : Ctx → Nat → Nat) : Prop :=
  Completes ins i (fun k _ => shadeRankBad k i.a = false) (fun k s u =>
    IssuedWith k s u (advanced k.c.slot) .compute i.h.set.toNat (resultWrites k t i.a (val k)))

/-- A group-wide instruction completes: the fragments that joined go on, and the writes of latency `L` are on their way. -/
def WideOf (ins : Instr) (i : Insn) (L : Nat) (ws : Ctx → List RegWrite) : Prop :=
  Completes ins i (fun _ _ => True) (fun k s u => IssuedWith k s u (joinedOn k.c .run) (.fixed (partyClock s k.c.q + L)) 0 (ws k))

/-- An instruction completes with the writes `ws` of latency `L`, whatever they are. -/
def WritesOf (ins : Instr) (i : Insn) (L : Nat) (ws : Ctx → List RegWrite) : Prop :=
  Completes ins i (fun _ _ => True) (fun k s u => FixedResult k s u L (ws k))

/-- A retired party holds nothing more: no fragment, no result on its way, no lock, no private byte, no shade copy (R48, R66,
R194, R352). -/
def Gone (p : Party) : Prop :=
  p.retired = true ∧ p.slot0 = none ∧ p.slot1 = none ∧ p.spill = [] ∧ p.splits = [] ∧ p.pend = [] ∧ p.tokens = 0 ∧
  p.priv = [] ∧ p.hG = [] ∧ p.hL = [] ∧ p.held.all (fun h => h.st == .free) = true

/-- A location of data or of a tag (R360, R393). -/
def isLoc (a : Nat) : Prop := a < 2 ^ 64 + 2 ^ 60

/-- `a` is a byte of A or D in a leaf entry that the translation `x` was made from (R296). -/
def LeafByte (x : Tlb) (a : Nat) : Prop := ∃ l ∈ x.leaves, a = locOf x.ctx l ∨ a = locOf x.ctx l + 1

/-- `a` is such a byte for a translation that some cluster's TLB holds. -/
def TableByte (s : State) (a : Nat) : Prop := ∃ c, ∃ x ∈ (clusterOf s c).tlb, LeafByte x a

/-- `a` is such a byte of a TLB of `s` or of one of `xs`. -/
def EntryByte (s : State) (xs : List Tlb) (a : Nat) : Prop := TableByte s a ∨ ∃ x ∈ xs, LeafByte x a

/-- No leaf entry under another key shares the line of `a`, and none under its key where the line is foreign to it: a write of A
or D makes no other byte of the line unrelated (R393). -/
def Steady (s : State) (es : Nat → Prop) (a : Nat) : Prop :=
  ∀ b, es b → lineOf (dataLoc a) = lineOf (dataLoc b) → keyOf (dataLoc a) = keyOf (dataLoc b) ∧ foreign s a = false

/-- From `s` to `t` lines have come to dies or have left them, as the directory has it (R379-R389): of the cores at most the
lines of their caches and their victim tags differ, and the times of their copies; where one has to wait, the move is to be
undone (R388). -/
structure LinesMoved (s t : State) : Prop where
  fields : t = { s with undone := t.undone, cores := t.cores, vis := t.vis, dir := t.dir, dirReqs := t.dirReqs,
                        dieLine := t.dieLine, sectors := t.sectors, victims := t.victims, backInvs := t.backInvs, dirPtr := t.dirPtr }
  cores : ∀ c, { coreOf t c with victims := [], l1 := [], ro := [] } = { coreOf s c with victims := [], l1 := [], ro := [] }

/-- From `s` to `t` party `q` has looked up addresses and read: of the party at most its bounds have risen (R318) and the places of
its SC Refreshes are noted, and of other parties at most the bounds (R323); of the cores
at most the caches, their times and the octants' miss counts differ (R185, R299, R313); lines have come to dies (R379); of
memory at most the A and D bits of leaf entries, those of translations in a TLB and those of `xs`, have changed (R296), and
where a line with such an entry was foreign its other bytes (R393); no register of any party, nothing else of another party, no
block, no byte of a scratchpad, no special register and no queue has changed. -/
structure Looked (s t : State) (q : Nat) (xs : List Tlb) : Prop where
  fields : t = { s with draws := t.draws, undone := t.undone, parties := t.parties, cores := t.cores, clusters := t.clusters, mem := t.mem,
                        hist := t.hist, vis := t.vis, nextWrite := t.nextWrite, owner := t.owner, ts := t.ts,
                        tgPages := t.tgPages, dropped := t.dropped, dir := t.dir, dirReqs := t.dirReqs, dieLine := t.dieLine,
                        sectors := t.sectors, victims := t.victims, backInvs := t.backInvs, dirPtr := t.dirPtr }
  others : ∀ r, r ≠ q →
    (t.parties.get? r).map (fun p => { p with bnd := [] }) = (s.parties.get? r).map (fun p => { p with bnd := [] })
  own : (t.parties.get? q).map (fun p => { p with bnd := [], scs := [] }) =
    (s.parties.get? q).map (fun p => { p with bnd := [], scs := [] })
  cores : ∀ c, { coreOf t c with octs := [], victims := [], pts := 0, l1 := [], ro := [] } =
      { coreOf s c with octs := [], victims := [], pts := 0, l1 := [], ro := [] } ∧
    (coreOf t c).octs.map (fun o => { o with events := 0 }) = (coreOf s c).octs.map (fun o => { o with events := 0 })
  grows : ∀ a, TableByte s a → TableByte t a
  owner : ∀ l, t.owner.get? l = s.owner.get? l ∨
    ∃ b, EntryByte t xs b ∧ lineOf (dataLoc b) = l ∧ t.owner.get? l = some (ownerCode s (keyOf (dataLoc b)))
  bytes : ∀ a, ¬ EntryByte t xs a → Steady s (EntryByte t xs) a → readByte t.mem a = readByte s.mem a

/-- The precise fault of R39, R151 and R429: the register writes of the party's earlier instructions, which have their values,
are made, the candidate `r` stands for the context, unless it is terminated already, and the party is stopped; memory, blocks,
cores and everything else are as they were. -/
def Faulted (k : Ctx) (s t : State) (r : FaultRec) : Prop :=
  t = modParty (raiseFor (completeWrites s k.c.q) { r with iaddr := k.c.iaddr, word := k.c.word }) k.c.q
    (fun p => { p with stopped := true })

/-- Every fragment of a settled party stays where it is until one issues (R54-R56). -/
def Settled (p : Party) : Prop :=
  mapFrags p joinFrag = p ∧ p.splits.find? (fun e => fuses p e.1 e.2) = none ∧ refill p 0 = p ∧ refill p 1 = p

/-- The memory of the state has its canonical form. -/
def MemOk (s : State) : Prop := Memory.wf s.mem = true

/-- From `s` to `t` a load of `k` has issued, whose read has led from `s` to `u`: the writes `ws` are on their way, and with them the
bounds that the read has raised (R168, R320). -/
def LoadIssued (k : Ctx) (s u t : State) (req : ReadReq) (token : Nat) (ws : List RegWrite) : Prop :=
  Looked s u k.c.q [] ∧
  if ws = [] then IssuedOnly k u t
  else IssuedRead k (holdReads s u k.c.q).2 t (advanced k.c.slot) (.load req) token ws (holdReads s u k.c.q).1

/-- A load or query completes: with no lane in e nothing is on its way; else, where its checks pass and what it reads may be
read (`part`), its data is on its way under the token that it sets, with the bounds that the read has raised, and the read was a
lookup. -/
def LoadOf (ins : Instr) (i : Insn) (req : Ctx → ReadReq) (part : Ctx → State → ReadRes (List RegWrite)) : Prop :=
  Completes ins i (fun k _ => k.e = 0) IssuedOnly ∧
  Completes ins i (fun k s => k.e ≠ 0 ∧ shadeRankBad k i.a = false ∧ ∃ ws u, part k s = .ok ws u)
    (fun k s t => ∃ ws u, part k s = .ok ws u ∧ LoadIssued k s u t (req k) i.h.set.toNat ws)

/-- The translations that accesses go through. -/
def trsOf (as : List Acc) : List Tlb := as.flatMap (fun a => a.trs.map (·.2))

/-- The byte that the last of the cells at `a` gives it. -/
def lastCell (cells : List (Nat × Byte)) (a : Nat) : Option Byte := (cells.reverse.find? (fun c => c.1 == a)).map (·.2)

/-- Every location of `es` in the line of `a` is under the key of `a`. -/
def OneKey (es : Nat → Prop) (a : Nat) : Prop :=
  ∀ b, es b → lineOf (dataLoc a) = lineOf (dataLoc b) → keyOf (dataLoc a) = keyOf (dataLoc b)

/-- From `s` to `t` party `q` has written `cells`, through the translations `xs`, and tags at `loose`: a byte that they name holds
the last of them, unless its port has failed (R392) or its line was written under another key beside; every other byte is as it
was, but for A and D bits of leaf entries, the tags of `loose`, and the rest of a line that was foreign (R393); the rest is as
after lookups. -/
structure Wrote (s t : State) (q : Nat) (xs : List Tlb) (cells : List (Nat × Byte)) (loose : List Nat) : Prop where
  rest : Looked s { t with mem := s.mem, owner := s.owner, stamps := s.stamps } q xs
  written : ∀ a b, ¬ EntryByte t xs a → a ∉ loose → lastCell cells a = some b → portLost s a = false →
    OneKey (fun b => EntryByte t xs b ∨ b ∈ cells.map (·.1) ∨ b ∈ loose) a → readByte t.mem a = b
  kept : ∀ a, ¬ EntryByte t xs a → a ∉ loose → lastCell cells a = none ∨ portLost s a = true →
    Steady s (fun b => EntryByte t xs b ∨ b ∈ cells.map (·.1) ∨ b ∈ loose) a → readByte t.mem a = readByte s.mem a

/-- The party `q` has taken entries into its general-path buffer or, with `scr`, its scratchpad buffer, numbered from its
serial on. -/
def buffered (s : State) (q : Nat) (scr : Bool) (es : List (Nat → BufEntry)) : State :=
  modParty s q (fun p =>
    let l := es.zipIdx.map (fun e => e.1 (p.serial + e.2))
    if scr then { p with sbuf := p.sbuf ++ l, serial := p.serial + l.length }
    else { p with buf := p.buf ++ l, serial := p.serial + l.length })

/-- An instruction that stores completes with its stores `es` in a buffer (R155, R318). -/
def Buffers (k : Ctx) (s t : State) (scr : Bool) (xs : List Tlb) (es : List (Nat → BufEntry)) : Prop :=
  ∃ u, Looked s u k.c.q xs ∧ IssuedOnly k (buffered u k.c.q scr es) t

/-- The fragments that joined the issue of `k` are BLOCKED in `w`, the result `ws` is awaited under `token`, and, but for the
check of R239 and the memory set, everything else is as it was (R62, R185, R217, R223). -/
def BlockedIn (k : Ctx) (s t : State) (w : Wait) (kind : PendKind) (token : Nat) (ws : List RegWrite) : Prop :=
  t = { s with parties := t.parties, cores := t.cores, ctxs := t.ctxs } ∧
  (∀ r, r ≠ k.c.q → t.parties.get? r =
    (s.parties.get? r).map (fun p => { p with yielded := p.yielded.filter (fun y => y != k.c.q) })) ∧
  ∃ p p', s.parties.get? k.c.q = some p ∧ t.parties.get? k.c.q = some p' ∧ RegistersKept p p' ∧
    fragsOf p' = fragsOf (joinedOn k.c (.blocked w) p) ∧
    p'.pend = (joinedOn k.c (.blocked w) p).pend ++ resultOf k p kind token ws [] ∧ p'.tokens = tokensOf p token ws ∧
    ∃ own, (joinedOn k.c (.blocked w) p).pend = (cutLinks p own).pend

/-- What a release makes of a party that has arrived (R217, R219, R289): its IN bit falls, and its fragments that wait there
run, ready from the cycle after `now`, that of the release on its core. -/
def freed (now bit : Nat) (w : Wait) (p : Party) : Party :=
  if inBit p bit then
    let y := unblock (setIn p bit false) w
    if waitsFor p w then { y with nextIssue := max p.nextIssue (now + 1) } else y
  else p

end Sys2Proof.Machine
end

