-- ==== Sys2Proof/Certificates/Slice0/Obligations.lean ====
section
/-!
DEFINITION. The statements for the provers. The terms they are made in stand in Safety.lean.
-/
open Sys2Proof Sys2Proof.Machine

/-! ### Integer, logic, float and conversion instructions: results and frames (spec/05) -/

/-- The integer arithmetic of R119 and R120: each instruction completes wherever it comes to its own effect and its destination
is no hK:g that e does not fill (R198); the exact result of the table, wrapped or clamped (`narrow`), is on its way to the
destination in the lanes of e with the latency of R30; no flag is on its way, and everything else is as it was.

The wrapping and the clamping of R116: the pattern is that of the number congruent modulo 2^w, or that of the nearest limit
of the type; and IABS of lo gives lo, or hi with SAT, INEG of an N type 2^w - b, or 0 with SAT (R119).

Comparison, selection, addresses and the byte products: ISET and SEL (R122), LEA (R123), DP4 (R120).

IDIV and IREM complete for every operand, division by zero among them, with the results of R121: all ones or b where c is 0,
else the quotient truncated toward zero (lo by -1 wraps to lo, or gives hi with SAT) and the remainder with the sign of b; no
flag and no fault. -/
def Obligations.IntegerArithmetic : Prop :=
  ( ∀ (i : Insn) (m : IntMod) (ty : Ty),
      IntOf (.iadd m i) i 4 m.ty (fun k l => narrow m.ty m.sat (operandInt k m.ty i.b l + operandInt k m.ty i.c l)) ∧
      IntOf (.isub m i) i 4 m.ty (fun k l => narrow m.ty m.sat (operandInt k m.ty i.b l - operandInt k m.ty i.c l)) ∧
      IntOf (.imul m i) i 6 m.ty (fun k l => narrow m.ty m.sat (operandInt k m.ty i.b l * operandInt k m.ty i.c l)) ∧
      IntOf (.imulh ty i) i 6 ty (fun k l =>
        narrow ty false ((operandInt k ty i.b l * operandInt k ty i.c l).fdiv ((2 ^ tyWidth ty : Nat) : Int))) ∧
      IntOf (.imad m i) i 6 m.ty (fun k l => narrow m.ty m.sat
        (operandInt k m.ty i.b l * operandInt k m.ty i.c l + operandInt k m.ty (xOpnd i) l)) ∧
      IntOf (.imadw m i) i 6 (wideOf m.ty) (fun k l => narrow (wideOf m.ty) m.sat
        (operandInt k m.ty i.b l * operandInt k m.ty i.c l + operandInt k (wideOf m.ty) (xOpnd i) l)) ∧
      IntOf (.imin ty i) i 4 ty (fun k l => narrow ty false (min (operandInt k ty i.b l) (operandInt k ty i.c l))) ∧
      IntOf (.imax ty i) i 4 ty (fun k l => narrow ty false (max (operandInt k ty i.b l) (operandInt k ty i.c l))) ∧
      IntOf (.iabs m i) i 4 m.ty (fun k l => narrow m.ty m.sat ((operandInt k m.ty i.b l).natAbs : Int)) ∧
      IntOf (.ineg m i) i 4 m.ty (fun k l => narrow m.ty m.sat (-(operandInt k m.ty i.b l)))) ∧
  ( ∀ (t : Ty) (n : Int), tyInt t = true →
      (narrow t false n : Int) = n % ((2 ^ tyWidth t : Nat) : Int) ∧
      tyVal t (narrow t true n) = max (tyLo t) (min (tyHi t) n) ∧
      (tySigned t = true → tyVal t (narrow t false ((tyLo t).natAbs : Int)) = tyLo t ∧
        tyVal t (narrow t true ((tyLo t).natAbs : Int)) = tyHi t) ∧
      (tySigned t = false → 0 < n → n ≤ tyHi t →
        tyVal t (narrow t false (-n)) = ((2 ^ tyWidth t : Nat) : Int) - n ∧ tyVal t (narrow t true (-n)) = 0)) ∧
  ( ∀ (i : Insn),
      (∀ m : IsetMod, IntOf (.iset m i) i 4 .n32 (fun k l =>
        if iCompare m.cmp (operandInt k m.ty i.b l) (operandInt k m.ty i.c l) then (if m.mask then 2 ^ 32 - 1 else 1) else 0)) ∧
      (∀ m : NotMod, IntOf (.sel m i) i 4 m.ty (fun k l =>
        if operandP k (xOpnd i) l != m.inv then operand k m.ty i.b l else operand k m.ty i.c l)) ∧
      (∀ m : LeaMod, IntOf (.lea m i) i 4 .n64 (fun k l =>
        ((operandInt k .n64 i.b l + operandInt k m.ty i.c l * ((2 ^ m.sh.toNat : Nat) : Int)) % ((2 ^ 64 : Nat) : Int)).toNat)) ∧
      (∀ m : Dp4Mod, IntOf (.dp4 m i) i 6 m.ty (fun k l => narrow m.ty m.sat (operandInt k m.ty (xOpnd i) l +
        ((List.range 4).map (fun j => tyVal (if m.sb then .s8 else .n8) (operand k m.ty i.b l / 2 ^ (8 * j)) *
          tyVal (if m.sc then .s8 else .n8) (operand k m.ty i.c l / 2 ^ (8 * j)))).sum)))) ∧
  ( ∀ (i : Insn) (m : IntMod) (ty : Ty),
      IntVariableOf (.idiv m i) i m.ty (fun k l =>
        if operandInt k m.ty i.c l = 0 then 2 ^ tyWidth m.ty - 1
        else narrow m.ty m.sat ((operandInt k m.ty i.b l).tdiv (operandInt k m.ty i.c l))) ∧
      IntVariableOf (.irem ty i) i ty (fun k l =>
        pat (tyWidth ty) (if operandInt k ty i.c l = 0 then operandInt k ty i.b l
          else operandInt k ty i.b l - operandInt k ty i.c l * (operandInt k ty i.b l).tdiv (operandInt k ty i.c l))))

/-- The logic family (R124), each result bit by bit, and the shifts (R125): the count modulo w under WRAP, a count of w or more
giving 0, or for SAR the sign.

The bit-field family (R126), MOV and MOVI (R127) and PRMT (R128). -/
def Obligations.LogicAndMoves : Prop :=
  ( ∀ (i : Insn) (ty : Ty) (m : ShiftMod),
      IntOf (.and ty i) i 4 ty (fun k l => (operand k ty i.b l &&& operand k ty i.c l) % 2 ^ tyWidth ty) ∧
      IntOf (.or ty i) i 4 ty (fun k l => (operand k ty i.b l ||| operand k ty i.c l) % 2 ^ tyWidth ty) ∧
      IntOf (.xor ty i) i 4 ty (fun k l => (operand k ty i.b l ^^^ operand k ty i.c l) % 2 ^ tyWidth ty) ∧
      IntOf (.not ty i) i 4 ty (fun k l => 2 ^ tyWidth ty - 1 - operand k ty i.b l) ∧
      IntOf (.lop3 ty i) i 4 ty (fun k l => lutBits (tyWidth ty) (match i.x with | .lut _ t => t.toNat | _ => 0)
        (operand k ty i.b l) (operand k ty i.c l) (operand k ty (xOpnd i) l)) ∧
      IntOf (.shl m i) i 4 m.ty (fun k l =>
        operand k m.ty i.b l * 2 ^ shiftCount m (operand k .n32 i.c l) % 2 ^ tyWidth m.ty) ∧
      IntOf (.shr m i) i 4 m.ty (fun k l => operand k m.ty i.b l / 2 ^ shiftCount m (operand k .n32 i.c l)) ∧
      IntOf (.sar m i) i 4 m.ty (fun k l => pat (tyWidth m.ty)
        ((sext (tyWidth m.ty) (operand k m.ty i.b l)).fdiv ((2 ^ shiftCount m (operand k .n32 i.c l) : Nat) : Int))) ∧
      IntOf (.rol ty i) i 4 ty (fun k l => rotl (tyWidth ty) (operand k ty i.b l) (operand k .n32 i.c l)) ∧
      IntOf (.fshl ty i) i 4 ty (fun k l =>
        (operand k ty i.b l * 2 ^ tyWidth ty + operand k ty i.c l) * 2 ^ (operand k .n32 (xOpnd i) l % tyWidth ty) /
          2 ^ tyWidth ty % 2 ^ tyWidth ty)) ∧
  ( ∀ (i : Insn) (ty : Ty) (hi : Bool),
      IntOf (.popc ty i) i 4 .n32 (fun k l =>
        ((List.range (tyWidth ty)).filter (fun j => (operand k ty i.b l).testBit j)).length) ∧
      IntOf (.clz ty i) i 4 .n32 (fun k l =>
        if operand k ty i.b l = 0 then tyWidth ty else tyWidth ty - 1 - (operand k ty i.b l).log2) ∧
      IntOf (.ctz ty i) i 4 .n32 (fun k l =>
        ((List.range (tyWidth ty)).find? (fun j => (operand k ty i.b l).testBit j)).getD (tyWidth ty)) ∧
      IntOf (.brev ty i) i 4 ty (fun k l => revBits (tyWidth ty) (operand k ty i.b l)) ∧
      IntOf (.bfx ty i) i 4 ty (fun k l => fieldOf ty (operandInt k ty i.b l) (operand k .n32 i.c l)) ∧
      IntOf (.bfi ty i) i 4 ty (fun k l =>
        putField (tyWidth ty) (operand k ty i.b l) (operand k ty i.c l) (operand k .n32 (xOpnd i) l)) ∧
      IntOf (.mov ty i) i 4 ty (fun k l => operand k ty i.c l) ∧
      IntOf (.movi hi i) i 4 .n64 (fun k l =>
        if hi then operand k .n32 i.c l * 2 ^ 32 + operand k .n64 i.a l % 2 ^ 32
        else operand k .n64 i.a l / 2 ^ 32 * 2 ^ 32 + operand k .n32 i.c l) ∧
      IntOf (.prmt i) i 4 .n32 (fun k l =>
        permute (operand k .n32 i.b l) (operand k .n32 i.c l) (operand k .n32 (xOpnd i) l)))

/-- Floating-point arithmetic of fixed latency (R130-R133): the code and the flags of each lane, element by element for a packed
type.

Division, roots and the approximations, of variable latency (R134, R135). Where R135 bounds a result and does not fix it, the
result is a free value of Config (log entries 3 and 10): the statement holds for each. -/
def Obligations.Floats : Prop :=
  ( ∀ (i : Insn) (m : FMod) (z : FtzMod) (r : FrndMod) (n : NotMod) (ty : Ty),
      FloatOf (.fadd m i) i 5 m.ty (fun k l => byElem m.ty (fun h => fSat (tyFmt m.ty) m.sat (fAdd (tyFmt m.ty) m.rnd m.ftz
        (elemVal m.ty m.ftz (operand k m.ty i.b l) h) (elemVal m.ty m.ftz (operand k m.ty i.c l) h)))) ∧
      FloatOf (.fsub m i) i 5 m.ty (fun k l => byElem m.ty (fun h => fSat (tyFmt m.ty) m.sat (fAdd (tyFmt m.ty) m.rnd m.ftz
        (elemVal m.ty m.ftz (operand k m.ty i.b l) h) (fvalNeg (elemVal m.ty m.ftz (operand k m.ty i.c l) h))))) ∧
      FloatOf (.fmul m i) i 5 m.ty (fun k l => byElem m.ty (fun h => fSat (tyFmt m.ty) m.sat (fMul (tyFmt m.ty) m.rnd m.ftz
        (elemVal m.ty m.ftz (operand k m.ty i.b l) h) (elemVal m.ty m.ftz (operand k m.ty i.c l) h)))) ∧
      FloatOf (.ffma m i) i 5 m.ty (fun k l => byElem m.ty (fun h => fSat (tyFmt m.ty) m.sat (fFma (tyFmt m.ty) m.rnd m.ftz
        (elemVal m.ty m.ftz (operand k m.ty i.b l) h) (elemVal m.ty m.ftz (operand k m.ty i.c l) h)
        (elemVal m.ty m.ftz (operand k m.ty (xOpnd i) l) h)))) ∧
      FloatOf (.fmin z i) i 5 z.ty (fun k l => byElem z.ty (fun h => fMinMax (tyFmt z.ty) false
        (elemVal z.ty z.ftz (operand k z.ty i.b l) h) (elemVal z.ty z.ftz (operand k z.ty i.c l) h))) ∧
      FloatOf (.fmax z i) i 5 z.ty (fun k l => byElem z.ty (fun h => fMinMax (tyFmt z.ty) true
        (elemVal z.ty z.ftz (operand k z.ty i.b l) h) (elemVal z.ty z.ftz (operand k z.ty i.c l) h))) ∧
      IntOf (.fneg ty i) i 5 ty (fun k l => operand k ty i.b l ^^^ signBits ty) ∧
      IntOf (.fabs ty i) i 5 ty (fun k l => operand k ty i.b l &&& (2 ^ tyWidth ty - 1 - signBits ty)) ∧
      IntOf (.fset n i) i 5 n.ty (fun k l => if operandP k i.b l != n.inv then (intCode n.ty 1).code else 0) ∧
      FloatOf (.frnd r i) i 5 r.ty (fun k l => byElem r.ty (fun h =>
        fRnd (tyFmt r.ty) r.rnd r.exact (elemVal r.ty r.ftz (operand k r.ty i.b l) h))) ∧
      IntOf (.fcls z i) i 5 .n32 (fun k l =>
        operand k .n32 i.c l / 2 ^ fClass (tyFmt z.ty) z.ftz (operand k z.ty i.b l) % 2) ∧
      IntOf (.fclsOne z i) i 5 .n32 (fun k l => 2 ^ fClass (tyFmt z.ty) z.ftz (operand k z.ty i.b l))) ∧
  ( ∀ (i : Insn) (m : FdivMod) (z : FtzMod),
      VariableOf (.frcp m i) i m.ty (fun k l =>
        fRcp (tyFmt m.ty) m.rnd m.ftz (elemVal m.ty m.ftz (operand k m.ty i.b l) 0)) ∧
      VariableOf (.fsqrt m i) i m.ty (fun k l =>
        fSqrt (tyFmt m.ty) m.rnd m.ftz (elemVal m.ty m.ftz (operand k m.ty i.b l) 0)) ∧
      VariableOf (.fdiv m i) i m.ty (fun k l => fDiv (tyFmt m.ty) m.rnd m.ftz
        (elemVal m.ty m.ftz (operand k m.ty i.b l) 0) (elemVal m.ty m.ftz (operand k m.ty i.c l) 0)) ∧
      VariableOf (.frsq z i) i z.ty (fun k l => fnApply .rsq z.ty z.ftz (operand k z.ty i.b l)) ∧
      VariableOf (.fex2 z i) i z.ty (fun k l => fnApply .ex2 z.ty z.ftz (operand k z.ty i.b l)) ∧
      VariableOf (.flg2 z i) i z.ty (fun k l => fnApply .lg2 z.ty z.ftz (operand k z.ty i.b l)) ∧
      VariableOf (.fsin z i) i z.ty (fun k l => fnApply .sin z.ty z.ftz (operand k z.ty i.b l)) ∧
      VariableOf (.fcos z i) i z.ty (fun k l => fnApply .cos z.ty z.ftz (operand k z.ty i.b l)) ∧
      VariableOf (.ftnh z i) i z.ty (fun k l => fnApply .tnh z.ty z.ftz (operand k z.ty i.b l)))

/-- Conversions (R137, R138), quantisation and its inverse (R139, R140); DQNT writes a run of registers. Whether a
quiet NaN as scale raises IV in QNT is a free value (log entry 61), and a CVT between integers counts as a writer of %fflags (log entry
64). -/
def Obligations.Conversions : Prop :=
  ∀ (i : Insn) (m : CvtMod) (q : QntMod),
    FloatOf (.cvt m i) i 6 m.dst (fun k l =>
      packed (tyX2 m.src) (fun h => cvtElem m (operand k m.src i.b l / 2 ^ (16 * h))) 0 1) ∧
    FloatOf (.qnt q i) i 6 .n32 (fun k l => qntLane q
      (match i.b with | .v r => (List.range (if q.nib then 8 else 4)).map (fun j => (getV k.p (r.toNat + j) l).toNat) | _ => [])
      (operand k .n32 i.c l)) ∧
    WritesOf (.dqnt q i) i 6 (fun k => dqntWrites q i k ++ flagWrites k (some (fun k l =>
      (List.range (if q.nib then 8 else 4)).foldl (fun f j =>
        f ||| (dqntAt q (operand k .n32 i.b l) (operand k .n32 i.c l) j).fl) 0)))

/-- The predicate instructions (R81-R84). -/
def Obligations.Predicates : Prop :=
  ∀ (i : Insn),
    (∀ m : CmpMod, IntOf (.pset m i) i 4 .n32 (fun k l =>
      if iCompare m.cmp (operandInt k m.ty i.b l) (operandInt k m.ty i.c l) then 1 else 0)) ∧
    (∀ m : FpsetMod, FloatOf (.fpset m i) i 4 .n32 (fun k l =>
      ⟨if (fpsetAt m k i l).1 then 1 else 0, (fpsetAt m k i l).2⟩)) ∧
    (∀ t : BitVec 8, IntOf (.plop t i) i 4 .n32 (fun k l =>
      if t.toNat.testBit ((if operandP k i.b l then 4 else 0) + (if operandP k i.c l then 2 else 0) +
        (if operandP k (xOpnd i) l then 1 else 0)) then 1 else 0)) ∧
    (∀ inv : Bool, IntOf (.pmov inv i) i 4 .n32 (fun k l => if operandP k i.b l != inv then 1 else 0)) ∧
    IntOf (.pmovPack i) i 4 .n32 (fun k l =>
      ((List.range 7).map (fun r => if getP k.p r l then 2 ^ r else 0)).sum + 128) ∧
    WritesOf (.pmovUnpack i) i 4 (fun k => (lanesOf k.e).flatMap (fun l =>
      (List.range 7).map (fun r => .p r l ((operand k .n32 i.b l).testBit r))))

/-- The group-wide lane instructions (R86-R91): they complete for every executing set, the fragments that joined go on, and the
results of the lanes of e are on their way; REDUX and SCAN of a float type raise the flags of their combinations (R90); a
value to which no combination applies passes as it is (the model's reading, log entry 64). -/
def Obligations.GroupWide : Prop :=
  ∀ (i : Insn),
    (∀ m : VoteMod, WideOf (.vote m i) i 6 (fun k => resultWrites k .n32 i.a (fun _ => voteResult m i k))) ∧
    (∀ m : ShflMod, WideOf (.shfl m i) i 8 (fun k =>
      resultWrites k (moveTy m.w64) i.a (fun l => operand k (moveTy m.w64) i.b ((shflLane m i k l).getD l)) ++
      predWrites i (fun k l => (shflLane m i k l).isSome) k)) ∧
    (∀ m : BcastMod, WideOf (.bcast m i) i 6 (fun k =>
      resultWrites k (moveTy m.w64) i.a (fun _ => operand k (moveTy m.w64) i.b (bcastLane m i k)))) ∧
    (∀ m : RedMod, WideOf (.redux m i) i 10 (fun k =>
      resultWrites k m.ty i.a (fun _ => (reduxTree m i k).code) ++
        flagWrites k (if tyInt m.ty then none else some (fun k _ => (reduxTree m i k).fl)))) ∧
    (∀ m : RedMod, WideOf (.scan m i) i 10 (fun k =>
      resultWrites k m.ty i.a (fun l => (scanAt m i k l).code) ++
        flagWrites k (if tyInt m.ty then none else some (fun k _ => scanFlags m i k)))) ∧
    (∀ m : MatchMod, WideOf (.matchOp m i) i 12 (fun k =>
      resultWrites k .n32 i.a (matchAt m i k) ++ predWrites i (fun k _ => unanimous m i k) k))

/-- What overflow gives, by reading, mode and sign, with OF and NX raised (R104), in every format of R94, and that a rounding which
raises OF gives it. Under the non-IEEE readings no rounding produces a NaN code or wraps to one: every magnitude code is at most
that of Max, and the sign is that of the rounded number. -/
def Obligations.Overflow : Prop :=
  ∀ f ∈ [fmtF32, fmtF16, fmtBF16, fmtF8A, fmtF8B], ∀ (neg ftz : Bool) (mode : Rnd) (rd : Reading),
    let gives : Nat → FRes := fun mag => ⟨signed f neg mag, flOF ||| flNX⟩
    (overflow f .rne .ieee neg = gives (fmtInf f) ∧ overflow f .rna .ieee neg = gives (fmtInf f) ∧
      overflow f .rtz .ieee neg = gives (fmtMax f .ieee) ∧
      overflow f .rdn .ieee neg = gives (if neg then fmtInf f else fmtMax f .ieee) ∧
      overflow f .rup .ieee neg = gives (if neg then fmtMax f .ieee else fmtInf f) ∧
      (rd ≠ .ieee → overflow f mode rd neg = gives (fmtMax f rd))) ∧
    (∀ (e : Int) (at_ : Int → Halves),
      let r := roundWith f mode rd ftz neg e at_
      (r.fl &&& flOF ≠ 0 → r = overflow f mode rd neg) ∧
      (rd ≠ .ieee → r.code % fmtSign f ≤ fmtMax f rd ∧ r.code / fmtSign f = if neg then 1 else 0))

/-! ### Control, masks and shade registers (spec/03, spec/09) -/

/-- NOP and YIELD (R77), BRZ (R73) and the mask instructions (R79) complete for every executing set: NOP changes nothing; after
a YIELD with a lane in e the party waits for the parties that its issue found ready (`peers`); BRZ goes to its target where e
is empty; MSET makes MASK e, MSAVE has OWN and MASK on their way to a scalar register, MREST makes MASK b[7:0] AND OWN. Which parties a YIELD
waits for is log entry 13's reading of ready; the moves of fragments between slots and the writes of %link that go with a fusing
fragment are log entry 55's choice.

TRAP (R78): with a lane in e it takes TRAP_INSTR, its code in DETAIL; with none it has no effect.

EXIT (R48, R76): with no lane in e it goes on; else the lanes of e leave the live set and every fragment and split record, no
register changes, of the results on their way at most writes of %link to fragments that fuse are dropped (R55), and a party
without a lane left retires, each lock it held being on its way as a release at .SYS (R352);
what a bow that retires had staged is discarded, and its exit is an arrival at no barrier (R202);
memory, the other parties and everything else are as they were. -/
def Obligations.PlainControl : Prop :=
  ( ∀ (i : Insn),
      Completes (.nop i) i (fun _ _ => True) IssuedOnly ∧
      Completes (.yield i) i (fun _ _ => True) (fun k s t => IssuedOnly k s t ∧
        (k.e ≠ 0 → ∃ p, t.parties.get? k.c.q = some p ∧ p.yielded = k.c.peers)) ∧
      Completes (.brz i) i (fun _ _ => True) (fun k s t => IssuedWith k s t
        (if k.e = 0 then jumped k.c.slot (dispTarget k (xDisp i)) else advanced k.c.slot) .deliver 0 []) ∧
      Completes (.mset i) i (fun _ _ => True) (fun k s t => IssuedWith k s t
        (fun p => advanced k.c.slot (masked k.c.slot (fun _ => k.e) p)) .deliver 0 []) ∧
      WritesOf (.msave i) i 4 (fun k => match i.a with | .s r => [.s r.toNat (masksOf k)] | _ => []) ∧
      Completes (.mrest i) i (fun _ _ => True) (fun k s t => IssuedWith k s t
        (fun p => advanced k.c.slot (masked k.c.slot (fun f => restoreMask k i &&& f.own) p)) .deliver 0 [])) ∧
  ( ∀ (i : Insn),
      Completes (.trap i) i (fun k _ => k.e ≠ 0) (fun k s t =>
        Faulted k s t { partyRec s k.c.q 0x07 with detail := trapCode i }) ∧
      Completes (.trap i) i (fun k _ => k.e = 0) IssuedOnly) ∧
  ( ∀ (i : Insn),
      Completes (.exit i) i (fun k _ => k.e = 0) IssuedOnly ∧
      Completes (.exit i) i (fun k _ => k.e ≠ 0) (fun k s t =>
        t = { s with parties := t.parties, blocks := t.blocks, cores := t.cores, ctxs := t.ctxs } ∧
        (∀ b, (t.blocks.get? b).map (fun x => { x with staged := [] }) = (s.blocks.get? b).map (fun x => { x with staged := [] })) ∧
        (∀ r, r ≠ k.c.q → t.parties.get? r =
          (s.parties.get? r).map (fun p => { p with yielded := p.yielded.filter (fun x => x != k.c.q) })) ∧
        ∃ p p', s.parties.get? k.c.q = some p ∧ t.parties.get? k.c.q = some p' ∧
          p'.live = p.live &&& ~~~k.e ∧ p'.v = p.v ∧ p'.s = p.s ∧ p'.p = p.p ∧ p'.ff = p.ff ∧ p'.ctr = p.ctr ∧
          p'.inb = p.inb ∧ p'.sbuf = p.sbuf ∧ p'.copies = p.copies ∧ p'.pubs = p.pubs ∧
          (p'.live ≠ 0 → p'.retired = p.retired ∧ p'.held = p.held ∧ p'.buf = p.buf ∧ p'.priv = p.priv ∧
            fragsOf p' = fragsOf (settleFrags (exitLanes p (slotIx k.c.slot) k.e)) ∧ ∃ own, p'.pend = (cutLinks p own).pend) ∧
          (¬ (p.bow = true ∧ p'.live = 0) → t.blocks = s.blocks) ∧
          (p.bow = true → p'.live = 0 → ∀ b, t.blocks.get? (bidOf k.c.q) = some b → b.staged = []) ∧
          (p'.live = 0 → Gone p' ∧ p'.buf.map (fun e => (e.kind, e.rel)) = p.buf.map (fun e => (e.kind, e.rel)) ++
            (p.held.filter (fun h => h.st == .held)).map (fun h => (BufKind.unlock h.line, some Scope.sys)))))

/-- Branches and calls (R71, R72): where the spill area has room (R57) and an indirect target is a multiple of 4 (R74), each
resolves the split at its target and join; the taken part of a call gets the address of the next instruction as LINK.

How a branch resolves (R52, R53, R60): with no lane taken the fragment goes on; with every lane of MASK taken it goes to the
target; else it divides: the slot holds the taken lanes at the target, and the rest, which keeps the lanes of OWN that are not
taken, goes on in the other slot where that is free, else in the spill area; a new split record, of the lowest free number from 0 to
6, keeps the parent's OWN, JOIN, SPLIT and LINK, and writes of %link on their way to it are dropped (the model's reading, log
entry 55). (Before the moves of R54-R56, which `settleFrags` makes.)

A taken branch that cannot resolve faults and has no effect: MISALIGNED, with the target as ADDR (the model's reading, log entry
30), where an indirect target is no multiple of 4 (R74), and else, for BRA, BRX, CALL, CALLX and RET alike, DIVERGENCE_OVERFLOW
where the spill area has no room (R57). -/
def Obligations.Branches : Prop :=
  ( ∀ (i : Insn) (join : Bool),
      let ja : Ctx → Option W64 := fun k => if join then some (dispTarget k (braJoin i)) else none
      let jx : Ctx → Option W64 := fun k => if join then some (dispTarget k (xDisp i)) else none
      let even : Ctx → W64 → Prop := fun k t => k.e = 0 ∨ t.toNat % 4 = 0
      Completes (.bra join i) i (fun k s => Fits k s (dispTarget k (xDisp i)) (ja k) (linkOf k))
        (fun k s t => Branched k s t (dispTarget k (xDisp i)) (ja k) (linkOf k) false) ∧
      Completes (.brx join i) i (fun k s => even k (bTarget k i) ∧ Fits k s (bTarget k i) (jx k) (linkOf k))
        (fun k s t => Branched k s t (bTarget k i) (jx k) (linkOf k) false) ∧
      Completes (.call i) i (fun k s => Fits k s (dispTarget k (xDisp i)) (some (nextPc k.c.iaddr)) (nextPc k.c.iaddr))
        (fun k s t => Branched k s t (dispTarget k (xDisp i)) (some (nextPc k.c.iaddr)) (nextPc k.c.iaddr) true) ∧
      Completes (.callx i) i (fun k s => even k (bTarget k i) ∧
          Fits k s (bTarget k i) (some (nextPc k.c.iaddr)) (nextPc k.c.iaddr))
        (fun k s t => Branched k s t (bTarget k i) (some (nextPc k.c.iaddr)) (nextPc k.c.iaddr) true) ∧
      Completes (.ret i) i (fun k s => even k (linkOf k) ∧ Fits k s (linkOf k) (some (linkOf k)) (linkOf k))
        (fun k s t => Branched k s t (linkOf k) (some (linkOf k)) (linkOf k) false)) ∧
  ( ∀ (p : Party) (f : Frag) (sl : Bool) (sd : Nat) (e : Mask) (t : W64) (j : Option W64) (link tlink : W64),
      fragAt p (slotIx sl) = some f →
      let put : Party → Bool → Frag → Party := fun p sl f => if sl then { p with slot1 := some f } else { p with slot0 := some f }
      let res := resolveBranch p sd (slotIx sl) e t j link tlink
      (e = 0 → res = some (settleFrags (put p sl { f with pc := f.pc + 12 }))) ∧
      (e ≠ 0 → f.mask &&& ~~~e = 0 → res = some (settleFrags (put p sl { f with pc := t, link := tlink }))) ∧
      (e ≠ 0 → f.mask &&& ~~~e ≠ 0 →
        let n := freeSplit p
        let taken : Frag := { own := e, mask := e, pc := t, join := j, split := some n, link := tlink, st := .run }
        let rest : Frag := { own := f.own &&& ~~~e, mask := f.mask &&& ~~~e, pc := f.pc + 12, join := j, split := some n,
                             link := link, st := .run }
        let p1 : Party := { put (cutLinks p f.own) sl taken with splits := p.splits.insert n ⟨f.own, f.join, f.split, link⟩ }
        let p2 : Party := if fragAt p (slotIx (!sl)) = none then put p1 (!sl) rest else { p1 with spill := p1.spill ++ [rest] }
        (∀ m, m < n → (p.splits.get? m).isSome = true) ∧ (n < 7 → p.splits.get? n = none) ∧
        res = if sd < p2.splits.length + p2.spill.length then none else some (settleFrags p2))) ∧
  ( ∀ (i : Insn) (join : Bool),
      let bad : Ctx → W64 → Prop := fun k t => k.e ≠ 0 ∧ t.toNat % 4 ≠ 0
      let post : (Ctx → W64) → Ctx → State → State → Prop := fun f k s t =>
        Faulted k s t { partyRec s k.c.q codeMisaligned with addr := f k }
      Completes (.brx join i) i (fun k _ => bad k (bTarget k i)) (post (fun k => bTarget k i)) ∧
      Completes (.callx i) i (fun k _ => bad k (bTarget k i)) (post (fun k => bTarget k i)) ∧
      Completes (.ret i) i (fun k _ => bad k (linkOf k)) (post linkOf) ∧
      let full : (Ctx → W64) → (Ctx → Option W64) → (Ctx → W64) → Ctx → State → Prop := fun tg j link k s =>
        ∀ p, s.parties.get? k.c.q = some p → resolved k p (tg k) (j k) (link k) = none
      let fullTo : (Ctx → W64) → (Ctx → Option W64) → (Ctx → W64) → Ctx → State → Prop := fun tg j link k s =>
        (tg k).toNat % 4 = 0 ∧ full tg j link k s
      let overflows : Ctx → State → State → Prop := fun k s t => Faulted k s t (partyRec s k.c.q codeDiverge)
      let next : Ctx → W64 := fun k => nextPc k.c.iaddr
      let disp : Ctx → W64 := fun k => dispTarget k (xDisp i)
      Completes (.bra join i) i (full disp (fun k => if join then some (dispTarget k (braJoin i)) else none) linkOf) overflows ∧
      Completes (.brx join i) i (fullTo (fun k => bTarget k i) (fun k => if join then some (disp k) else none) linkOf) overflows ∧
      Completes (.call i) i (full disp (fun k => some (next k)) next) overflows ∧
      Completes (.callx i) i (fullTo (fun k => bTarget k i) (fun k => some (next k)) next) overflows ∧
      Completes (.ret i) i (fullTo linkOf (fun k => some (linkOf k)) linkOf) overflows)

/-- The shade instructions (R204-R208). HMOV, UNISON, UNISON.B, HPEEK and HDROP complete, HMOV and HDROP where their destination
is not one of a rank that e does not fill (R198, R208); UNISON.B takes its effect at once, and but for it nothing changes before
the results land.

UNISON.B changes no lane's resolved value and, beside Block(K) and the copies of K, nothing (R206, R209): every live lane of
every group of the block resolves every register to what it did. -/
def Obligations.ShadeInstructions : Prop :=
  ( ∀ (i : Insn),
      IntOf (.hmov false i) i 4 .n32 (fun k l => operand k .n32 i.c l) ∧
      WritesOf (.hmov true i) i 4 (fun k => if k.e = 0 then [] else
        [.stage (shadeIx i.a) (BitVec.ofNat 32 (operand k .n32 i.c (lowLane k.e % 8))) true]) ∧
      WideOf (.unison i) i 4 (fun k => unisonWrites i k) ∧
      Completes (.unisonB i) i (fun _ _ => True) (fun k s t =>
        if k.e = 0 then IssuedOnly k s t
        else FixedResult k (unisonB s k.c.q (shadeIx i.b)).2 t 4
          (resultWrites k .n32 i.a (fun _ => if (unisonB s k.c.q (shadeIx i.b)).1 then 1 else 0))) ∧
      (∀ all, Completes (.hpeek all i) i (fun _ _ => True) (fun k s t =>
        FixedResult k s t 4 (resultWrites k .n32 i.a (fun _ => peekWord s k all (shadeIx i.b))))) ∧
      (∀ m, Completes (.hdrop m i) i (fun k _ => k.p.bow ∨ m = .l ∨ k.e = 0 ∨ k.e = k.p.live)
        (fun k s t => FixedResult k s t 4 (dropWrites m i k)))) ∧
  ( ∀ (s : State) (q k : Nat) (t : State) (ok : Bool), unisonB s q k = (ok, t) →
      t.mem = s.mem ∧
      ∀ r p b, r ∈ blockParties (bidOf q) → s.parties.get? r = some p → p.bow = false → s.blocks.get? (bidOf q) = some b →
        ∃ p' b', t.parties.get? r = some p' ∧ t.blocks.get? (bidOf q) = some b' ∧
          ∀ j l, p.live.has l = true → l < 8 → resolve p' b' j l = resolve p b j l)

/-- SHADE_RANK (R198, R208): a group's write to hK:g, by any instruction that can have a shade register as destination, and its
HDROP.G or HDROP.ALL, with an executing set that is not empty and not the live set faults at issue and has no effect. That this
check comes before those of an access is the model's reading (log entry 27). -/
def Obligations.ShadeRank : Prop :=
  ∀ (i : Insn),
    let part : Ctx → Prop := fun k => k.p.bow = false ∧ k.e ≠ 0 ∧ k.e ≠ k.p.live
    let post : Ctx → State → State → Prop := fun k s t => Faulted k s t (partyRec s k.c.q 0x40)
    (∀ (env : Env) (ins : Instr) (long : Bool) (r : BitVec 5), env.bow = false → WellFormed env ins = true →
      insnOf ins = some i → (shapeOf long env ins).a.dst = true → allows (shapeOf long env ins).a.allow aH = true →
      i.a = .h r .g → Completes ins i (fun k _ => part k) post) ∧
    (∀ m, m ≠ .l → Completes (.hdrop m i) i (fun k _ => part k) post)

/-! ### Memory instructions (spec/06, spec/15) -/

/-- Read (R320): each byte of a lane is the newest buffered store of the party that covers it, else the latest write visible at
the one source point of the lane, the innermost of the path at which no byte is older than the party's bound; the bounds rise
to the writes that were read. (For bytes under the party's own key that are not private to another party.) -/
def Obligations.ReadRule : Prop :=
  ∀ (s : State) (q : Nat) (path : Path) (as : List Nat) (bs : List Byte) (t : State),
    (∀ a ∈ as, foreign s a = false ∧ loosePrivate s q a = false) → readCells s q path as = some (bs, t) →
    Looked s t q [] ∧
    ∃ pt, (sourcePoint s q path (as.filter (fun a => (bufByte (bufOf s q path) a).isNone)) = some pt ∨
        ∀ a ∈ as, (bufByte (bufOf s q path) a).isSome = true) ∧
      bs = as.map (fun a => (bufByte (bufOf s q path) a).getD (latest s pt a).2) ∧
      (∀ a ∈ as, bufByte (bufOf s q path) a = none →
        coIx s a (boundOf s q path a) ≤ coIx s a (latest s pt a).1 ∧
        (∀ p, s.parties.get? q = some p → coIx s a (latest s pt a).1 ≤ coIx s a (boundOf t q path a)))

/-- The checks of a lane come in the order of R150: alignment (0x10), canonical form (0x11), bounds (0x12).

Every lane is checked in ascending order, and the lowest lane whose check fails with an exception gives the fault (R151):
no lane before it fails so, whatever pages they found not resident.

Loads and stores whose checks fail in a lane fault with that lane, its code and its address, and have no effect (R150,
R151): no register changes, and of memory at most A bits, which a walk sets whatever comes of the access. -/
def Obligations.AccessChecks : Prop :=
  ( ∀ (s : State) (p : Party) (b : Block) (sp : Space) (n : Nat) (perm : Perm) (lane : Nat) (ea : Int),
      let r := (checkLane s p b sp n perm lane ea).1
      (ea % (n : Int) ≠ 0 → r = .fault 0x10 0 0) ∧
      (ea % (n : Int) = 0 → sp = .global → 2 ^ 57 ≤ ea → r = .fault 0x11 0 0) ∧
      (ea % (n : Int) = 0 → ¬ (sp = .global ∧ 2 ^ 57 ≤ ea) → ea < 0 ∨ (spaceExtent s p b sp : Int) < ea + n →
        r = .fault 0x12 0 0)) ∧
  ( ∀ (f : State → Nat → Int → LaneRes × State) (nr : Bool) (ls : List (Nat × Int)) (s t : State) (code l level : Nat)
      (d : BitVec 32) (ea : Int), checkLanes f nr ls s = (.fault code l level d ea, t) →
      let at_ : List (Nat × Int) → State := fun pre => pre.foldl (fun s x => (f s x.1 x.2).2) s
      ∃ pre post, ls = pre ++ (l, ea) :: post ∧ (f (at_ pre) l ea).1 = .fault code level d ∧
        t = (f (at_ pre) l ea).2 ∧
        ∀ pre2 x rest, pre = pre2 ++ x :: rest → ∀ c v e, (f (at_ pre2) x.1 x.2).1 ≠ .fault c v e) ∧
  ( ∀ (i : Insn),
      let bad : (Ctx → State → Checked × State) → Ctx → State → Prop := fun f k s =>
        k.e ≠ 0 ∧ shadeRankBad k i.a = false ∧ ∃ code l level d ea u, f k s = (.fault code l level d ea, u)
      let post : (Ctx → State → Checked × State) → Ctx → State → State → Prop := fun f k s t =>
        ∃ code l level d ea u, f k s = (.fault code l level d ea, u) ∧ Looked s u k.c.q [] ∧
          Faulted k u t { partyRec u k.c.q code with
            lane := l, level := level, detail := d, addr := BitVec.ofInt 64 ea }
      let chk : Space → Nat → Perm → Bool → (Ctx → List (Nat × Int)) → Ctx → State → Checked × State :=
        fun sp n perm nr ls k s => checkLanes (fun s l ea => checkLane s k.p k.b sp n perm l ea) nr (ls k) s
      let scr : Nat → (Ctx → List (Nat × Int)) → Ctx → State → Checked × State :=
        fun n ls k s => checkLanes (checkScratch k.b n) false (ls k) s
      (∀ m : LdMod,
        let f : Ctx → State → Checked × State := chk m.space (widthBytes m.width) permR false
          (fun k => laneEas k i (m.space == .global) true (oneAccess i))
        Completes (.ld m i) i (bad f) (post f)) ∧
      (∀ m : LdnrMod,
        let f : Ctx → State → Checked × State := chk .global (widthBytes m.width) permR true (fun k => laneEas k i true true false)
        Completes (.ldnr m i) i (bad f) (post f)) ∧
      (∀ m : WidthMod,
        let f : Ctx → State → Checked × State := scr (widthBytes m.width) (fun k => laneEas k i false true (oneAccess i))
        Completes (.lds m i) i (bad f) (post f)) ∧
      (∀ m : WidthMod,
        let f : Ctx → State → Checked × State := fun k s =>
          checkLanes (checkConst k.p k.b (bankOf i) (widthBytes m.width)) false (laneEas k i false false (oneAccess i)) s
        Completes (.ldc m i) i (bad f) (post f)) ∧
      (∀ m : StMod,
        let f : Ctx → State → Checked × State := chk m.space (widthBytes m.width) permW false
          (fun k => laneEas k i (m.space == .global) true (uniformStore i))
        Completes (.st m i) i (bad f) (post f)) ∧
      (∀ w : Width,
        let f : Ctx → State → Checked × State := scr (widthBytes w) (fun k => laneEas k i false true (uniformStore i))
        Completes (.sts w i) i (bad f) (post f)) ∧
      (∀ m : AtomMod,
        let f : Ctx → State → Checked × State := chk .global (tyWidth m.ty / 8) permRW false (fun k => atomEas k i true)
        Completes (.atom m i) i (bad f) (post f)) ∧
      (∀ m : RedOpMod,
        let f : Ctx → State → Checked × State := chk .global (tyWidth m.ty / 8) permW false (fun k => atomEas k i true)
        Completes (.red m i) i (bad f) (post f)) ∧
      (∀ m : AtomsMod,
        let f : Ctx → State → Checked × State := scr (tyWidth m.ty / 8) (fun k => atomEas k i false)
        Completes (.atoms m i) i (bad f) (post f)))

/-- Loads and queries (R154-R161, R187-R192, R345, R367, R445) complete where their checks pass and what they read may be read
yet; LKQRY reads its record at issue (the model's choice, log entry 66).

A plain load of the global space (R146, R154, R155): its accesses passed their checks, none of them takes a byte from a poisoned line (R153), and
its writes are those of the bytes read lane by lane. -/
def Obligations.Loads : Prop :=
  ( ∀ (i : Insn),
      (∀ m : LdMod,
        let req : Ctx → ReadReq := fun k => .mem (laneEas k i (m.space == .global) true (oneAccess i)) m.space
          m.width m.sx m.order (xScope i) (m.cache == .nol1) i.a none
        LoadOf (.ld m i) i req (fun k s => loadPart s k.c k.p k.b (req k))) ∧
      (∀ m : LdnrMod,
        let req : Ctx → ReadReq := fun k => .mem (laneEas k i true true false) .global m.width m.sx
          (if m.ro then .ro else .plain) .grp (m.cache == .nol1) i.a (some m.p)
        LoadOf (.ldnr m i) i req (fun k s => loadPart s k.c k.p k.b (req k))) ∧
      (∀ m : WidthMod,
        let req : Ctx → ReadReq := fun k =>
          .const (laneEas k i false false (oneAccess i)) (bankOf i) m.width m.sx i.a
        LoadOf (.ldc m i) i req (fun k s => loadPart s k.c k.p k.b (req k))) ∧
      (∀ m : WidthMod,
        let req : Ctx → ReadReq := fun k => .scratch (laneEas k i false true (oneAccess i)) m.width m.sx i.a
        LoadOf (.lds m i) i req (fun k s => loadPart s k.c k.p k.b (req k))) ∧
      (∀ line : Bool, LoadOf (.tagrd line i) i (fun k => .tag (laneEas k i true true (oneAccess i)) line i.a)
        (fun k s => tagPart s k.c k.p k.b (laneEas k i true true (oneAccess i)) line i.a)) ∧
      LoadOf (.lkqry i) i (fun k => .lkq (sbEa k i) i.a) (fun k s => lkqPart s k.c k.p k.b (sbEa k i) (lowLane k.e % 8) i.a) ∧
      LoadOf (.cnsqry i) i (fun k => .cns (sbEa k i) i.a) (fun k s => cnsPart s k.c k.p k.b (sbEa k i) (lowLane k.e % 8) i.a) ∧
      (∀ n : BitVec 10, Completes (.rdsr n i) i (fun k _ => k.e ≠ 0) (fun k s t =>
        IssuedWith k s t (advanced k.c.slot) (.load (.sr n.toNat k.e i.a)) i.h.set.toNat (srWrites s k.p k.b n.toNat k.e i.a)))) ∧
  ( ∀ (s : State) (c : Cur) (p : Party) (b : Block) (lanes : List (Nat × Int)) (w : Width) (sx nol1 : Bool) (dst : Opnd)
      (ws : List RegWrite) (u : State), loadMem s c p b lanes .global w sx .plain .grp nol1 dst none = .ok ws u →
      ∃ (as : List Acc) (s1 : State) (data : List (Nat × List Byte)), checkLanes (fun s l ea => checkLane s p b .global (widthBytes w) permR l ea) false lanes s = (.ok as, s1) ∧
        as.map (fun a => (a.lane, a.ea)) = lanes ∧ data.length = as.length ∧
        (∀ (n : Nat) (a : Acc) (d : Nat × List Byte), as[n]? = some a → data[n]? = some d → d.1 = a.lane ∧
          ∃ v v2, Looked s v c.q [] ∧ (∀ l ∈ a.locs, bufByte (bufOf v c.q .general) l = none → poisoned v l = false) ∧
            readCells v c.q .general a.locs = some (d.2, v2)) ∧
        ((lanes.map (·.1)).Nodup → ws = loadWrites p w sx dst data))

/-- CAPS0 to CAPS3, which are also %caps0 to %caps3 (R45), and CORE_ID (R189), on every core, in every state: each bit as its table
gives it, the reserved ones 0. -/
def Obligations.FixedSystemRegisters : Prop :=
  ∀ (s : State) (p : Party) (b : Block),
    (∀ j, (sysRead s p b 0x000).testBit j = decide (j < 12)) ∧
    (∀ n, n = 0x001 ∨ n = 0x002 ∨ n = 0x003 → sysRead s p b n = 0) ∧
    (∀ (k : Ctx) (l : Nat), special k l .caps0 = sysRead s p b 0x000 ∧ special k l .caps1 = sysRead s p b 0x001 ∧
      special k l .caps2 = sysRead s p b 0x002 ∧ special k l .caps3 = sysRead s p b 0x003) ∧
    (b.core < 288 →
      let id := sysRead s p b 0x008
      id % 512 = b.core ∧ id / 512 % 128 = cluOf b.core ∧ id / 65536 % 4 = dieOf b.core ∧ id / 2 ^ 18 % 8 = octOf b p % 8 ∧
        id / 2 ^ 21 = 0 ∧ cluOf b.core = b.core / 4 ∧ dieOf b.core = b.core / 72)

/-- What RDSR reads (R187, R190-R192): GRP_CTL with its CHECK bit; ISSUE_CTL, MODE 3 as 0; LOC_SCORE, the octant's score,
saturating, and its N; and 0 for a number that names nothing, which no legal word holds (R187). CAPS0 to CAPS3 and CORE_ID stand in
`FixedSystemRegisters`.

WRSR (R187, R188, R190): GRP_CTL takes its CHECK bit from bit 0 of the source; a write of any other number faults with
PROTECTION; with no lane in e nothing happens.

PREF and CCTL (R163, R164) complete and change no register and no byte of memory; PREF changes nothing at all, since the model
drops every prefetch, as R163 allows (log entry 22). -/
def Obligations.SystemRegisters : Prop :=
  ( ∀ (s : State) (p : Party) (b : Block),
      (∀ n, n ∉ [0x000, 0x008, 0x010, 0x018, 0x019] → sysRead s p b n = 0) ∧
      sysRead s p b 0x010 = (if p.check then 1 else 0) ∧
      (let c := coreOf s b.core
       sysRead s p b 0x018 = (if c.mode = 3 then 0 else c.mode % 4) + 256 * (c.fixn % 128) ∧
       ∀ o, c.octs[octOf b p]? = some o → sysRead s p b 0x019 = min 0xFFFF o.score + 65536 * (o.n % 128))) ∧
  ( ∀ (i : Insn) (n : BitVec 10),
      Completes (.wrsr n i) i (fun k _ => k.e = 0) IssuedOnly ∧
      Completes (.wrsr 0x010 i) i (fun k _ => k.e ≠ 0) (fun k s t => IssuedOnly k
        (modParty s k.c.q (fun p => { p with check := operand k .n32 i.b (lowLane k.e % 8) % 2 == 1 })) t) ∧
      (n ≠ 0x010 → Completes (.wrsr n i) i (fun k _ => k.e ≠ 0) (fun k s t =>
        Faulted k s t (partyRec s k.c.q 0x11)))) ∧
  ( ∀ (i : Insn),
      (∀ t : PrefTarget, Completes (.pref t i) i (fun _ _ => True) IssuedOnly) ∧
      (∀ op : CctlOp, Completes (.cctl op i) i (fun _ _ => True) (fun k s t =>
        ∃ u, IssuedOnly k u t ∧ u = { s with cores := u.cores } ∧ (k.e = 0 → u = s) ∧
          ∀ c, { coreOf u c with l1 := [], victims := [], ro := [] } = { coreOf s c with l1 := [], victims := [], ro := [] })))

/-- Stores into a buffer (R154-R156, R161, R318): ST to the global or pin space, plain or .REL, and STS complete where their
checks pass; each access is one entry with the bytes of its lane and, on a page with TG, the clearing of reference bits; memory
is as it was but for A and D bits.

ST.SC to the global or pin space (R323): where its release condition holds and no LOCK of the party is outstanding it is
performed at once, and the last byte that its lanes give a location is there. Where that does not hold it waits.

ST to the private space (R157): the private bytes of each lane are those of its data, but where their port has failed (R392); no
other private byte, no register and no byte of memory but A and D bits and the rest of a line that held another key's data (R393)
changes. -/
def Obligations.Stores : Prop :=
  ( ∀ (i : Insn),
      (∀ m : StMod, m.space ≠ .priv → m.order ≠ .sc →
        let chk : Ctx → State → Checked × State := fun k s =>
          checkLanes (fun s l ea => checkLane s k.p k.b m.space (widthBytes m.width) permW l ea) false
            (laneEas k i (m.space == .global) true (uniformStore i)) s
        Completes (.st m i) i (fun k _ => k.e = 0) IssuedOnly ∧
        Completes (.st m i) i (fun k s => k.e ≠ 0 ∧ ∃ as u, chk k s = (.ok as, u)) (fun k s t =>
          ∃ as u, chk k s = (.ok as, u) ∧ Buffers k s t false (trsOf as) (as.map (fun a n =>
            ⟨n, .store, accCells a (storeBytes k (widthBytes m.width) i.a a.lane), accTags a,
              if m.order = .rel then some (xScope i) else none, false⟩)))) ∧
      (∀ w : Width,
        let chk : Ctx → State → Checked × State := fun k s =>
          checkLanes (checkScratch k.b (widthBytes w)) false (laneEas k i false true (uniformStore i)) s
        Completes (.sts w i) i (fun k _ => k.e = 0) IssuedOnly ∧
        Completes (.sts w i) i (fun k s => k.e ≠ 0 ∧ ∃ as u, chk k s = (.ok as, u)) (fun k s t =>
          ∃ as u, chk k s = (.ok as, u) ∧ Buffers k s t true [] (as.map (fun a n =>
            ⟨n, .store, accCells a (storeBytes k (widthBytes w) i.a a.lane), [], none, false⟩))))) ∧
  ( ∀ (i : Insn) (m : StMod), m.space ≠ .priv → m.order = .sc →
      let chk : Ctx → State → Checked × State := fun k s =>
        checkLanes (fun s l ea => checkLane s k.p k.b m.space (widthBytes m.width) permW l ea) false
          (laneEas k i (m.space == .global) true (uniformStore i)) s
      Completes (.st m i) i (fun k s => k.e ≠ 0 ∧ ∃ as u, chk k s = (.ok as, u) ∧ scStoreWaits u k i .sc = false)
        (fun k s t => ∃ as u v, chk k s = (.ok as, u) ∧ IssuedOnly k v t ∧
          Wrote s v k.c.q (trsOf as) (as.flatMap (fun a => accCells a (storeBytes k (widthBytes m.width) i.a a.lane)))
            ((as.flatMap accTags).map tagAt)) ∧
      ∀ s s1 k, Issues (.st m i) i s k s1 → k.e ≠ 0 → (∃ as u, chk k s1 = (.ok as, u) ∧ scStoreWaits u k i .sc = true) →
        exec (.st m i) s = .next s) ∧
  ( ∀ (i : Insn) (m : StMod), m.space = .priv → m.order = .plain →
      let chk : Ctx → State → Checked × State := fun k s =>
        checkLanes (fun s l ea => checkLane s k.p k.b .priv (widthBytes m.width) permW l ea) false
          (laneEas k i false true (uniformStore i)) s
      Completes (.st m i) i (fun k s => k.e ≠ 0 ∧ ∃ as u, chk k s = (.ok as, u)) (fun k s t =>
        ∃ (as : List Acc) (u v : State) (f : AMap Byte → AMap Byte), chk k s = (.ok as, u) ∧
          let cells := as.flatMap (fun a => accCells a (storeBytes k (widthBytes m.width) i.a a.lane))
          let entry : Nat → Prop := EntryByte v (trsOf as)
          Looked s { v with mem := s.mem, owner := s.owner } k.c.q (trsOf as) ∧
          (∀ a, ¬ entry a → Steady s (fun b => entry b ∨ b ∈ cells.map (·.1)) a → readByte v.mem a = readByte s.mem a) ∧
          IssuedOnly k (modParty v k.c.q (fun p => { p with priv := f p.priv })) t ∧
          ∀ g x, (f g).get? x = match (if portLost s x then none else lastCell cells x) with
            | some b => some b
            | none => g.get? x))

/-- ATOM (R328, R329) completes where its checks pass, no lane would receive poison, no older store of the party to its bytes is
unperformed and its release part, if it has one, may be taken; its lanes step in ascending order, and their old values are on
their way. ATOMS (R229, R230) does the same in the scratchpad, where only the bytes of its lanes change.

One step of an ATOM (R324, R328, R329): the lane gets the last write in coherence order, and the location holds the new
value, the old one combined with the operand; every other byte is as it was, but for D bits and tags of the page's words.

RED (R306, R330) completes where its checks pass: one entry for each of its lanes is in the buffer, and a lane that R306 admits, with
nothing older of its party before it, is in its cluster's combining buffer beside. Where it does not combine, or the combining
buffer has room for its lanes, no LOCK or TRYLOCK of the party is outstanding and no entry of the party touches their bytes, nothing
is performed and memory is as it was but for A and D bits. -/
def Obligations.Atomics : Prop :=
  ( ∀ (i : Insn),
      (∀ m : AtomMod,
        let chk : Ctx → State → Checked × State := fun k s =>
          checkLanes (fun s l ea => checkLane s k.p k.b .global (tyWidth m.ty / 8) permRW l ea) false (atomEas k i true) s
        Completes (.atom m i) i (fun k _ => k.e = 0) IssuedOnly ∧
        Completes (.atom m i) i (fun k s => k.e ≠ 0 ∧ shadeRankBad k i.a = false ∧ ∃ as u, chk k s = (.ok as, u) ∧
            poisonFault u k.c as = none ∧ bufTouches k.p.buf as = false ∧
            (atomReleases m.order = true → releaseReady u k.c.q (xScope i) = true)) (fun k s t =>
          ∃ as u v, chk k s = (.ok as, u) ∧ Looked s u k.c.q [] ∧
            let w := dirtyPages u k.core as
            let r := as.foldl (atomStep k m i) ([], w)
            Looked u w k.c.q (trsOf as) ∧ r.1.map (·.1) = as.map (·.lane) ∧ Looked r.2 v k.c.q [] ∧ v.mem = r.2.mem ∧
            IssuedWith k v t (advanced k.c.slot) .deliver i.h.set.toNat (atomWrites k m.ty i r.1))) ∧
      (∀ m : AtomsMod,
        let chk : Ctx → State → Checked × State := fun k s =>
          checkLanes (checkScratch k.b (tyWidth m.ty / 8)) false (atomEas k i false) s
        Completes (.atoms m i) i (fun k _ => k.e = 0) IssuedOnly ∧
        Completes (.atoms m i) i (fun k s => k.e ≠ 0 ∧ shadeRankBad k i.a = false ∧
            ∃ as u, chk k s = (.ok as, u) ∧ bufTouches k.p.sbuf as = false) (fun k s t =>
          ∃ as b, chk k s = (.ok as, s) ∧ blockOf s k.c.q = some b ∧
            let r := as.foldl (atomsStep k m i) ([], b)
            r.1.map (·.1) = as.map (·.lane) ∧ r.2 = { b with sp := r.2.sp } ∧
            (∀ x, (∀ a ∈ as, x < a.ea.toNat ∨ a.ea.toNat + tyWidth m.ty / 8 ≤ x) → r.2.sp.getD x 0 = b.sp.getD x 0) ∧
            IssuedWith k (setBlock s (bidOf k.c.q) r.2) t (advanced k.c.slot) .deliver i.h.set.toNat (atomWrites k m.ty i r.1)))) ∧
  ( ∀ (k : Ctx) (m : AtomMod) (i : Insn) (l : List (Nat × FRes)) (s : State) (a : Acc),
      let n := tyWidth m.ty / 8
      let loc := a.locs.headD 0
      let old := lastValue s loc n
      let x := atomNew m.ty m.op old (atomArg k m.ty i a.lane) (atomSwap k m.ty i a.lane)
      (∀ j, j < n → foreign s (loc + j) = false) → loc + n ≤ 2 ^ 64 → (∀ o ∈ accTags a, isLoc (tagAt o)) →
        let r := atomStep k m i (l, s) a
        r.1 = l ++ [(a.lane, ⟨old, x.fl⟩)] ∧
        Wrote s r.2 k.c.q (a.trs.map (·.2)) (cellsOf loc (bytesOf n x.code)) ((accTags a).map tagAt)) ∧
  ( ∀ (i : Insn) (m : RedOpMod),
      let chk : Ctx → State → Checked × State := fun k s =>
        checkLanes (fun s l ea => checkLane s k.p k.b .global (tyWidth m.ty / 8) permW l ea) false (atomEas k i true) s
      let at_ : Ctx → List Acc → State → State := fun k as u => redLanes k m i (dirtyPages u k.core as) as
      let admits := !m.rel && combinable m.ty m.op (xScope i)
      let entry : Ctx → Bool → Acc → Nat → BufEntry := fun k joins a n =>
        ⟨n, .red m.op m.ty (a.locs.headD 0) (BitVec.ofNat 64 (atomArg k m.ty i a.lane)) (xScope i), [], accTags a,
          if m.rel then some (xScope i) else none, joins⟩
      Completes (.red m i) i (fun k _ => k.e = 0) IssuedOnly ∧
      Completes (.red m i) i (fun k s => k.e ≠ 0 ∧ ∃ as u, chk k s = (.ok as, u)) (fun k s t =>
        ∃ as u, chk k s = (.ok as, u) ∧ Looked s u k.c.q [] ∧ IssuedOnly k (at_ k as u) t) ∧
      (∀ (k : Ctx) (s : State) (a : Acc) (p : Party), s.parties.get? k.c.q = some p →
        let loc := a.locs.headD 0
        let joins := admits && mayCombine s k.c.q p.serial (addrs loc (tyWidth m.ty / 8))
        (joins = false → redLane k m i s a = buffered s k.c.q false [entry k false a]) ∧
        (joins = true → redLane k m i s a =
          buffered (combineRed s (cluOf k.core) k.p.ctx loc m.ty m.op k.c.q p.serial) k.c.q false [entry k true a])) ∧
      Completes (.red m i) i (fun k s => k.e ≠ 0 ∧ ∃ as u, chk k s = (.ok as, u) ∧ (admits = true →
          (∀ n, lockOutstanding u k.c.q n = false) ∧ bufTouches k.p.buf as = false ∧
          (clusterOf u (cluOf k.core)).comb.length + as.length ≤ 64)) (fun k s t =>
        ∃ as u, chk k s = (.ok as, u) ∧ Buffers k s t false (trsOf as) (as.map (entry k admits))))

/-- FENCE (R322, R332) waits until its release condition holds and then completes; one with an acquire part has raised the
general bound of every byte that is not private to the latest write at its point, which for an SC fence is taken at its place
among the accesses that the model puts before it (R323; that set and its moment are the model's reading, log entry 20). PFENCE (R333) waits until the party's general
stores are performed; then the bounds of the paths that it names have reached the general bounds. Neither changes memory. -/
def Obligations.Fences : Prop :=
  ∀ (i : Insn),
    (∀ m : FenceMod,
      Completes (.fence m i) i (fun k _ => k.e = 0) IssuedOnly ∧
      Completes (.fence m i) i (fun k s => k.e ≠ 0 ∧ (fenceReleases m.kind = true → releaseReady s k.c.q m.scope = true))
        (fun k s t => ∃ u, Looked s u k.c.q [] ∧ u.mem = s.mem ∧ IssuedOnly k u t ∧
          (fenceAcquires m.kind = true → ∀ a, (s.hist.get? a).isSome = true → isPrivate s a = false →
            let pts := if m.kind = .sc then earlier s (scPlace s k.core) else s
            coIx s a (latest pts (scopePoint s k.c.q m.scope) a).1 ≤ coIx s a (boundOf u k.c.q .general a))) ∧
      ∀ s s1 k, Issues (.fence m i) i s k s1 → k.e ≠ 0 → fenceReleases m.kind = true →
        releaseReady s1 k.c.q m.scope = false → exec (.fence m i) s = .next s) ∧
    (∀ pf : PfencePath,
      Completes (.pfence pf i) i (fun k _ => k.e = 0) IssuedOnly ∧
      Completes (.pfence pf i) i (fun k s => k.e ≠ 0 ∧ k.p.buf.any isStoreEntry = false ∧ ∀ a, coIx s a 0 = 0)
        (fun k s t => ∃ u, Looked s u k.c.q [] ∧ u.mem = s.mem ∧ IssuedOnly k u t ∧
          ∀ path a, (path = .ro ∧ pf ≠ .plane ∨ (∃ j, path = .plane j) ∧ pf ≠ .ro) →
            coIx s a (boundOf s k.c.q .general a) ≤ coIx s a (boundOf u k.c.q path a)) ∧
      ∀ s s1 k, Issues (.pfence pf i) i s k s1 → k.e ≠ 0 → k.p.buf.any isStoreEntry = true → exec (.pfence pf i) s = .next s)

/-! ### Line locks (spec/16) -/

/-- LOCK and TRYLOCK (R342, R343): with no lane in e they go on. Else, where the checks pass, a line that the party's held table
names, reserved entries with it (the model's reading, log entry 33), gives ALREADY_HELD at once, a table with no free slot TABLE_FULL at once, and otherwise the lowest free slot is
reserved, the status awaited, and a request with the party's GID, scope and deadline is on its way; the party of a LOCK is then
BLOCKED. No lock record, no register and no byte of memory but A bits changes at issue.

UNLOCK (R338, R344): with no lane in e it goes on. Where the party holds the line its slot is free at once, and the UNLOCK
is in its buffer as a release at its scope; where it does not, QUEUE_MISUSE, with LANE and ADDR as log entry 30 reads R426. -/
def Obligations.LockInstructions : Prop :=
  ( ∀ (i : Insn) (sc : Scope),
      let ok : Ctx → State → Tlb → State → Prop := fun k s x u =>
        k.e ≠ 0 ∧ checkVa s k.core k.p.ctx false (sbEa k i) permRW = (.ok x, u)
      let line : Ctx → Tlb → Nat := fun k x => trPa x (sbEa k i) / 128
      let sent : Ctx → State → State → Tlb → Nat → Bool → Option Nat → (Party → Party) → Prop :=
        fun k u t x slot try_ dl go =>
          t = { u with parties := t.parties, cores := t.cores, lockReqs := t.lockReqs } ∧
          (∀ r, r ≠ k.c.q → t.parties.get? r =
            (u.parties.get? r).map (fun p => { p with yielded := p.yielded.filter (fun y => y != k.c.q) })) ∧
          ∃ p p', u.parties.get? k.c.q = some p ∧ t.parties.get? k.c.q = some p' ∧
            RegistersKept p { p' with held := p.held } ∧ p'.held = p.held.set slot ⟨.reserved, line k x, sc⟩ ∧
            fragsOf p' = fragsOf (go p) ∧
            p'.pend = (go p).pend ++ [⟨p.serial, .await, i.h.set.toNat, k.c.iaddr, k.c.word, statusWrite i 0, []⟩] ∧
            (∃ own, (go p).pend = (cutLinks p own).pend) ∧
            t.lockReqs = u.lockReqs ++ [⟨line k x, try_, ⟨reqId k.c.q p.serial, gidOf k.p, k.c.q, slot, sc, dl, 0, 0, 0⟩⟩]
      let both : Instr → (Ctx → Party → Party) → Prop := fun ins go =>
        Completes ins i (fun k _ => k.e = 0) (fun k s t => IssuedWith k s t (go k) .deliver 0 []) ∧
        Completes ins i (fun k s => ∃ x u, ok k s x u ∧ namesLine k.p (line k x) = true) (fun k s t => ∃ x u, ok k s x u ∧
          Looked s u k.c.q [] ∧ IssuedWith k u t (go k) .deliver i.h.set.toNat (statusWrite i 5)) ∧
        Completes ins i (fun k s => ∃ x u, ok k s x u ∧ namesLine k.p (line k x) = false ∧ freeHeld k.p = none)
          (fun k s t => ∃ x u, ok k s x u ∧
            Looked s u k.c.q [] ∧ IssuedWith k u t (go k) .deliver i.h.set.toNat (statusWrite i 6))
      both (.lock sc i) (fun k => joinedOn k.c .run) ∧ both (.trylock sc i) (fun k => advanced k.c.slot) ∧
      (∀ slot, Completes (.trylock sc i) i
        (fun k s => ∃ x u, ok k s x u ∧ namesLine k.p (line k x) = false ∧ freeHeld k.p = some slot)
        (fun k s t => ∃ x u, ok k s x u ∧ Looked s u k.c.q [] ∧ sent k u t x slot true none (advanced k.c.slot))) ∧
      (∀ slot, Completes (.lock sc i) i
        (fun k s => ∃ x u, ok k s x u ∧ namesLine k.p (line k x) = false ∧ freeHeld k.p = some slot)
        (fun k s t => ∃ x u, ok k s x u ∧ Looked s u k.c.q [] ∧
          sent k u t x slot false (lockDeadlineOf k i) (joinedOn k.c (.blocked .lock))))) ∧
  ( ∀ (i : Insn) (sc : Scope),
      let none_ : Perm := ⟨false, false, false, false⟩
      let line : Ctx → Tlb → Nat := fun k x => trPa x (sbEa k i) / 128
      let ok : Ctx → State → Tlb → State → Prop := fun k s x u =>
        k.e ≠ 0 ∧ checkVa s k.core k.p.ctx false (sbEa k i) none_ = (.ok x, u)
      Completes (.unlock sc i) i (fun k _ => k.e = 0) IssuedOnly ∧
      (∀ slot, Completes (.unlock sc i) i (fun k s => ∃ x u, ok k s x u ∧ heldSlot k.p (line k x) = some slot) (fun k s t =>
        ∃ x u, ok k s x u ∧ Looked s u k.c.q [] ∧
          IssuedOnly k (buffered (modParty u k.c.q (fun p => { p with held := p.held.set slot ⟨.free, 0, .grp⟩ })) k.c.q false
            [fun n => ⟨n, .unlock (line k x), [], [], some sc, false⟩]) t)) ∧
      Completes (.unlock sc i) i (fun k s => ∃ x u, ok k s x u ∧ heldSlot k.p (line k x) = none) (fun k s t =>
        ∃ x u, ok k s x u ∧ Looked s u k.c.q [] ∧ Faulted k u t { partyRec u k.c.q 0x21 with
          detail := 0xFFFFFFFF, lane := lowLane k.e % 8, addr := BitVec.ofNat 64 (sbEa k i) }))

/-- A request at its record (R337, R339, R340): it waits while an event of a later rank has taken effect there in this cycle or an
older UNLOCK of its party is buffered; a line with no record is granted one GRANTED while its home has one free, else
TABLE_FULL; a record with no holder is granted POISONED and its poison is cleared; a TRYLOCK of a held line gives TIMEOUT; a
LOCK enters the FIFO at its end, or gives QUEUE_FULL where its home has no waiting entry free. Nothing else
changes.

UNLOCK performed (R339, R340, R344): it waits while an event of a later rank has taken effect at the record in this cycle; then
the entry leaves the buffer; a record that its party holds passes to the head of its FIFO
as GRANTED, or, with an empty FIFO, is gone; any other record is as it was. -/
def Obligations.LockArrival : Prop :=
  ( ∀ (s : State) (n : Nat) (r : LockReq), s.lockReqs.find? (fun x => x.w.n == n) = some r → mayArrive s r = true →
      let rest := s.lockReqs.filter (fun x => x.w.n != n)
      let stat : Nat → List LockStatus := fun st => s.lockStats ++ [⟨r.w.n, r.w.q, r.w.slot, r.line, r.w.scope, st⟩]
      let go : State → Prop := fun t => exec (.lockRequestArrival n) s = .next (noteTurn t r.line rankArrive)
      (s.locks.get? r.line = none → recsUsed { s with lockReqs := rest } r.line < 256 →
        go { s with lockReqs := rest, locks := s.locks.insert r.line ⟨some r.w.gid, r.w.q, false, []⟩, lockStats := stat 0 }) ∧
      (s.locks.get? r.line = none → 256 ≤ recsUsed { s with lockReqs := rest } r.line →
        go { s with lockReqs := rest, lockStats := stat 6 }) ∧
      (∀ k, s.locks.get? r.line = some k →
        (k.holder = none → go { s with
          lockReqs := rest, lockStats := stat 1, locks := s.locks.insert r.line ⟨some r.w.gid, r.w.q, false, k.fifo⟩ }) ∧
        (∀ h, k.holder = some h → r.try_ = true → go { s with lockReqs := rest, lockStats := stat 2 }) ∧
        (∀ h, k.holder = some h → r.try_ = false → 256 ≤ waitsUsed { s with lockReqs := rest } r.line →
          go { s with lockReqs := rest, lockStats := stat 4 }) ∧
        (∀ h, k.holder = some h → r.try_ = false → waitsUsed { s with lockReqs := rest } r.line < 256 →
          ∃ w, go { s with lockReqs := rest, locks := s.locks.insert r.line { k with fifo := k.fifo ++ [w] } } ∧
            w = { r.w with entered := w.entered, probe := w.probe, nextProbe := w.nextProbe } ∧
            w.entered = ticksOf s.cycle ∧ w.probe = s.regs.probe))) ∧
  ( ∀ (s : State) (n : Nat) (r : LockReq), s.lockReqs.find? (fun x => x.w.n == n) = some r → mayArrive s r = false →
      exec (.lockRequestArrival n) s = .next s) ∧
  ( ∀ (s : State) (q n line : Nat) (e : BufEntry) (p : Party), mayLeave s q n = some e → e.kind = .unlock line →
      s.parties.get? q = some p →
      let s1 := noteTurn (dropEntry s q n) line rankUnlock
      let go : State → Prop := fun t => exec (.unlockPerformed q n) s = .next t
      (inTurn s line rankUnlock = false → go s) ∧ (inTurn s line rankUnlock = true →
      (∀ r w ws, s.locks.get? line = some r → r.holder = some (gidOf p) → r.fifo = w :: ws →
        go { s1 with locks := s.locks.insert line ⟨some w.gid, w.q, false, ws⟩,
                     lockStats := s.lockStats ++ [⟨w.n, w.q, w.slot, line, w.scope, 0⟩] }) ∧
      (∀ r, s.locks.get? line = some r → r.holder = some (gidOf p) → r.fifo = [] →
        go { s1 with locks := s.locks.erase line }) ∧
      ((∀ r, s.locks.get? line = some r → r.holder ≠ some (gidOf p)) → go s1)))

/-- A status at its party (R343, R347, R352): it waits while an older result of the party has still to write its register (R32);
a grant makes the reserved slot held, any other status frees it, and of the
state at most the party, its blocks, the statuses on their way and what its result writes change; a party that has retired
releases a lock granted to it at once (the model's reading of R352, log entry 33).

Deadlines and probes (R348, R349, R354): a waiting entry whose deadline has come leaves with TIMEOUT; at each multiple of
PROBE ticks of its wait it sends a probe; a probe that comes to a record held by its origin completes the wait that sent it with
CYCLE (R340 sets the order of both among the events of a cycle), one that comes to a record whose holder waits elsewhere goes on there, and any other ends. -/
def Obligations.LockStatuses : Prop :=
  ( ∀ (s : State) (n : Nat) (x : LockStatus) (p : Party), s.lockStats.find? (fun y => y.n == n) = some x →
      s.parties.get? x.q = some p →
      let rest := s.lockStats.filter (fun y => y.n != n)
      (active s x.q = true → statusFree s x = false → exec (.lockStatusArrival n) s = .next s) ∧
      (active s x.q = true → statusFree s x = true → ∃ t p', exec (.lockStatusArrival n) s = .next t ∧
        t = { s with lockStats := rest, parties := t.parties, blocks := t.blocks } ∧ t.parties.get? x.q = some p' ∧
        (∀ r, r ≠ x.q → t.parties.get? r = s.parties.get? r) ∧ p'.buf = p.buf ∧ p'.ctr = p.ctr ∧ p'.priv = p.priv ∧
        p'.held = (if (p.held.getD x.slot heldFree).st = .reserved ∧ (p.held.getD x.slot heldFree).line = x.line then
            p.held.set x.slot (if x.status ≤ 1 then { p.held.getD x.slot heldFree with st := .held } else heldFree)
          else p.held)) ∧
      (active s x.q = false → present s x.q = true → exec (.lockStatusArrival n) s = .next
        (if x.status ≤ 1 then buffered { s with lockStats := rest } x.q false
            [fun m => ⟨m, .unlock x.line, [], [], some .sys, false⟩]
          else { s with lockStats := rest }))) ∧
  ( ∀ (s : State) (line gid : Nat) (w : Waiter) (r : LockRec), s.locks.get? line = some r →
      r.fifo.find? (fun v => v.gid == gid) = some w →
      let without : AMap LockRec := s.locks.insert line { r with fifo := r.fifo.filter (fun v => v.n != w.n) }
      let stat : Nat → List LockStatus := fun st => s.lockStats ++ [⟨w.n, w.q, w.slot, line, w.scope, st⟩]
      (∀ d, w.deadline = some d → d ≤ ticksOf s.cycle → inTurn s line rankDeadline = true →
        exec (.lockDeadline line gid) s = .next (noteTurn { s with locks := without, lockStats := stat 2 } line rankDeadline)) ∧
      (w.probe ≠ 0 → w.nextProbe ≤ ticksOf s.cycle → exec (.lockProbeSend line gid) s = .next { s with
        locks := s.locks.insert line { r with
          fifo := r.fifo.map (fun v => if v.n == w.n then { v with nextProbe := v.nextProbe + v.probe } else v) },
        probes := s.probes ++ [⟨s.lockSerial, gid, w.n, line, line, 0⟩], lockSerial := s.lockSerial + 1 }) ∧
      ∀ (m : Nat) (pr : Probe), s.probes.find? (fun y => y.n == m) = some pr → pr.origin = gid → pr.originLine = line →
        let rest := s.probes.filter (fun y => y.n != m)
        (∀ k, s.locks.get? pr.atLine = some k → k.holder = some gid →
          (pr.entry = w.n → inTurn s line rankProbe = true → exec (.probeArrival m) s = .next
            (noteTurn { s with probes := rest, locks := without, lockStats := stat 3 } line rankProbe)) ∧
          (pr.entry ≠ w.n → exec (.probeArrival m) s = .next { s with probes := rest })) ∧
        (∀ k h l, s.locks.get? pr.atLine = some k → k.holder = some h → h ≠ gid → waitingLine s h = some l → pr.hops < 1024 →
          exec (.probeArrival m) s = .next { s with probes := rest ++ [{ pr with atLine := l, hops := pr.hops + 1 }] }) ∧
        ((∀ k, s.locks.get? pr.atLine = some k → k.holder = none) → exec (.probeArrival m) s = .next { s with probes := rest }))

/-! ### Objects and references, page requests (spec/17, spec/14) -/

/-- OBJNEW and STREF (R364-R366) complete where their checks pass: each lane's object, its granules' tags, its terminator and
its zeros, is one entry of the buffer, and so is each lane's reference with the setting of its word's reference bit.

The checks of OBJNEW (R365): an address that is no multiple of 16 is MISALIGNED (0x10); a size that is no multiple of 16
from 16 to 4,096 is BOUNDS (0x12). -/
def Obligations.ObjectStores : Prop :=
  ( ∀ (i : Insn) (flag : Bool),
      let ck : (State → Nat → Int → LaneRes × State) → Ctx → State → Checked × State := fun f k s =>
        checkLanes f false (laneEas k i true true false) s
      let object : Acc → Nat → BufEntry := fun a n =>
        let gs := a.locs.dropLast
        ⟨n, .object (tagLoc (a.locs.headD 0)) gs.length,
          if flag then gs.flatMap (fun g => cellsOf g (List.replicate 16 0)) else [],
          gs.zipIdx.map (fun g => TagOp.mask (tagLoc g.1) 0 (if g.2 = 0 then 1 else 0)) ++ [.term (tagLoc (a.locs.getLastD 0))],
          none, false⟩
      let ref : Ctx → Acc → Nat → BufEntry := fun k a n =>
        ⟨n, .store, accCells a (bytesOf 8 (refVal k i a.lane)),
          [.mask (tagLoc (a.locs.headD 0)) 15 (if a.locs.headD 0 % 16 = 0 then 4 else 8)],
          if flag then some (xScope i) else none, false⟩
      Completes (.objnew flag i) i (fun k _ => k.e = 0) IssuedOnly ∧
      Completes (.objnew flag i) i (fun k s => k.e ≠ 0 ∧ ∃ as u, ck (checkObj k i) k s = (.ok as, u)) (fun k s t =>
        ∃ as u, ck (checkObj k i) k s = (.ok as, u) ∧ Buffers k s t false (trsOf as) (as.map object)) ∧
      Completes (.stref flag i) i (fun k _ => k.e = 0) IssuedOnly ∧
      Completes (.stref flag i) i (fun k s => k.e ≠ 0 ∧ ∃ as u, ck (checkStref k i) k s = (.ok as, u)) (fun k s t =>
        ∃ as u, ck (checkStref k i) k s = (.ok as, u) ∧ Buffers k s t false (trsOf as) (as.map (ref k)))) ∧
  ( ∀ (k : Ctx) (i : Insn) (s : State) (lane : Nat) (ea : Int),
      (ea.toNat % 16 ≠ 0 → checkObj k i s lane ea = (.fault 0x10 0 0, s)) ∧
      (ea.toNat % 16 = 0 → objSize k i lane < 16 ∨ 4096 < objSize k i lane ∨ objSize k i lane % 16 ≠ 0 →
        checkObj k i s lane ea = (.fault 0x12 0 0, s)))

/-- PUBLISH (R226, R368): a counter of 63 is COUNTER_OVERFLOW, a slot that is no multiple of 8 MISALIGNED; else, where the slot
may be stored to and the reference is 0 or an object's start, the counter rises by one and the walk of the reference waits behind
the party's earlier ones. No register and no byte but A and D bits changes at issue.

A step of a walk (R369, R372): a reference 0 ends the walk; whatever else a step does, it writes one tag at most: no byte of data
changes but A bits and the rest of a line that was another key's, no register of any party, no buffer and no counter; one that
finds a fault ends the PUBLISH with an asynchronous fault, and the party stops.

The end of a PUBLISH and of a PAGEREQ (R226, R305, R368, R369): the oldest PUBLISH, its walk ended and its release condition
met, stores its reference to its slot through the translation of its checks (the model's reading, log entry 37), visible at once
to its group, but for a slot whose frame has been freed (R395), and the counter falls; the oldest PAGEREQ whose regions are
all done completes, and its counter falls.

PAGEREQ at issue (R304, R305): a counter of 63 is COUNTER_OVERFLOW, a number of pages outside 1 to 16 BOUNDS, a page at or above
2^57 PROTECTION with the first such page in ADDR; else the counter rises by one and the request waits for the regions that its
pages' walks, all made at issue (the model's reading, log entry 38), find not resident, page by page (`reqPages`, `reqPage`); no
register changes, and, while the partition's record buffer has room, no byte but A bits. -/
def Obligations.Publication : Prop :=
  ( ∀ (i : Insn) (sc : Scope),
      let ok : Ctx → State → Tlb → State → State → Prop := fun k s x u v => k.e ≠ 0 ∧ k.p.ctr.pub ≠ 63 ∧ sbEa k i % 8 = 0 ∧
        checkVa s k.core k.p.ctx false (sbEa k i) permW = (.ok x, u) ∧ checkPubRef u k (pubRef k i) = .ok () v
      Completes (.publish sc i) i (fun k _ => k.e = 0) IssuedOnly ∧
      Completes (.publish sc i) i (fun k _ => k.e ≠ 0 ∧ k.p.ctr.pub = 63) (fun k s t =>
        Faulted k s t (partyRec s k.c.q 0x22)) ∧
      Completes (.publish sc i) i (fun k _ => k.e ≠ 0 ∧ k.p.ctr.pub ≠ 63 ∧ sbEa k i % 8 ≠ 0) (fun k s t =>
        Faulted k s t { partyRec s k.c.q 0x10 with addr := BitVec.ofNat 64 (sbEa k i) }) ∧
      Completes (.publish sc i) i (fun k s => ∃ x u v, ok k s x u v) (fun k s t => ∃ x u v, ok k s x u v ∧
        Looked s v k.c.q [] ∧ IssuedOnly k (modParty v k.c.q (fun p =>
          { p with ctr := { p.ctr with pub := p.ctr.pub + 1 }, serial := p.serial + 1,
                   pubs := p.pubs ++ [⟨p.serial, false, sbEa k i, x, pubRef k i, sc, false, [], false, k.c.iaddr, k.c.word⟩] })) t)) ∧
  ( ∀ (s : State) (q j : Nat) (p : Party) (b : Block) (w : Pub), s.parties.get? q = some p → blockOf s q = some b →
      present s q = true → walking p = some j → p.pubs[j]? = some w →
      (w.started = false → w.ref = 0 → exec (.walkStep q) s =
        .next (modParty s q (fun p => { p with pubs := p.pubs.set j { w with started := true, walked := true } }))) ∧
      (∀ w1 u, walkStep s q p b w = .go w1 u →
        exec (.walkStep q) s = .next (modParty u q (fun p => { p with pubs := p.pubs.set j w1 })) ∧
        ∃ cells, cells.length ≤ 1 ∧ (∀ c ∈ cells, 2 ^ 64 ≤ c.1) ∧ Wrote s u q [] cells []) ∧
      (∀ code level addr u, walkStep s q p b w = .fail code level addr u → exec (.walkStep q) s = .next
        (modParty (raiseFor u (atLevel { partyRec u q code with
          async := true, iaddr := w.iaddr, word := w.word, addr := BitVec.ofNat 64 addr } level)) q
          (fun p => { p with stopped := true, pubs := p.pubs.eraseIdx j })))) ∧
  ( ∀ (s : State) (q : Nat) (p : Party), s.parties.get? q = some p → present s q = true →
      (∀ w ws, p.pubs = w :: ws → w.walked = true → pubReady s q p w = true → w.lost = true →
        exec (.publishComplete q) s = .next (modParty s q (fun p => { p with pubs := ws, ctr := { p.ctr with pub := p.ctr.pub - 1 } }))) ∧
      (∀ w ws, p.pubs = w :: ws → w.walked = true → pubReady s q p w = true → w.lost = false →
        let loc := trLoc w.tr w.slot
        ∃ u, Wrote s u q [w.tr] (cellsOf loc (bytesOf 8 w.ref)) [tagLoc loc] ∧
          (∀ j, j < 8 → portLost s (loc + j) = false → (latest u (.grp q) (loc + j)).2 = BitVec.ofNat 8 (w.ref / 2 ^ (8 * j))) ∧
          exec (.publishComplete q) s = .next (modParty u q (fun p =>
            { p with pubs := ws, ctr := { p.ctr with pub := p.ctr.pub - 1 } }))) ∧
      (∀ r l, p.pages = r :: l → r.open_ = [] → exec (.pagereqComplete q) s = .next (modParty s q (fun p =>
        { p with pages := l, ctr := { p.ctr with page := p.ctr.page - 1 } })))) ∧
  ( ∀ (i : Insn) (w : Bool),
      let va : Ctx → Nat := fun k => uniform64 k i.b
      let n : Ctx → Nat := fun k => uniform64 k i.c
      let room : Ctx → Prop := fun k => k.e ≠ 0 ∧ k.p.ctr.page ≠ 63 ∧ 1 ≤ n k ∧ n k ≤ 16
      Completes (.pagereq w i) i (fun k _ => k.e = 0) IssuedOnly ∧
      Completes (.pagereq w i) i (fun k _ => k.e ≠ 0 ∧ k.p.ctr.page = 63) (fun k s t => Faulted k s t (partyRec s k.c.q 0x22)) ∧
      Completes (.pagereq w i) i (fun k _ => k.e ≠ 0 ∧ k.p.ctr.page ≠ 63 ∧ (n k < 1 ∨ 16 < n k)) (fun k s t =>
        Faulted k s t (partyRec s k.c.q 0x12)) ∧
      (∀ a, Completes (.pagereq w i) i (fun k _ => room k ∧ (reqPages (va k) (n k)).find? (fun a => 2 ^ 57 ≤ a) = some a)
        (fun k s t => Faulted k s t { partyRec s k.c.q 0x11 with addr := BitVec.ofNat 64 a })) ∧
      Completes (.pagereq w i) i (fun k _ => room k ∧ ∀ a ∈ reqPages (va k) (n k), a < 2 ^ 57) (fun k s t =>
        let r := (reqPages (va k) (n k)).foldl (reqPage k w) ([], s)
        r.1.Nodup ∧ ((∀ c, (partOf s c).fqBuf.length ≤ 48) → Looked s { r.2 with parts := s.parts } k.c.q []) ∧
        IssuedOnly k (modParty r.2 k.c.q (fun p =>
          { p with ctr := { p.ctr with page := p.ctr.page + 1 }, pages := p.pages ++ [⟨r.1⟩] })) t) ∧
      (∀ k s rs va, let x := translate s (cluOf k.core) k.p.ctx false va
        (reqPage k w (rs, s) va).1 = match x.1 with
          | .nonres base bytes => if (base, bytes) ∈ rs then rs else rs ++ [(base, bytes)]
          | _ => rs))

/-! ### Barriers, queues, counters and copies (spec/10, spec/14) -/

/-- Arrive at a named barrier (R217), by a group, or by a bow whose staged operations have all been staged: the count is n,
ARRIVED rises by one, PENDING by the bytes, and the party's IN bit is set. Where that does not complete the phase nothing else
changes; where it does the count is gone, ARRIVED is 0, the IN bit of every party of the block falls and the parties that wait
there run, from the next cycle of their core on; and where no bow was in the phase nothing else but bounds changes.

The instructions on named barriers (R217-R219): a bad count, a count that differs, a party that is in already, or bytes out of
range fault with BARRIER_COUNT; an arrival is a release at .BLK and waits until that holds; then ARR and EXP go on, SYNC goes on
where its arrival completed the phase and else blocks, and WAIT blocks while the party's IN bit is set, whatever its e (the model's
reading, log entry 63). -/
def Obligations.Barriers : Prop :=
  ( ∀ (s : State) (q k n : Nat) (bytes : Int) (p : Party) (b : Block), s.parties.get? q = some p →
      (p.bow = true → landStages s q = s) → s.blocks.get? (bidOf q) = some b → k < 66 →
      let x := arriveBar (barOf b k) p.bow (b.stageBase + b.staged.length) n bytes
      let t := arriveAt s q k n bytes
      let arrivedAs : Nat → Party → Party := fun r y => if r = q then setIn y k true else y
      t = { s with parties := t.parties, blocks := t.blocks } ∧
      (barDone x = false → t.blocks = s.blocks.insert (bidOf q) (setBar b k x) ∧
        ∀ r, t.parties.get? r = (s.parties.get? r).map (arrivedAs r)) ∧
      (barDone x = true → (∃ c, t.blocks.get? (bidOf q) = some c ∧ barOf c k = { x with n := none, arrived := 0, bowin := false }) ∧
        ∀ r y, r ∈ blockParties (bidOf q) → s.parties.get? r = some y → ∃ z, t.parties.get? r = some z ∧ inBit z k = false ∧
          fragsOf z = fragsOf (freed (partyClock s r) k (.bar k) (arrivedAs r y))) ∧
      (barDone x = true → x.bowin = false →
        (∃ c, t.blocks.get? (bidOf q) = some c ∧ barOf c k = { x with n := none, arrived := 0, bowin := false } ∧
          c = { b with bars := c.bars }) ∧
        ∀ r, (t.parties.get? r).map (fun y => { y with bnd := [] }) = (s.parties.get? r).map (fun y =>
          { (if r ∈ blockParties (bidOf q) then freed (partyClock s r) k (.bar k) (arrivedAs r y) else y) with bnd := [] }))) ∧
  ( ∀ (i : Insn) (b : Nat), bIndex i = b →
      let bad : (Ctx → Int) → Ctx → State → Prop := fun bytes k s => ∃ p x, s.parties.get? k.c.q = some p ∧
        blockOf s k.c.q = some x ∧ arriveBad (barOf x b) (inBit p b) (partyCount x) (cCount k i) (bytes k) = true
      let good : (Ctx → Int) → Ctx → State → Prop := fun bytes k s => ∃ p x, s.parties.get? k.c.q = some p ∧
        blockOf s k.c.q = some x ∧ arriveBad (barOf x b) (inBit p b) (partyCount x) (cCount k i) (bytes k) = false ∧
        releaseReady s k.c.q .blk = true ∧ (p.bow = true → stagesOpen p = false) ∧ p.stopped = false
      let at_ : (Ctx → Int) → Ctx → State → State := fun bytes k s => arriveAt s k.c.q b (cCount k i).toNat (bytes k)
      let inAt : Ctx → State → Bool → Prop := fun k s v => ∃ p, s.parties.get? k.c.q = some p ∧ inBit p b = v
      let fails : Instr → (Ctx → Int) → Prop := fun ins bytes =>
        Completes ins i (bad bytes) (fun k s t => Faulted k s t { partyRec s k.c.q 0x20 with detail := BitVec.ofNat 32 b }) ∧
        ∀ s s1 k, Issues ins i s k s1 → ¬ bad bytes k s1 → releaseReady s1 k.c.q .blk = false → exec ins s = .next s
      let on : Instr → (Ctx → Int) → Prop := fun ins bytes =>
        fails ins bytes ∧ Completes ins i (good bytes) (fun k s t =>
          IssuedWith k (at_ bytes k s) t (joinedOn k.c .run) .deliver 0 [])
      on (.barArr i) (fun _ => 0) ∧ on (.barExp i) (fun k => expBytes k i) ∧
      fails (.barSync i) (fun _ => 0) ∧
      Completes (.barSync i) i (fun k s => good (fun _ => 0) k s ∧ inAt k (at_ (fun _ => 0) k s) false)
        (fun k s t => ∃ u, Looked (at_ (fun _ => 0) k s) u k.c.q [] ∧ IssuedWith k u t (joinedOn k.c .run) .deliver 0 []) ∧
      Completes (.barSync i) i (fun k s => good (fun _ => 0) k s ∧ inAt k (at_ (fun _ => 0) k s) true)
        (fun k s t => BlockedIn k (at_ (fun _ => 0) k s) t (.bar b) .deliver 0 []) ∧
      Completes (.barWait i) i (fun k s => inAt k s false) (fun k s t => IssuedWith k s t (joinedOn k.c .run) .deliver 0 []) ∧
      Completes (.barWait i) i (fun k s => inAt k s true) (fun k s t => BlockedIn k s t (.bar b) .deliver 0 []))

/-- The commit of what the bow had staged (R200): a register whose last committed operation is a write with .CLR resolves, in
every lane of every group of the block, to the value written; a register that no committed operation names keeps its block copy
and every copy of every party; the operations that commit are no longer staged. -/
def Obligations.ShadeCommit : Prop :=
  ∀ (s : State) (b mark : Nat) (x : Block), s.blocks.get? b = some x →
    let ops := x.staged.take (mark - x.stageBase)
    let names : Staged → Nat := fun o => match o with | .write k _ _ => k | .drop k => k
    let t := commitShade s b mark
    t = { s with parties := t.parties, blocks := t.blocks } ∧
    ∃ y, t.blocks.get? b = some y ∧ y.staged = x.staged.drop (mark - x.stageBase) ∧
      (∀ pre post k v, ops = pre ++ .write k v true :: post → (∀ o ∈ post, names o ≠ k) →
        ∀ r p, r ∈ blockParties b → s.parties.get? r = some p → ∃ p', t.parties.get? r = some p' ∧
          ∀ l, l < 8 → resolve p' y k l = v) ∧
      (∀ k, (∀ o ∈ ops, names o ≠ k) → blockCopy y k = blockCopy x k ∧
        ∀ r p, s.parties.get? r = some p → ∃ p', t.parties.get? r = some p' ∧ p'.hG.get? k = p.hG.get? k ∧
          ∀ l, l < 8 → p'.hL.get? (hlKey k l) = p.hL.get? (hlKey k l))

/-- Arrive at a chord barrier (R289, R290): as at a named barrier, over the parties of all blocks of the chord.

The instructions on chord barriers (R288-R290): as on named ones, with the chord's parties, a release at .CLU, and DETAIL 256
and the barrier's number. -/
def Obligations.ChordBarriers : Prop :=
  ( ∀ (s : State) (q k n : Nat) (ch : Chord), (s.parties.get? q).isSome = true → k < 2 →
      s.chords.get? (cidOf (bidOf q)) = some ch →
      let x := arriveBar (cbOf ch k) false 0 n 0
      let t := arriveCb s q k n
      let arrivedAs : Nat → Party → Party := fun r y => if r = q then setIn y (64 + k) true else y
      t = { s with parties := t.parties, chords := t.chords } ∧
      (barDone x = false → t.chords = s.chords.insert (cidOf (bidOf q)) (setCb ch k x) ∧
        ∀ r, t.parties.get? r = (s.parties.get? r).map (arrivedAs r)) ∧
      (barDone x = true →
        t.chords.get? (cidOf (bidOf q)) = some (setCb ch k Barrier.reset) ∧
        ∀ r, (t.parties.get? r).map (fun y => { y with bnd := [] }) = (s.parties.get? r).map (fun y =>
          { (if r ∈ chordParties (cidOf (bidOf q)) then freed (partyClock s r) (64 + k) (.cbar k) (arrivedAs r y) else y) with bnd := [] }))) ∧
  ( ∀ (i : Insn) (b : Nat), bIndex i = b → b < 2 →
      let cid : Ctx → Nat := fun k => cidOf (bidOf k.c.q)
      let bad : Ctx → State → Prop := fun k s => ∃ p x, s.parties.get? k.c.q = some p ∧ s.chords.get? (cid k) = some x ∧
        arriveBad (cbOf x b) (inBit p (64 + b)) (chordCount s (cid k)) (cCount k i) 0 = true
      let good : Ctx → State → Prop := fun k s => ∃ p x, s.parties.get? k.c.q = some p ∧ s.chords.get? (cid k) = some x ∧
        arriveBad (cbOf x b) (inBit p (64 + b)) (chordCount s (cid k)) (cCount k i) 0 = false ∧
        releaseReady s k.c.q .clu = true ∧ p.stopped = false
      let at_ : Ctx → State → State := fun k s => arriveCb s k.c.q b (cCount k i).toNat
      let inAt : Ctx → State → Bool → Prop := fun k s v => ∃ p, s.parties.get? k.c.q = some p ∧ inBit p (64 + b) = v
      (∀ ins, ins = Instr.cbarSync i ∨ ins = Instr.cbarArr i → Completes ins i bad (fun k s t =>
        Faulted k s t { partyRec s k.c.q 0x20 with detail := BitVec.ofNat 32 (256 + b) })) ∧
      Completes (.cbarArr i) i good (fun k s t => IssuedWith k (at_ k s) t (joinedOn k.c .run) .deliver 0 []) ∧
      Completes (.cbarSync i) i (fun k s => good k s ∧ inAt k (at_ k s) false)
        (fun k s t => ∃ u, Looked (at_ k s) u k.c.q [] ∧ IssuedWith k u t (joinedOn k.c .run) .deliver 0 []) ∧
      Completes (.cbarSync i) i (fun k s => good k s ∧ inAt k (at_ k s) true)
        (fun k s t => BlockedIn k (at_ k s) t (.cbar b) .deliver 0 []) ∧
      Completes (.cbarWait i) i (fun k s => inAt k s false) (fun k s t => IssuedWith k s t (joinedOn k.c .run) .deliver 0 []) ∧
      Completes (.cbarWait i) i (fun k s => inAt k s true) (fun k s t => BlockedIn k s t (.cbar b) .deliver 0 []))

/-- What a queue does (R223). Append: an entry for the first party blocked in QPOP goes to it and is not stored; else it is
stored at TL, and no other slot changes. TakeHead gives the entry at HD; the first party blocked in QPUSH then appends its value
and runs.

The queue instructions (R221-R224). QINIT makes a live, empty queue of its depth and region, once it has performed the buffered
stores over its region and no copy or Harp operation over it is open (the model's choice, log entry 57); ADDR of its MISALIGNED and
BOUNDS is log entry 30's reading. QINIT.OFF ends one. A push waits for the release at .BLK; then QPUSH with
room appends and goes on, else its party blocks with its value; QPOP takes the head, else blocks; the QTRY forms never block and
write their predicate, 1 where they succeed. Each on a queue that is not live faults with QUEUE_MISUSE. -/
def Obligations.Queues : Prop :=
  ( ∀ (s : State) (bid k : Nat) (b : Block) (v : W64), s.blocks.get? bid = some b →
      let x := queueOf b k
      let up : Nat → Nat := fun n => if x.depth = 0 then 0 else (n + 1) % x.depth
      (x.poppers = [] → ∃ b', append s bid k v = { s with blocks := s.blocks.insert bid b' } ∧
        queueOf b' k = { x with count := x.count + 1, tl := up x.tl } ∧ slotRead b' x x.tl = v ∧
        ∀ j, j ≠ x.tl → slotRead b' x j = slotRead b x j) ∧
      (∀ w ws, x.poppers = w :: ws →
        let t := append s bid k v
        t = { s with parties := t.parties, blocks := s.blocks.insert bid (setQueue b k { x with poppers := ws }) } ∧
        (∀ r, r ≠ w.q → t.parties.get? r = s.parties.get? r) ∧
        (t.parties.get? w.q).map (fun p => { p with bnd := [] }) = (s.parties.get? w.q).map (fun p =>
          { unblockIn (resolvePend p w.n (entryWrites w.dst w.m v)) (.qpop k) w.m with bnd := [] })) ∧
      (takeHead s bid k).1 = slotRead b x x.hd ∧
      (x.pushers = [] → (takeHead s bid k).2 = { s with
        blocks := s.blocks.insert bid (setQueue b k { x with count := x.count - 1, hd := up x.hd }) }) ∧
      (∀ w l, x.pushers = w :: l → (takeHead s bid k).2 = modParty
        (append { s with blocks := s.blocks.insert bid (setQueue b k { x with count := x.count - 1, hd := up x.hd, pushers := l }) }
          bid k w.v) w.q (fun p => unblockIn p (.qpush k) w.m))) ∧
  ( ∀ (i : Insn) (n : Nat), bIndex i = n →
      let blk : Ctx → State → Block → Prop := fun k s b => k.e ≠ 0 ∧ blockOf s k.c.q = some b
      let live : Ctx → State → Queue → Prop := fun k s x => ∃ b, blk k s b ∧ queueOf b n = x ∧ x.live = true
      let misuse : Instr → Prop := fun ins => Completes ins i (fun k s => ∃ b, blk k s b ∧ (queueOf b n).live = false)
        (fun k s t => Faulted k s t { partyRec s k.c.q 0x21 with detail := BitVec.ofNat 32 n })
      let idle : Instr → Prop := fun ins => Completes ins i (fun k _ => k.e = 0)
        (fun k s t => IssuedWith k s t (joinedOn k.c .run) .deliver 0 [])
      let run : Ctx → State → State → List RegWrite → Prop := fun k s t ws =>
        IssuedWith k s t (joinedOn k.c .run) .deliver i.h.set.toNat ws
      let with_ : State → Nat → Queue → State := fun s q x => modBlock s (bidOf q) (fun b => setQueue b n x)
      (∀ d : BitVec 8,
        let base : Ctx → Int := fun k => operandInt k .s32 i.c (lowLane k.e % 8)
        let bytes : Nat := 8 * (d.toNat + 1)
        let sound : Ctx → State → Prop := fun k s => ∃ b, blk k s b ∧ base k % 8 = 0 ∧ 0 ≤ base k ∧
          base k + bytes ≤ (b.kern.scratch : Int) ∧ queueOverlaps b n (base k).toNat bytes = false ∧
          queueBusy (queueOf b n) = false
        let held : Ctx → State → Bool := fun k s => copyOver s (bidOf k.c.q) (base k).toNat bytes ||
          (blockOf s k.c.q).any (fun b => harpOver b (base k).toNat bytes) || !mayPerformOver s (bidOf k.c.q) (base k).toNat bytes
        Completes (.qinit d i) i (fun k s => sound k s ∧ held k s = false) (fun k s t =>
          let u := performOver s (bidOf k.c.q) (base k).toNat bytes
          IssuedOnly k (with_ u k.c.q { Queue.reset with live := true, base := (base k).toNat, depth := d.toNat + 1 }) t) ∧
        (∀ s s1 k, Issues (.qinit d i) i s k s1 → sound k s1 → held k s1 = true →
          exec (.qinit d i) s = .next s) ∧
        (∀ code, code = 0x12 ∨ code = 0x21 → Completes (.qinit d i) i (fun k s => ∃ b, blk k s b ∧ base k % 8 = 0 ∧
            let out : Prop := base k < 0 ∨ (b.kern.scratch : Int) < base k + bytes
            if code = 0x12 then out else ¬ out ∧
              (queueOverlaps b n (base k).toNat bytes || queueBusy (queueOf b n)) = true) (fun k s t =>
          Faulted k s t { partyRec s k.c.q code with
            addr := if code = 0x12 then BitVec.ofInt 64 (base k) else 0,
            detail := if code = 0x12 then 0 else BitVec.ofNat 32 n })) ∧
        Completes (.qinit d i) i (fun k s => (∃ b, blk k s b) ∧ base k % 8 ≠ 0) (fun k s t =>
          Faulted k s t { partyRec s k.c.q 0x10 with addr := BitVec.ofInt 64 (base k) })) ∧
      misuse (.qinitOff i) ∧
      Completes (.qinitOff i) i (fun k s => ∃ x, live k s x ∧ queueBusy x = false) (fun k s t =>
        ∃ b, blk k s b ∧ IssuedOnly k { s with blocks := s.blocks.insert (bidOf k.c.q) (setQueue b n Queue.reset) } t) ∧
      idle (.qpush i) ∧ misuse (.qpush i) ∧
      (∀ s s1 k, Issues (.qpush i) i s k s1 → (∃ x, live k s1 x) → releaseReady s1 k.c.q .blk = false →
        exec (.qpush i) s = .next s) ∧
      Completes (.qpush i) i (fun k s => releaseReady s k.c.q .blk = true ∧ ∃ x, live k s x ∧ pushFits x = true)
        (fun k s t => IssuedWith k (append s (bidOf k.c.q) n (pushVal k i)) t (joinedOn k.c .run) .deliver 0 []) ∧
      Completes (.qpush i) i (fun k s => releaseReady s k.c.q .blk = true ∧ ∃ x, live k s x ∧ pushFits x = false)
        (fun k s t => ∃ x, live k s x ∧ BlockedIn k (with_ s k.c.q { x with pushers := x.pushers ++ [⟨k.c.q, k.c.m, pushVal k i⟩] }) t
          (.qpush n) .deliver 0 []) ∧
      idle (.qpop i) ∧ misuse (.qpop i) ∧
      Completes (.qpop i) i (fun k s => ∃ x, live k s x ∧ popFits x = true) (fun k s t => ∃ u,
        Looked (takeHead s (bidOf k.c.q) n).2 u k.c.q [] ∧ run k u t (entryWrites i.a k.e (takeHead s (bidOf k.c.q) n).1)) ∧
      Completes (.qpop i) i (fun k s => entryWrites i.a k.e 0 ≠ [] ∧ ∃ x, live k s x ∧ popFits x = false) (fun k s t =>
        ∃ x p, live k s x ∧ s.parties.get? k.c.q = some p ∧
          BlockedIn k (with_ s k.c.q { x with poppers := x.poppers ++ [⟨k.c.q, i.a, k.e, p.serial⟩] }) t
            (.qpop n) .await i.h.set.toNat (entryWrites i.a k.e 0)) ∧
      (∀ pr : BitVec 3,
        idle (.qtryPop pr i) ∧ misuse (.qtryPop pr i) ∧ idle (.qtryPush pr i) ∧ misuse (.qtryPush pr i) ∧
        Completes (.qtryPop pr i) i (fun k s => ∃ x, live k s x ∧ popFits x = true) (fun k s t => ∃ u,
          Looked (takeHead s (bidOf k.c.q) n).2 u k.c.q [] ∧
          run k u t (entryWrites i.a k.e (takeHead s (bidOf k.c.q) n).1 ++ tryPred k pr true)) ∧
        Completes (.qtryPop pr i) i (fun k s => ∃ x, live k s x ∧ popFits x = false)
          (fun k s t => run k s t (tryPred k pr false)) ∧
        Completes (.qtryPush pr i) i (fun k s => releaseReady s k.c.q .blk = true ∧ ∃ x, live k s x ∧ pushFits x = true)
          (fun k s t => run k (append s (bidOf k.c.q) n (pushVal k i)) t (tryPred k pr true)) ∧
        (∀ s s1 k, Issues (.qtryPush pr i) i s k s1 → (∃ x, live k s1 x ∧ pushFits x = true) →
          releaseReady s1 k.c.q .blk = false → exec (.qtryPush pr i) s = .next s) ∧
        Completes (.qtryPush pr i) i (fun k s => ∃ x, live k s x ∧ pushFits x = false)
          (fun k s t => run k s t (tryPred k pr false))))

/-- WAITC (R227, R442): with no lane in e, or once its counter is at most n, it goes on and changes nothing but the bounds, which
an end of a collective raises; until then it waits.

The copy instructions (R226, R233-R235): a counter of 63 is COUNTER_OVERFLOW; an address or pitch that is no multiple of 16,
or an index list that is no multiple of 4, MISALIGNED; a shape outside its bounds BOUNDS; a row or list in a live queue
QUEUE_MISUSE (ADDR of these is log entry 30's reading); else the copy is in flight with its rows and the counter has risen by one,
and nothing else has changed.

The rows of a copy (R234): row r of BCOPY2 lies at g + r·gstride and so + r·pitch. -/
def Obligations.Copies : Prop :=
  ( ∀ (i : Insn) (cls : Engine),
      Completes (.waitc cls i) i (fun k _ => k.e = 0 ∨ ctrGet cls k.p.ctr ≤ uniform64 k i.b) (fun k s t =>
        ∃ u, Looked s u k.c.q [] ∧ u.mem = s.mem ∧ (cls ≠ .consort → u = s) ∧ IssuedOnly k u t) ∧
      ∀ s s1 k, Issues (.waitc cls i) i s k s1 → k.e ≠ 0 → uniform64 k i.b < ctrGet cls k.p.ctr → exec (.waitc cls i) s = .next s) ∧
  ( ∀ (i : Insn) (m : CopyMod) (ins : Instr) (shape : Ctx → CopyShape),
      (ins = .bcopy m i ∧ shape = fun k => shapeOne (uniform64 k (copyX i))) ∨
      (ins = .bcopy2 m i ∧ shape = fun k => shapePair (pairOf k i).1 (pairOf k i).2 false) ∨
      (ins = .bgath m i ∧ shape = fun k => shapePair (pairOf k i).1 (pairOf k i).2 true) →
      let ready : Ctx → Prop := fun k => k.e ≠ 0 ∧ k.p.ctr.copy ≠ 63
      let even : Ctx → Prop := fun k => ready k ∧ copyMisaligned (uniform64 k i.b) (copyOff k i) (shape k) = false
      let fits : Ctx → Prop := fun k => even k ∧ copyBounds k.b (copyOff k i) (shape k) = false
      Completes ins i (fun k _ => k.e = 0) IssuedOnly ∧
      Completes ins i (fun k _ => k.e ≠ 0 ∧ k.p.ctr.copy = 63) (fun k s t => Faulted k s t (partyRec s k.c.q 0x22)) ∧
      Completes ins i (fun k _ => ready k ∧ copyMisaligned (uniform64 k i.b) (copyOff k i) (shape k) = true)
        (fun k s t => Faulted k s t (partyRec s k.c.q 0x10)) ∧
      Completes ins i (fun k _ => even k ∧ copyBounds k.b (copyOff k i) (shape k) = true)
        (fun k s t => Faulted k s t (partyRec s k.c.q 0x12)) ∧
      (∀ n, Completes ins i (fun k _ => fits k ∧ copyQueue k.b (copyOff k i).toNat (shape k) = some n)
        (fun k s t => Faulted k s t { partyRec s k.c.q 0x21 with detail := BitVec.ofNat 32 n })) ∧
      Completes ins i (fun k _ => fits k ∧ copyQueue k.b (copyOff k i).toNat (shape k) = none) (fun k s t =>
        IssuedOnly k (modParty s k.c.q (fun p =>
          { p with ctr := { p.ctr with copy := p.ctr.copy + 1 }, serial := p.serial + 1,
                   copies := p.copies ++ [⟨p.serial, m.store, m.cnt.map (·.toNat),
                     copyRows p k.b (uniform64 k i.b) (copyOff k i).toNat (shape k), (shape k).rowBytes, 0, [], [], k.c.iaddr,
                     k.c.word⟩] })) t)) ∧
  ( ∀ (p : Party) (b : Block) (g so : Nat) (h : CopyShape), h.idx = none →
      (copyRows p b g so h).length = h.rows ∧
      ∀ r, r < h.rows → (copyRows p b g so h)[r]? =
        some ((((g : Int) + h.gstride * r).emod (2 ^ 64)).toNat, so + r * h.sp))

/-- CHUNK_LAND. The reads of a copy's chunks are issued in increasing order (R235): chunk `j` lands only behind the reads of the
chunks before it, so one of those that faults ends the copy with an asynchronous record (R236), and one whose page is not
resident parks the chord.

A chunk whose read has been issued lands wherever nothing holds it back: no older LOCK or TRYLOCK of the party is outstanding (R347).
A .LOAD chunk puts its 16 bytes into the scratchpad
and, where the copy counts on a barrier, takes 16 from its PENDING, or faults with BARRIER_COUNT where that would fall below
-2^23 (R218); no memory changes. A .STORE chunk writes its 16 bytes to the global address, under the translation of its checks, behind the older stores of the
party to them and the earlier chunks of the copy to that address (R235, R237). The chunk has then landed; the copies at the
head that have landed whole complete, and the counter falls by one for each (R226, R235). -/
def Obligations.ChunkLand : Prop :=
  ∀ (s : State) (q ci j : Nat) (p : Party) (b : Block) (c : Copy), s.parties.get? q = some p → blockOf s q = some b →
    present s q = true → p.copies[ci]? = some c → j < copyChunks c → c.landed.contains j = false →
    let ends : State → FaultRec → Prop := fun t r => ((ctxOf s p.ctx).terminated = false → r ∈ (ctxOf t p.ctx).cands) ∧
      ∃ p', t.parties.get? q = some p' ∧ p'.stopped = true ∧ p'.copies = p.copies.eraseIdx ci
    let new := listModify p.copies ci (fun c => { c with landed := j :: c.landed, data := c.data.filter (fun e => e.1 != j) })
    let whole : Copy → Bool := fun c => c.landed.length == copyChunks c
    let ended : Party → Prop := fun p' =>
      (∀ c0 l, new = c0 :: l → whole c0 = false → p'.copies = new ∧ p'.ctr = p.ctr) ∧
      (∀ c0 l, new = c0 :: l → whole c0 = true → l.all (fun c => !whole c) = true →
        p'.copies = l ∧ p'.ctr = { p.ctr with copy := p.ctr.copy - 1 })
    (c.issued ≤ j →
      (∀ u, issueChunks (j + 1 - c.issued) s q ci = .landed u → exec (.chunkLand q ci j) s = exec (.chunkLand q ci j) u ∧
        (u.parties.get? q).map (fun p => p.copies[ci]?.map (fun c => (c.issued, c.data.map (·.1)))) =
          some (some (j + 1, c.data.map (·.1) ++ (List.range (j + 1 - c.issued)).map (c.issued + ·)))) ∧
      let a := chunkAt c c.issued
      let r := checkVa s b.core p.ctx false a.1 (if c.store then permW else permR)
      (∀ code level, r.1 = .fault code level → ∃ t, exec (.chunkLand q ci j) s = .next t ∧
        ends t (engineRec r.2 q code level c.iaddr c.word (BitVec.ofNat 64 a.1))) ∧
      (∀ x, r.1 = .ok x → c.store = false → poisoned r.2 (trLoc x a.1) = true → ∃ t, exec (.chunkLand q ci j) s = .next t ∧
        ends t (engineRec r.2 q 0x50 (lineAddr (trLoc x a.1)) c.iaddr c.word (BitVec.ofNat 64 a.1))) ∧
      (∀ base n, r.1 = .nonres base n →
        exec (.chunkLand q ci j) s = .next (park r.2 q c.iaddr c.word [⟨false, base, n, a.1⟩]))) ∧
    (j < c.issued → lockOutstanding s q c.n = true → exec (.chunkLand q ci j) s = .next s) ∧
    (∀ (x : Tlb) (bs : List Byte), j < c.issued → c.data.find? (fun d => d.1 == j) = some (j, x, bs) → bs.length = 16 →
      lockOutstanding s q c.n = false →
      (c.store = false → p.sbuf.all (fun e => !(e.n < c.n && e.cells.any (fun x => (chunkAt c j).2 ≤ x.1 &&
          x.1 < (chunkAt c j).2 + 16))) = true →
        let left : Nat → Barrier := fun kb => { barOf b kb with pending := (barOf b kb).pending - 16 }
        (∀ kb, c.cnt = some kb → (left kb).pending < -(2 ^ 23 : Int) → ∃ t, exec (.chunkLand q ci j) s = .next t ∧
          ends t { engineRec s q 0x20 0 c.iaddr c.word 0 with detail := BitVec.ofNat 32 kb }) ∧
        ((∀ kb, c.cnt = some kb → -(2 ^ 23 : Int) ≤ (left kb).pending) → ∃ t b', exec (.chunkLand q ci j) s = .next t ∧
          t = { s with parties := t.parties, blocks := t.blocks, ctxs := t.ctxs } ∧ t.blocks.get? (bidOf q) = some b' ∧
          (∀ a, b'.sp.getD a 0 = if (chunkAt c j).2 ≤ a ∧ a < (chunkAt c j).2 + 16 then bs.getD (a - (chunkAt c j).2) 0
            else b.sp.getD a 0) ∧
          ((∀ kb, c.cnt = some kb → barDone (left kb) = false) →
            b' = { b with sp := b'.sp, bars := match c.cnt with | none => b.bars | some kb => b.bars.insert kb (left kb) } ∧
            ∃ p', t.parties.get? q = some p' ∧ ended p' ∧ p' = { p with copies := p'.copies, ctr := p'.ctr }))) ∧
      (c.store = true → (∀ n, n < j → (chunkAt c n).1 = (chunkAt c j).1 → c.landed.contains n = true) →
        let loc := trLoc x (chunkAt c j).1
        p.buf.all (fun e => !(e.n < c.n && (entryBytes e).any (fun a => loc ≤ a && a < loc + 16))) = true →
        ∃ t u p', exec (.chunkLand q ci j) s = .next t ∧ t = { u with parties := t.parties, ctxs := t.ctxs } ∧
          Wrote s u q [x] (cellsOf loc bs) (if x.tg then [tagLoc loc] else []) ∧ t.blocks = s.blocks ∧
          t.parties.get? q = some p' ∧ ended p' ∧ p' = { p with copies := p'.copies, ctr := p'.ctr, bnd := p'.bnd }))

/-! ### The Harp (spec/11, spec/12) -/

/-- The checks of a Harp instruction come in the order of R265: an offline Harp (0x31), a full HARP counter (0x22), a shape
outside its limits (0x30), an offset that is not aligned (0x10), a range outside the scratchpad (0x12), a range in a live queue
(0x21). ADDR is the offset where the fault has one (the model's reading, log entry 30).

A Harp instruction of a block with a Harp (R264): with its checks passed and no self-test queued it enters the queue at its
end with its operand values and the scratchpad as the writes before it leave it, the HARP counter rises by one, and nothing else has
changed; where a check fails, that fault. -/
def Obligations.HarpIssue : Prop :=
  ( ∀ (k : Ctx) (pl : HarpPlan) (s : State),
      let on : Prop := (coreOf s k.core).harp ≠ .offline
      let free : Prop := on ∧ k.p.ctr.harp ≠ 63
      let out : Int × Nat → Bool := fun r => decide (r.1 < 0) || decide ((k.b.kern.scratch : Int) < r.1 + r.2)
      (¬ on → harpCheck k pl s = some (fault s k.c 0x31)) ∧
      (on → k.p.ctr.harp = 63 → harpCheck k pl s = some (fault s k.c 0x22)) ∧
      (free → pl.shape = true → harpCheck k pl s = some (fault s k.c 0x30)) ∧
      (free → pl.shape = false → ∀ a, pl.offs.find? (fun a => a % (pl.al : Int) != 0) = some a →
        harpCheck k pl s = some (faultLane s k.c 0x10 0 0 (BitVec.ofInt 64 a))) ∧
      (free → pl.shape = false → (∀ a ∈ pl.offs, a % (pl.al : Int) = 0) → ∀ r, pl.ranges.find? out = some r →
        harpCheck k pl s = some (faultLane s k.c 0x12 0 0 (BitVec.ofInt 64 r.1))) ∧
      (free → pl.shape = false → (∀ a ∈ pl.offs, a % (pl.al : Int) = 0) → (∀ r ∈ pl.ranges, out r = false) →
        harpCheck k pl s = (pl.ranges.findSome? (fun r => queueTouched k.b r.1.toNat r.2)).map (fun n =>
          faultDetail s k.c 0x21 (BitVec.ofNat 32 n)))) ∧
  ( ∀ (i : Insn) (ins : Instr) (plan : Harp → List Int → HarpPlan) (h : Harp),
      (∃ m, ins = .halign m i ∧ plan = fun _ v => harpPlan
          (decide (valAt v 2 < 1) || decide (256 < valAt v 2) || pitchBad (valAt v 3) (aPitch .a16 m.gsel) ||
            pitchBad (valAt v 3 / 2 ^ 32) (256 * alignBytes m.fmt)) [valAt v 0, valAt v 1] 16
          (scratchRows (valAt v 0) (pitchOf (valAt v 3) (aPitch .a16 m.gsel)) (valAt v 2).toNat (aRowBytes .a16 m.gsel) ++
            scratchRows (valAt v 1) (pitchOf (valAt v 3 / 2 ^ 32) (256 * alignBytes m.fmt)) (valAt v 2).toNat
              (256 * alignBytes m.fmt))) ∨
      (∃ m, ins = .hmma m i ∧ plan = fun h v =>
          let sl := issueView h m.slot
          harpPlan (sl.1 == 0 || rowsBad (valAt v 0) (valAt v 1) || pitchBad (valAt v 3) (aPitch m.kind sl.2)) [valAt v 2] 16
            (scratchRows (valAt v 2) (pitchOf (valAt v 3) (aPitch m.kind sl.2)) (valAt v 1).toNat (aRowBytes m.kind sl.2))) ∨
      (ins = .haccld i ∧ plan = fun _ v => accPlan 1024 v) ∨
      (∃ m, ins = .haccst m i ∧ plan = fun _ v => accPlan (accPitch m.fmt) v) ∨
      (ins = .hzero i ∧ plan = fun _ v => harpPlan (rowsBad (valAt v 0) (valAt v 1)) [] 16 []) ∨
      ((ins = .htest i ∨ ins = .htestFlags i) ∧ plan = fun _ v => harpPlan false [valAt v 1] 4 [(valAt v 1, 4)]) →
      let ready : Ctx → Prop := fun k => k.e ≠ 0 ∧ k.b.harp = some h ∧ testQueued h = false
      Completes ins i (fun k _ => k.e = 0) IssuedOnly ∧
      (∀ t, Completes ins i (fun k s => ready k ∧ harpCheck k (plan h (harpVals k i)) s = some t) (fun _ _ u => u = t)) ∧
      Completes ins i (fun k s => ready k ∧ harpCheck k (plan h (harpVals k i)) s = none) (fun k s t => ∃ p op,
        s.parties.get? k.c.q = some p ∧
        op = (⟨k.p.serial, ins, harpVals k i ++ [0], 0, .g32, .ieee, 0, false,
          putCells (putCells k.b.sp (h.ops.flatMap (fun o => o.late.getD []))) (k.p.sbuf.flatMap (·.cells)), none,
          (plan h (harpVals k i)).ranges, [], k.c.iaddr, k.c.word⟩ : HarpOp) ∧
        IssuedOnly k (modHarp (modParty s k.c.q (fun p =>
          { p with ctr := { p.ctr with harp := p.ctr.harp + 1 }, serial := p.serial + 1 })) (bidOf k.c.q)
          (fun h => { h with ops := h.ops ++ [op] })) t))

/-- The plane loads at issue (R266, R268-R270): besides the checks of R265 the first byte of the tile is checked as a load; a .WIN
load takes the number of planes, the group size and the reading of its window, and a tile that no window holds is HARP_SHAPE. The
order of the lines of a .WIN load and what the slot holds part-way are the model's choices (log entry 62).

A plane line (R243, R267): where it may be read, the slot takes it, one line more is done, and of memory at most A bits
change; a line that faults leaves the slot undefined, its fault is asynchronous and stops the party; one whose page is not
resident parks the chord.

Line l of a .RAW load (R270): a line of codes fills 256 elements of its plane's columns, 32 bytes a column. -/
def Obligations.Planes : Prop :=
  ( ∀ (i : Insn) (slot : Bool) (m : PlaneMod) (h : Harp),
      let va : Ctx → Nat := fun k => pat 64 (valAt (harpVals k i) 1)
      let chk : Ctx → State → TrRes × State := fun k s => checkVa s k.core k.p.ctx false (va k) permR
      let winPlan : Ctx → HarpPlan := fun k => harpPlan false [valAt (harpVals k i) 1] 16 []
      let rawPlan : Ctx → HarpPlan := fun k =>
        { harpPlan false [valAt (harpVals k i) 1] 128 [] with planes := m.pm1.toNat + 1, g := m.gsel, rd := m.rd }
      let ready : (Ctx → HarpPlan) → Ctx → State → Prop := fun pl k s =>
        k.e ≠ 0 ∧ k.b.harp = some h ∧ testQueued h = false ∧ harpCheck k (pl k) s = none
      let held : State → Nat → Option Nat := fun s pa => (windowOf s pa).filter (fun n => !windowBad (windowAt s n) pa)
      let queued : Ctx → State → State → Instr → Int → Nat → GSize → Reading → Prop := fun k s t ins pa planes g rd =>
        Looked s (chk k s).2 k.c.q [] ∧
        IssuedOnly k (modHarp (modParty (chk k s).2 k.c.q (fun p =>
          { p with ctr := { p.ctr with harp := p.ctr.harp + 1 }, serial := p.serial + 1 })) (bidOf k.c.q)
          (fun h => { h with
            ops := h.ops ++ [⟨k.p.serial, ins, harpVals k i ++ [pa], planes, g, rd, 0, false,
              putCells (putCells k.b.sp (h.ops.flatMap (fun o => o.late.getD []))) (k.p.sbuf.flatMap (·.cells)), none, [],
              List.replicate planes 0, k.c.iaddr, k.c.word⟩] })) t
      let first : Instr → (Ctx → HarpPlan) → Prop := fun ins pl =>
        Completes ins i (fun k _ => k.e = 0) IssuedOnly ∧
        ∀ code level, Completes ins i (fun k s => ready pl k s ∧ (chk k s).1 = .fault code level) (fun k s t =>
          let u := (chk k s).2
          Looked s u k.c.q [] ∧ Faulted k u t (atLevel { partyRec u k.c.q code with addr := BitVec.ofNat 64 (va k) } level))
      first (.hplaneWin slot i) winPlan ∧ first (.hplaneRaw m i) rawPlan ∧
      (∀ x n, Completes (.hplaneWin slot i) i (fun k s => ready winPlan k s ∧ (chk k s).1 = .ok x ∧
          held s (trPa x (va k)) = some n) (fun k s t =>
        queued k s t (.hplaneWin slot i) (trPa x (va k) : Nat) (windowAt s n).w (windowAt s n).g (windowAt s n).rd)) ∧
      (∀ x, Completes (.hplaneWin slot i) i (fun k s => ready winPlan k s ∧ (chk k s).1 = .ok x ∧
          held s (trPa x (va k)) = none) (fun k s t =>
        Looked s (chk k s).2 k.c.q [] ∧ Faulted k (chk k s).2 t (partyRec (chk k s).2 k.c.q 0x30))) ∧
      ∀ x, Completes (.hplaneRaw m i) i (fun k s => ready rawPlan k s ∧ (chk k s).1 = .ok x) (fun k s t =>
        queued k s t (.hplaneRaw m i) 0 (m.pm1.toNat + 1) m.gsel m.rd)) ∧
  ( ∀ (s : State) (blk ix : Nat) (p : Party) (b : Block) (h : Harp) (op : HarpOp) (sl : Bool),
      let q := 65 * blk + 64
      s.parties.get? q = some p → s.blocks.get? blk = some b → b.harp = some h → nextPlane h = some (ix, op) →
      planeSlot op.op = some sl → present s q = true →
      let start := if op.progress = 0 then { PlaneSlot.empty with planes := op.planes, g := op.g, rd := op.rd } else h.slot sl
      let r := match op.op with
        | .hplaneWin _ _ => winLine s q b.core p.ctx op start
        | _ => rawLine s q b.core p.ctx op start
      (∀ x cur last u, r = .landed x cur last u → Looked s u q [] ∧ exec (.planeLineRead blk) s = .next (modHarp u blk (fun h =>
        { h.setSlot sl x with ops := listModify h.ops ix (fun o => { o with progress := o.progress + 1, cur := cur, landed := last }) }))) ∧
      (∀ code level va u, r = .fail code level va u → ∃ t, exec (.planeLineRead blk) s = .next t ∧ Looked s u q [] ∧
        t = { u with ctxs := t.ctxs, blocks := t.blocks, parties := u.parties.modify q (fun p => { p with stopped := true }) } ∧
        ((ctxOf s p.ctx).terminated = false →
          engineRec u q code level op.iaddr op.word (BitVec.ofNat 64 va) ∈ (ctxOf t p.ctx).cands) ∧
        ((harpOf t blk).slot sl).undef = true) ∧
      (∀ m u, r = .miss m u → Looked s u q [] ∧ exec (.planeLineRead blk) s = .next (park u q op.iaddr op.word [m]))) ∧
  ( ∀ (l : Nat) (x : PlaneSlot) (bytes : List Byte), l < 64 * x.planes → bytes.length = 128 →
      (fillRaw l x bytes).side = x.side ∧
      ∀ c n, n < 256 → ((fillRaw l x bytes).cols.getD c 0).testBit n =
        if 4 * l ≤ c ∧ c < 4 * l + 4 then (bytes.getD (32 * (c - 4 * l) + n / 8) 0).toNat.testBit (n % 8)
        else (x.cols.getD c 0).testBit n)

/-- The accumulator rows of an HMMA (R247, R250, R273): row r takes, in every column, the sum over the groups of A times B onto the
old word, or onto 0 with .FRESH; every other row and both slots are as they were, and flags are only added.

The term of a group (R247): I − zb·SA − za·CS + G·za·zb, with CS the sum of the column's codes in the group. Where no
sub-array that serves the K rows of the group and the column fails, the term is that one (R256, R259). -/
def Obligations.MatrixRow : Prop :=
  ( ∀ (wrong : PlaneSlot → Nat → Nat → Option Int) (h : Harp) (m : HmmaMod) (r : Nat) (row : List Byte),
      let h' := hmmaRow wrong h m r row
      (∀ n, n < 256 → accAt h' r n = BitVec.ofNat 32 (accWord (h.slot m.slot) (wrong (h.slot m.slot)) m.kind m.rd row n
        (if m.fresh then 0 else (accAt h r n).toNat)).code) ∧
      (∀ j n, j ≠ r → n < 256 → accAt h' j n = accAt h j n) ∧
      h'.slot0 = h.slot0 ∧ h'.slot1 = h.slot1 ∧ h'.ops = h.ops ∧ h'.hflags &&& h.hflags = h.hflags) ∧
  ( ∀ (x : PlaneSlot) (kind : AKind) (row : List Byte) (g n : Nat),
      let ks := groupRows x.g g
      let za := aZero kind (aRecord kind row g)
      let zb : Int := ((sideOf x g n).zb : Nat)
      groupTerm x kind row g n =
        (ks.map (fun k => aElem kind row k * (tileCode x k n : Nat))).sum - zb * (ks.map (aElem kind row)).sum
          - za * ((sideOf x g n).cs : Nat) + (ks.length : Int) * za * zb) ∧
  ( ∀ (c : Core) (d : Nat) (x : PlaneSlot) (g n : Nat),
      (wrongTerm c d x g n = none ↔ ∀ j, j < gNum x.g → failing c (4 * ((gNum x.g * g + j) / 64) + n / 64) = false) ∧
      ∀ i, i < 16 → failing c i = if c.harp = .spared ∧ c.spareFor = i then c.bad.getLsbD 16 else c.bad.getLsbD i)

/-- The oldest operation of a block's Harp completes (R226, R243, R272-R276): it leaves the queue, the HARP counter falls, no
register and no byte of memory changes; an HPLANE waits for its lines, and an operation that writes scratchpad for the LOCKs and
TRYLOCKs before it (R347). HZERO, HACCLD and HMMA set their rows alone; HTEST.FLAGS
stores HFLAGS and clears them; HTEST stores what its self-test found. What an operation reads of the scratchpad is, in each
aligned chunk of 16 bytes, as at its issue or as now (R255).

What a self-test does to a Harp in service (R257, R258): with nothing in error it stays normal; with one sub-array in error
and a good spare it is spared; with the spare alone in error it has no spare; else it is offline
(what SPAREFOR reads then is log entry 62's choice). -/
def Obligations.HarpCompletion : Prop :=
  ( ∀ (s : State) (blk : Nat) (p : Party) (b : Block) (h : Harp) (op : HarpOp) (l : List HarpOp),
      let q := 65 * blk + 64
      s.parties.get? q = some p → s.blocks.get? blk = some b → b.harp = some h → h.ops = op :: l → present s q = true →
      p.sbuf.all (fun e => decide (op.n ≤ e.n)) = true →
      (mustWait s blk op = true → exec (.harpOpComplete blk) s = .next s) ∧ (mustWait s blk op = false →
      let next : State → Block → Harp → Prop := fun t b' h' => exec (.harpOpComplete blk) s = .next t ∧
        t.blocks.get? blk = some b' ∧ b'.harp = some h' ∧ b' = { b with sp := b'.sp, harp := b'.harp } ∧
        h'.ops.map (fun o => { o with snap := [], late := none }) = l.map (fun o => { o with snap := [], late := none }) ∧
        t = { s with parties := t.parties, blocks := t.blocks, cores := t.cores, draws := t.draws } ∧
        t.parties = s.parties.modify q (fun p => { p with ctr := { p.ctr with harp := p.ctr.harp - 1 } })
      let scratch : Nat → Byte := fun a => if Config.freeAt s.draws (a / 16) % 2 = 0 then b.sp.getD a 0 else op.snap.getD a 0
      let rows : Nat → Nat → Nat → Bool := fun n m r => decide (n ≤ r) && decide (r < n + m)
      let stores : Block → Nat → Nat → Prop := fun b' off v => ∀ a, b'.sp.getD a 0 =
        if off ≤ a ∧ a < off + 4 then BitVec.ofNat 8 (v / 2 ^ (8 * (a - off))) else b.sp.getD a 0
      let r0 := (op.val 0).toNat
      let n1 := (op.val 1).toNat
      (∀ cells, op.late = some cells → ∃ t b' h', next t b' h' ∧ b'.sp = putCells b.sp cells) ∧
      (op.late = none → ((planeSlot op.op).isNone = true ∨ op.landed = true → ∃ t b' h', next t b' h') ∧
        ((planeSlot op.op).isSome = true → op.landed = false → exec (.harpOpComplete blk) s = .next s) ∧
        (∀ i, op.op = .hzero i → ∃ t b' h', next t b' h' ∧ b'.sp = b.sp ∧ ∀ r n, n < 256 →
          accAt h' r n = if rows r0 n1 r then 0 else accAt h r n) ∧
        (∀ i, op.op = .haccld i → ∃ t b' h', next t b' h' ∧ b'.sp = b.sp ∧ ∀ r n, n < 256 → accAt h' r n =
          if rows r0 n1 r then
            BitVec.ofNat 32 (leNat ((List.range 4).map (fun j => scratch ((op.val 2).toNat +
              (r - r0) * pitchOf (op.val 3) 1024 + 4 * n + j))))
          else accAt h r n) ∧
        (∀ m i, op.op = .hmma m i → n1 ≤ 256 → (coreOf s b.core).bad = 0 → ∃ t b' h', next t b' h' ∧ b'.sp = b.sp ∧
          let x := h.slot m.slot
          ∀ r n, n < 256 → accAt h' r n =
            if rows (r0 + op.progress) (n1 - op.progress) r then
              let row := (List.range (aRowBytes m.kind x.g)).map (fun j => scratch ((op.val 2).toNat +
                (r - r0) * pitchOf (op.val 3) (aPitch m.kind x.g) + j))
              BitVec.ofNat 32 (accWord x (fun _ _ => none) m.kind m.rd row n (if m.fresh then 0 else (accAt h r n).toNat)).code
            else accAt h r n) ∧
        (∀ i, op.op = .htestFlags i → ∃ t b' h', next t b' h' ∧ h'.acc = h.acc ∧ h'.hflags = 0 ∧ stores b' n1 h.hflags.toNat) ∧
        (∀ i, op.op = .htest i → ∃ t b' h', next t b' h' ∧ h'.acc = h.acc ∧ h'.hflags = h.hflags ∧
          stores b' n1 (testWord (selfTest (coreOf s b.core))) ∧ coreOf t b.core = (selfTest (coreOf s b.core)).core)))) ∧
  ( ∀ (c : Core), c.harp = .normal →
      let bad := (List.range 16).filter (fun i => c.bad.getLsbD i)
      (bad = [] → c.bad.getLsbD 16 = false → (selfTest c).core.harp = .normal) ∧
      (∀ i, bad = [i] → c.bad.getLsbD 16 = false → (selfTest c).core.harp = .spared ∧ (selfTest c).core.spareFor = i) ∧
      (bad = [] → c.bad.getLsbD 16 = true → (selfTest c).core.harp = .nospare) ∧
      (2 ≤ bad.length ∨ bad.length = 1 ∧ c.bad.getLsbD 16 = true → (selfTest c).core.harp = .offline))

/-! ### Registers and results (spec/01, spec/02) -/

/-- A register write lands (R15, R30, R47): a vector write changes one lane of one register, and none of a lane that is not live;
a scalar write one register; a predicate write one lane of one register, and nothing where it is p7, which reads 1; flags are
set or ORed in one lane. Each leaves every other register, and everything else of the party, as it was.

A shade write lands at its rank (R197): at G for a tag :g, or for no tag where every live lane writes and the values are one;
else at L, in the lanes that wrote. After it each live lane that wrote resolves to its value, and the others of an L write to
what they did. -/
def Obligations.RegisterWrites : Prop :=
  ( ∀ (s : State) (q : Nat) (p : Party), s.parties.get? q = some p →
      let lands : RegWrite → (Party → Prop) → Prop := fun w f => ∃ p', (applyWrite s q w).parties.get? q = some p' ∧ f p' ∧
        (∀ r, r ≠ q → (applyWrite s q w).parties.get? r = s.parties.get? r)
      (∀ r l x, lands (.v r l x) (fun p' => p' = { p with v := p'.v } ∧ ∀ j m, m < 8 → l < 8 →
        getV p' j m = if j = r ∧ m = l ∧ p.live.has l = true then x else getV p j m)) ∧
      (∀ r x, lands (.s r x) (fun p' => p' = { p with s := p'.s } ∧ ∀ j, getS p' j = if j = r then x else getS p j)) ∧
      (∀ r l x, r ≠ 7 → l < 8 → lands (.p r l x) (fun p' => p' = { p with p := p'.p } ∧ ∀ j m, m < 8 →
        getP p' j m = if j = r ∧ m = l then x else getP p j m)) ∧
      (∀ l x, lands (.p 7 l x) (fun p' => p' = p)) ∧
      (∀ m, getP p 7 m = true) ∧
      (∀ l x, lands (.ffSet l x) (fun p' => p' = { p with ff := p'.ff } ∧ ∀ m, getFF p' m = if m = l then x else getFF p m)) ∧
      (∀ l x, lands (.ffOr l x) (fun p' => p' = { p with ff := p'.ff } ∧
        ∀ m, getFF p' m = if m = l then getFF p m ||| x else getFF p m))) ∧
  ( ∀ (p : Party) (b : Block) (k : Nat) (t : Rank) (e : Mask) (xs : List W32), e &&& p.live ≠ 0 →
      let p' := shadeWrite p k t e xs
      let m := e &&& p.live
      let same := (List.range 8).all (fun l => !m.has l || xs.getD l 0 == xs.getD (lowLane m) 0)
      let atG := t = .g ∨ t ≠ .l ∧ m = p.live ∧ same = true
      (atG → (p'.hG.get? k = some (xs.getD (lowLane m) 0)) ∧ ∀ l, l < 8 → p'.hL.get? (hlKey k l) = none) ∧
      (¬ atG → p'.hG = p.hG ∧ ∀ l, l < 8 →
        resolve p' b k l = if m.has l then xs.getD l 0 else resolve p b k l) ∧
      ∀ j l, j ≠ k → l < 8 → resolve p' b j l = resolve p b j l)

/-- LOAD_RETURN and VARIABLE_LATENCY_RESULT (R31, R32, R118, R320): a result lands, in the order of each register's writers: one
with an older result before it in a register of its own stays on its way; else its writes take effect, its token is released, the
bounds that its reads have raised stand, and, no fixed-latency result being due, nothing else changes.

A fixed-latency result lands once its cycle of the core's clock has come, where no older result of its registers is on its way
(R30, R32). -/
def Obligations.ResultsReturn : Prop :=
  ( ∀ (s : State) (q : Nat) (p : Party) (older later : List Pend) (d : Pend), active s q = true → s.parties.get? q = some p →
      p.pend = older ++ d :: later → (∀ e ∈ older ++ later, e.n ≠ d.n) →
      (∀ e ∈ p.pend, ∀ due, e.kind = .fixed due → partyClock s q < due) →
      let ev : Instr := if d.kind = .compute then .variableLatencyResult q d.n else .loadReturn q d.n
      (d.kind = .compute ∨ d.kind = .deliver ∨ ∃ r, d.kind = .load r) →
      let tokens := if d.token = 0 then p.tokens else p.tokens &&& ~~~(BitVec.ofNat 8 (2 ^ d.token))
      (inOrder older d = false → exec ev s = .next s) ∧
      (inOrder older d = true → exec ev s = .next
        (applyWrites (setParty s q (keepReads { p with pend := older ++ later, tokens := tokens } d)) q d.writes))) ∧
  ( ∀ (s : State) (q : Nat) (p : Party) (d : Pend) (due : Nat), s.parties.get? q = some p → p.pend = [d] → d.kind = .fixed due →
      d.writes ≠ [] →
      (due ≤ partyClock s q → settleParty s q = applyWrites (setParty s q { p with pend := [] }) q d.writes) ∧
      (partyClock s q < due → settleParty s q = s))

/-! ### The ordering machine (spec/15, spec/14) -/

/-- PERFORM of a store (R319, R321): it leaves its buffer, its bytes are in memory, at the group's own point at once, and the
party's bound is no older; a reference bit that its tag operations clear is clear. (Where the port of the bytes has failed, R392
drops them.)

PERFORM of a RED and of a scratchpad store (R306, R317, R324, R330): the location holds the combination of the last write with the
operand, and where it reads as poison nothing is written and MEMORY_POISON is raised; one that R306 admits goes to its cluster's
combining buffer instead; the scratchpad holds the bytes.

An entry leaves its buffer only where no older entry touches one of its bytes; a release only once everything older is
performed and the bounds have reached its point; and none while an older LOCK or TRYLOCK is outstanding (R321, R347). -/
def Obligations.Performing : Prop :=
  ( ∀ (s : State) (q n : Nat) (e : BufEntry) (p : Party), s.parties.get? q = some p → mayLeave s q n = some e →
      e.kind = .store →
      ∃ t, exec (.perform q n false) s = .next t ∧ Wrote (dropEntry s q n) t q [] e.cells (e.tags.map tagAt) ∧
        (∃ p', t.parties.get? q = some p' ∧ p'.buf = p.buf.filter (fun x => x.n != n)) ∧
        (∀ a b, lastCell e.cells a = some b → a ∉ e.tags.map tagAt → portLost s a = false → (latest t (.grp q) a).2 = b) ∧
        ∀ a keep, .mask a keep 0 ∈ e.tags → (∀ o ∈ e.tags, ∃ a2 keep2, o = .mask a2 keep2 0) → a ∉ e.cells.map (·.1) →
          portLost s a = false → readByte t.mem a &&& ~~~keep = 0) ∧
  ( ∀ (s : State) (q n : Nat) (e : BufEntry) (p : Party), s.parties.get? q = some p →
      (∀ op ty a x sc, mayLeave s q n = some e → e.kind = .red op ty a x sc →
        (combinable ty op sc = false → poisoned s a = true → ∃ t, exec (.perform q n false) s = .next t ∧ t.mem = s.mem ∧
          (∃ p', t.parties.get? q = some p' ∧ p' = { p with buf := p.buf.filter (fun x => x.n != n), stopped := true }) ∧
          ((ctxOf s p.ctx).terminated = false → ∃ r ∈ (ctxOf t p.ctx).cands, r.code = 0x50 ∧ r.async = true)) ∧
        (combinable ty op sc = false → poisoned s a = false → ∃ t, exec (.perform q n false) s = .next t ∧
          Wrote (dropEntry s q n) t q [] (cellsOf a (bytesOf (tyWidth ty / 8)
            (combine ty op false (lastValue s a (tyWidth ty / 8)) x.toNat).code)) (e.tags.map tagAt)) ∧
        (combinable ty op sc = true →
          ∃ t, exec (.perform q n false) s = .next t ∧
            (∀ p', t.parties.get? q = some p' → ∀ y ∈ p'.buf, y.n = n → y.combined = true ∧ y.rel = none) ∧
            ∃ k ∈ (clusterOf t (cluOf (coreIx s q))).comb, (q, n) ∈ k.members ∧ k.ctx = p.ctx ∧ k.addr = a ∧ k.ty = ty ∧ k.op = op)) ∧
      (∀ b, mayLeaveScratch s q n = some e → blockOf s q = some b →
        ∃ t b', exec (.perform q n true) s = .next t ∧ t = { s with parties := t.parties, blocks := t.blocks } ∧
          t.parties = s.parties.modify q (fun p => { p with sbuf := p.sbuf.filter (fun x => x.n != n) }) ∧
          t.blocks.get? (bidOf q) = some b' ∧ b' = { b with sp := b'.sp } ∧
          ∀ a, b'.sp.getD a 0 = (lastCell e.cells a).getD (b.sp.getD a 0)) ∧
      (∀ start m, mayLeave s q n = some e → e.kind = .object start m →
        ∃ t, exec (.perform q n false) s = .next t ∧
          Wrote { dropEntry s q n with creator := t.creator } t q [] e.cells (e.tags.map tagAt))) ∧
  ( ∀ (s : State) (q n : Nat) (e : BufEntry) (p : Party), s.parties.get? q = some p → mayLeave s q n = some e →
      lockOutstanding s q n = false ∧ e.combined = false ∧
      ∃ older later, p.buf = older ++ e :: later ∧
        (∀ o ∈ older, ∀ a ∈ entryBytes o, a ∉ entryBytes e) ∧
        ∀ sc, e.rel = some sc → older = [] ∧ boundsReady s q sc = true)

/-- PROPAGATE and FILL (R319, R327, R398): a write visible at a point becomes visible at the point's parent; the latest write of a
parent at a byte becomes visible at the point, and at PL(die) those at every byte of the plane line that holds it, as of one
instant. Nothing else changes, and no other point sees more. -/
def Obligations.Visibility : Prop :=
  ∀ (s : State) (pt up : Point) (w a : Nat), parentOf s pt = some up → pt ≠ up →
    let sees : Point → State → (Nat → Prop) → Prop := fun x t v => t = { s with vis := t.vis } ∧
      (∀ u, u ∈ visAt t x ↔ u ∈ visAt s x ∨ v u) ∧ ∀ y, y ≠ x → visAt t y = visAt s y
    (w ∈ visAt s pt → ∃ t, exec (.propagate w pt) s = .next t ∧ sees up t (fun u => u = w)) ∧
    (w ∉ visAt s pt → exec (.propagate w pt) s = .next s) ∧
    (∃ t, exec (.fill pt a) s = .next t ∧ sees pt t (fun u => u ≠ 0 ∧ ∃ b ∈ fillLocs s pt a, u = (latest s up b).1)) ∧
    ((∀ d, pt ≠ .pl d) → fillLocs s pt a = [a])

/-- COMBINING_DRAIN (R306, R307): an entry drains as one RED of the combination of its REDs; it is gone, and so are they from the
buffers of their parties, whose registers and other buffered stores are as they were. Other bytes of data are as they were. Where
the location reads as poison nothing is written, and each party takes MEMORY_POISON (R153, R392). An entry that holds none any more
does nothing. -/
def Obligations.CombiningDrain : Prop :=
  ∀ (s : State) (c n : Nat) (k : CombEntry), (clusterOf s c).comb[n]? = some k →
    let ms := combREDs s k
    let left : Nat → Party → List BufEntry := fun q p => p.buf.filter (fun e => !ms.any (fun m => m.1 == q && m.2.n == e.n))
    (ms = [] → exec (.combiningDrain c n) s = .next s) ∧
    (ms ≠ [] → poisoned s k.addr = true → ∃ t, exec (.combiningDrain c n) s = .next t ∧ t.mem = s.mem ∧
      k ∉ (clusterOf t c).comb ∧ ∀ q p, s.parties.get? q = some p → ∃ p', t.parties.get? q = some p' ∧
        p' = { p with buf := left q p, stopped := p.stopped || ms.any (fun m => m.1 == q) }) ∧
    (ms ≠ [] → poisoned s k.addr = false →
      let w := tyWidth k.ty / 8
      let v := ms.foldl (fun v m => match m.2.kind with
        | .red op ty _ x _ => (combine ty op false v x.toNat).code
        | _ => v) (lastValue s k.addr w)
      ∃ t, exec (.combiningDrain c n) s = .next t ∧ k ∉ (clusterOf t c).comb ∧
        (∀ q p, s.parties.get? q = some p → ∃ p', t.parties.get? q = some p' ∧ p' = { p with bnd := p'.bnd, buf := p'.buf } ∧
          p'.buf = left q p) ∧
        ∀ q, Wrote s { t with parties := s.parties } q [] (cellsOf k.addr (bytesOf w v)) ((ms.flatMap (fun m => m.2.tags)).map tagAt))

/-! ### Collectives (spec/21) -/

/-- CONSORT (R226, R437, R438): a counter of 63 is COUNTER_OVERFLOW, a descriptor that is no multiple of 64 MISALIGNED, with
its LANE and ADDR as log entry 30 reads R426; a field
outside R436 is BOUNDS, a communicator that is not the context's PROTECTION; else, the descriptor once read, the rank enters its
collective, the counter has risen by one, and no register and no byte but A and D bits has changed.

How ranks come together (R438, R439, R441): a rank that finds no collective of its name that it can join makes one; one that
joins a collective is its last rank; where it disagrees with a rank there, or its rank has issued already, every rank without a
completion state takes MISMATCH (4), and the collective has ended. One that comes to a collective that has ended takes MISMATCH
where a rank there did, and else ABORTED (6) (the model's reading, log entry 40). -/
def Obligations.Consort : Prop :=
  ( ∀ (i : Insn) (m : ConsortMod),
      let read : Ctx → State → ColDesc → State → Prop := fun k s d u => k.e ≠ 0 ∧ k.p.ctr.consort ≠ 63 ∧ sbEa k i % 64 = 0 ∧
        readDesc s k (sbEa k i) permRW = .ok d u
      Completes (.consort m i) i (fun k _ => k.e = 0) IssuedOnly ∧
      Completes (.consort m i) i (fun k _ => k.e ≠ 0 ∧ k.p.ctr.consort = 63) (fun k s t =>
        Faulted k s t (partyRec s k.c.q 0x22)) ∧
      Completes (.consort m i) i (fun k _ => k.e ≠ 0 ∧ k.p.ctr.consort ≠ 63 ∧ sbEa k i % 64 ≠ 0) (fun k s t =>
        Faulted k s t { partyRec s k.c.q 0x10 with lane := lowLane k.e % 8, addr := BitVec.ofNat 64 (sbEa k i) }) ∧
      ∀ (d : ColDesc) (u : State),
        Completes (.consort m i) i (fun k s => read k s d u ∧ colBad s m d = true) (fun k s t =>
          Looked s u k.c.q [] ∧ Faulted k u t (partyRec u k.c.q 0x12)) ∧
        Completes (.consort m i) i (fun k s => read k s d u ∧ colBad s m d = false ∧ commOk s d.comm k.p.ctx = false)
          (fun k s t => Looked s u k.c.q [] ∧ Faulted k u t (partyRec u k.c.q 0x11)) ∧
        Completes (.consort m i) i (fun k s => read k s d u ∧ colBad s m d = false ∧ commOk s d.comm k.p.ctx = true)
          (fun k s t => Looked s u k.c.q [] ∧
            IssuedOnly k (modParty (enterCol u d.comm d.seq (newRank m k (sbEa k i) d)) k.c.q (fun p =>
              { p with ctr := { p.ctr with consort := p.ctr.consort + 1 }, serial := p.serial + 1 })) t)) ∧
  ( (∀ (s : State) (comm seq : Nat) (r : ColRank), s.cols.findIdx? (joinsCol comm seq r.rank) = none →
      enterCol s comm seq r = { s with
        colSerial := s.colSerial + 1,
        cols := s.cols ++ [{ n := s.colSerial, comm := comm, seq := seq, ranks := [r], running := false, flags := 0, ended := false }] }) ∧
    (∀ (now size : Nat) (c : Collective) (r : ColRank), c.ended = true → addRank now size c r =
      { c with ranks := c.ranks ++ [{ r with done := if c.ranks.any (fun x => x.done == 4) then 4 else 6 }] }) ∧
    ∀ (now size : Nat) (c : Collective) (r : ColRank), c.ended = false → c.ranks.any (timedOut now) = false ∨ size ≤ arrived c →
      (c.ranks.any (disagree r) = false → rankIn c r.rank = none → addRank now size c r = { c with ranks := c.ranks ++ [r] }) ∧
      (c.ranks.any (disagree r) = true ∨ (rankIn c r.rank).isSome = true →
        (addRank now size c r).ended = true ∧ ∀ x ∈ (addRank now size c r).ranks, x.done ≠ 0))

/-- The events of a collective (R226, R438, R439, R441). It runs once every rank has issued and every local rank's release at
.FAB is taken; while it runs the sources of its ranks are read in order, which writes no byte but A bits and changes no register.
A rank with a completion state, its release taken, has its STATUS written at its descriptor, its CONSORT counter falls, and it is
closed; a rank whose collective has all its data has its destination written before, and takes DONE (3). When the TIMEOUT of a rank
passes before all have issued, it completes with TIMEOUT and the others with ABORTED. That a completion other than DONE waits only
for the rank's release, and that STATUS is checked again when it is written, are the model's readings (log entry 40).

What a rank receives (R439, R440): an ALLREDUCE gives every rank the tree over all ranks' elements, a REDUCE the root alone;
a BROADCAST gives the root's elements, an ALLGATHER those of all ranks in order, a BARRIER nothing; with two ranks the tree is
one combination. -/
def Obligations.CollectiveEvents : Prop :=
  ( ∀ (s : State) (n : Nat) (c : Collective), s.cols.find? (fun x => x.n == n) = some c →
      let c1 : Collective := { c with ranks := c.ranks.map (markReady s) }
      let complete := c.ranks.length = commSize s c.comm ∧ c1.ranks.all (·.ready) = true
      let tags : Tlb → Nat → List Nat := fun x loc => if x.tg then [tagLoc loc] else []
      (c.ended = true → exec (.collectiveRun n) s = .next s) ∧
      (c.ended = false → c.running = false → ¬ complete → exec (.collectiveRun n) s = .next (modCol s n (fun _ => c1))) ∧
      (c.ended = false → c.running = true ∨ complete → ∃ t, exec (.collectiveRun n) s = .next t ∧
        t = c1.ranks.foldl (fun s r => readSources s n r) (modCol s n (fun _ => { c1 with running := true })) ∧
        (∀ r, (t.parties.get? r).map (fun p => { p with bnd := [], stopped := false }) =
          (s.parties.get? r).map (fun p => { p with bnd := [], stopped := false })) ∧
        ∀ q, Looked s { t with parties := s.parties, cols := s.cols, ctxs := s.ctxs } q []) ∧
      (∀ r q, r.q = some q → c.ended = false → r.data = none → r.closed = false →
        (readsSource r = false → readSources s n r = modCol s n (setData r.rank [])) ∧
        ∀ l u, readsSource r = true →
          readElems q (coreIx s q) r.ctx (tyWidth (rankTy r) / 8) r.count r.src s = .ok l u →
          readSources s n r = modCol u n (setData r.rank l) ∧ Looked s u q [] ∧ l.length = r.count) ∧
      (∀ rank r q b, c.ranks.find? (fun r => r.rank == rank && r.q.isSome && !r.closed) = some r → r.q = some q →
        earlierOpen s q r.n = false → blockOf s q = some b → b.resident = true →
        (r.done ≠ 0 → r.ready = false → rankReleased s r = false → exec (.collectiveComplete n rank) s = .next s) ∧
        (∀ x, r.done ≠ 0 → (r.ready || rankReleased s r) = true →
          (checkVa s (coreIx s q) r.ctx false (r.desc + 0x28) permW).1 = .ok x →
          let loc := trLoc x (r.desc + 0x28)
          ∃ v, exec (.collectiveComplete n rank) s = .next (modCol (modParty v q (fun p =>
              { p with ctr := { p.ctr with consort := p.ctr.consort - 1 } })) c.n (fun c => { c with ranks := c.ranks.map (fun y =>
                if y.q = some q ∧ y.n = r.n then { y with done := r.done, closed := true } else y) })) ∧
            Wrote s v q [x] (cellsOf loc (bytesOf 8 (colStatus c r.done % 2 ^ 64))) (tags x loc)) ∧
        (∀ ds u, r.done = 0 → c.running = true → c.ranks.all (fun x => x.data.isSome) = true →
          let xs := colResult c (commSize s c.comm) r
          let w := tyWidth (rankTy r) / 8
          let fl := colFlags c (commSize s c.comm)
          destElems (coreIx s q) r.ctx w xs.length r.dst s = .ok ds u →
          let v := (ds.zip xs).foldl (storeElem q (coreIx s q) w) u
          exec (.collectiveComplete n rank) s = .next (closeRank (modCol v c.n (fun c => { c with flags := fl })) { c with flags := fl } r q 3) ∧
          Wrote s v q (ds.map (fun e => e.2)) ((ds.zip xs).flatMap (fun e => cellsOf e.1.1 (bytesOf w e.2.toNat)))
            (ds.flatMap (fun e => tags e.2 e.1)))) ∧
      (∀ rank, c.ended = false → c.running = false → arrived c < commSize s c.comm →
        c.ranks.any (fun r => r.rank == rank && timedOut (ticksOf s.cycle) r) = true →
        ∃ t, exec (.collectiveTimeout n rank) s = .next t ∧ t = { s with cols := t.cols } ∧
          t.cols.find? (fun x => x.n == n) = some { c with ended := true, ranks := c.ranks.map (fun r =>
            let end_ := if timedOut (ticksOf s.cycle) r then 5 else 6
            if r.done = 0 then { r with done := end_ } else r) })) ∧
  ( ∀ (c : Collective) (n : Nat) (r : ColRank),
      (colKindOf r.kind = some .allreduce → (colResult c n r).length = r.count) ∧
      (colKindOf r.kind = some .reduce → r.rank ≠ r.root → colResult c n r = []) ∧
      (colKindOf r.kind = some .broadcast → colResult c n r = colData c r.root) ∧
      (colKindOf r.kind = some .allgather → colResult c n r = (List.range n).flatMap (colData c)) ∧
      (colKindOf r.kind = some .barrier → colResult c n r = []) ∧
      ∀ i, (colElem c 2 r i).code = (combine (rankTy r) (rankOp r) false ((colData c 0).getD i 0).toNat
        ((colData c 1).getD i 0).toNat).code)

/-! ### The directory and the issue throttle (spec/18, spec/08) -/

/-- No directory message, and neither event of the throttle, changes a register of any party, a byte of memory or the order of any
writes (R185, R381, R389): each ends in a next state. A message differs at most in the directory's own records, in the lines of
the caches and in what the points have seen, which is never less; an event of the throttle in the octants of its core.

A die asks its home (R382, R387): for a line that it does not hold with ReadS or ReadM, for one that it holds in S or O with
Upgrade; one request of a die for a line at a time, and none for a line in its victim buffer.

What a request leaves recorded (R382): after ReadM or Upgrade the requester is M and every other die I; after ReadS the
requester is E where no other die is left with the line, else S, and no other die is more than it was recorded. -/
def Obligations.DirectoryRequests : Prop :=
  ( ∀ (s : State) (ins : Instr) (d line : Nat),
      (ins ∈ [.readS d line, .readM d line, .upgrade d line, .fwdS line, .fwdM line, .invMsg d line, .missMsg line, .doneMsg line,
          .wbReq d line, .wbGrant d line, .wbCancel d line, .wbData d line, .backInv d line, .invAck d line, .entryMerge d line] →
        ∃ t, exec ins s = .next t ∧ LinesMoved s t ∧ ∀ pt w, w ∈ visAt s pt → w ∈ visAt t pt) ∧
      (ins ∈ [.epochEnd d, .throttleEntry d line] →
        ∃ t, exec ins s = .next t ∧ t = { s with cores := t.cores } ∧ (∀ c, c ≠ d → coreOf t c = coreOf s c) ∧
          coreOf t d = { coreOf s d with octs := (coreOf t d).octs, epochStart := (coreOf t d).epochStart })) ∧
  ( ∀ (s : State) (d line : Nat), d < 4 → line < 2 ^ 45 → (∀ r ∈ reqsOf s line, r.d ≠ d) →
      (∀ v ∈ s.victims, ¬ (v.d = d ∧ v.line = line)) →
      let asked : DirKind → State := fun k =>
        { s with dirReqs := s.dirReqs.put line (reqsOf s line ++ [⟨k, d, s.cycle, false, none, [], [], false, none, none⟩]) [] }
      (heldBy s d line = .i → exec (.readS d line) s = .next (asked .readS) ∧ exec (.readM d line) s = .next (asked .readM)) ∧
      (heldBy s d line = .s ∨ heldBy s d line = .o → exec (.upgrade d line) s = .next (asked .upgrade)) ∧
      (heldBy s d line ≠ .i → exec (.readS d line) s = .next s ∧ exec (.readM d line) s = .next s)) ∧
  ( ∀ (e : DirEntry) (k : DirKind) (d : Nat) (x : Option (Nat × DirSt)), d < 4 →
      (afterReq e k d x).length = 4 ∧
      (k ≠ .readS → ∀ i, i < 4 → (afterReq e k d x).getD i .i = if i = d then .m else .i) ∧
      (k = .readS → x = none → ∀ i, i < 4 → (afterReq e k d x).getD i .i =
        if i = d then (if (List.range 4).all (fun o => o == d || recorded e o == .i) then .e else .s) else recorded e i) ∧
      (k = .readS → ∀ w, w ≠ d → w < 4 → recorded e w ≠ .i → ∀ y, x = some (w, y) → y ≠ .i →
        (afterReq e k d x).getD w .i = y ∧ (afterReq e k d x).getD d .i = .s))

/-- The messages of a request that is being served (R382-R386): FwdS leaves the owner in O, or in S where it was E; FwdM and Inv
leave a die nothing, FwdM only once the die that won the line before has made its access; Miss hands the request to memory; Done,
once the data and every acknowledgement have come and the entries that it records have room (R388), leaves the requester the line, with the latest writes to it, and lets the next
request be served.

The data of a line that passes on (R382, R389): the points that it passes to have seen, of each byte of the line, the latest write
made in the package, and nothing else is new there or anywhere.

A line that a die drops is in none of its caches (R384).

Write-backs (R385): a die that holds a line in O or M, in no pinned way of its home (R405), puts it into its victim buffer of 32 and asks; while no request of the
line is served the home grants where the die is still the recorded owner, and else cancels; the data of a granted write-back
makes memory current and ends it, and the die has the line no longer. -/
def Obligations.DirectoryMessages : Prop :=
  ( ∀ (s u : State) (line : Nat) (r : DirReq) (l : List DirReq), serve s line = some (u, r, l) →
      let head : State → DirReq → State := fun t r => { t with dirReqs := t.dirReqs.put line (r :: l) [] }
      (∀ x, r.fwd = some x → r.kind = .readS → heldBy u x line ≠ .i →
        let y : DirSt := if heldBy u x line = .o ∨ heldBy u x line = .m then .o else .s
        exec (.fwdS line) s = .next (head (setHeldBy (passLine u line [.die x, .pkg]) x line y)
          { r with fwd := none, data := true, left := some (x, y) })) ∧
      (∀ x, r.fwd = some x → r.kind ≠ .readS → heldBy u x line ≠ .i →
        (waitsAccess u line r = false →
          let v := dropCopies (passLine u line [.die x, .pkg]) x line
          exec (.fwdM line) s = .next (head (setSectors v r.d line (sectorsAt v r.d line ||| sectorsAt u x line))
            { r with fwd := none, data := true, left := some (x, .i) })) ∧
        (waitsAccess u line r = true → exec (.fwdM line) s = .next s)) ∧
      (∀ x, r.fwd = some x → heldBy u x line = .i →
        exec (.missMsg line) s = .next (head u { r with fwd := none, data := true, left := some (x, .i) })) ∧
      (∀ d, d ∈ r.toInv → exec (.invMsg d line) s = .next (head (dropCopies u d line)
        { r with toInv := r.toInv.filter (fun x => x != d), toAck := r.toAck ++ [d] })) ∧
      (r.data = true → r.fwd = none → r.toInv = [] → r.toAck = [] → recordFits u line r = true → ∃ t, exec (.doneMsg line) s = .next t ∧
        reqsOf t line = l ∧ (r.kind ≠ .readS → heldBy t r.d line = .m) ∧ heldBy t r.d line ≠ .i ∧
        (∀ d, d < 4 → d ≠ r.d → heldBy t d line = heldBy u d line) ∧
        (heldBy u r.d line = .i → ∀ a, lineOf (dataLoc a) = line → homeLatest u a ≠ 0 → homeLatest u a ∈ visAt t (.die r.d)))) ∧
  ( ∀ (s : State) (line : Nat) (pts : List Point), (∀ pt ∈ pts, insidePoint pt = true) →
      let t := passLine s line pts
      t = { s with vis := t.vis } ∧ ∀ pt w, w ∈ visAt t pt ↔
        w ∈ visAt s pt ∨ pt ∈ pts ∧ w ≠ 0 ∧ ∃ a, lineOf (dataLoc a) = line ∧ w = homeLatest s a) ∧
  ( ∀ (s : State) (d line : Nat), d < 4 →
      let t := dropCopies s d line
      heldBy t d line = .i ∧ sectorsAt t d line = 0 ∧
      (∀ c, dieOf c = d → (s.cores.get? c).isSome = true →
        (∀ x ∈ (coreOf t c).l1, x.pline ≠ line) ∧ ∀ x ∈ (coreOf t c).ro, x.pline ≠ line) ∧
      (∀ c, dieOf c ≠ d → coreOf t c = coreOf s c) ∧ ∀ x m, ¬ (x = d ∧ m = line) → x < 4 → heldBy t x m = heldBy s x m) ∧
  ( ∀ (s : State) (d line : Nat),
      let is : WbSt → Victim → Bool := fun st v => v.d == d && v.line == line && v.st == st
      (mayAsk s d line = true → (heldBy s d line = .o ∨ heldBy s d line = .m) → pinnedHere s d line = false → (s.victims.filter (fun v => v.d == d)).length < 32 →
        exec (.wbReq d line) s = .next { s with victims := s.victims ++ [⟨d, line, .asked⟩] }) ∧
      (pinnedHere s d line = true → exec (.wbReq d line) s = .next s) ∧
      (s.victims.any (is .asked) = true → quiet s line = true → isOwner s d line = true →
        exec (.wbGrant d line) s = .next { s with
          victims := s.victims.map (fun v => if v.d == d && v.line == line then { v with st := .granted } else v) } ∧
        exec (.wbCancel d line) s = .next s) ∧
      (s.victims.any (is .asked) = true → quiet s line = true → isOwner s d line = false →
        exec (.wbCancel d line) s = .next { s with victims := s.victims.filter (fun v => !(v.d == d && v.line == line)) } ∧
        exec (.wbGrant d line) s = .next s) ∧
      (∀ e, s.victims.any (is .granted) = true → entryOf s line = some e →
        roomFor s (homeDie s line) (some e) (splitFor line e) = true → ∃ t, exec (.wbData d line) s = .next t ∧
          heldBy t d line = .i ∧ (∀ v ∈ t.victims, ¬ (v.d = d ∧ v.line = line)) ∧
          (∀ a, lineOf (dataLoc a) = line → homeLatest s a ≠ 0 → homeLatest s a ∈ visAt t .pkg) ∧
          ∀ y, (homeDie s line, y) ∈ t.dir → (homeDie s line, y) ∉ s.dir → covers y line = true → d < y.st.length →
            recorded y d = .i))

/-- Invalidations that are acknowledged, evictions of entries, and merging (R381, R388).

Splitting (R381): an entry of 2^k bytes with 7 ≤ k ≤ 16 splits into entries that cover together what it covered, in its state,
the line's own entry being of 128 bytes. -/
def Obligations.EntryEvents : Prop :=
  ( ∀ (s : State) (d line : Nat),
      (∀ r l, backOf s (fun b => b.toAck) d line = none → reqsOf s line = r :: l → d ∈ r.toAck →
        exec (.invAck d line) s = .next { s with
          dirReqs := s.dirReqs.put line ({ r with toAck := r.toAck.filter (fun x => x != d) } :: l) [] }) ∧
      (∀ b, backOf s (fun b => b.toAck) d line = some b → b.toSend = [] → b.toAck = [(d, line)] →
        ∃ t, exec (.invAck d line) s = .next t ∧
          ∀ e ∈ t.dir, ¬ (e.1 = b.home ∧ e.2.base = b.base ∧ e.2.k = b.k)) ∧
      (∀ b, backing s line = true → backOf s (fun b => b.toSend) d line = some b →
        ∃ t, exec (.backInv d line) s = .next t ∧ heldBy t d line = .i ∧ ∀ v ∈ t.victims, ¬ (v.d = d ∧ v.line = line)) ∧
      (∀ base a b, base % 2 ^ (a.k + 1) = 0 → s.dir.find? (fun e => e.1 == d && e.2.base == base) = some (d, a) →
        s.dir.find? (fun e => e.1 == d && e.2.base == base + 2 ^ a.k && e.2.k == a.k) = some (d, b) →
        a.k < 16 → a.st = b.st → a.last + 65536 ≤ dieClock s d → b.last + 65536 ≤ dieClock s d → entryIdle s a = true → entryIdle s b = true →
        backing s (base / 128) = false → backing s ((base + 2 ^ a.k) / 128) = false →
        ∃ t, exec (.entryMerge d base) s = .next t ∧ (d, ⟨base, a.k + 1, a.st, max a.last b.last⟩) ∈ t.dir)) ∧
  ( ∀ (e : DirEntry) (line : Nat), 7 ≤ e.k → e.k ≤ 16 → covers e line = true →
      (∀ y ∈ splitFor line e, y.st = e.st ∧ y.last = e.last ∧ 7 ≤ y.k ∧ y.k ≤ e.k) ∧
      (∃ y ∈ splitFor line e, covers y line = true ∧ y.k = 7) ∧
      ∀ n, covers e n = true ↔ ∃ y ∈ splitFor line e, covers y n = true)

/-- The issue throttle (R185, R191): at the end of an epoch of 4,096 cycles each octant's N is 64 less 8 for each 32 events, at
least 8, in MODE 0; FIXN within 8 to 64 in MODE 1; 64 in MODE 2, where no group is throttled; the score is what was counted, and
counting starts again. The group that has been throttled for longest enters the memory set after 512 cycles, at most one in a
cycle of the core's clock. -/
def Obligations.IssueThrottle : Prop :=
  ∀ (s : State) (core : Nat), core < 288 →
    let c := coreOf s core
    (c.epochStart + 4096 ≤ coreClock s core → ∃ t, exec (.epochEnd core) s = .next t ∧
      (coreOf t core).epochStart = c.epochStart + 4096 ∧
      ∀ (o : Nat) (x : Octant), c.octs[o]? = some x → ∃ y, (coreOf t core).octs[o]? = some y ∧ y.events = 0 ∧ y.score = x.events ∧
        y.n = (if c.mode = 1 then max 8 (min 64 c.fixn) else if c.mode = 2 then 64 else max 8 (64 - 8 * (x.events / 32))) ∧
        (c.mode = 2 → y.mem = none ∧ y.thr = []) ∧
        (c.mode ≠ 2 → ∃ l, y.mem = some l ∧ l.length ≤ y.n)) ∧
    (coreClock s core < c.epochStart + 4096 → exec (.epochEnd core) s = .next s) ∧
    ∀ (oct g : Nat) (l : List Nat), oct < c.octs.length → oct < 8 → longestThrottled (octAt s core oct).thr = some g →
      (octAt s core oct).mem = some l →
      let now := coreClock s core
      let since := (octAt s core oct).thr.getD g now
      (now < since + 512 → exec (.throttleEntry core oct) s = .next s) ∧
      ((octAt s core oct).lastEntry = some now → exec (.throttleEntry core oct) s = .next s) ∧
      (since + 512 ≤ now → (octAt s core oct).lastEntry ≠ some now →
        ∃ t m, exec (.throttleEntry core oct) s = .next t ∧ (octAt t core oct).mem = some m ∧ g ∈ m ∧
          (octAt t core oct).thr.get? g = none ∧ (octAt t core oct).lastEntry = some now ∧ (l ≠ [] → m.length ≤ l.length))

/-! ### Placement, slices, termination (spec/08, spec/14, spec/19, spec/20) -/

/-- CHORD_PLACE and RESUME (R47, R49, R181, R286, R303, R417, R423). A chord whose context does not run, or that is not at the head of
its cluster queue, chords of other contexts left aside (the model's reading of R417, log entry 48), stays where it is. A queued one that finds its place (seats for all its blocks and the chord barriers) is
resident: each block on its core with the resources of its seat, each group at the group entry with all lanes live, s0 the
ARGS of the card and every other register 0. One that can resume and does so is resident, its parties with their buffers and locks
as they were and the stall that remained, and its packets run at that one moment (log entry 48); results of arithmetic that were outstanding have landed, and where there was none the
registers and fragments are as they were; one that finds no place waits at the cluster that it left. -/
def Obligations.Placement : Prop :=
  ∀ (s : State) (cid : Nat) (ch : Chord), s.chords.get? cid = some ch →
    let p := partOf s ch.part
    let blocks := (chordBlocks s cid).length
    let back : State → Nat → List Nat → Prop := fun t clu cbs =>
      (∃ x, t.chords.get? cid = some x ∧ x = { ch with st := .resident, cbMap := cbs, cluster := clu }) ∧
      ∀ q x, q ∈ chordLive s cid → s.parties.get? q = some x → ∃ y, t.parties.get? q = some y ∧
        y.buf = x.buf ∧ y.held = x.held ∧ y.nextIssue = partyClock t q + x.nextIssue ∧
        (x.pend = [] → y.v = x.v ∧ y.s = x.s ∧ y.p = x.p ∧ y.ff = x.ff ∧ y.hG = x.hG ∧ y.hL = x.hL ∧ fragsOf y = fragsOf x) ∧
        (x.retired = false → (x.pend.map (·.n)).Nodup → (blockOf s q).isSome = true → y.pend = [])
    (s.released = none → exec (.chordPlace cid) s = .next s) ∧
    (runner s ch.part ≠ some ch.ctx ∨ headChord s p ch.cluster ch.ctx ≠ some cid → exec (.chordPlace cid) s = .next s) ∧
    (∀ c us cbs, s.released.isSome = true → runner s ch.part = some ch.ctx → headChord s p ch.cluster ch.ctx = some cid →
      (partClusters p).contains ch.cluster = true → ch.st = .queued → s.cards.get? ch.card = some c → c.groups ≤ 64 → ch.n ≤ 4 →
      (ctxBlocks s ch.ctx).length + ch.n ≤ (descOf s ch.ctx).saveBlocks →
      seatsFor s ch.cluster ch c.kern c.groups ch.n = some (us, cbs) →
      ∃ t, exec (.chordPlace cid) s = .next t ∧ us.length = ch.n ∧
        t.chords.get? cid = some { ch with st := .resident, cbMap := cbs } ∧
        (∀ d, d ≠ cid → t.chords.get? d = s.chords.get? d) ∧
        (∀ q, cidOf (bidOf q) ≠ cid → t.parties.get? q = s.parties.get? q) ∧
        ∀ i u, us[i]? = some u →
          (∃ b, t.blocks.get? (4 * cid + i) = some b ∧ b.core = u.core ∧ b.scratchBase = u.base ∧ b.barBase = u.bars ∧
            b.queBase = u.ques ∧ b.slots = u.slots ∧ b.groups = c.groups ∧ b.blkid = ch.idx * ch.n + i ∧ b.resident = true ∧ b.kern = c.kern) ∧
          ∀ g, g < c.groups → ∃ y, t.parties.get? (65 * (4 * cid + i) + g) = some y ∧ y.bow = false ∧ y.grpid = g ∧ y.live = 255 ∧
            y.slot0.map (fun f => (f.pc, f.mask)) = some (BitVec.ofNat 64 (c.kern.image + c.kern.gOff), 255) ∧ y.slot1 = none ∧
            y.spill = [] ∧ (∀ r, getS y r = if r = 0 then c.args else 0) ∧ (∀ r l, getV y r l = 0) ∧ (∀ l, getFF y l = 0) ∧
            (∀ r l, r ≠ 7 → getP y r l = false)) ∧
    (∀ k g n, resumable s cid ch = true → queuedSomewhere p cid = false → runner s ch.part = some ch.ctx →
      chordShape s cid = some (k, g, n) →
      (∀ c ∈ clustersFrom p ch.cluster, seatsFor s c ch k g n = none) →
      ∃ t, exec (.resume cid) s = .next t ∧ t = { s with parts := t.parts } ∧ cid ∈ (partOf t ch.part).queues.getD ch.cluster []) ∧
    (∀ k g n c us cbs, resumable s cid ch = true → runner s ch.part = some ch.ctx → chordShape s cid = some (k, g, n) →
      n = blocks → (∀ q ∈ chordLive s cid, ∀ x, s.parties.get? q = some x → ∀ d ∈ x.pend, d.kind = .compute ∨ d.kind = .deliver) →
      seatsFor s c ch k g n = some (us, cbs) →
      (queuedSomewhere p cid = false → (clustersFrom p ch.cluster).find? (fun c => (seatsFor s c ch k g n).isSome) = some c →
        ∃ t, exec (.resume cid) s = .next t ∧ back t c cbs) ∧
      (s.released.isSome = true → headChord s p ch.cluster ch.ctx = some cid → (partClusters p).contains ch.cluster = true →
        c = ch.cluster → ∃ t, exec (.chordPlace cid) s = .next t ∧ back t c cbs))

/-- BLOCK_RETIRE and SLICE_END (R179, R182, R416, R419, R420). A block with a party that has something left to do stays; else it
and its parties are gone and its chord has one block less, or is gone with its last one. A slice that has not been used up goes
on, one with no other context waiting begins anew; else another context runs, and every resident chord of the old one stands
saved, off its cores. -/
def Obligations.BlocksLeave : Prop :=
  ∀ (s : State),
    (∀ blk b ch, s.blocks.get? blk = some b → s.chords.get? (cidOf blk) = some ch → b.resident = true →
      (∀ h, b.harp = some h → h.ops = []) →
      ((∃ q ∈ blockParties blk, partyDone s q = false) → exec (.blockRetire blk) s = .next s) ∧
      ((∀ q ∈ blockParties blk, partyDone s q = true) → ∃ t, exec (.blockRetire blk) s = .next t ∧
        t.blocks.get? blk = none ∧ (∀ x, x ≠ blk → t.blocks.get? x = s.blocks.get? x) ∧
        (∀ q, bidOf q = blk → t.parties.get? q = none) ∧
        t.chords.get? (cidOf blk) = if ch.blocksLeft ≤ 1 then none else some { ch with blocksLeft := ch.blocksLeft - 1 })) ∧
    ∀ part k, (partOf s part).running = some k →
      let p := partOf s part
      let now := delivered s (4 * p.cbase)
      (now < p.sliceStart + sliceOf s k → exec (.sliceEnd part) s = .next s) ∧
      (p.sliceStart + sliceOf s k ≤ now → (waitingChords s part).all (fun e => e.2.ctx == k) = true →
        exec (.sliceEnd part) s = .next (setPart s part { p with sliceStart := now })) ∧
      (p.sliceStart + sliceOf s k ≤ now → (waitingChords s part).any (fun e => e.2.ctx != k) = true →
        ∃ t n, exec (.sliceEnd part) s = .next t ∧ n ≠ k ∧ (partOf t part).running = some n ∧ (partOf t part).sliceStart = now ∧
          ∀ cid ch, s.chords.get? cid = some ch → ch.ctx = k → ch.st = .resident →
            (∃ x, t.chords.get? cid = some x ∧ x.st = .saved) ∧
            ∀ b x, cidOf b = cid → t.blocks.get? b = some x → x.resident = false)

/-- CONTEXT_TERMINATION (R353, R394, R427, R429): without a candidate, or for a context that has been terminated, nothing happens.
Else the candidate of the least TICKS, and of the lowest CORE among those, is recorded; the context holds no lock, party,
block, chord, card or launch any more, and its key has a new generation. Other contexts' parties are as they were but for the
locks that pass to them. -/
def Obligations.Termination : Prop :=
  ∀ (s : State) (ctx : Nat), ctx < 4096 →
    let c := ctxOf s ctx
    let part := (descOf s ctx).part
    (c.cands = [] ∨ c.terminated = true → exec (.contextTermination ctx) s = .next s) ∧
    (c.cands ≠ [] → c.terminated = false → ∃ t r, exec (.contextTermination ctx) s = .next t ∧ r ∈ c.cands ∧
      (∀ x ∈ c.cands, r.ticks < x.ticks ∨ (r.ticks = x.ticks ∧ r.core ≤ x.core)) ∧
      ((partOf s part).fqBuf.length < 63 → ∃ l, (partOf t part).fqBuf = (partOf s part).fqBuf ++ (r, none) :: l) ∧
      (ctxOf t ctx).terminated = true ∧ (ctxOf t ctx).cands = [] ∧ (ctxOf t ctx).pinned = [] ∧
      (∀ k x, t.chords.get? k = some x → x.ctx ≠ ctx) ∧ (∀ k x, t.cards.get? k = some x → x.ctx ≠ ctx) ∧
      (∀ k x, t.launches.get? k = some x → x.ctx ≠ ctx) ∧
      (∀ k x, s.chords.get? k = some x → x.ctx = ctx →
        (∀ b, cidOf b = k → t.blocks.get? b = none) ∧ ∀ q, cidOf (bidOf q) = k → (blockOf s q).isSome = true → t.parties.get? q = none) ∧
      (∀ line x g, t.locks.get? line = some x → x.holder = some g → g % 4096 ≠ ctx) ∧
      t.keyGen.getD ctx 0 = s.keyGen.getD ctx 0 + 1 ∧
      ∀ q x, AMap.sorted s.chords = true → s.parties.get? q = some x → (∀ k y, s.chords.get? k = some y → y.ctx = ctx → cidOf (bidOf q) ≠ k) → x.ctx ≠ ctx →
        ∃ y, t.parties.get? q = some y ∧ y.v = x.v ∧ y.s = x.s ∧ y.p = x.p ∧ y.ff = x.ff ∧ fragsOf y = fragsOf x)

/-- The fault queue (R425, R427): while it takes records the oldest record of the buffer goes to the slot of TAIL as the 64 bytes of
R426, TAIL rises, the partition's source is pending, and a record that waits in its producer enters the buffer at once (the model's
reading, log entry 53); no other byte
changes, but in the slot's line where that held another key's data (R393); while it does not, nothing happens. HEAD moves only to where it is not past TAIL nor more than N behind it. OVF_CLEAR clears OVF and
DROPPED. -/
def Obligations.FaultQueue : Prop :=
  ∀ (s : State) (n : Nat),
    let p := partOf s n
    let full := p.fqTail - p.fqHead = BitVec.ofNat 16 (2 ^ p.fqLog) ∧ p.fqLog < 16
    (p.fqBuf = [] ∨ p.fqEn = false ∨ full → exec (.faultRecordWrite n) s = .next s) ∧
    (∀ r l, p.fqBuf = r :: l → p.fqEn = true → ¬ full → ∃ t, exec (.faultRecordWrite n) s = .next t ∧
      (partOf t n).fqTail = p.fqTail + 1 ∧ (partOf t n).fqHead = p.fqHead ∧
      (partOf t n).fqBuf = l ++ p.fqWait.take 1 ∧ (partOf t n).fqWait = p.fqWait.drop 1 ∧
      (n + 1) ∈ t.irq ∧ t.parties = s.parties ∧
      let at_ := locOf 0 (p.fqBase * 4096 + 64 * (p.fqTail.toNat % 2 ^ p.fqLog))
      (∀ i b, (recBytes r.1)[i]? = some b → portLost s (at_ + i) = false → readByte t.mem (at_ + i) = b) ∧
      ∀ a, a < at_ ∨ at_ + 64 ≤ a → foreign s at_ = false ∨ lineOf (dataLoc a) ≠ lineOf at_ → readByte t.mem a = readByte s.mem a) ∧
    (n < 72 → exec (.fqOvfClear n) s = .next (setPart s n { p with fqOvf := false, fqDropped := 0 })) ∧
    (72 ≤ n → exec (.fqOvfClear n) s = .next s) ∧
    ∀ v, (n < 72 → (p.fqTail - v).toNat ≤ 2 ^ p.fqLog → exec (.fqHeadWrite n v) s = .next (setPart s n { p with fqHead := v })) ∧
      (72 ≤ n ∨ 2 ^ p.fqLog < (p.fqTail - v).toNat → exec (.fqHeadWrite n v) s = .next s)

/-! ### Launches and cards (spec/19) -/

/-- FE_SUBMIT, CARD_EXAMINE and POST (R411-R418). A submission does nothing while the dies are held in reset (R455); one that breaks
R411 only sets REJECT, and so does one whose context's descriptor reads as poison, which is MEMORY_POISON beside (R392; log entry
47); one that is taken and read enters with the fields of its record, and one whose record breaks R412 sets REJECT. A card whose DEP words do not read 0 waits; one that
passes its checks is taken as it stood when it was read, which is once, and its chords are queued in increasing index; one that fails
them is not placed.
A POST enters a card with priority 0 at the cluster queue that it names. -/
def Obligations.Launches : Prop :=
  (∀ (s : State) (n : Nat) (v : W64),
    let p := partOf s n
    let d := descOf s p.feCtx
    let bad := v.toNat % 64 ≠ 0 ∨ 2 ^ 57 ≤ v.toNat ∨ 64 ≤ p.launches.length ∨ p.v = false ∨ d.v = false ∨ d.part ≠ n
    let lost : Bool := p.v && poisoned s (descLoc s p.feCtx)
    (72 ≤ n ∨ s.released = none → exec (.feSubmit n v) s = .next s) ∧
    (n < 72 → s.released ≠ none → lost = true → ∃ t, exec (.feSubmit n v) s = .next t ∧
      t = { setPart s n { p with reject := true } with ctxs := t.ctxs } ∧
      ((ctxOf s p.feCtx).terminated = false → ∃ r, (ctxOf t p.feCtx).cands = (ctxOf s p.feCtx).cands ++ [r] ∧ r.code = 0x50)) ∧
    (n < 72 → s.released ≠ none → lost = false → bad → exec (.feSubmit n v) s = .next (setPart s n { p with reject := true })) ∧
    (n < 72 → s.released ≠ none → lost = false → ¬ bad → (ctxOf s p.feCtx).terminated = false → (∀ l ∈ p.launches, ∀ y, s.launches.get? l = some y → y.read = true ∧ y.ncards ≤ y.entered) →
      let x : Launch := ⟨p.feCtx, n, v.toNat, false, 0, 0, 0, 0, 0, 0, none, false⟩
      let s1 := { setPart s n { p with launches := p.launches ++ [s.nextLaunch] } with
        launches := s.launches.insert s.nextLaunch x, nextLaunch := s.nextLaunch + 1 }
      ∃ t, exec (.feSubmit n v) s = .next t ∧ t.nextLaunch = s.nextLaunch + 1 ∧ t.parties = s.parties ∧
        ∀ w u, devRead s1 p.feCtx v.toNat 64 = .ok w u →
          (recordBad w = true → t.launches.get? s.nextLaunch = none ∧ (partOf t n).reject = true) ∧
          (recordBad w = false → ∃ y, t.launches.get? s.nextLaunch = some y ∧ y.read = true ∧ y.prio = fld w 0 8 ∧
            y.ncards = fld w 32 32 ∧ y.cards = fld w 64 64 ∧ y.ldone = fld w 128 64 ∧ y.ended = 0))) ∧
  (∀ (s : State) (card : Nat), s.cards.get? card = none → exec (.cardExamine card) s = .next s) ∧
  (∀ (s : State) (card : Nat) (c : Card), s.cards.get? card = some c → card < s.nextCard →
    (c.waits ≠ none → exec (.cardExamine card) s = .next s) ∧
    (c.waits = none → c.failOwed = none → c.doneOwed = false → c.taken = false →
      let fails : Nat → Prop := fun w => ∃ t, exec (.cardExamine card) s = .next t ∧ t.chords = s.chords ∧
        ∀ x, t.cards.get? card = some x → x.taken = true ∧ x.failOwed = some w
      let header : Nat → State → Prop := fun v u => ∀ h u2, devRead u c.ctx (fld v 0 64) 128 = .ok h u2 →
        (lateChecks u2 c v h = none → ∃ t x, exec (.cardExamine card) s = .next t ∧ t.cards.get? card = some x ∧
          x.taken = true ∧ x.args.toNat = fld v 64 64 ∧ x.done = fld v 128 64 ∧ x.blocks = fld v 192 32 ∧
          x.groups = fld v 224 8 ∧ x.kern = kernelOf (fld v 0 64) h ∧
          ∀ i, i < x.blocks / x.c → ∃ y, t.chords.get? (s.nextChord + i) = some y ∧ y.card = card ∧ y.idx = i ∧ y.n = fld v 232 8 ∧
            y.st = .queued ∧ y.ctx = c.ctx ∧ y.part = c.part) ∧
        ∀ w, lateChecks u2 c v h = some w → fails w
      (∀ v, c.snap = some v → header v s) ∧
      ∀ v u, c.snap = none → devRead s c.ctx c.va 64 = .ok v u →
        (fld v 256 256 ≠ 0 → ∃ t, exec (.cardExamine card) s = .next t ∧ t.cards.get? card = some c ∧ t.chords = s.chords) ∧
        (fld v 256 256 = 0 → earlyChecks u c v = none → header v u) ∧
        ∀ w, fld v 256 256 = 0 → earlyChecks u c v = some w → fails w)) ∧
  ∀ (tg : PostTarget) (i : Insn),
    let ok : Ctx → State → Tlb → State → Prop := fun k s x u =>
      k.e ≠ 0 ∧ sbEa k i % 64 = 0 ∧ checkVa s k.core k.p.ctx false (sbEa k i) permRW = (.ok x, u) ∧
      releaseReady u k.c.q .sys = true ∧ (partOf u (descOf u k.p.ctx).part).waitList.length < 4096
    Completes (.post tg i) i (fun k _ => k.e = 0) IssuedOnly ∧
    Completes (.post tg i) i (fun k _ => k.e ≠ 0 ∧ sbEa k i % 64 ≠ 0) (fun k s t => Faulted k s t
      { partyRec s k.c.q 0x10 with lane := lowLane k.e % 8, addr := BitVec.ofNat 64 (sbEa k i) }) ∧
    ∀ (x : Tlb) (u : State), Completes (.post tg i) i (fun k s => ok k s x u) (fun k s t => ∃ c : Card, Looked s u k.c.q [] ∧
      (let part := (descOf u k.p.ctx).part
       let p := partOf u part
       let clu := cluOf k.core
       c.ctx = k.p.ctx ∧ c.part = part ∧ c.va = sbEa k i ∧ c.prio = 0 ∧ c.launch = none ∧ c.taken = false ∧
       c.target = some (match tg with
         | .self => clu
         | .next => if lastCluster p ≤ clu then p.cbase else clu + 1
         | .prev => if clu ≤ p.cbase then lastCluster p else clu - 1) ∧
       IssuedOnly k { setPart u part { p with waitList := p.waitList ++ [u.nextCard] } with
         cards := u.cards.insert u.nextCard c, nextCard := u.nextCard + 1 } t))

/-! ### Management, host, reliability, power (spec/18, spec/20, spec/21) -/

/-- The register space (R401, R404, R411, R450) and what its writes do. PART_WRITE in a case of R401 or R404 is ignored; else the
fields of the partition are those written, a CBASE or CLIMIT of 72 to 127 with them (the model's choice, log entry 59), and no other
partition, party or byte changes; WAYMASK reads as written while a grant waits (log entry 44); a way that another partition's walk has
still to leave is not the partition's until that walk has ended; a walk of ways that ends clears WAYBUSY, and changes nothing but
lines beside. A register that takes a value has no word staged any more. What loads return (R13,
R411, R446, R447): the fields of each register, 0 for one that is write-only. A PRISM write keeps a field whose encoding is reserved and stores no reserved bit. A store that is not aligned is noted, the lower
word of a wide register is staged, and its highest word makes it take its value whole. -/
def Obligations.ManagementRegisters : Prop :=
  ∀ (s : State),
    (∀ n (v : BitVec 128), (72 ≤ n → exec (.partWrite n v) s = .next s) ∧
      (n < 72 → partBad s n v.toNat = true → exec (.partWrite n v) s = .next (unstage s (0x5000 + 16 * n) 2)) ∧
      (n < 72 → partBad s n v.toNat = false → ∃ t, exec (.partWrite n v) s = .next t ∧
        t = { unstage s (0x5000 + 16 * n) 2 with parts := t.parts } ∧
        (∀ m, m ≠ n → partOf t m = partOf s m) ∧
        let p := partOf t n
        p.v = v.getLsbD 0 ∧ p.cbase = (v.toNat / 2) % 128 ∧ p.climit = (v.toNat / 256) % 128 ∧
        p.waymask.toNat = (v.toNat / 65536) % 2 ^ 24 ∧ p.memShare = (v.toNat / 2 ^ 64) % 512 ∧
        p.bridgeShare = (v.toNat / 2 ^ 73) % 512 ∧ p.linkShare = (v.toNat / 2 ^ 82) % 512 ∧
        p.walking = (partOf s n).walking ||| ((partOf s n).waymask &&& ~~~p.waymask) ∧
        p.granting = p.waymask &&& ((partOf s n).granting ||| ~~~(partOf s n).waymask) &&& walkedFor s n ∧
        waysOf p = p.waymask &&& ~~~p.granting ∧
        (p.waymask &&& (partOf s n).waymask ≠ (partOf s n).waymask → p.waybusy = true))) ∧
    (∀ n, ((partOf s n).waybusy = true → ∃ t, exec (.wayWalkEnd n) s = .next t ∧ LinesMoved s { t with parts := s.parts } ∧
        partOf t n = { partOf s n with waybusy := false, walking := 0, granting := (partOf s n).granting &&& walkedFor t n } ∧
        ∀ m, m ≠ n → partOf t m = { partOf s m with granting := (partOf s m).granting &&& walkedFor t m }) ∧
      ((partOf s n).waybusy = false → exec (.wayWalkEnd n) s = .next s)) ∧
    (∀ n (v : BitVec 256) z, (64 ≤ n → exec (.prismWrite n v z) s = .next s) ∧
      (n < 64 → ∃ t, exec (.prismWrite n v z) s = .next t ∧ t = { s with vis := t.vis, regs := t.regs } ∧
        (z = true → (t.regs.prismz.getD n 0).toNat = v.toNat % 2 ^ 40 ∧ t.regs = { s.regs with prismz := t.regs.prismz }) ∧
        (z = false → t.regs = { (unstage s (0x3000 + 32 * n) 4).regs with prism := t.regs.prism } ∧ ∀ i, i < 256 →
          (t.regs.prism.getD n 0).getLsbD i =
            if (i = 3 ∨ i = 4) ∧ v.getLsbD 3 ∧ v.getLsbD 4 ∨ (i = 5 ∨ i = 6) ∧ v.getLsbD 5 ∧ v.getLsbD 6
            then (s.regs.prism.getD n 0).getLsbD i
            else (decide (i < 7) || decide (8 ≤ i) && decide (i < 28) || decide (64 ≤ i) && decide (i < 104) ||
              decide (128 ≤ i) && decide (i < 168) || decide (192 ≤ i) && decide (i < 232)) && v.getLsbD i))) ∧
    (∀ n, n < 72 → regRead s (0x100000 + 4096 * n) = (partOf s n).feCtx % 4096 ∧ regRead s (0x100008 + 4096 * n) = 0 ∧
      regRead s (0x100010 + 4096 * n) = feStatus (partOf s n) ∧ regRead s (0x5000 + 16 * n) = partReg (partOf s n) % 2 ^ 64 ∧
      regRead s (0x6008 + 16 * n) = fqReg (partOf s n) / 2 ^ 64 % 2 ^ 64) ∧
    (∀ i, i < 8 → bar2Byte s (0x1000 + i) = 0) ∧
    (∀ off (v : W64), off % 8 ≠ 0 →
      exec (.registerWrite off v) s = .next { s with regs := { s.regs with mrsErr := s.regs.mrsErr ||| 1 } }) ∧
    (∀ n v, n < 72 →
      (exec (.registerWrite (0x5000 + 16 * n) v) s = .next
        { s with regs := { s.regs with staged := s.regs.staged.insert (0x5000 + 16 * n) v } }) ∧
      ∀ low, s.regs.staged.get? (0x5000 + 16 * n) = some low →
        exec (.registerWrite (0x5000 + 16 * n + 8) v) s = exec (.partWrite n (v ++ low))
          { s with regs := { s.regs with
            staged := (s.regs.staged.erase (0x5000 + 16 * n)).erase (0x5000 + 16 * n + 8) } }) ∧
    (∀ n v, n < 72 → exec (.registerWrite (0x100008 + 4096 * n) v) s = exec (.feSubmit n v) s) ∧
    (∀ c v, c < 288 → ∃ t, exec (.registerWrite (0x8000 + 8 * c) v) s = .next t ∧ coreOf t c = { coreOf s c with
      mode := if v.toNat % 4 = 3 then 0 else v.toNat % 4
      fixn := v.toNat / 256 % 128 }) ∧
    ∀ v, (∃ t, exec (.registerWrite 0 v) s = .next t ∧ t.regs.ctxTable = v.toNat / 4096 % 2 ^ 40 * 4096) ∧
      ∃ t, exec (.registerWrite 16 v) s = .next t ∧ t = { s with regs := { s.regs with probe := v.toNat % 2 ^ 24 } }

/-- The device commands (R257, R301, R303, R305, R312, R394, R395, R405, R406, R431, R451-R453). With no command at HEAD, or one of another
OP, nothing happens; one with a field outside R452 is BADCMD. A command that is taken has HEAD and DONE rise by one, writes its
status at CPL and notifies where it asks for that; what each does stands in its clause. The model's readings there: CORE of 288 or
more is BADCMD, NOTICE takes the first region only, ASSIGN of a retired region is REFUSED, TERMINATE of a terminated context is DONE
and changes nothing (log entry 44); PIN of an unmapped page is REFUSED (log entry 35). -/
def Obligations.Commands : Prop :=
  ∀ (s : State),
    let all : List (Instr × Nat) := [(.inval, 1), (.notice, 2), (.refuse, 3), (.pin, 4), (.unpin, 5), (.free, 6), (.assign, 7),
      (.flush, 8), (.retire, 9), (.terminate, 10), (.selftest, 11)]
    (∀ x ∈ all, (nextCommand s = none → exec x.1 s = .next s) ∧ ∀ c, nextCommand s = some c →
      (c.op ≠ x.2 → exec x.1 s = .next s) ∧
      (c.op = x.2 → 2 ≤ c.flags ∨ 4096 ≤ c.ctx ∨ c.zero ≠ 0 ∨ cplBad c = true → exec x.1 s = .next (completeCommand s c 3 0))) ∧
    (∀ c st hi, let t := completeCommand s c st hi
      t.regs.dcqHead = s.regs.dcqHead + 1 ∧ t.regs.dcqDone = s.regs.dcqDone + 1 ∧ t.parties = s.parties ∧
      (c.flags % 2 = 1 → 73 ∈ t.irq) ∧ (c.cpl = 0 → t.mem = s.mem) ∧
      (c.cpl ≠ 0 → c.cpl % 8 = 0 → c.cpl < 2 ^ 52 → writable s c.cpl = true → ∀ i, i < 8 →
        readByte t.mem (locOf 0 c.cpl + i) = BitVec.ofNat 8 ((st + 2 ^ 32 * hi) / 2 ^ (8 * i)))) ∧
    ∀ c, nextCommand s = some c → c.flags < 2 → c.ctx < 4096 → c.zero = 0 → cplBad c = false →
      let ends : Instr → Nat → Nat → (State → Prop) → Prop := fun ins st hi f =>
        ∃ u, exec ins s = .next (completeCommand u c st hi) ∧ f u
      let is : State → Prop := fun u => u = s
      let valid := (descOf s c.ctx).v = true
      let range : Nat → Prop := fun top => c.addr % 4096 = 0 ∧ c.len % 4096 = 0 ∧ c.addr + c.len ≤ top
      let within : Nat → Prop := fun pa => c.addr ≤ pa ∧ pa < c.addr + c.len
      let met : Nat → Nat → Bool := fun a n => decide (c.addr < a + n) && decide (a < c.addr + c.len)
      let priv : Bool := c.arg % 2 == 1
      let held : Nat × Nat → Bool := fun e => decide (e.1 ≤ c.addr) && decide (c.addr < e.1 + e.2)
      let pages : Party → Party := fun p => if p.ctx = c.ctx then
        { p with pages := p.pages.map (fun r => { r with open_ := r.open_.filter (fun e => !held e) }) } else p
      (c.op = 1 → ¬ (valid ∧ range (2 ^ 57)) → ends .inval 3 0 is) ∧
      (c.op = 1 → valid → range (2 ^ 57) → ends .inval 1 0 (fun u =>
        u = { s with clusters := u.clusters, cores := u.cores, ctxs := u.ctxs } ∧
        (∀ n, (clusterOf u n).tlb = (clusterOf s n).tlb.filter (fun x => !(x.ctx == c.ctx && x.priv == priv && met x.va x.size))) ∧
        (∀ n, ∀ x ∈ (coreOf u n).l1, x ∈ (coreOf s n).l1 ∧ ¬ (x.tr.ctx = c.ctx ∧ x.tr.priv = priv ∧ met x.va 128 = true)) ∧
        ∀ n, ∀ x ∈ (ctxOf u n).pinned, x ∈ (ctxOf s n).pinned ∧
          (n = c.ctx → priv = false → met (x / 2 ^ 45 * 128) 128 = false))) ∧
      (c.op = 2 → ¬ (valid ∧ c.addr < 2 ^ 57) → ends .notice 3 0 is) ∧
      (c.op = 2 → valid → c.addr < 2 ^ 57 → ends .notice 1 0 (fun u =>
        (∀ q, u.parties.get? q = (s.parties.get? q).map pages) ∧
        ∀ k, u.chords.get? k = (s.chords.get? k).map (fun x => if x.ctx = c.ctx ∧ x.st = .parked then
          { x with missing := x.missing.takeWhile (fun m => !held (m.2.1, m.2.2)) ++
              (x.missing.dropWhile (fun m => !held (m.2.1, m.2.2))).drop 1 } else x))) ∧
      (c.op = 3 → ¬ (valid ∧ c.addr < 2 ^ 57) → ends .refuse 3 0 is) ∧
      (c.op = 3 → valid → c.addr < 2 ^ 57 → ends .refuse 1 0 (fun u => u = { s with parties := u.parties } ∧
        ∀ q, u.parties.get? q = (s.parties.get? q).map pages)) ∧
      (c.op = 4 ∨ c.op = 5 → ¬ valid → ends (if c.op = 4 then .pin else .unpin) 3 0 is) ∧
      (c.op = 4 → valid → regionLines s c.ctx (descOf s c.ctx) = none → ends .pin 2 0 is) ∧
      (∀ l, c.op = 4 → valid → regionLines s c.ctx (descOf s c.ctx) = some l →
        if slicesOver s (descOf s c.ctx) l then ends .pin 2 0 is
        else ends .pin 1 0 (fun u => ∃ v, v = { s with ctxs := v.ctxs } ∧
          (ctxOf v c.ctx).pinned = l.map (fun e => pinCode e.1 e.2) ∧ LinesMoved v u ∧
          u = (l.map (fun e => e.2)).eraseDups.foldl fillHome v)) ∧
      (∀ u line, LinesMoved u (fillHome u line) ∧ ∀ i, i < 4 → (sectorsAt (fillHome u line) (homeDie u line) line).getLsbD i = true) ∧
      (c.op = 5 → valid → ends .unpin 1 0 (fun u => u = { s with ctxs := u.ctxs } ∧ (ctxOf u c.ctx).pinned = [])) ∧
      (c.op = 6 ∨ c.op = 7 ∨ c.op = 8 → ¬ range (2 ^ 52) →
        ends (if c.op = 6 then .free else if c.op = 7 then .assign else .flush) 3 0 is) ∧
      (c.op = 6 → range (2 ^ 52) → ends .free 1 0 (fun u => (∀ a, within (dataPa a) → readByte u.mem a = memDefault) ∧
        (∀ line, within (128 * line) → u.locks.get? line = none ∧ u.owner.get? line = some oneTime) ∧
        (∀ e ∈ u.sliceBad, ¬ within (128 * e.1)) ∧
        ∀ n, (∀ x ∈ (coreOf u n).l1, ¬ within (128 * x.pline)) ∧ ∀ x ∈ (coreOf u n).ro, ¬ within (128 * x.pline))) ∧
      (c.op = 7 → range (2 ^ 52) → retiredIn s c.addr c.len = true → ends .assign 2 0 is) ∧
      (c.op = 7 → range (2 ^ 52) → retiredIn s c.addr c.len = false → ends .assign 1 0 (fun u =>
        (∀ a, within (dataPa a) → readByte u.mem a = memDefault) ∧
        (∀ a, ¬ within (dataPa a) → readByte u.mem a = readByte s.mem a) ∧
        (∀ q, u.parties.get? q = (s.parties.get? q).map (cutParty (fun a =>
          decide (c.addr ≤ dataPa a) && decide (dataPa a < c.addr + c.len)))) ∧
        ∀ line, within (128 * line) → u.owner.get? line = some (c.arg % 4096 + 4096 * s.keyGen.getD (c.arg % 4096) 0))) ∧
      (c.op = 8 → range (2 ^ 52) → ends .flush 1 0 (fun u => u.mem = s.mem ∧ u.parties = s.parties ∧
        (∀ d line, d < 4 → within (128 * line) → heldBy u d line = .i) ∧
        ∀ n, ∀ x ∈ (coreOf u n).l1, ¬ within (128 * x.pline))) ∧
      (c.op = 9 → c.arg % 4096 = 0 ∨ keyOwned s (c.arg % 4096) = true → ends .retire 2 0 is) ∧
      (c.op = 9 → c.arg % 4096 ≠ 0 → keyOwned s (c.arg % 4096) = false → ends .retire 1 0 (fun u =>
        u.keyGen.getD (c.arg % 4096) 0 = s.keyGen.getD (c.arg % 4096) 0 + 1 ∧
        ∀ n, ∀ x ∈ (coreOf u n).l1, x.tr.key ≠ c.arg % 4096)) ∧
      (c.op = 10 → ¬ valid → ends .terminate 3 0 is) ∧
      (c.op = 10 → valid → ends .terminate 1 0 (fun u =>
        ((ctxOf s c.ctx).terminated = true → u = s) ∧
        ((ctxOf s c.ctx).terminated = false → (ctxOf u c.ctx).terminated = true ∧ ∀ k x, u.chords.get? k = some x → x.ctx ≠ c.ctx))) ∧
      (c.op = 11 → 288 ≤ c.arg % 512 → ends .selftest 3 0 is) ∧
      (c.op = 11 → c.arg % 512 < 288 → harpHeld s (c.arg % 512) = true → ends .selftest 2 0 is) ∧
      (c.op = 11 → c.arg % 512 < 288 → harpHeld s (c.arg % 512) = false →
        ends .selftest 1 (testWord (selfTest (coreOf s (c.arg % 512)))) (fun u =>
          u = setCore s (c.arg % 512) (selfTest (coreOf s (c.arg % 512))).core))

/-- ATTEST and FAULTS (R447, R448, R453, R457): a request whose payload does not fit its code is answered with STATUS 3. ATTEST answers
with the report, raises source 76 and changes nothing else but the mailbox; FAULTS answers with the oldest records, as many as there are and are asked
for, moves HEAD past them and clears OVF. With no open request of the code, nothing happens. -/
def Obligations.MailboxRequests : Prop :=
  ∀ (s : State),
    let answered : State → Nat → List Byte → Prop := fun t st pay =>
      t.mbx = { s.mbx with rsp := t.mbx.rsp, d2h := BitVec.ofNat 64 (reqField s 4 4), asked := false, busy := false } ∧
      ∀ i x, (bytesOf 2 (reqCode s) ++ bytesOf 2 st ++ bytesOf 4 (reqField s 4 4) ++ bytesOf 4 pay.length ++ bytesOf 4 0 ++ pay)[i]? =
        some x → t.mbx.rsp.getD i 0 = x
    let open_ := s.mbx.asked = true ∧ s.mbx.ready = true
    let kind := reqField s 16 2
    let sel := reqField s 18 2
    (¬ (open_ ∧ reqCode s = 1) → exec .attest s = .next s) ∧ (¬ (open_ ∧ reqCode s = 2) → exec .faults s = .next s) ∧
    (open_ → reqCode s = 1 →
      let bad := reqLen s ≠ 68 ∨ 1 < kind ∨ (kind = 1 ∧ 72 ≤ sel)
      ∃ t, exec .attest s = .next t ∧ t = { s with mbx := t.mbx, irq := t.irq } ∧ (bad → t.irq = s.irq ∧ answered t 3 []) ∧
        (¬ bad → 76 ∈ t.irq ∧ answered t 0 (report s kind sel ((List.range 64).map (fun i => s.mbx.req.getD (20 + i) 0))))) ∧
    (open_ → reqCode s = 2 →
      let p := partOf s kind
      let count := min sel (p.fqTail - p.fqHead).toNat
      let bad := reqLen s ≠ 4 ∨ 72 ≤ kind ∨ sel = 0 ∨ 127 < sel
      ∃ t, exec .faults s = .next t ∧ t = { s with mbx := t.mbx, parts := t.parts } ∧
        (bad → t.parts = s.parts ∧ answered t 3 []) ∧
        (¬ bad → partOf t kind = { p with fqHead := p.fqHead + BitVec.ofNat 16 count, fqOvf := false, fqDropped := 0 } ∧
          ∃ recs : List Byte, recs.length = 64 * count ∧
            answered t 0 (bytesOf 4 count ++ bytesOf 4 (if p.fqOvf then 1 else 0) ++ recs)))

/-- Errors and links (R392, R430, R431, R433, R444). SCRUB contains a bad line: it reads as poisoned, its region is retired while
the list has room, its way is quarantined, and the valid context of its key has a MEMORY_POISON candidate (that only a valid one does is the model's reading, log entry
46). A port that has failed
makes every line that it serves read as poisoned. A lane past its threshold is replaced while a spare is left. A link that goes
down leaves every party's registers and every byte, and a collective with no rank on another package (the model's reading of
R444, log entry 47), as they were. -/
def Obligations.ErrorsAndLinks : Prop :=
  ∀ (s : State),
    (∀ line, (∀ e ∈ s.sliceBad, e.1 ≠ line) → exec (.scrub line) s = .next s) ∧
    (∀ line way, s.sliceBad.find? (fun e => e.1 == line) = some (line, way) → ∃ t, exec (.scrub line) s = .next t ∧
      t.parties = s.parties ∧ t.mem = s.mem ∧ line ∈ t.poison ∧ (∀ e ∈ t.sliceBad, e.1 ≠ line) ∧ 75 ∈ t.irq ∧
      (sliceNo (homeOf s (128 * line)), way) ∈ t.quarantined ∧
      (s.regs.retired.length < 512 → line / 512 ∈ t.regs.retired) ∧
      ∀ o, s.owner.get? line = some o → o % 4096 ≠ 0 → (descOf s (o % 4096)).v = true → (ctxOf s (o % 4096)).terminated = false →
        ∃ r ∈ (ctxOf t (o % 4096)).cands, r.code = 0x50 ∧ r.async = true ∧ r.aux = BitVec.ofNat 64 (128 * line)) ∧
    (∀ port, (24 ≤ port ∨ port ∈ s.portsDown → exec (.portFailure port) s = .next s) ∧
      (port < 24 → port ∉ s.portsDown → ∃ t, exec (.portFailure port) s = .next t ∧ t = { s with portsDown := s.portsDown ++ [port] } ∧
        (∀ a, portOf s (paOf (dataLoc a)) = some port → poisoned t a = true) ∧
        ∀ a, portOf s (paOf (dataLoc a)) ≠ some port → poisoned t a = poisoned s a)) ∧
    (∀ port lane, exec (.laneSpare port lane) s = .next
      (if (port, lane) ∈ s.laneBad ∧ (port, lane) ∉ s.laneSpared ∧ (s.laneSpared.filter (fun e => e.1 == port)).length < 2
       then { s with laneSpared := s.laneSpared ++ [(port, lane)] } else s)) ∧
    ∀ port, (8 ≤ port ∨ port ∈ s.linksDown → exec (.linkDown port) s = .next s) ∧
      (port < 8 → port ∉ s.linksDown → ∃ t, exec (.linkDown port) s = .next t ∧
        t = { s with draws := t.draws, linksDown := s.linksDown ++ [port], cols := t.cols, ctxs := t.ctxs } ∧
        ((∀ c ∈ s.cols, c.running = false ∨ c.ended = true ∨ ∀ r ∈ c.ranks, r.q ≠ none) → t.cols = s.cols ∧ t.ctxs = s.ctxs))

/-- Boot and power (R9, R455, R456, R458). BOOT with 48 V leaves nothing of what ran; it ends ready where every step has passed, and
else stopped at the step that failed. The loss of 48 V, and the standby that the host asks for, leave the package without anything
that ran, in STANDBY while the auxiliary rail is there. The pooled memory keeps its bytes, under keys that are lost. -/
def Obligations.PowerStates : Prop :=
  ∀ (s : State),
    let empty : State → Prop := fun t => t.parties = [] ∧ t.blocks = [] ∧ t.chords = [] ∧ t.cards = [] ∧ t.launches = [] ∧
      t.clusters = [] ∧ t.parts = [] ∧ t.ctxs = [] ∧ t.locks = [] ∧ t.cols = [] ∧ t.irq = [] ∧ t.mbx = Mailbox.reset ∧
      t.regs = Regs.reset ∧ t.cur = none ∧ t.hist = [] ∧ t.dir = []
    (s.v48 = false → exec .boot s = .next s ∧ exec .powerLoss s = .next s) ∧
    (s.v48 = true → ∃ t, exec .boot s = .next t ∧ empty t ∧ t.power = .on ∧ t.mem = s.mem ∧ t.rasLog = s.rasLog ∧ t.cycle = 0 ∧
      (let spares : Bool := (List.range 4).all (fun d => (s.failedClusters.filter (fun x => x == d)).length ≤ 1 &&
         (s.failedSlices.filter (fun x => x == d)).length ≤ 1)
       (t.bootReady = true ↔ bootGood = true ∧ Config.osGood = true ∧ spares = true) ∧ t.bootFail = !t.bootReady ∧
       t.bootStep = (if bootGood = false then 2 else if Config.osGood = false then 3 else 4) ∧
       (t.bootReady = true → t.meas = measured ∧ t.released = some 0) ∧ (t.bootReady = false → t.released = none)) ∧
      ∀ l, t.owner.get? l = (s.owner.get? l).map (fun _ => oneTime)) ∧
    (s.v48 = true → ∃ t, exec .powerLoss s = .next t ∧ empty t ∧ t.power = (if s.aux then .standby else .off) ∧ t.v48 = false ∧
      t.bootReady = false ∧ t.rasLog = s.rasLog ∧ t.mem = s.mem) ∧
    (s.power = .on → s.bootReady = true → ∃ t, exec .standbyRequest s = .next t ∧ empty t ∧ t.power = .standby ∧ t.v48 = s.v48 ∧
      t.bootReady = false ∧ t.rasLog = s.rasLog) ∧
    (s.power ≠ .on ∨ s.bootReady = false → exec .standbyRequest s = .next s) ∧
    exec .auxiliaryRailLoss s = .next
      { s with aux := false, power := if s.power = .standby ∧ s.v48 = false then .off else s.power } ∧
    exec .auxiliaryRailReturn s = .next { s with aux := true, power := if s.power = .off then .standby else s.power }

/-! ### Reset, the step, decoding, memory -/

/-- What reset leaves, where the spec gives the value (R185, R191, R192, R258, R310, R314, R354, R391, R396, R401, R407, R411, R425,
R435, R447, R451, R454, R455, R458): powered, held in reset before step 1, %clock and %ticks at 0, no party, every register of the
management complex and every partition register at the value of its table; and the reset state meets the invariant of
`StepKeepsMemory`, memory in its canonical form (the model's own form). -/
def Obligations.ResetState : Prop :=
  let s := State.reset
  MemOk s ∧
  s.power = .on ∧ s.bootStep = 0 ∧ s.bootFail = false ∧ s.bootReady = false ∧ s.released = none ∧ s.cycle = 0 ∧ s.parties = [] ∧
  s.meas = List.replicate 8 0 ∧ s.mbx.busy = false ∧
  (∀ c, (coreOf s c).mode = 0 ∧ (coreOf s c).fixn = 64 ∧ (coreOf s c).octs.length = 8 ∧
    ∀ o ∈ (coreOf s c).octs, o.n = 64 ∧ o.score = 0) ∧
  (∀ n, partReg (partOf s n) = 0 ∧ fqReg (partOf s n) = 0 ∧ (partOf s n).feCtx = 0 ∧ (partOf s n).launches = [] ∧
    (partOf s n).reject = false) ∧
  s.regs.ctxTable = 0 ∧ s.regs.probe = 4096 ∧ s.regs.lease = [64, 64, 64, 64] ∧ s.regs.dcqEn = false ∧ s.regs.dcqLog = 0 ∧
  s.regs.dcqBase = 0 ∧ s.regs.dcqTail = 0 ∧ s.regs.dcqHead = 0 ∧ s.regs.dcqDone = 0 ∧ s.regs.rasThresh = 4096 ∧
  s.regs.retired = [] ∧ s.regs.retiredFull = false ∧
  ∀ n, s.regs.art.getD n 0 = 0 ∧ s.regs.mrt.getD n 0 = 0 ∧ s.regs.prism.getD n 0 = 0 ∧ s.regs.prismz.getD n 0 = 0 ∧
    s.regs.comm.getD n 0 = 0

/-- A step runs the instruction that the bytes at the program counter decode to (R34, R39, R41, R51, R62, R77, R184, R223, R429).

The move to come is made once its time has passed, unless an event whose moment a rule fixes comes first. A move that is an event
is exec of it. A move that is an issue is the issue of an octant: of its ready parties, oldest first, each with a YIELD hint passed
over where another comes after it and its hint spent, the first issues from the slot that did not issue last, where that is ready,
else from the other; where none is ready nothing issues. Of operations on one queue in one cycle the oldest party's comes first.
A move that has to wait (`undone`) leaves what was, and what is done after every move (`afterMove`) stands around it.

The issue of a party from a slot whose fragment runs: the word at the fragment's address is fetched, which changes no register, and
decoded. Where it decodes to `i`, its hints allow issue and it is not throttled, it is exec of `i` from there, followed by the check
of R239 and R290, and the octant has issued in its cycle; a group-wide `i` issues for the fragments that have converged. A word
that does not decode faults with its code.

The model's choices in it: that such an event comes before a move of its moment, but for deadlines and returning probes, and is put
off by a cycle where it cannot be made (log entry 13), and that a word that does not decode faults at once even where its opcode is
group-wide (log entry 55). -/
def Obligations.StepRunsDecoded : Prop :=
  ( ∀ (s : State),
      let m := (takeMove s).1
      let rest := (takeMove s).2
      let at_ := advance rest m.after
      (∀ d i l r, dueBefore s m.after = (d, i) :: l → tryDue rest m d i = some r → step s = r) ∧
      (∀ d i t,
        let u := advance { rest with schedule := ⟨m.after - d, m.move⟩ :: rest.schedule } d
        d ≤ m.after → u.power = .on → insnOf i = none → exec i { u with cur := none } = .next t → t.undone = false →
        tryDue rest m d i = some (.next (afterMove u (.event i) t))) ∧
      (dueBefore s m.after = [] → at_.power = .on →
        let ends : State → Prop := fun t => step s = .next (afterMove at_ m.move (if t.undone then at_ else t))
        (∀ i t, m.move = .event i → insnOf i = none → exec i { at_ with cur := none } = .next t → ends t) ∧
        (∀ a, m.move = .input a → ends (takeInput a at_)) ∧
        ∀ q slot, m.move = .issue q slot →
          let issue := octantIssue at_ (octMates at_ (coreIx at_ q) (partyOct at_ q))
          (∀ u, reaches at_ q slot = some u → step s = .next (afterMove at_ m.move u)) ∧
          (reaches at_ q slot = none → issue = none → step s = .next (afterMove at_ m.move at_)) ∧
          ∀ x t, reaches at_ q slot = none → issue = some x → inQueueOrder at_ x = .next t → ends t)) ∧
  ( ∀ (s : State) (mates : List Nat),
      (mates.filter (ready s) = [] → octantIssue s mates = none) ∧
      ∀ older q l k r, mates.filter (ready s) = older ++ q :: l → q ∉ older → (∀ y ∈ older, hinted s y = true) →
        (hinted s q = false ∨ l = []) →
        let peers : Unit → List Nat := fun _ => mates.filter (fun y => y != q && readyApart s y)
        (slotOrder s q).find? (fun k => (tryIssue peers s q k).isSome) = some k → tryIssue peers s q k = some r →
        octantIssue s mates = some { r with out := mapNext (spendHints older) r.out }) ∧
  ( ∀ (s : State) (x : Issued), (x.ins.bind queueNo = none → inQueueOrder s x = x.out) ∧
      ∀ k, x.ins.bind queueNo = some k →
        let older := (byAge (bidOf x.q)).takeWhile (fun r => r != x.q)
        let first : Nat → Issued → Prop := fun r y => mayIssue s r = true ∧ partyOct s r ≠ partyOct s x.q ∧
          octantIssue s (octMates s (coreIx s r) (partyOct s r)) = some y ∧ y.q = r ∧ y.ins.bind queueNo = some k
        ((∀ r ∈ older, ∀ y, ¬ first r y) → inQueueOrder s x = x.out) ∧
        ∀ l1 r l2 y, older = l1 ++ r :: l2 → (∀ r' ∈ l1, ∀ z, ¬ first r' z) → first r y → inQueueOrder s x = y.out) ∧
  ( ∀ (s : State) (q : Nat) (slot : Bool) (p : Party) (b : Block) (f : Frag) (peers : Unit → List Nat), mayIssue s q = true →
      s.parties.get? q = some p → blockOf s q = some b → fragAt p (slotIx slot) = some f →
      let noted : State → State := fun t => octIssued t (coreIx s q) (partyOct s q)
      let halted : State → Prop := fun t => (faultedNow t q && awaitsStatus s q) = false → t.undone = false →
        tryIssue peers s q slot = some ⟨q, none, .next { noted t with cur := none }⟩
      let issued : Instr → State → Cur → Prop := fun i v c =>
        ∀ t, exec i (withPeers i peers { v with cur := some c }) = .next t → issuedNow s q t = true → tooMany t q = false →
          (faultedNow t q && awaitsStatus s q) = false → t.undone = false →
          tryIssue peers s q slot = some ⟨q, some i, .next (noted (afterIssue (some c) t))⟩
      let wide : State → Party → Block → Prop := fun v p3 b3 => ∀ i pc w u p4 b4,
        let c : Cur := ⟨q, slot, joinMask p3 (2 + p3.spill.length) pc, pc, BitVec.ofNat 96 w, []⟩
        reconverged p3 = true → convergePc p3 = some pc → fetchWord v { c with word := 0 } p3 b3 = .ok w u →
        u.parties.get? q = some p4 → blockOf u q = some b4 → decodeNat (envOf u p4 b4 q) w = .ok i →
        tokensOk p4 (hintsOf (fld w 80 16)) = true → throttled u q p4 b4 w = false → issued i u c
      (isRun f = false → wide s p b) ∧
      (isRun f = true →
        (∀ u, fetchWord s ⟨q, slot, f.mask, f.pc, 0, []⟩ p b = .stop u → halted u) ∧
        ∀ w u p1 b1,
          let c : Cur := ⟨q, slot, f.mask, f.pc, BitVec.ofNat 96 w, []⟩
          fetchWord s { c with word := 0 } p b = .ok w u → u.parties.get? q = some p1 → blockOf u q = some b1 →
          Looked s u q [] ∧
          (∀ i, decodeNat (envOf s p b q) w = .ok i → groupWide i = false → tokensOk p1 (hintsOf (fld w 80 16)) = true →
            throttled u q p1 b1 w = false → decodeNat (envOf u p1 b1 q) w = .ok i → issued i u c) ∧
          (∀ i, decodeNat (envOf s p b q) w = .ok i → groupWide i = true →
            wide (setParty u q (converge p1 slot f)) (converge p1 slot f) b1) ∧
          ∀ x, decodeNat (envOf s p b q) w = .error x → decodeNat (envOf u p1 b1 q) w = .error x →
            tokensOk p1 (hintsOf (fld w 80 16)) = true → halted (fault u c (illegalCode x))))

/-- Four words that the spec writes out (R75, R144, R204, R205) decode to what it says they are. -/
def Obligations.DecodeWords : Prop :=
  let word : Nat → Nat → Nat → Nat := fun a b c => a + 2 ^ 32 * b + 2 ^ 64 * c
  let g7 : Guard := ⟨7, false⟩
  let h0 : Hints := ⟨0, 0, 0, false⟩
  decodeTableWord 96 (word 0x00000401 0x04804800 0x00001000) =
    some (.bra true ⟨.unused, .imm 0, .imm 4, .disp 4, ⟨1, false⟩, h0⟩) ∧
  decodeTableWord 96 (word 0x40000180 0x00864000 0x00007000) =
    some (.hmov false ⟨.h 0 .resolve, .unused, .imm 100, .none, g7, h0⟩) ∧
  decodeTableWord 96 (word 0x60200181 0x00000400 0x10007000) =
    some (.unison ⟨.p 2, .h 0 .resolve, .unused, .none, g7, ⟨0, 0, 4, false⟩⟩) ∧
  decodeTableWord 96 (word 0x004021C0 0x40006208 0x00007080) =
    some (.ld ⟨.global, .b32, false, .dflt, .plain⟩ ⟨.v 4, .s 8, .v 6, .mem 0x40 2 0, g7, h0⟩)

/-- Decoding and encoding agree: in every stream, an instruction that is legal there is what its word decodes to, with every
operand, modifier, guard and hint (R17-R25, R35-R38). -/
def Obligations.DecodeEncode : Prop :=
  ∀ (env : Env) (ins : Instr), WellFormed env ins = true → decode env (encode ins) = .ok ins

/-- Every step keeps memory in its canonical form. -/
def Obligations.StepKeepsMemory : Prop := ∀ (s t : State), MemOk s → step s = .next t → MemOk t
end

