-- ==== Sys2Proof/Laws/AMap.lean ====
section
/-!
SUPPORT. Laws of the finite maps of Machine/AMap.lean: what a read gives after an update, and that every update keeps the
canonical form.
-/
namespace Sys2Proof.Machine

variable {α β : Type}

/-! ### Reads after updates: no order of the keys is needed -/

@[simp] theorem AMap.get?_nil (k : Nat) : AMap.get? ([] : AMap α) k = none := rfl

@[simp] theorem AMap.get?_insert_self (m : AMap α) (k : Nat) (v : α) : (m.insert k v).get? k = some v := by
  induction m with
  | nil => simp [AMap.insert, AMap.get?]
  | cons e m ih =>
    obtain ⟨j, u⟩ := e
    simp only [AMap.insert]
    split
    · simp [AMap.get?]
    · split
      · simp [AMap.get?]
      · have h : ¬ j = k := fun h => by simp_all
        simp [AMap.get?, h, ih]

@[simp] theorem AMap.get?_insert_ne (m : AMap α) {k r : Nat} (v : α) (h : r ≠ k) : (m.insert k v).get? r = m.get? r := by
  have hk : ¬ k = r := fun e => h e.symm
  induction m with
  | nil => simp [AMap.insert, AMap.get?, hk]
  | cons e m ih =>
    obtain ⟨j, u⟩ := e
    simp only [AMap.insert]
    split
    · simp [AMap.get?, hk]
    · split
      · next h2 => subst h2; simp [AMap.get?, hk]
      · by_cases hj : j = r
        · simp [AMap.get?, hj]
        · simp [AMap.get?, hj, ih]

theorem AMap.get?_insert (m : AMap α) (k r : Nat) (v : α) : (m.insert k v).get? r = if r = k then some v else m.get? r := by
  by_cases h : r = k
  · subst h; simp
  · simp [h]

@[simp] theorem AMap.get?_erase_self (m : AMap α) (k : Nat) : (m.erase k).get? k = none := by
  induction m with
  | nil => rfl
  | cons e m ih =>
    obtain ⟨j, u⟩ := e
    by_cases hj : j = k
    · simp [AMap.erase, hj, ih]
    · simp [AMap.erase, hj, AMap.get?, ih]

@[simp] theorem AMap.get?_erase_ne (m : AMap α) {k r : Nat} (h : r ≠ k) : (m.erase k).get? r = m.get? r := by
  have hk : ¬ k = r := fun e => h e.symm
  induction m with
  | nil => rfl
  | cons e m ih =>
    obtain ⟨j, u⟩ := e
    by_cases hj : j = k
    · subst hj; simp [AMap.erase, AMap.get?, hk, ih]
    · simp only [AMap.erase, hj, if_false, AMap.get?, ih]

theorem AMap.getD_put [DecidableEq α] (m : AMap α) (k r : Nat) (v d : α) :
    (m.put k v d).getD r d = if r = k then v else m.getD r d := by
  unfold AMap.put AMap.getD
  by_cases hv : v = d
  · by_cases hr : r = k
    · subst hr; simp [hv]
    · simp [hv, hr]
  · by_cases hr : r = k
    · subst hr; simp [hv]
    · simp [hv, hr]

theorem AMap.get?_modify (m : AMap α) (k r : Nat) (f : α → α) :
    (m.modify k f).get? r = if r = k then (m.get? r).map f else m.get? r := by
  unfold AMap.modify
  cases h : m.get? k with
  | none => by_cases hr : r = k <;> simp_all
  | some v => by_cases hr : r = k <;> simp_all

@[simp] theorem AMap.get?_modify_self (m : AMap α) (k : Nat) (f : α → α) : (m.modify k f).get? k = (m.get? k).map f := by
  simp [AMap.get?_modify]

@[simp] theorem AMap.get?_modify_ne (m : AMap α) {k r : Nat} (f : α → α) (h : r ≠ k) : (m.modify k f).get? r = m.get? r := by
  simp [AMap.get?_modify, h]

/-- A map changed at every entry. -/
theorem AMap.get?_map (m : AMap α) (f : α → β) (k : Nat) :
    AMap.get? (m.map (fun (e : Nat × α) => (e.1, f e.2))) k = (m.get? k).map f := by
  induction m with
  | nil => rfl
  | cons e m ih =>
    obtain ⟨j, u⟩ := e
    by_cases hj : j = k
    · simp [AMap.get?, hj]
    · simpa [AMap.get?, hj] using ih

/-! ### The canonical form -/

theorem AMap.above_mono {a b : Nat} (h : a ≤ b) (m : AMap α) (hm : AMap.above b m = true) : AMap.above a m = true := by
  induction m with
  | nil => rfl
  | cons e m ih =>
    simp only [AMap.above, Bool.and_eq_true, decide_eq_true_eq] at hm ⊢
    exact ⟨by omega, ih hm.2⟩

theorem AMap.above_erase (a k : Nat) (m : AMap α) (hm : AMap.above a m = true) : AMap.above a (m.erase k) = true := by
  induction m with
  | nil => rfl
  | cons e m ih =>
    simp only [AMap.above, Bool.and_eq_true, decide_eq_true_eq] at hm
    simp only [AMap.erase]
    split
    · exact ih hm.2
    · simp [AMap.above, hm.1, ih hm.2]

theorem AMap.above_insert (a k : Nat) (v : α) (m : AMap α) (hm : AMap.above a m = true) (h : a < k) :
    AMap.above a (m.insert k v) = true := by
  induction m with
  | nil => simp [AMap.insert, AMap.above, h]
  | cons e m ih =>
    simp only [AMap.above, Bool.and_eq_true, decide_eq_true_eq] at hm
    simp only [AMap.insert]
    split
    · simp [AMap.above, h, hm]
    · split
      · simp [AMap.above, h, hm.2]
      · simp [AMap.above, hm.1, ih hm.2]

theorem AMap.sorted_erase (k : Nat) (m : AMap α) (hm : AMap.sorted m = true) : AMap.sorted (m.erase k) = true := by
  induction m with
  | nil => rfl
  | cons e m ih =>
    simp only [AMap.sorted, Bool.and_eq_true] at hm
    simp only [AMap.erase]
    split
    · exact ih hm.2
    · simp [AMap.sorted, AMap.above_erase _ _ _ hm.1, ih hm.2]

theorem AMap.sorted_insert (k : Nat) (v : α) (m : AMap α) (hm : AMap.sorted m = true) : AMap.sorted (m.insert k v) = true := by
  induction m with
  | nil => simp [AMap.insert, AMap.sorted, AMap.above]
  | cons e m ih =>
    obtain ⟨j, u⟩ := e
    simp only [AMap.sorted, Bool.and_eq_true] at hm
    simp only [AMap.insert]
    split
    · next h => simp [AMap.sorted, AMap.above, h, hm, AMap.above_mono (Nat.le_of_lt h) m hm.1]
    · split
      · next h => subst h; simp [AMap.sorted, hm]
      · next h1 h2 => simp [AMap.sorted, AMap.above_insert j k v m hm.1 (by omega), ih hm.2]

theorem AMap.sparse_erase [DecidableEq α] (d : α) (k : Nat) (m : AMap α) (hm : AMap.sparse d m = true) :
    AMap.sparse d (m.erase k) = true := by
  induction m with
  | nil => rfl
  | cons e m ih =>
    simp only [AMap.sparse, Bool.and_eq_true] at hm
    simp only [AMap.erase]
    split
    · exact ih hm.2
    · simp [AMap.sparse, ih hm.2, by simpa using hm.1]

theorem AMap.sparse_insert [DecidableEq α] (d : α) (k : Nat) (v : α) (m : AMap α) (hm : AMap.sparse d m = true) (h : v ≠ d) :
    AMap.sparse d (m.insert k v) = true := by
  induction m with
  | nil => simp [AMap.insert, AMap.sparse, h]
  | cons e m ih =>
    simp only [AMap.sparse, Bool.and_eq_true] at hm
    simp only [AMap.insert]
    split
    · simp_all [AMap.sparse]
    · split
      · simp_all [AMap.sparse]
      · simp_all [AMap.sparse]

/-- Writing an entry keeps the canonical form. -/
theorem AMap.wf_put [DecidableEq α] (m : AMap α) (k : Nat) (v d : α) (hm : m.wf d = true) : (m.put k v d).wf d = true := by
  simp only [AMap.wf, Bool.and_eq_true] at hm ⊢
  unfold AMap.put
  split
  · exact ⟨AMap.sorted_erase k m hm.1, AMap.sparse_erase d k m hm.2⟩
  · next h => exact ⟨AMap.sorted_insert k v m hm.1, AMap.sparse_insert d k v m hm.2 h⟩

theorem AMap.above_filter (a : Nat) (f : Nat × α → Bool) (m : AMap α) (hm : AMap.above a m = true) :
    AMap.above a (m.filter f) = true := by
  induction m with
  | nil => rfl
  | cons e m ih =>
    simp only [AMap.above, Bool.and_eq_true] at hm
    simp only [List.filter]
    split
    · simp [AMap.above, by simpa using hm.1, ih hm.2]
    · exact ih hm.2

/-- Taking entries away keeps the canonical form. -/
theorem AMap.wf_filter [DecidableEq α] (d : α) (f : Nat × α → Bool) (m : AMap α) (hm : m.wf d = true) :
    AMap.wf (m.filter f) d = true := by
  simp only [AMap.wf, Bool.and_eq_true] at hm ⊢
  induction m with
  | nil => simp [AMap.sorted, AMap.sparse]
  | cons e m ih =>
    simp only [AMap.sorted, AMap.sparse, Bool.and_eq_true] at hm
    have := ih ⟨hm.1.2, hm.2.2⟩
    simp only [List.filter]
    split
    · simp only [AMap.sorted, AMap.sparse, Bool.and_eq_true]
      exact ⟨⟨AMap.above_filter _ f m hm.1.1, this.1⟩, hm.2.1, this.2⟩
    · exact this

/-- Every key of the map is below `k`. -/
theorem AMap.sorted_append (a b : AMap α) (ha : AMap.sorted a = true) (hb : AMap.sorted b = true)
    (h : ∀ x ∈ a, AMap.above x.1 b = true) : AMap.sorted (a ++ b : AMap α) = true := by
  have habove : ∀ (k : Nat) (a : AMap α), AMap.above k a = true → AMap.above k b = true →
      AMap.above k (a ++ b : AMap α) = true := by
    intro k a
    induction a with
    | nil => intro _ h; exact h
    | cons e a ih =>
      intro h1 h2
      simp only [AMap.above, Bool.and_eq_true] at h1
      simp only [List.cons_append, AMap.above, Bool.and_eq_true]
      exact ⟨h1.1, ih h1.2 h2⟩
  induction a with
  | nil => exact hb
  | cons e a ih =>
    simp only [AMap.sorted, Bool.and_eq_true] at ha
    simp only [List.cons_append, AMap.sorted, Bool.and_eq_true]
    exact ⟨habove _ _ ha.1 (h e (by simp)), ih ha.2 (fun x hx => h x (by simp [hx]))⟩

theorem AMap.sparse_append [DecidableEq α] (d : α) (a b : AMap α) (ha : AMap.sparse d a = true) (hb : AMap.sparse d b = true) :
    AMap.sparse d (a ++ b : AMap α) = true := by
  induction a with
  | nil => exact hb
  | cons e a ih =>
    simp only [AMap.sparse, Bool.and_eq_true] at ha
    simp only [List.cons_append, AMap.sparse, Bool.and_eq_true]
    exact ⟨ha.1, ih ha.2⟩

theorem AMap.above_of_forall (k : Nat) (m : AMap α) (h : ∀ x ∈ m, k < x.1) : AMap.above k m = true := by
  induction m with
  | nil => rfl
  | cons e m ih => simp [AMap.above, h e (by simp), ih (fun x hx => h x (by simp [hx]))]

/-- Replacing the entries of an interval by others of it keeps the canonical form. -/
theorem AMap.wf_splice [DecidableEq α] (d : α) (m n : AMap α) (lo hi : Nat) (hm : m.wf d = true) (hn : n.wf d = true)
    (h : ∀ x ∈ n, lo ≤ x.1 ∧ x.1 < hi) (hlh : lo ≤ hi) : (m.splice lo hi n).wf d = true := by
  have h1 := AMap.wf_filter d (fun e => decide (e.1 < lo)) m hm
  have h2 := AMap.wf_filter d (fun e => decide (hi ≤ e.1)) m hm
  simp only [AMap.wf, Bool.and_eq_true] at h1 h2 hn ⊢
  unfold AMap.splice
  constructor
  · refine AMap.sorted_append _ _ (AMap.sorted_append _ _ h1.1 hn.1 ?_) h2.1 ?_
    · intro x hx
      have hx' : x.1 < lo := by simpa using (List.mem_filter.mp hx).2
      exact AMap.above_of_forall _ _ (fun y hy => by have := h y hy; omega)
    · intro x hx
      have hx' : x.1 < hi := by
        rcases List.mem_append.mp hx with hx | hx
        · have : x.1 < lo := by simpa using (List.mem_filter.mp hx).2
          omega
        · exact (h x hx).2
      refine AMap.above_of_forall _ _ (fun y hy => ?_)
      have : hi ≤ y.1 := by simpa using (List.mem_filter.mp hy).2
      omega
  · exact AMap.sparse_append d _ _ (AMap.sparse_append d _ _ h1.2 hn.2) h2.2

theorem AMap.mem_erase {x : Nat × α} (m : AMap α) (k : Nat) (h : x ∈ m.erase k) : x ∈ m := by
  induction m with
  | nil => simp [AMap.erase] at h
  | cons e m ih =>
    simp only [AMap.erase] at h
    split at h
    · exact List.mem_cons_of_mem _ (ih h)
    · rcases List.mem_cons.mp h with h | h
      · simp [h]
      · exact List.mem_cons_of_mem _ (ih h)

theorem AMap.mem_insert {x : Nat × α} (m : AMap α) (k : Nat) (v : α) (h : x ∈ m.insert k v) : x = (k, v) ∨ x ∈ m := by
  induction m with
  | nil => simpa [AMap.insert] using h
  | cons e m ih =>
    simp only [AMap.insert] at h
    split at h
    · rcases List.mem_cons.mp h with h | h
      · exact .inl h
      · exact .inr h
    · split at h
      · rcases List.mem_cons.mp h with h | h
        · exact .inl h
        · exact .inr (List.mem_cons_of_mem _ h)
      · rcases List.mem_cons.mp h with h | h
        · exact .inr (by simp [h])
        · exact (ih h).imp id (List.mem_cons_of_mem _)

theorem AMap.mem_put [DecidableEq α] {x : Nat × α} (m : AMap α) (k : Nat) (v d : α) (h : x ∈ m.put k v d) :
    x.1 = k ∨ x ∈ m := by
  unfold AMap.put at h
  split at h
  · exact .inr (AMap.mem_erase m k h)
  · exact (AMap.mem_insert m k v h).imp (fun e => by simp [e]) id

end Sys2Proof.Machine
end

