-- ==== Sys2Proof/Laws/State.lean ====
section
/-!
SUPPORT. What each update of the state does to each field of it: one lemma for each, true by rfl. No later proof unfolds
a record update of the state.
-/
namespace Sys2Proof.Machine

variable (s : State)

/-! ### setCore -/

@[simp] theorem setCore_schedule (c : Nat) (x : Core) : (setCore s c x).schedule = s.schedule := rfl
@[simp] theorem setCore_draws (c : Nat) (x : Core) : (setCore s c x).draws = s.draws := rfl
@[simp] theorem setCore_cycle (c : Nat) (x : Core) : (setCore s c x).cycle = s.cycle := rfl
@[simp] theorem setCore_released (c : Nat) (x : Core) : (setCore s c x).released = s.released := rfl
@[simp] theorem setCore_cur (c : Nat) (x : Core) : (setCore s c x).cur = s.cur := rfl
@[simp] theorem setCore_undone (c : Nat) (x : Core) : (setCore s c x).undone = s.undone := rfl
@[simp] theorem setCore_nextChord (c : Nat) (x : Core) : (setCore s c x).nextChord = s.nextChord := rfl
@[simp] theorem setCore_nextCard (c : Nat) (x : Core) : (setCore s c x).nextCard = s.nextCard := rfl
@[simp] theorem setCore_nextLaunch (c : Nat) (x : Core) : (setCore s c x).nextLaunch = s.nextLaunch := rfl
@[simp] theorem setCore_nextAge (c : Nat) (x : Core) : (setCore s c x).nextAge = s.nextAge := rfl
@[simp] theorem setCore_parties (c : Nat) (x : Core) : (setCore s c x).parties = s.parties := rfl
@[simp] theorem setCore_blocks (c : Nat) (x : Core) : (setCore s c x).blocks = s.blocks := rfl
@[simp] theorem setCore_chords (c : Nat) (x : Core) : (setCore s c x).chords = s.chords := rfl
@[simp] theorem setCore_cards (c : Nat) (x : Core) : (setCore s c x).cards = s.cards := rfl
@[simp] theorem setCore_launches (c : Nat) (x : Core) : (setCore s c x).launches = s.launches := rfl
@[simp] theorem setCore_cores (c : Nat) (x : Core) : (setCore s c x).cores = s.cores.insert c x := rfl
@[simp] theorem setCore_clusters (c : Nat) (x : Core) : (setCore s c x).clusters = s.clusters := rfl
@[simp] theorem setCore_parts (c : Nat) (x : Core) : (setCore s c x).parts = s.parts := rfl
@[simp] theorem setCore_ctxs (c : Nat) (x : Core) : (setCore s c x).ctxs = s.ctxs := rfl
@[simp] theorem setCore_mem (c : Nat) (x : Core) : (setCore s c x).mem = s.mem := rfl
@[simp] theorem setCore_hist (c : Nat) (x : Core) : (setCore s c x).hist = s.hist := rfl
@[simp] theorem setCore_vis (c : Nat) (x : Core) : (setCore s c x).vis = s.vis := rfl
@[simp] theorem setCore_nextWrite (c : Nat) (x : Core) : (setCore s c x).nextWrite = s.nextWrite := rfl
@[simp] theorem setCore_stamps (c : Nat) (x : Core) : (setCore s c x).stamps = s.stamps := rfl
@[simp] theorem setCore_keyGen (c : Nat) (x : Core) : (setCore s c x).keyGen = s.keyGen := rfl
@[simp] theorem setCore_owner (c : Nat) (x : Core) : (setCore s c x).owner = s.owner := rfl
@[simp] theorem setCore_creator (c : Nat) (x : Core) : (setCore s c x).creator = s.creator := rfl
@[simp] theorem setCore_tgPages (c : Nat) (x : Core) : (setCore s c x).tgPages = s.tgPages := rfl
@[simp] theorem setCore_poison (c : Nat) (x : Core) : (setCore s c x).poison = s.poison := rfl
@[simp] theorem setCore_dropped (c : Nat) (x : Core) : (setCore s c x).dropped = s.dropped := rfl
@[simp] theorem setCore_ts (c : Nat) (x : Core) : (setCore s c x).ts = s.ts := rfl
@[simp] theorem setCore_locks (c : Nat) (x : Core) : (setCore s c x).locks = s.locks := rfl
@[simp] theorem setCore_lockReqs (c : Nat) (x : Core) : (setCore s c x).lockReqs = s.lockReqs := rfl
@[simp] theorem setCore_lockStats (c : Nat) (x : Core) : (setCore s c x).lockStats = s.lockStats := rfl
@[simp] theorem setCore_probes (c : Nat) (x : Core) : (setCore s c x).probes = s.probes := rfl
@[simp] theorem setCore_lockSerial (c : Nat) (x : Core) : (setCore s c x).lockSerial = s.lockSerial := rfl
@[simp] theorem setCore_lockTurn (c : Nat) (x : Core) : (setCore s c x).lockTurn = s.lockTurn := rfl
@[simp] theorem setCore_dir (c : Nat) (x : Core) : (setCore s c x).dir = s.dir := rfl
@[simp] theorem setCore_dirReqs (c : Nat) (x : Core) : (setCore s c x).dirReqs = s.dirReqs := rfl
@[simp] theorem setCore_dieLine (c : Nat) (x : Core) : (setCore s c x).dieLine = s.dieLine := rfl
@[simp] theorem setCore_sectors (c : Nat) (x : Core) : (setCore s c x).sectors = s.sectors := rfl
@[simp] theorem setCore_victims (c : Nat) (x : Core) : (setCore s c x).victims = s.victims := rfl
@[simp] theorem setCore_backInvs (c : Nat) (x : Core) : (setCore s c x).backInvs = s.backInvs := rfl
@[simp] theorem setCore_dirPtr (c : Nat) (x : Core) : (setCore s c x).dirPtr = s.dirPtr := rfl
@[simp] theorem setCore_cols (c : Nat) (x : Core) : (setCore s c x).cols = s.cols := rfl
@[simp] theorem setCore_colSerial (c : Nat) (x : Core) : (setCore s c x).colSerial = s.colSerial := rfl
@[simp] theorem setCore_remote (c : Nat) (x : Core) : (setCore s c x).remote = s.remote := rfl
@[simp] theorem setCore_laneBad (c : Nat) (x : Core) : (setCore s c x).laneBad = s.laneBad := rfl
@[simp] theorem setCore_laneSpared (c : Nat) (x : Core) : (setCore s c x).laneSpared = s.laneSpared := rfl
@[simp] theorem setCore_linksDown (c : Nat) (x : Core) : (setCore s c x).linksDown = s.linksDown := rfl
@[simp] theorem setCore_portsDown (c : Nat) (x : Core) : (setCore s c x).portsDown = s.portsDown := rfl
@[simp] theorem setCore_sliceBad (c : Nat) (x : Core) : (setCore s c x).sliceBad = s.sliceBad := rfl
@[simp] theorem setCore_quarantined (c : Nat) (x : Core) : (setCore s c x).quarantined = s.quarantined := rfl
@[simp] theorem setCore_failedClusters (c : Nat) (x : Core) : (setCore s c x).failedClusters = s.failedClusters := rfl
@[simp] theorem setCore_failedSlices (c : Nat) (x : Core) : (setCore s c x).failedSlices = s.failedSlices := rfl
@[simp] theorem setCore_regs (c : Nat) (x : Core) : (setCore s c x).regs = s.regs := rfl
@[simp] theorem setCore_mbx (c : Nat) (x : Core) : (setCore s c x).mbx = s.mbx := rfl
@[simp] theorem setCore_mgmtData (c : Nat) (x : Core) : (setCore s c x).mgmtData = s.mgmtData := rfl
@[simp] theorem setCore_hostData (c : Nat) (x : Core) : (setCore s c x).hostData = s.hostData := rfl
@[simp] theorem setCore_irq (c : Nat) (x : Core) : (setCore s c x).irq = s.irq := rfl
@[simp] theorem setCore_bootStep (c : Nat) (x : Core) : (setCore s c x).bootStep = s.bootStep := rfl
@[simp] theorem setCore_bootFail (c : Nat) (x : Core) : (setCore s c x).bootFail = s.bootFail := rfl
@[simp] theorem setCore_bootReady (c : Nat) (x : Core) : (setCore s c x).bootReady = s.bootReady := rfl
@[simp] theorem setCore_meas (c : Nat) (x : Core) : (setCore s c x).meas = s.meas := rfl
@[simp] theorem setCore_power (c : Nat) (x : Core) : (setCore s c x).power = s.power := rfl
@[simp] theorem setCore_v48 (c : Nat) (x : Core) : (setCore s c x).v48 = s.v48 := rfl
@[simp] theorem setCore_aux (c : Nat) (x : Core) : (setCore s c x).aux = s.aux := rfl
@[simp] theorem setCore_rasLog (c : Nat) (x : Core) : (setCore s c x).rasLog = s.rasLog := rfl

/-! ### setCluster -/

@[simp] theorem setCluster_schedule (c : Nat) (x : Cluster) : (setCluster s c x).schedule = s.schedule := rfl
@[simp] theorem setCluster_draws (c : Nat) (x : Cluster) : (setCluster s c x).draws = s.draws := rfl
@[simp] theorem setCluster_cycle (c : Nat) (x : Cluster) : (setCluster s c x).cycle = s.cycle := rfl
@[simp] theorem setCluster_released (c : Nat) (x : Cluster) : (setCluster s c x).released = s.released := rfl
@[simp] theorem setCluster_cur (c : Nat) (x : Cluster) : (setCluster s c x).cur = s.cur := rfl
@[simp] theorem setCluster_undone (c : Nat) (x : Cluster) : (setCluster s c x).undone = s.undone := rfl
@[simp] theorem setCluster_nextChord (c : Nat) (x : Cluster) : (setCluster s c x).nextChord = s.nextChord := rfl
@[simp] theorem setCluster_nextCard (c : Nat) (x : Cluster) : (setCluster s c x).nextCard = s.nextCard := rfl
@[simp] theorem setCluster_nextLaunch (c : Nat) (x : Cluster) : (setCluster s c x).nextLaunch = s.nextLaunch := rfl
@[simp] theorem setCluster_nextAge (c : Nat) (x : Cluster) : (setCluster s c x).nextAge = s.nextAge := rfl
@[simp] theorem setCluster_parties (c : Nat) (x : Cluster) : (setCluster s c x).parties = s.parties := rfl
@[simp] theorem setCluster_blocks (c : Nat) (x : Cluster) : (setCluster s c x).blocks = s.blocks := rfl
@[simp] theorem setCluster_chords (c : Nat) (x : Cluster) : (setCluster s c x).chords = s.chords := rfl
@[simp] theorem setCluster_cards (c : Nat) (x : Cluster) : (setCluster s c x).cards = s.cards := rfl
@[simp] theorem setCluster_launches (c : Nat) (x : Cluster) : (setCluster s c x).launches = s.launches := rfl
@[simp] theorem setCluster_cores (c : Nat) (x : Cluster) : (setCluster s c x).cores = s.cores := rfl
@[simp] theorem setCluster_clusters (c : Nat) (x : Cluster) : (setCluster s c x).clusters = s.clusters.insert c x := rfl
@[simp] theorem setCluster_parts (c : Nat) (x : Cluster) : (setCluster s c x).parts = s.parts := rfl
@[simp] theorem setCluster_ctxs (c : Nat) (x : Cluster) : (setCluster s c x).ctxs = s.ctxs := rfl
@[simp] theorem setCluster_mem (c : Nat) (x : Cluster) : (setCluster s c x).mem = s.mem := rfl
@[simp] theorem setCluster_hist (c : Nat) (x : Cluster) : (setCluster s c x).hist = s.hist := rfl
@[simp] theorem setCluster_vis (c : Nat) (x : Cluster) : (setCluster s c x).vis = s.vis := rfl
@[simp] theorem setCluster_nextWrite (c : Nat) (x : Cluster) : (setCluster s c x).nextWrite = s.nextWrite := rfl
@[simp] theorem setCluster_stamps (c : Nat) (x : Cluster) : (setCluster s c x).stamps = s.stamps := rfl
@[simp] theorem setCluster_keyGen (c : Nat) (x : Cluster) : (setCluster s c x).keyGen = s.keyGen := rfl
@[simp] theorem setCluster_owner (c : Nat) (x : Cluster) : (setCluster s c x).owner = s.owner := rfl
@[simp] theorem setCluster_creator (c : Nat) (x : Cluster) : (setCluster s c x).creator = s.creator := rfl
@[simp] theorem setCluster_tgPages (c : Nat) (x : Cluster) : (setCluster s c x).tgPages = s.tgPages := rfl
@[simp] theorem setCluster_poison (c : Nat) (x : Cluster) : (setCluster s c x).poison = s.poison := rfl
@[simp] theorem setCluster_dropped (c : Nat) (x : Cluster) : (setCluster s c x).dropped = s.dropped := rfl
@[simp] theorem setCluster_ts (c : Nat) (x : Cluster) : (setCluster s c x).ts = s.ts := rfl
@[simp] theorem setCluster_locks (c : Nat) (x : Cluster) : (setCluster s c x).locks = s.locks := rfl
@[simp] theorem setCluster_lockReqs (c : Nat) (x : Cluster) : (setCluster s c x).lockReqs = s.lockReqs := rfl
@[simp] theorem setCluster_lockStats (c : Nat) (x : Cluster) : (setCluster s c x).lockStats = s.lockStats := rfl
@[simp] theorem setCluster_probes (c : Nat) (x : Cluster) : (setCluster s c x).probes = s.probes := rfl
@[simp] theorem setCluster_lockSerial (c : Nat) (x : Cluster) : (setCluster s c x).lockSerial = s.lockSerial := rfl
@[simp] theorem setCluster_lockTurn (c : Nat) (x : Cluster) : (setCluster s c x).lockTurn = s.lockTurn := rfl
@[simp] theorem setCluster_dir (c : Nat) (x : Cluster) : (setCluster s c x).dir = s.dir := rfl
@[simp] theorem setCluster_dirReqs (c : Nat) (x : Cluster) : (setCluster s c x).dirReqs = s.dirReqs := rfl
@[simp] theorem setCluster_dieLine (c : Nat) (x : Cluster) : (setCluster s c x).dieLine = s.dieLine := rfl
@[simp] theorem setCluster_sectors (c : Nat) (x : Cluster) : (setCluster s c x).sectors = s.sectors := rfl
@[simp] theorem setCluster_victims (c : Nat) (x : Cluster) : (setCluster s c x).victims = s.victims := rfl
@[simp] theorem setCluster_backInvs (c : Nat) (x : Cluster) : (setCluster s c x).backInvs = s.backInvs := rfl
@[simp] theorem setCluster_dirPtr (c : Nat) (x : Cluster) : (setCluster s c x).dirPtr = s.dirPtr := rfl
@[simp] theorem setCluster_cols (c : Nat) (x : Cluster) : (setCluster s c x).cols = s.cols := rfl
@[simp] theorem setCluster_colSerial (c : Nat) (x : Cluster) : (setCluster s c x).colSerial = s.colSerial := rfl
@[simp] theorem setCluster_remote (c : Nat) (x : Cluster) : (setCluster s c x).remote = s.remote := rfl
@[simp] theorem setCluster_laneBad (c : Nat) (x : Cluster) : (setCluster s c x).laneBad = s.laneBad := rfl
@[simp] theorem setCluster_laneSpared (c : Nat) (x : Cluster) : (setCluster s c x).laneSpared = s.laneSpared := rfl
@[simp] theorem setCluster_linksDown (c : Nat) (x : Cluster) : (setCluster s c x).linksDown = s.linksDown := rfl
@[simp] theorem setCluster_portsDown (c : Nat) (x : Cluster) : (setCluster s c x).portsDown = s.portsDown := rfl
@[simp] theorem setCluster_sliceBad (c : Nat) (x : Cluster) : (setCluster s c x).sliceBad = s.sliceBad := rfl
@[simp] theorem setCluster_quarantined (c : Nat) (x : Cluster) : (setCluster s c x).quarantined = s.quarantined := rfl
@[simp] theorem setCluster_failedClusters (c : Nat) (x : Cluster) : (setCluster s c x).failedClusters = s.failedClusters := rfl
@[simp] theorem setCluster_failedSlices (c : Nat) (x : Cluster) : (setCluster s c x).failedSlices = s.failedSlices := rfl
@[simp] theorem setCluster_regs (c : Nat) (x : Cluster) : (setCluster s c x).regs = s.regs := rfl
@[simp] theorem setCluster_mbx (c : Nat) (x : Cluster) : (setCluster s c x).mbx = s.mbx := rfl
@[simp] theorem setCluster_mgmtData (c : Nat) (x : Cluster) : (setCluster s c x).mgmtData = s.mgmtData := rfl
@[simp] theorem setCluster_hostData (c : Nat) (x : Cluster) : (setCluster s c x).hostData = s.hostData := rfl
@[simp] theorem setCluster_irq (c : Nat) (x : Cluster) : (setCluster s c x).irq = s.irq := rfl
@[simp] theorem setCluster_bootStep (c : Nat) (x : Cluster) : (setCluster s c x).bootStep = s.bootStep := rfl
@[simp] theorem setCluster_bootFail (c : Nat) (x : Cluster) : (setCluster s c x).bootFail = s.bootFail := rfl
@[simp] theorem setCluster_bootReady (c : Nat) (x : Cluster) : (setCluster s c x).bootReady = s.bootReady := rfl
@[simp] theorem setCluster_meas (c : Nat) (x : Cluster) : (setCluster s c x).meas = s.meas := rfl
@[simp] theorem setCluster_power (c : Nat) (x : Cluster) : (setCluster s c x).power = s.power := rfl
@[simp] theorem setCluster_v48 (c : Nat) (x : Cluster) : (setCluster s c x).v48 = s.v48 := rfl
@[simp] theorem setCluster_aux (c : Nat) (x : Cluster) : (setCluster s c x).aux = s.aux := rfl
@[simp] theorem setCluster_rasLog (c : Nat) (x : Cluster) : (setCluster s c x).rasLog = s.rasLog := rfl

/-! ### setPart -/

@[simp] theorem setPart_schedule (n : Nat) (x : Part) : (setPart s n x).schedule = s.schedule := rfl
@[simp] theorem setPart_draws (n : Nat) (x : Part) : (setPart s n x).draws = s.draws := rfl
@[simp] theorem setPart_cycle (n : Nat) (x : Part) : (setPart s n x).cycle = s.cycle := rfl
@[simp] theorem setPart_released (n : Nat) (x : Part) : (setPart s n x).released = s.released := rfl
@[simp] theorem setPart_cur (n : Nat) (x : Part) : (setPart s n x).cur = s.cur := rfl
@[simp] theorem setPart_undone (n : Nat) (x : Part) : (setPart s n x).undone = s.undone := rfl
@[simp] theorem setPart_nextChord (n : Nat) (x : Part) : (setPart s n x).nextChord = s.nextChord := rfl
@[simp] theorem setPart_nextCard (n : Nat) (x : Part) : (setPart s n x).nextCard = s.nextCard := rfl
@[simp] theorem setPart_nextLaunch (n : Nat) (x : Part) : (setPart s n x).nextLaunch = s.nextLaunch := rfl
@[simp] theorem setPart_nextAge (n : Nat) (x : Part) : (setPart s n x).nextAge = s.nextAge := rfl
@[simp] theorem setPart_parties (n : Nat) (x : Part) : (setPart s n x).parties = s.parties := rfl
@[simp] theorem setPart_blocks (n : Nat) (x : Part) : (setPart s n x).blocks = s.blocks := rfl
@[simp] theorem setPart_chords (n : Nat) (x : Part) : (setPart s n x).chords = s.chords := rfl
@[simp] theorem setPart_cards (n : Nat) (x : Part) : (setPart s n x).cards = s.cards := rfl
@[simp] theorem setPart_launches (n : Nat) (x : Part) : (setPart s n x).launches = s.launches := rfl
@[simp] theorem setPart_cores (n : Nat) (x : Part) : (setPart s n x).cores = s.cores := rfl
@[simp] theorem setPart_clusters (n : Nat) (x : Part) : (setPart s n x).clusters = s.clusters := rfl
@[simp] theorem setPart_parts (n : Nat) (x : Part) : (setPart s n x).parts = s.parts.insert n x := rfl
@[simp] theorem setPart_ctxs (n : Nat) (x : Part) : (setPart s n x).ctxs = s.ctxs := rfl
@[simp] theorem setPart_mem (n : Nat) (x : Part) : (setPart s n x).mem = s.mem := rfl
@[simp] theorem setPart_hist (n : Nat) (x : Part) : (setPart s n x).hist = s.hist := rfl
@[simp] theorem setPart_vis (n : Nat) (x : Part) : (setPart s n x).vis = s.vis := rfl
@[simp] theorem setPart_nextWrite (n : Nat) (x : Part) : (setPart s n x).nextWrite = s.nextWrite := rfl
@[simp] theorem setPart_stamps (n : Nat) (x : Part) : (setPart s n x).stamps = s.stamps := rfl
@[simp] theorem setPart_keyGen (n : Nat) (x : Part) : (setPart s n x).keyGen = s.keyGen := rfl
@[simp] theorem setPart_owner (n : Nat) (x : Part) : (setPart s n x).owner = s.owner := rfl
@[simp] theorem setPart_creator (n : Nat) (x : Part) : (setPart s n x).creator = s.creator := rfl
@[simp] theorem setPart_tgPages (n : Nat) (x : Part) : (setPart s n x).tgPages = s.tgPages := rfl
@[simp] theorem setPart_poison (n : Nat) (x : Part) : (setPart s n x).poison = s.poison := rfl
@[simp] theorem setPart_dropped (n : Nat) (x : Part) : (setPart s n x).dropped = s.dropped := rfl
@[simp] theorem setPart_ts (n : Nat) (x : Part) : (setPart s n x).ts = s.ts := rfl
@[simp] theorem setPart_locks (n : Nat) (x : Part) : (setPart s n x).locks = s.locks := rfl
@[simp] theorem setPart_lockReqs (n : Nat) (x : Part) : (setPart s n x).lockReqs = s.lockReqs := rfl
@[simp] theorem setPart_lockStats (n : Nat) (x : Part) : (setPart s n x).lockStats = s.lockStats := rfl
@[simp] theorem setPart_probes (n : Nat) (x : Part) : (setPart s n x).probes = s.probes := rfl
@[simp] theorem setPart_lockSerial (n : Nat) (x : Part) : (setPart s n x).lockSerial = s.lockSerial := rfl
@[simp] theorem setPart_lockTurn (n : Nat) (x : Part) : (setPart s n x).lockTurn = s.lockTurn := rfl
@[simp] theorem setPart_dir (n : Nat) (x : Part) : (setPart s n x).dir = s.dir := rfl
@[simp] theorem setPart_dirReqs (n : Nat) (x : Part) : (setPart s n x).dirReqs = s.dirReqs := rfl
@[simp] theorem setPart_dieLine (n : Nat) (x : Part) : (setPart s n x).dieLine = s.dieLine := rfl
@[simp] theorem setPart_sectors (n : Nat) (x : Part) : (setPart s n x).sectors = s.sectors := rfl
@[simp] theorem setPart_victims (n : Nat) (x : Part) : (setPart s n x).victims = s.victims := rfl
@[simp] theorem setPart_backInvs (n : Nat) (x : Part) : (setPart s n x).backInvs = s.backInvs := rfl
@[simp] theorem setPart_dirPtr (n : Nat) (x : Part) : (setPart s n x).dirPtr = s.dirPtr := rfl
@[simp] theorem setPart_cols (n : Nat) (x : Part) : (setPart s n x).cols = s.cols := rfl
@[simp] theorem setPart_colSerial (n : Nat) (x : Part) : (setPart s n x).colSerial = s.colSerial := rfl
@[simp] theorem setPart_remote (n : Nat) (x : Part) : (setPart s n x).remote = s.remote := rfl
@[simp] theorem setPart_laneBad (n : Nat) (x : Part) : (setPart s n x).laneBad = s.laneBad := rfl
@[simp] theorem setPart_laneSpared (n : Nat) (x : Part) : (setPart s n x).laneSpared = s.laneSpared := rfl
@[simp] theorem setPart_linksDown (n : Nat) (x : Part) : (setPart s n x).linksDown = s.linksDown := rfl
@[simp] theorem setPart_portsDown (n : Nat) (x : Part) : (setPart s n x).portsDown = s.portsDown := rfl
@[simp] theorem setPart_sliceBad (n : Nat) (x : Part) : (setPart s n x).sliceBad = s.sliceBad := rfl
@[simp] theorem setPart_quarantined (n : Nat) (x : Part) : (setPart s n x).quarantined = s.quarantined := rfl
@[simp] theorem setPart_failedClusters (n : Nat) (x : Part) : (setPart s n x).failedClusters = s.failedClusters := rfl
@[simp] theorem setPart_failedSlices (n : Nat) (x : Part) : (setPart s n x).failedSlices = s.failedSlices := rfl
@[simp] theorem setPart_regs (n : Nat) (x : Part) : (setPart s n x).regs = s.regs := rfl
@[simp] theorem setPart_mbx (n : Nat) (x : Part) : (setPart s n x).mbx = s.mbx := rfl
@[simp] theorem setPart_mgmtData (n : Nat) (x : Part) : (setPart s n x).mgmtData = s.mgmtData := rfl
@[simp] theorem setPart_hostData (n : Nat) (x : Part) : (setPart s n x).hostData = s.hostData := rfl
@[simp] theorem setPart_irq (n : Nat) (x : Part) : (setPart s n x).irq = s.irq := rfl
@[simp] theorem setPart_bootStep (n : Nat) (x : Part) : (setPart s n x).bootStep = s.bootStep := rfl
@[simp] theorem setPart_bootFail (n : Nat) (x : Part) : (setPart s n x).bootFail = s.bootFail := rfl
@[simp] theorem setPart_bootReady (n : Nat) (x : Part) : (setPart s n x).bootReady = s.bootReady := rfl
@[simp] theorem setPart_meas (n : Nat) (x : Part) : (setPart s n x).meas = s.meas := rfl
@[simp] theorem setPart_power (n : Nat) (x : Part) : (setPart s n x).power = s.power := rfl
@[simp] theorem setPart_v48 (n : Nat) (x : Part) : (setPart s n x).v48 = s.v48 := rfl
@[simp] theorem setPart_aux (n : Nat) (x : Part) : (setPart s n x).aux = s.aux := rfl
@[simp] theorem setPart_rasLog (n : Nat) (x : Part) : (setPart s n x).rasLog = s.rasLog := rfl

/-! ### setCtx -/

@[simp] theorem setCtx_schedule (k : Nat) (x : CtxDev) : (setCtx s k x).schedule = s.schedule := rfl
@[simp] theorem setCtx_draws (k : Nat) (x : CtxDev) : (setCtx s k x).draws = s.draws := rfl
@[simp] theorem setCtx_cycle (k : Nat) (x : CtxDev) : (setCtx s k x).cycle = s.cycle := rfl
@[simp] theorem setCtx_released (k : Nat) (x : CtxDev) : (setCtx s k x).released = s.released := rfl
@[simp] theorem setCtx_cur (k : Nat) (x : CtxDev) : (setCtx s k x).cur = s.cur := rfl
@[simp] theorem setCtx_undone (k : Nat) (x : CtxDev) : (setCtx s k x).undone = s.undone := rfl
@[simp] theorem setCtx_nextChord (k : Nat) (x : CtxDev) : (setCtx s k x).nextChord = s.nextChord := rfl
@[simp] theorem setCtx_nextCard (k : Nat) (x : CtxDev) : (setCtx s k x).nextCard = s.nextCard := rfl
@[simp] theorem setCtx_nextLaunch (k : Nat) (x : CtxDev) : (setCtx s k x).nextLaunch = s.nextLaunch := rfl
@[simp] theorem setCtx_nextAge (k : Nat) (x : CtxDev) : (setCtx s k x).nextAge = s.nextAge := rfl
@[simp] theorem setCtx_parties (k : Nat) (x : CtxDev) : (setCtx s k x).parties = s.parties := rfl
@[simp] theorem setCtx_blocks (k : Nat) (x : CtxDev) : (setCtx s k x).blocks = s.blocks := rfl
@[simp] theorem setCtx_chords (k : Nat) (x : CtxDev) : (setCtx s k x).chords = s.chords := rfl
@[simp] theorem setCtx_cards (k : Nat) (x : CtxDev) : (setCtx s k x).cards = s.cards := rfl
@[simp] theorem setCtx_launches (k : Nat) (x : CtxDev) : (setCtx s k x).launches = s.launches := rfl
@[simp] theorem setCtx_cores (k : Nat) (x : CtxDev) : (setCtx s k x).cores = s.cores := rfl
@[simp] theorem setCtx_clusters (k : Nat) (x : CtxDev) : (setCtx s k x).clusters = s.clusters := rfl
@[simp] theorem setCtx_parts (k : Nat) (x : CtxDev) : (setCtx s k x).parts = s.parts := rfl
@[simp] theorem setCtx_ctxs (k : Nat) (x : CtxDev) : (setCtx s k x).ctxs = s.ctxs.insert k x := rfl
@[simp] theorem setCtx_mem (k : Nat) (x : CtxDev) : (setCtx s k x).mem = s.mem := rfl
@[simp] theorem setCtx_hist (k : Nat) (x : CtxDev) : (setCtx s k x).hist = s.hist := rfl
@[simp] theorem setCtx_vis (k : Nat) (x : CtxDev) : (setCtx s k x).vis = s.vis := rfl
@[simp] theorem setCtx_nextWrite (k : Nat) (x : CtxDev) : (setCtx s k x).nextWrite = s.nextWrite := rfl
@[simp] theorem setCtx_stamps (k : Nat) (x : CtxDev) : (setCtx s k x).stamps = s.stamps := rfl
@[simp] theorem setCtx_keyGen (k : Nat) (x : CtxDev) : (setCtx s k x).keyGen = s.keyGen := rfl
@[simp] theorem setCtx_owner (k : Nat) (x : CtxDev) : (setCtx s k x).owner = s.owner := rfl
@[simp] theorem setCtx_creator (k : Nat) (x : CtxDev) : (setCtx s k x).creator = s.creator := rfl
@[simp] theorem setCtx_tgPages (k : Nat) (x : CtxDev) : (setCtx s k x).tgPages = s.tgPages := rfl
@[simp] theorem setCtx_poison (k : Nat) (x : CtxDev) : (setCtx s k x).poison = s.poison := rfl
@[simp] theorem setCtx_dropped (k : Nat) (x : CtxDev) : (setCtx s k x).dropped = s.dropped := rfl
@[simp] theorem setCtx_ts (k : Nat) (x : CtxDev) : (setCtx s k x).ts = s.ts := rfl
@[simp] theorem setCtx_locks (k : Nat) (x : CtxDev) : (setCtx s k x).locks = s.locks := rfl
@[simp] theorem setCtx_lockReqs (k : Nat) (x : CtxDev) : (setCtx s k x).lockReqs = s.lockReqs := rfl
@[simp] theorem setCtx_lockStats (k : Nat) (x : CtxDev) : (setCtx s k x).lockStats = s.lockStats := rfl
@[simp] theorem setCtx_probes (k : Nat) (x : CtxDev) : (setCtx s k x).probes = s.probes := rfl
@[simp] theorem setCtx_lockSerial (k : Nat) (x : CtxDev) : (setCtx s k x).lockSerial = s.lockSerial := rfl
@[simp] theorem setCtx_lockTurn (k : Nat) (x : CtxDev) : (setCtx s k x).lockTurn = s.lockTurn := rfl
@[simp] theorem setCtx_dir (k : Nat) (x : CtxDev) : (setCtx s k x).dir = s.dir := rfl
@[simp] theorem setCtx_dirReqs (k : Nat) (x : CtxDev) : (setCtx s k x).dirReqs = s.dirReqs := rfl
@[simp] theorem setCtx_dieLine (k : Nat) (x : CtxDev) : (setCtx s k x).dieLine = s.dieLine := rfl
@[simp] theorem setCtx_sectors (k : Nat) (x : CtxDev) : (setCtx s k x).sectors = s.sectors := rfl
@[simp] theorem setCtx_victims (k : Nat) (x : CtxDev) : (setCtx s k x).victims = s.victims := rfl
@[simp] theorem setCtx_backInvs (k : Nat) (x : CtxDev) : (setCtx s k x).backInvs = s.backInvs := rfl
@[simp] theorem setCtx_dirPtr (k : Nat) (x : CtxDev) : (setCtx s k x).dirPtr = s.dirPtr := rfl
@[simp] theorem setCtx_cols (k : Nat) (x : CtxDev) : (setCtx s k x).cols = s.cols := rfl
@[simp] theorem setCtx_colSerial (k : Nat) (x : CtxDev) : (setCtx s k x).colSerial = s.colSerial := rfl
@[simp] theorem setCtx_remote (k : Nat) (x : CtxDev) : (setCtx s k x).remote = s.remote := rfl
@[simp] theorem setCtx_laneBad (k : Nat) (x : CtxDev) : (setCtx s k x).laneBad = s.laneBad := rfl
@[simp] theorem setCtx_laneSpared (k : Nat) (x : CtxDev) : (setCtx s k x).laneSpared = s.laneSpared := rfl
@[simp] theorem setCtx_linksDown (k : Nat) (x : CtxDev) : (setCtx s k x).linksDown = s.linksDown := rfl
@[simp] theorem setCtx_portsDown (k : Nat) (x : CtxDev) : (setCtx s k x).portsDown = s.portsDown := rfl
@[simp] theorem setCtx_sliceBad (k : Nat) (x : CtxDev) : (setCtx s k x).sliceBad = s.sliceBad := rfl
@[simp] theorem setCtx_quarantined (k : Nat) (x : CtxDev) : (setCtx s k x).quarantined = s.quarantined := rfl
@[simp] theorem setCtx_failedClusters (k : Nat) (x : CtxDev) : (setCtx s k x).failedClusters = s.failedClusters := rfl
@[simp] theorem setCtx_failedSlices (k : Nat) (x : CtxDev) : (setCtx s k x).failedSlices = s.failedSlices := rfl
@[simp] theorem setCtx_regs (k : Nat) (x : CtxDev) : (setCtx s k x).regs = s.regs := rfl
@[simp] theorem setCtx_mbx (k : Nat) (x : CtxDev) : (setCtx s k x).mbx = s.mbx := rfl
@[simp] theorem setCtx_mgmtData (k : Nat) (x : CtxDev) : (setCtx s k x).mgmtData = s.mgmtData := rfl
@[simp] theorem setCtx_hostData (k : Nat) (x : CtxDev) : (setCtx s k x).hostData = s.hostData := rfl
@[simp] theorem setCtx_irq (k : Nat) (x : CtxDev) : (setCtx s k x).irq = s.irq := rfl
@[simp] theorem setCtx_bootStep (k : Nat) (x : CtxDev) : (setCtx s k x).bootStep = s.bootStep := rfl
@[simp] theorem setCtx_bootFail (k : Nat) (x : CtxDev) : (setCtx s k x).bootFail = s.bootFail := rfl
@[simp] theorem setCtx_bootReady (k : Nat) (x : CtxDev) : (setCtx s k x).bootReady = s.bootReady := rfl
@[simp] theorem setCtx_meas (k : Nat) (x : CtxDev) : (setCtx s k x).meas = s.meas := rfl
@[simp] theorem setCtx_power (k : Nat) (x : CtxDev) : (setCtx s k x).power = s.power := rfl
@[simp] theorem setCtx_v48 (k : Nat) (x : CtxDev) : (setCtx s k x).v48 = s.v48 := rfl
@[simp] theorem setCtx_aux (k : Nat) (x : CtxDev) : (setCtx s k x).aux = s.aux := rfl
@[simp] theorem setCtx_rasLog (k : Nat) (x : CtxDev) : (setCtx s k x).rasLog = s.rasLog := rfl

/-! ### setParty -/

@[simp] theorem setParty_schedule (q : Nat) (x : Party) : (setParty s q x).schedule = s.schedule := rfl
@[simp] theorem setParty_draws (q : Nat) (x : Party) : (setParty s q x).draws = s.draws := rfl
@[simp] theorem setParty_cycle (q : Nat) (x : Party) : (setParty s q x).cycle = s.cycle := rfl
@[simp] theorem setParty_released (q : Nat) (x : Party) : (setParty s q x).released = s.released := rfl
@[simp] theorem setParty_cur (q : Nat) (x : Party) : (setParty s q x).cur = s.cur := rfl
@[simp] theorem setParty_undone (q : Nat) (x : Party) : (setParty s q x).undone = s.undone := rfl
@[simp] theorem setParty_nextChord (q : Nat) (x : Party) : (setParty s q x).nextChord = s.nextChord := rfl
@[simp] theorem setParty_nextCard (q : Nat) (x : Party) : (setParty s q x).nextCard = s.nextCard := rfl
@[simp] theorem setParty_nextLaunch (q : Nat) (x : Party) : (setParty s q x).nextLaunch = s.nextLaunch := rfl
@[simp] theorem setParty_nextAge (q : Nat) (x : Party) : (setParty s q x).nextAge = s.nextAge := rfl
@[simp] theorem setParty_parties (q : Nat) (x : Party) : (setParty s q x).parties = s.parties.insert q x := rfl
@[simp] theorem setParty_blocks (q : Nat) (x : Party) : (setParty s q x).blocks = s.blocks := rfl
@[simp] theorem setParty_chords (q : Nat) (x : Party) : (setParty s q x).chords = s.chords := rfl
@[simp] theorem setParty_cards (q : Nat) (x : Party) : (setParty s q x).cards = s.cards := rfl
@[simp] theorem setParty_launches (q : Nat) (x : Party) : (setParty s q x).launches = s.launches := rfl
@[simp] theorem setParty_cores (q : Nat) (x : Party) : (setParty s q x).cores = s.cores := rfl
@[simp] theorem setParty_clusters (q : Nat) (x : Party) : (setParty s q x).clusters = s.clusters := rfl
@[simp] theorem setParty_parts (q : Nat) (x : Party) : (setParty s q x).parts = s.parts := rfl
@[simp] theorem setParty_ctxs (q : Nat) (x : Party) : (setParty s q x).ctxs = s.ctxs := rfl
@[simp] theorem setParty_mem (q : Nat) (x : Party) : (setParty s q x).mem = s.mem := rfl
@[simp] theorem setParty_hist (q : Nat) (x : Party) : (setParty s q x).hist = s.hist := rfl
@[simp] theorem setParty_vis (q : Nat) (x : Party) : (setParty s q x).vis = s.vis := rfl
@[simp] theorem setParty_nextWrite (q : Nat) (x : Party) : (setParty s q x).nextWrite = s.nextWrite := rfl
@[simp] theorem setParty_stamps (q : Nat) (x : Party) : (setParty s q x).stamps = s.stamps := rfl
@[simp] theorem setParty_keyGen (q : Nat) (x : Party) : (setParty s q x).keyGen = s.keyGen := rfl
@[simp] theorem setParty_owner (q : Nat) (x : Party) : (setParty s q x).owner = s.owner := rfl
@[simp] theorem setParty_creator (q : Nat) (x : Party) : (setParty s q x).creator = s.creator := rfl
@[simp] theorem setParty_tgPages (q : Nat) (x : Party) : (setParty s q x).tgPages = s.tgPages := rfl
@[simp] theorem setParty_poison (q : Nat) (x : Party) : (setParty s q x).poison = s.poison := rfl
@[simp] theorem setParty_dropped (q : Nat) (x : Party) : (setParty s q x).dropped = s.dropped := rfl
@[simp] theorem setParty_ts (q : Nat) (x : Party) : (setParty s q x).ts = s.ts := rfl
@[simp] theorem setParty_locks (q : Nat) (x : Party) : (setParty s q x).locks = s.locks := rfl
@[simp] theorem setParty_lockReqs (q : Nat) (x : Party) : (setParty s q x).lockReqs = s.lockReqs := rfl
@[simp] theorem setParty_lockStats (q : Nat) (x : Party) : (setParty s q x).lockStats = s.lockStats := rfl
@[simp] theorem setParty_probes (q : Nat) (x : Party) : (setParty s q x).probes = s.probes := rfl
@[simp] theorem setParty_lockSerial (q : Nat) (x : Party) : (setParty s q x).lockSerial = s.lockSerial := rfl
@[simp] theorem setParty_lockTurn (q : Nat) (x : Party) : (setParty s q x).lockTurn = s.lockTurn := rfl
@[simp] theorem setParty_dir (q : Nat) (x : Party) : (setParty s q x).dir = s.dir := rfl
@[simp] theorem setParty_dirReqs (q : Nat) (x : Party) : (setParty s q x).dirReqs = s.dirReqs := rfl
@[simp] theorem setParty_dieLine (q : Nat) (x : Party) : (setParty s q x).dieLine = s.dieLine := rfl
@[simp] theorem setParty_sectors (q : Nat) (x : Party) : (setParty s q x).sectors = s.sectors := rfl
@[simp] theorem setParty_victims (q : Nat) (x : Party) : (setParty s q x).victims = s.victims := rfl
@[simp] theorem setParty_backInvs (q : Nat) (x : Party) : (setParty s q x).backInvs = s.backInvs := rfl
@[simp] theorem setParty_dirPtr (q : Nat) (x : Party) : (setParty s q x).dirPtr = s.dirPtr := rfl
@[simp] theorem setParty_cols (q : Nat) (x : Party) : (setParty s q x).cols = s.cols := rfl
@[simp] theorem setParty_colSerial (q : Nat) (x : Party) : (setParty s q x).colSerial = s.colSerial := rfl
@[simp] theorem setParty_remote (q : Nat) (x : Party) : (setParty s q x).remote = s.remote := rfl
@[simp] theorem setParty_laneBad (q : Nat) (x : Party) : (setParty s q x).laneBad = s.laneBad := rfl
@[simp] theorem setParty_laneSpared (q : Nat) (x : Party) : (setParty s q x).laneSpared = s.laneSpared := rfl
@[simp] theorem setParty_linksDown (q : Nat) (x : Party) : (setParty s q x).linksDown = s.linksDown := rfl
@[simp] theorem setParty_portsDown (q : Nat) (x : Party) : (setParty s q x).portsDown = s.portsDown := rfl
@[simp] theorem setParty_sliceBad (q : Nat) (x : Party) : (setParty s q x).sliceBad = s.sliceBad := rfl
@[simp] theorem setParty_quarantined (q : Nat) (x : Party) : (setParty s q x).quarantined = s.quarantined := rfl
@[simp] theorem setParty_failedClusters (q : Nat) (x : Party) : (setParty s q x).failedClusters = s.failedClusters := rfl
@[simp] theorem setParty_failedSlices (q : Nat) (x : Party) : (setParty s q x).failedSlices = s.failedSlices := rfl
@[simp] theorem setParty_regs (q : Nat) (x : Party) : (setParty s q x).regs = s.regs := rfl
@[simp] theorem setParty_mbx (q : Nat) (x : Party) : (setParty s q x).mbx = s.mbx := rfl
@[simp] theorem setParty_mgmtData (q : Nat) (x : Party) : (setParty s q x).mgmtData = s.mgmtData := rfl
@[simp] theorem setParty_hostData (q : Nat) (x : Party) : (setParty s q x).hostData = s.hostData := rfl
@[simp] theorem setParty_irq (q : Nat) (x : Party) : (setParty s q x).irq = s.irq := rfl
@[simp] theorem setParty_bootStep (q : Nat) (x : Party) : (setParty s q x).bootStep = s.bootStep := rfl
@[simp] theorem setParty_bootFail (q : Nat) (x : Party) : (setParty s q x).bootFail = s.bootFail := rfl
@[simp] theorem setParty_bootReady (q : Nat) (x : Party) : (setParty s q x).bootReady = s.bootReady := rfl
@[simp] theorem setParty_meas (q : Nat) (x : Party) : (setParty s q x).meas = s.meas := rfl
@[simp] theorem setParty_power (q : Nat) (x : Party) : (setParty s q x).power = s.power := rfl
@[simp] theorem setParty_v48 (q : Nat) (x : Party) : (setParty s q x).v48 = s.v48 := rfl
@[simp] theorem setParty_aux (q : Nat) (x : Party) : (setParty s q x).aux = s.aux := rfl
@[simp] theorem setParty_rasLog (q : Nat) (x : Party) : (setParty s q x).rasLog = s.rasLog := rfl

/-! ### modParty -/

@[simp] theorem modParty_schedule (q : Nat) (f : Party → Party) : (modParty s q f).schedule = s.schedule := rfl
@[simp] theorem modParty_draws (q : Nat) (f : Party → Party) : (modParty s q f).draws = s.draws := rfl
@[simp] theorem modParty_cycle (q : Nat) (f : Party → Party) : (modParty s q f).cycle = s.cycle := rfl
@[simp] theorem modParty_released (q : Nat) (f : Party → Party) : (modParty s q f).released = s.released := rfl
@[simp] theorem modParty_cur (q : Nat) (f : Party → Party) : (modParty s q f).cur = s.cur := rfl
@[simp] theorem modParty_undone (q : Nat) (f : Party → Party) : (modParty s q f).undone = s.undone := rfl
@[simp] theorem modParty_nextChord (q : Nat) (f : Party → Party) : (modParty s q f).nextChord = s.nextChord := rfl
@[simp] theorem modParty_nextCard (q : Nat) (f : Party → Party) : (modParty s q f).nextCard = s.nextCard := rfl
@[simp] theorem modParty_nextLaunch (q : Nat) (f : Party → Party) : (modParty s q f).nextLaunch = s.nextLaunch := rfl
@[simp] theorem modParty_nextAge (q : Nat) (f : Party → Party) : (modParty s q f).nextAge = s.nextAge := rfl
@[simp] theorem modParty_parties (q : Nat) (f : Party → Party) : (modParty s q f).parties = s.parties.modify q f := rfl
@[simp] theorem modParty_blocks (q : Nat) (f : Party → Party) : (modParty s q f).blocks = s.blocks := rfl
@[simp] theorem modParty_chords (q : Nat) (f : Party → Party) : (modParty s q f).chords = s.chords := rfl
@[simp] theorem modParty_cards (q : Nat) (f : Party → Party) : (modParty s q f).cards = s.cards := rfl
@[simp] theorem modParty_launches (q : Nat) (f : Party → Party) : (modParty s q f).launches = s.launches := rfl
@[simp] theorem modParty_cores (q : Nat) (f : Party → Party) : (modParty s q f).cores = s.cores := rfl
@[simp] theorem modParty_clusters (q : Nat) (f : Party → Party) : (modParty s q f).clusters = s.clusters := rfl
@[simp] theorem modParty_parts (q : Nat) (f : Party → Party) : (modParty s q f).parts = s.parts := rfl
@[simp] theorem modParty_ctxs (q : Nat) (f : Party → Party) : (modParty s q f).ctxs = s.ctxs := rfl
@[simp] theorem modParty_mem (q : Nat) (f : Party → Party) : (modParty s q f).mem = s.mem := rfl
@[simp] theorem modParty_hist (q : Nat) (f : Party → Party) : (modParty s q f).hist = s.hist := rfl
@[simp] theorem modParty_vis (q : Nat) (f : Party → Party) : (modParty s q f).vis = s.vis := rfl
@[simp] theorem modParty_nextWrite (q : Nat) (f : Party → Party) : (modParty s q f).nextWrite = s.nextWrite := rfl
@[simp] theorem modParty_stamps (q : Nat) (f : Party → Party) : (modParty s q f).stamps = s.stamps := rfl
@[simp] theorem modParty_keyGen (q : Nat) (f : Party → Party) : (modParty s q f).keyGen = s.keyGen := rfl
@[simp] theorem modParty_owner (q : Nat) (f : Party → Party) : (modParty s q f).owner = s.owner := rfl
@[simp] theorem modParty_creator (q : Nat) (f : Party → Party) : (modParty s q f).creator = s.creator := rfl
@[simp] theorem modParty_tgPages (q : Nat) (f : Party → Party) : (modParty s q f).tgPages = s.tgPages := rfl
@[simp] theorem modParty_poison (q : Nat) (f : Party → Party) : (modParty s q f).poison = s.poison := rfl
@[simp] theorem modParty_dropped (q : Nat) (f : Party → Party) : (modParty s q f).dropped = s.dropped := rfl
@[simp] theorem modParty_ts (q : Nat) (f : Party → Party) : (modParty s q f).ts = s.ts := rfl
@[simp] theorem modParty_locks (q : Nat) (f : Party → Party) : (modParty s q f).locks = s.locks := rfl
@[simp] theorem modParty_lockReqs (q : Nat) (f : Party → Party) : (modParty s q f).lockReqs = s.lockReqs := rfl
@[simp] theorem modParty_lockStats (q : Nat) (f : Party → Party) : (modParty s q f).lockStats = s.lockStats := rfl
@[simp] theorem modParty_probes (q : Nat) (f : Party → Party) : (modParty s q f).probes = s.probes := rfl
@[simp] theorem modParty_lockSerial (q : Nat) (f : Party → Party) : (modParty s q f).lockSerial = s.lockSerial := rfl
@[simp] theorem modParty_lockTurn (q : Nat) (f : Party → Party) : (modParty s q f).lockTurn = s.lockTurn := rfl
@[simp] theorem modParty_dir (q : Nat) (f : Party → Party) : (modParty s q f).dir = s.dir := rfl
@[simp] theorem modParty_dirReqs (q : Nat) (f : Party → Party) : (modParty s q f).dirReqs = s.dirReqs := rfl
@[simp] theorem modParty_dieLine (q : Nat) (f : Party → Party) : (modParty s q f).dieLine = s.dieLine := rfl
@[simp] theorem modParty_sectors (q : Nat) (f : Party → Party) : (modParty s q f).sectors = s.sectors := rfl
@[simp] theorem modParty_victims (q : Nat) (f : Party → Party) : (modParty s q f).victims = s.victims := rfl
@[simp] theorem modParty_backInvs (q : Nat) (f : Party → Party) : (modParty s q f).backInvs = s.backInvs := rfl
@[simp] theorem modParty_dirPtr (q : Nat) (f : Party → Party) : (modParty s q f).dirPtr = s.dirPtr := rfl
@[simp] theorem modParty_cols (q : Nat) (f : Party → Party) : (modParty s q f).cols = s.cols := rfl
@[simp] theorem modParty_colSerial (q : Nat) (f : Party → Party) : (modParty s q f).colSerial = s.colSerial := rfl
@[simp] theorem modParty_remote (q : Nat) (f : Party → Party) : (modParty s q f).remote = s.remote := rfl
@[simp] theorem modParty_laneBad (q : Nat) (f : Party → Party) : (modParty s q f).laneBad = s.laneBad := rfl
@[simp] theorem modParty_laneSpared (q : Nat) (f : Party → Party) : (modParty s q f).laneSpared = s.laneSpared := rfl
@[simp] theorem modParty_linksDown (q : Nat) (f : Party → Party) : (modParty s q f).linksDown = s.linksDown := rfl
@[simp] theorem modParty_portsDown (q : Nat) (f : Party → Party) : (modParty s q f).portsDown = s.portsDown := rfl
@[simp] theorem modParty_sliceBad (q : Nat) (f : Party → Party) : (modParty s q f).sliceBad = s.sliceBad := rfl
@[simp] theorem modParty_quarantined (q : Nat) (f : Party → Party) : (modParty s q f).quarantined = s.quarantined := rfl
@[simp] theorem modParty_failedClusters (q : Nat) (f : Party → Party) : (modParty s q f).failedClusters = s.failedClusters := rfl
@[simp] theorem modParty_failedSlices (q : Nat) (f : Party → Party) : (modParty s q f).failedSlices = s.failedSlices := rfl
@[simp] theorem modParty_regs (q : Nat) (f : Party → Party) : (modParty s q f).regs = s.regs := rfl
@[simp] theorem modParty_mbx (q : Nat) (f : Party → Party) : (modParty s q f).mbx = s.mbx := rfl
@[simp] theorem modParty_mgmtData (q : Nat) (f : Party → Party) : (modParty s q f).mgmtData = s.mgmtData := rfl
@[simp] theorem modParty_hostData (q : Nat) (f : Party → Party) : (modParty s q f).hostData = s.hostData := rfl
@[simp] theorem modParty_irq (q : Nat) (f : Party → Party) : (modParty s q f).irq = s.irq := rfl
@[simp] theorem modParty_bootStep (q : Nat) (f : Party → Party) : (modParty s q f).bootStep = s.bootStep := rfl
@[simp] theorem modParty_bootFail (q : Nat) (f : Party → Party) : (modParty s q f).bootFail = s.bootFail := rfl
@[simp] theorem modParty_bootReady (q : Nat) (f : Party → Party) : (modParty s q f).bootReady = s.bootReady := rfl
@[simp] theorem modParty_meas (q : Nat) (f : Party → Party) : (modParty s q f).meas = s.meas := rfl
@[simp] theorem modParty_power (q : Nat) (f : Party → Party) : (modParty s q f).power = s.power := rfl
@[simp] theorem modParty_v48 (q : Nat) (f : Party → Party) : (modParty s q f).v48 = s.v48 := rfl
@[simp] theorem modParty_aux (q : Nat) (f : Party → Party) : (modParty s q f).aux = s.aux := rfl
@[simp] theorem modParty_rasLog (q : Nat) (f : Party → Party) : (modParty s q f).rasLog = s.rasLog := rfl

/-! ### setBlock -/

@[simp] theorem setBlock_schedule (b : Nat) (x : Block) : (setBlock s b x).schedule = s.schedule := rfl
@[simp] theorem setBlock_draws (b : Nat) (x : Block) : (setBlock s b x).draws = s.draws := rfl
@[simp] theorem setBlock_cycle (b : Nat) (x : Block) : (setBlock s b x).cycle = s.cycle := rfl
@[simp] theorem setBlock_released (b : Nat) (x : Block) : (setBlock s b x).released = s.released := rfl
@[simp] theorem setBlock_cur (b : Nat) (x : Block) : (setBlock s b x).cur = s.cur := rfl
@[simp] theorem setBlock_undone (b : Nat) (x : Block) : (setBlock s b x).undone = s.undone := rfl
@[simp] theorem setBlock_nextChord (b : Nat) (x : Block) : (setBlock s b x).nextChord = s.nextChord := rfl
@[simp] theorem setBlock_nextCard (b : Nat) (x : Block) : (setBlock s b x).nextCard = s.nextCard := rfl
@[simp] theorem setBlock_nextLaunch (b : Nat) (x : Block) : (setBlock s b x).nextLaunch = s.nextLaunch := rfl
@[simp] theorem setBlock_nextAge (b : Nat) (x : Block) : (setBlock s b x).nextAge = s.nextAge := rfl
@[simp] theorem setBlock_parties (b : Nat) (x : Block) : (setBlock s b x).parties = s.parties := rfl
@[simp] theorem setBlock_blocks (b : Nat) (x : Block) : (setBlock s b x).blocks = s.blocks.insert b x := rfl
@[simp] theorem setBlock_chords (b : Nat) (x : Block) : (setBlock s b x).chords = s.chords := rfl
@[simp] theorem setBlock_cards (b : Nat) (x : Block) : (setBlock s b x).cards = s.cards := rfl
@[simp] theorem setBlock_launches (b : Nat) (x : Block) : (setBlock s b x).launches = s.launches := rfl
@[simp] theorem setBlock_cores (b : Nat) (x : Block) : (setBlock s b x).cores = s.cores := rfl
@[simp] theorem setBlock_clusters (b : Nat) (x : Block) : (setBlock s b x).clusters = s.clusters := rfl
@[simp] theorem setBlock_parts (b : Nat) (x : Block) : (setBlock s b x).parts = s.parts := rfl
@[simp] theorem setBlock_ctxs (b : Nat) (x : Block) : (setBlock s b x).ctxs = s.ctxs := rfl
@[simp] theorem setBlock_mem (b : Nat) (x : Block) : (setBlock s b x).mem = s.mem := rfl
@[simp] theorem setBlock_hist (b : Nat) (x : Block) : (setBlock s b x).hist = s.hist := rfl
@[simp] theorem setBlock_vis (b : Nat) (x : Block) : (setBlock s b x).vis = s.vis := rfl
@[simp] theorem setBlock_nextWrite (b : Nat) (x : Block) : (setBlock s b x).nextWrite = s.nextWrite := rfl
@[simp] theorem setBlock_stamps (b : Nat) (x : Block) : (setBlock s b x).stamps = s.stamps := rfl
@[simp] theorem setBlock_keyGen (b : Nat) (x : Block) : (setBlock s b x).keyGen = s.keyGen := rfl
@[simp] theorem setBlock_owner (b : Nat) (x : Block) : (setBlock s b x).owner = s.owner := rfl
@[simp] theorem setBlock_creator (b : Nat) (x : Block) : (setBlock s b x).creator = s.creator := rfl
@[simp] theorem setBlock_tgPages (b : Nat) (x : Block) : (setBlock s b x).tgPages = s.tgPages := rfl
@[simp] theorem setBlock_poison (b : Nat) (x : Block) : (setBlock s b x).poison = s.poison := rfl
@[simp] theorem setBlock_dropped (b : Nat) (x : Block) : (setBlock s b x).dropped = s.dropped := rfl
@[simp] theorem setBlock_ts (b : Nat) (x : Block) : (setBlock s b x).ts = s.ts := rfl
@[simp] theorem setBlock_locks (b : Nat) (x : Block) : (setBlock s b x).locks = s.locks := rfl
@[simp] theorem setBlock_lockReqs (b : Nat) (x : Block) : (setBlock s b x).lockReqs = s.lockReqs := rfl
@[simp] theorem setBlock_lockStats (b : Nat) (x : Block) : (setBlock s b x).lockStats = s.lockStats := rfl
@[simp] theorem setBlock_probes (b : Nat) (x : Block) : (setBlock s b x).probes = s.probes := rfl
@[simp] theorem setBlock_lockSerial (b : Nat) (x : Block) : (setBlock s b x).lockSerial = s.lockSerial := rfl
@[simp] theorem setBlock_lockTurn (b : Nat) (x : Block) : (setBlock s b x).lockTurn = s.lockTurn := rfl
@[simp] theorem setBlock_dir (b : Nat) (x : Block) : (setBlock s b x).dir = s.dir := rfl
@[simp] theorem setBlock_dirReqs (b : Nat) (x : Block) : (setBlock s b x).dirReqs = s.dirReqs := rfl
@[simp] theorem setBlock_dieLine (b : Nat) (x : Block) : (setBlock s b x).dieLine = s.dieLine := rfl
@[simp] theorem setBlock_sectors (b : Nat) (x : Block) : (setBlock s b x).sectors = s.sectors := rfl
@[simp] theorem setBlock_victims (b : Nat) (x : Block) : (setBlock s b x).victims = s.victims := rfl
@[simp] theorem setBlock_backInvs (b : Nat) (x : Block) : (setBlock s b x).backInvs = s.backInvs := rfl
@[simp] theorem setBlock_dirPtr (b : Nat) (x : Block) : (setBlock s b x).dirPtr = s.dirPtr := rfl
@[simp] theorem setBlock_cols (b : Nat) (x : Block) : (setBlock s b x).cols = s.cols := rfl
@[simp] theorem setBlock_colSerial (b : Nat) (x : Block) : (setBlock s b x).colSerial = s.colSerial := rfl
@[simp] theorem setBlock_remote (b : Nat) (x : Block) : (setBlock s b x).remote = s.remote := rfl
@[simp] theorem setBlock_laneBad (b : Nat) (x : Block) : (setBlock s b x).laneBad = s.laneBad := rfl
@[simp] theorem setBlock_laneSpared (b : Nat) (x : Block) : (setBlock s b x).laneSpared = s.laneSpared := rfl
@[simp] theorem setBlock_linksDown (b : Nat) (x : Block) : (setBlock s b x).linksDown = s.linksDown := rfl
@[simp] theorem setBlock_portsDown (b : Nat) (x : Block) : (setBlock s b x).portsDown = s.portsDown := rfl
@[simp] theorem setBlock_sliceBad (b : Nat) (x : Block) : (setBlock s b x).sliceBad = s.sliceBad := rfl
@[simp] theorem setBlock_quarantined (b : Nat) (x : Block) : (setBlock s b x).quarantined = s.quarantined := rfl
@[simp] theorem setBlock_failedClusters (b : Nat) (x : Block) : (setBlock s b x).failedClusters = s.failedClusters := rfl
@[simp] theorem setBlock_failedSlices (b : Nat) (x : Block) : (setBlock s b x).failedSlices = s.failedSlices := rfl
@[simp] theorem setBlock_regs (b : Nat) (x : Block) : (setBlock s b x).regs = s.regs := rfl
@[simp] theorem setBlock_mbx (b : Nat) (x : Block) : (setBlock s b x).mbx = s.mbx := rfl
@[simp] theorem setBlock_mgmtData (b : Nat) (x : Block) : (setBlock s b x).mgmtData = s.mgmtData := rfl
@[simp] theorem setBlock_hostData (b : Nat) (x : Block) : (setBlock s b x).hostData = s.hostData := rfl
@[simp] theorem setBlock_irq (b : Nat) (x : Block) : (setBlock s b x).irq = s.irq := rfl
@[simp] theorem setBlock_bootStep (b : Nat) (x : Block) : (setBlock s b x).bootStep = s.bootStep := rfl
@[simp] theorem setBlock_bootFail (b : Nat) (x : Block) : (setBlock s b x).bootFail = s.bootFail := rfl
@[simp] theorem setBlock_bootReady (b : Nat) (x : Block) : (setBlock s b x).bootReady = s.bootReady := rfl
@[simp] theorem setBlock_meas (b : Nat) (x : Block) : (setBlock s b x).meas = s.meas := rfl
@[simp] theorem setBlock_power (b : Nat) (x : Block) : (setBlock s b x).power = s.power := rfl
@[simp] theorem setBlock_v48 (b : Nat) (x : Block) : (setBlock s b x).v48 = s.v48 := rfl
@[simp] theorem setBlock_aux (b : Nat) (x : Block) : (setBlock s b x).aux = s.aux := rfl
@[simp] theorem setBlock_rasLog (b : Nat) (x : Block) : (setBlock s b x).rasLog = s.rasLog := rfl

/-! ### modBlock -/

@[simp] theorem modBlock_schedule (b : Nat) (f : Block → Block) : (modBlock s b f).schedule = s.schedule := rfl
@[simp] theorem modBlock_draws (b : Nat) (f : Block → Block) : (modBlock s b f).draws = s.draws := rfl
@[simp] theorem modBlock_cycle (b : Nat) (f : Block → Block) : (modBlock s b f).cycle = s.cycle := rfl
@[simp] theorem modBlock_released (b : Nat) (f : Block → Block) : (modBlock s b f).released = s.released := rfl
@[simp] theorem modBlock_cur (b : Nat) (f : Block → Block) : (modBlock s b f).cur = s.cur := rfl
@[simp] theorem modBlock_undone (b : Nat) (f : Block → Block) : (modBlock s b f).undone = s.undone := rfl
@[simp] theorem modBlock_nextChord (b : Nat) (f : Block → Block) : (modBlock s b f).nextChord = s.nextChord := rfl
@[simp] theorem modBlock_nextCard (b : Nat) (f : Block → Block) : (modBlock s b f).nextCard = s.nextCard := rfl
@[simp] theorem modBlock_nextLaunch (b : Nat) (f : Block → Block) : (modBlock s b f).nextLaunch = s.nextLaunch := rfl
@[simp] theorem modBlock_nextAge (b : Nat) (f : Block → Block) : (modBlock s b f).nextAge = s.nextAge := rfl
@[simp] theorem modBlock_parties (b : Nat) (f : Block → Block) : (modBlock s b f).parties = s.parties := rfl
@[simp] theorem modBlock_blocks (b : Nat) (f : Block → Block) : (modBlock s b f).blocks = s.blocks.modify b f := rfl
@[simp] theorem modBlock_chords (b : Nat) (f : Block → Block) : (modBlock s b f).chords = s.chords := rfl
@[simp] theorem modBlock_cards (b : Nat) (f : Block → Block) : (modBlock s b f).cards = s.cards := rfl
@[simp] theorem modBlock_launches (b : Nat) (f : Block → Block) : (modBlock s b f).launches = s.launches := rfl
@[simp] theorem modBlock_cores (b : Nat) (f : Block → Block) : (modBlock s b f).cores = s.cores := rfl
@[simp] theorem modBlock_clusters (b : Nat) (f : Block → Block) : (modBlock s b f).clusters = s.clusters := rfl
@[simp] theorem modBlock_parts (b : Nat) (f : Block → Block) : (modBlock s b f).parts = s.parts := rfl
@[simp] theorem modBlock_ctxs (b : Nat) (f : Block → Block) : (modBlock s b f).ctxs = s.ctxs := rfl
@[simp] theorem modBlock_mem (b : Nat) (f : Block → Block) : (modBlock s b f).mem = s.mem := rfl
@[simp] theorem modBlock_hist (b : Nat) (f : Block → Block) : (modBlock s b f).hist = s.hist := rfl
@[simp] theorem modBlock_vis (b : Nat) (f : Block → Block) : (modBlock s b f).vis = s.vis := rfl
@[simp] theorem modBlock_nextWrite (b : Nat) (f : Block → Block) : (modBlock s b f).nextWrite = s.nextWrite := rfl
@[simp] theorem modBlock_stamps (b : Nat) (f : Block → Block) : (modBlock s b f).stamps = s.stamps := rfl
@[simp] theorem modBlock_keyGen (b : Nat) (f : Block → Block) : (modBlock s b f).keyGen = s.keyGen := rfl
@[simp] theorem modBlock_owner (b : Nat) (f : Block → Block) : (modBlock s b f).owner = s.owner := rfl
@[simp] theorem modBlock_creator (b : Nat) (f : Block → Block) : (modBlock s b f).creator = s.creator := rfl
@[simp] theorem modBlock_tgPages (b : Nat) (f : Block → Block) : (modBlock s b f).tgPages = s.tgPages := rfl
@[simp] theorem modBlock_poison (b : Nat) (f : Block → Block) : (modBlock s b f).poison = s.poison := rfl
@[simp] theorem modBlock_dropped (b : Nat) (f : Block → Block) : (modBlock s b f).dropped = s.dropped := rfl
@[simp] theorem modBlock_ts (b : Nat) (f : Block → Block) : (modBlock s b f).ts = s.ts := rfl
@[simp] theorem modBlock_locks (b : Nat) (f : Block → Block) : (modBlock s b f).locks = s.locks := rfl
@[simp] theorem modBlock_lockReqs (b : Nat) (f : Block → Block) : (modBlock s b f).lockReqs = s.lockReqs := rfl
@[simp] theorem modBlock_lockStats (b : Nat) (f : Block → Block) : (modBlock s b f).lockStats = s.lockStats := rfl
@[simp] theorem modBlock_probes (b : Nat) (f : Block → Block) : (modBlock s b f).probes = s.probes := rfl
@[simp] theorem modBlock_lockSerial (b : Nat) (f : Block → Block) : (modBlock s b f).lockSerial = s.lockSerial := rfl
@[simp] theorem modBlock_lockTurn (b : Nat) (f : Block → Block) : (modBlock s b f).lockTurn = s.lockTurn := rfl
@[simp] theorem modBlock_dir (b : Nat) (f : Block → Block) : (modBlock s b f).dir = s.dir := rfl
@[simp] theorem modBlock_dirReqs (b : Nat) (f : Block → Block) : (modBlock s b f).dirReqs = s.dirReqs := rfl
@[simp] theorem modBlock_dieLine (b : Nat) (f : Block → Block) : (modBlock s b f).dieLine = s.dieLine := rfl
@[simp] theorem modBlock_sectors (b : Nat) (f : Block → Block) : (modBlock s b f).sectors = s.sectors := rfl
@[simp] theorem modBlock_victims (b : Nat) (f : Block → Block) : (modBlock s b f).victims = s.victims := rfl
@[simp] theorem modBlock_backInvs (b : Nat) (f : Block → Block) : (modBlock s b f).backInvs = s.backInvs := rfl
@[simp] theorem modBlock_dirPtr (b : Nat) (f : Block → Block) : (modBlock s b f).dirPtr = s.dirPtr := rfl
@[simp] theorem modBlock_cols (b : Nat) (f : Block → Block) : (modBlock s b f).cols = s.cols := rfl
@[simp] theorem modBlock_colSerial (b : Nat) (f : Block → Block) : (modBlock s b f).colSerial = s.colSerial := rfl
@[simp] theorem modBlock_remote (b : Nat) (f : Block → Block) : (modBlock s b f).remote = s.remote := rfl
@[simp] theorem modBlock_laneBad (b : Nat) (f : Block → Block) : (modBlock s b f).laneBad = s.laneBad := rfl
@[simp] theorem modBlock_laneSpared (b : Nat) (f : Block → Block) : (modBlock s b f).laneSpared = s.laneSpared := rfl
@[simp] theorem modBlock_linksDown (b : Nat) (f : Block → Block) : (modBlock s b f).linksDown = s.linksDown := rfl
@[simp] theorem modBlock_portsDown (b : Nat) (f : Block → Block) : (modBlock s b f).portsDown = s.portsDown := rfl
@[simp] theorem modBlock_sliceBad (b : Nat) (f : Block → Block) : (modBlock s b f).sliceBad = s.sliceBad := rfl
@[simp] theorem modBlock_quarantined (b : Nat) (f : Block → Block) : (modBlock s b f).quarantined = s.quarantined := rfl
@[simp] theorem modBlock_failedClusters (b : Nat) (f : Block → Block) : (modBlock s b f).failedClusters = s.failedClusters := rfl
@[simp] theorem modBlock_failedSlices (b : Nat) (f : Block → Block) : (modBlock s b f).failedSlices = s.failedSlices := rfl
@[simp] theorem modBlock_regs (b : Nat) (f : Block → Block) : (modBlock s b f).regs = s.regs := rfl
@[simp] theorem modBlock_mbx (b : Nat) (f : Block → Block) : (modBlock s b f).mbx = s.mbx := rfl
@[simp] theorem modBlock_mgmtData (b : Nat) (f : Block → Block) : (modBlock s b f).mgmtData = s.mgmtData := rfl
@[simp] theorem modBlock_hostData (b : Nat) (f : Block → Block) : (modBlock s b f).hostData = s.hostData := rfl
@[simp] theorem modBlock_irq (b : Nat) (f : Block → Block) : (modBlock s b f).irq = s.irq := rfl
@[simp] theorem modBlock_bootStep (b : Nat) (f : Block → Block) : (modBlock s b f).bootStep = s.bootStep := rfl
@[simp] theorem modBlock_bootFail (b : Nat) (f : Block → Block) : (modBlock s b f).bootFail = s.bootFail := rfl
@[simp] theorem modBlock_bootReady (b : Nat) (f : Block → Block) : (modBlock s b f).bootReady = s.bootReady := rfl
@[simp] theorem modBlock_meas (b : Nat) (f : Block → Block) : (modBlock s b f).meas = s.meas := rfl
@[simp] theorem modBlock_power (b : Nat) (f : Block → Block) : (modBlock s b f).power = s.power := rfl
@[simp] theorem modBlock_v48 (b : Nat) (f : Block → Block) : (modBlock s b f).v48 = s.v48 := rfl
@[simp] theorem modBlock_aux (b : Nat) (f : Block → Block) : (modBlock s b f).aux = s.aux := rfl
@[simp] theorem modBlock_rasLog (b : Nat) (f : Block → Block) : (modBlock s b f).rasLog = s.rasLog := rfl

/-! ### modChord -/

@[simp] theorem modChord_schedule (c : Nat) (f : Chord → Chord) : (modChord s c f).schedule = s.schedule := rfl
@[simp] theorem modChord_draws (c : Nat) (f : Chord → Chord) : (modChord s c f).draws = s.draws := rfl
@[simp] theorem modChord_cycle (c : Nat) (f : Chord → Chord) : (modChord s c f).cycle = s.cycle := rfl
@[simp] theorem modChord_released (c : Nat) (f : Chord → Chord) : (modChord s c f).released = s.released := rfl
@[simp] theorem modChord_cur (c : Nat) (f : Chord → Chord) : (modChord s c f).cur = s.cur := rfl
@[simp] theorem modChord_undone (c : Nat) (f : Chord → Chord) : (modChord s c f).undone = s.undone := rfl
@[simp] theorem modChord_nextChord (c : Nat) (f : Chord → Chord) : (modChord s c f).nextChord = s.nextChord := rfl
@[simp] theorem modChord_nextCard (c : Nat) (f : Chord → Chord) : (modChord s c f).nextCard = s.nextCard := rfl
@[simp] theorem modChord_nextLaunch (c : Nat) (f : Chord → Chord) : (modChord s c f).nextLaunch = s.nextLaunch := rfl
@[simp] theorem modChord_nextAge (c : Nat) (f : Chord → Chord) : (modChord s c f).nextAge = s.nextAge := rfl
@[simp] theorem modChord_parties (c : Nat) (f : Chord → Chord) : (modChord s c f).parties = s.parties := rfl
@[simp] theorem modChord_blocks (c : Nat) (f : Chord → Chord) : (modChord s c f).blocks = s.blocks := rfl
@[simp] theorem modChord_chords (c : Nat) (f : Chord → Chord) : (modChord s c f).chords = s.chords.modify c f := rfl
@[simp] theorem modChord_cards (c : Nat) (f : Chord → Chord) : (modChord s c f).cards = s.cards := rfl
@[simp] theorem modChord_launches (c : Nat) (f : Chord → Chord) : (modChord s c f).launches = s.launches := rfl
@[simp] theorem modChord_cores (c : Nat) (f : Chord → Chord) : (modChord s c f).cores = s.cores := rfl
@[simp] theorem modChord_clusters (c : Nat) (f : Chord → Chord) : (modChord s c f).clusters = s.clusters := rfl
@[simp] theorem modChord_parts (c : Nat) (f : Chord → Chord) : (modChord s c f).parts = s.parts := rfl
@[simp] theorem modChord_ctxs (c : Nat) (f : Chord → Chord) : (modChord s c f).ctxs = s.ctxs := rfl
@[simp] theorem modChord_mem (c : Nat) (f : Chord → Chord) : (modChord s c f).mem = s.mem := rfl
@[simp] theorem modChord_hist (c : Nat) (f : Chord → Chord) : (modChord s c f).hist = s.hist := rfl
@[simp] theorem modChord_vis (c : Nat) (f : Chord → Chord) : (modChord s c f).vis = s.vis := rfl
@[simp] theorem modChord_nextWrite (c : Nat) (f : Chord → Chord) : (modChord s c f).nextWrite = s.nextWrite := rfl
@[simp] theorem modChord_stamps (c : Nat) (f : Chord → Chord) : (modChord s c f).stamps = s.stamps := rfl
@[simp] theorem modChord_keyGen (c : Nat) (f : Chord → Chord) : (modChord s c f).keyGen = s.keyGen := rfl
@[simp] theorem modChord_owner (c : Nat) (f : Chord → Chord) : (modChord s c f).owner = s.owner := rfl
@[simp] theorem modChord_creator (c : Nat) (f : Chord → Chord) : (modChord s c f).creator = s.creator := rfl
@[simp] theorem modChord_tgPages (c : Nat) (f : Chord → Chord) : (modChord s c f).tgPages = s.tgPages := rfl
@[simp] theorem modChord_poison (c : Nat) (f : Chord → Chord) : (modChord s c f).poison = s.poison := rfl
@[simp] theorem modChord_dropped (c : Nat) (f : Chord → Chord) : (modChord s c f).dropped = s.dropped := rfl
@[simp] theorem modChord_ts (c : Nat) (f : Chord → Chord) : (modChord s c f).ts = s.ts := rfl
@[simp] theorem modChord_locks (c : Nat) (f : Chord → Chord) : (modChord s c f).locks = s.locks := rfl
@[simp] theorem modChord_lockReqs (c : Nat) (f : Chord → Chord) : (modChord s c f).lockReqs = s.lockReqs := rfl
@[simp] theorem modChord_lockStats (c : Nat) (f : Chord → Chord) : (modChord s c f).lockStats = s.lockStats := rfl
@[simp] theorem modChord_probes (c : Nat) (f : Chord → Chord) : (modChord s c f).probes = s.probes := rfl
@[simp] theorem modChord_lockSerial (c : Nat) (f : Chord → Chord) : (modChord s c f).lockSerial = s.lockSerial := rfl
@[simp] theorem modChord_lockTurn (c : Nat) (f : Chord → Chord) : (modChord s c f).lockTurn = s.lockTurn := rfl
@[simp] theorem modChord_dir (c : Nat) (f : Chord → Chord) : (modChord s c f).dir = s.dir := rfl
@[simp] theorem modChord_dirReqs (c : Nat) (f : Chord → Chord) : (modChord s c f).dirReqs = s.dirReqs := rfl
@[simp] theorem modChord_dieLine (c : Nat) (f : Chord → Chord) : (modChord s c f).dieLine = s.dieLine := rfl
@[simp] theorem modChord_sectors (c : Nat) (f : Chord → Chord) : (modChord s c f).sectors = s.sectors := rfl
@[simp] theorem modChord_victims (c : Nat) (f : Chord → Chord) : (modChord s c f).victims = s.victims := rfl
@[simp] theorem modChord_backInvs (c : Nat) (f : Chord → Chord) : (modChord s c f).backInvs = s.backInvs := rfl
@[simp] theorem modChord_dirPtr (c : Nat) (f : Chord → Chord) : (modChord s c f).dirPtr = s.dirPtr := rfl
@[simp] theorem modChord_cols (c : Nat) (f : Chord → Chord) : (modChord s c f).cols = s.cols := rfl
@[simp] theorem modChord_colSerial (c : Nat) (f : Chord → Chord) : (modChord s c f).colSerial = s.colSerial := rfl
@[simp] theorem modChord_remote (c : Nat) (f : Chord → Chord) : (modChord s c f).remote = s.remote := rfl
@[simp] theorem modChord_laneBad (c : Nat) (f : Chord → Chord) : (modChord s c f).laneBad = s.laneBad := rfl
@[simp] theorem modChord_laneSpared (c : Nat) (f : Chord → Chord) : (modChord s c f).laneSpared = s.laneSpared := rfl
@[simp] theorem modChord_linksDown (c : Nat) (f : Chord → Chord) : (modChord s c f).linksDown = s.linksDown := rfl
@[simp] theorem modChord_portsDown (c : Nat) (f : Chord → Chord) : (modChord s c f).portsDown = s.portsDown := rfl
@[simp] theorem modChord_sliceBad (c : Nat) (f : Chord → Chord) : (modChord s c f).sliceBad = s.sliceBad := rfl
@[simp] theorem modChord_quarantined (c : Nat) (f : Chord → Chord) : (modChord s c f).quarantined = s.quarantined := rfl
@[simp] theorem modChord_failedClusters (c : Nat) (f : Chord → Chord) : (modChord s c f).failedClusters = s.failedClusters := rfl
@[simp] theorem modChord_failedSlices (c : Nat) (f : Chord → Chord) : (modChord s c f).failedSlices = s.failedSlices := rfl
@[simp] theorem modChord_regs (c : Nat) (f : Chord → Chord) : (modChord s c f).regs = s.regs := rfl
@[simp] theorem modChord_mbx (c : Nat) (f : Chord → Chord) : (modChord s c f).mbx = s.mbx := rfl
@[simp] theorem modChord_mgmtData (c : Nat) (f : Chord → Chord) : (modChord s c f).mgmtData = s.mgmtData := rfl
@[simp] theorem modChord_hostData (c : Nat) (f : Chord → Chord) : (modChord s c f).hostData = s.hostData := rfl
@[simp] theorem modChord_irq (c : Nat) (f : Chord → Chord) : (modChord s c f).irq = s.irq := rfl
@[simp] theorem modChord_bootStep (c : Nat) (f : Chord → Chord) : (modChord s c f).bootStep = s.bootStep := rfl
@[simp] theorem modChord_bootFail (c : Nat) (f : Chord → Chord) : (modChord s c f).bootFail = s.bootFail := rfl
@[simp] theorem modChord_bootReady (c : Nat) (f : Chord → Chord) : (modChord s c f).bootReady = s.bootReady := rfl
@[simp] theorem modChord_meas (c : Nat) (f : Chord → Chord) : (modChord s c f).meas = s.meas := rfl
@[simp] theorem modChord_power (c : Nat) (f : Chord → Chord) : (modChord s c f).power = s.power := rfl
@[simp] theorem modChord_v48 (c : Nat) (f : Chord → Chord) : (modChord s c f).v48 = s.v48 := rfl
@[simp] theorem modChord_aux (c : Nat) (f : Chord → Chord) : (modChord s c f).aux = s.aux := rfl
@[simp] theorem modChord_rasLog (c : Nat) (f : Chord → Chord) : (modChord s c f).rasLog = s.rasLog := rfl

/-! ### modCard -/

@[simp] theorem modCard_schedule (c : Nat) (f : Card → Card) : (modCard s c f).schedule = s.schedule := rfl
@[simp] theorem modCard_draws (c : Nat) (f : Card → Card) : (modCard s c f).draws = s.draws := rfl
@[simp] theorem modCard_cycle (c : Nat) (f : Card → Card) : (modCard s c f).cycle = s.cycle := rfl
@[simp] theorem modCard_released (c : Nat) (f : Card → Card) : (modCard s c f).released = s.released := rfl
@[simp] theorem modCard_cur (c : Nat) (f : Card → Card) : (modCard s c f).cur = s.cur := rfl
@[simp] theorem modCard_undone (c : Nat) (f : Card → Card) : (modCard s c f).undone = s.undone := rfl
@[simp] theorem modCard_nextChord (c : Nat) (f : Card → Card) : (modCard s c f).nextChord = s.nextChord := rfl
@[simp] theorem modCard_nextCard (c : Nat) (f : Card → Card) : (modCard s c f).nextCard = s.nextCard := rfl
@[simp] theorem modCard_nextLaunch (c : Nat) (f : Card → Card) : (modCard s c f).nextLaunch = s.nextLaunch := rfl
@[simp] theorem modCard_nextAge (c : Nat) (f : Card → Card) : (modCard s c f).nextAge = s.nextAge := rfl
@[simp] theorem modCard_parties (c : Nat) (f : Card → Card) : (modCard s c f).parties = s.parties := rfl
@[simp] theorem modCard_blocks (c : Nat) (f : Card → Card) : (modCard s c f).blocks = s.blocks := rfl
@[simp] theorem modCard_chords (c : Nat) (f : Card → Card) : (modCard s c f).chords = s.chords := rfl
@[simp] theorem modCard_cards (c : Nat) (f : Card → Card) : (modCard s c f).cards = s.cards.modify c f := rfl
@[simp] theorem modCard_launches (c : Nat) (f : Card → Card) : (modCard s c f).launches = s.launches := rfl
@[simp] theorem modCard_cores (c : Nat) (f : Card → Card) : (modCard s c f).cores = s.cores := rfl
@[simp] theorem modCard_clusters (c : Nat) (f : Card → Card) : (modCard s c f).clusters = s.clusters := rfl
@[simp] theorem modCard_parts (c : Nat) (f : Card → Card) : (modCard s c f).parts = s.parts := rfl
@[simp] theorem modCard_ctxs (c : Nat) (f : Card → Card) : (modCard s c f).ctxs = s.ctxs := rfl
@[simp] theorem modCard_mem (c : Nat) (f : Card → Card) : (modCard s c f).mem = s.mem := rfl
@[simp] theorem modCard_hist (c : Nat) (f : Card → Card) : (modCard s c f).hist = s.hist := rfl
@[simp] theorem modCard_vis (c : Nat) (f : Card → Card) : (modCard s c f).vis = s.vis := rfl
@[simp] theorem modCard_nextWrite (c : Nat) (f : Card → Card) : (modCard s c f).nextWrite = s.nextWrite := rfl
@[simp] theorem modCard_stamps (c : Nat) (f : Card → Card) : (modCard s c f).stamps = s.stamps := rfl
@[simp] theorem modCard_keyGen (c : Nat) (f : Card → Card) : (modCard s c f).keyGen = s.keyGen := rfl
@[simp] theorem modCard_owner (c : Nat) (f : Card → Card) : (modCard s c f).owner = s.owner := rfl
@[simp] theorem modCard_creator (c : Nat) (f : Card → Card) : (modCard s c f).creator = s.creator := rfl
@[simp] theorem modCard_tgPages (c : Nat) (f : Card → Card) : (modCard s c f).tgPages = s.tgPages := rfl
@[simp] theorem modCard_poison (c : Nat) (f : Card → Card) : (modCard s c f).poison = s.poison := rfl
@[simp] theorem modCard_dropped (c : Nat) (f : Card → Card) : (modCard s c f).dropped = s.dropped := rfl
@[simp] theorem modCard_ts (c : Nat) (f : Card → Card) : (modCard s c f).ts = s.ts := rfl
@[simp] theorem modCard_locks (c : Nat) (f : Card → Card) : (modCard s c f).locks = s.locks := rfl
@[simp] theorem modCard_lockReqs (c : Nat) (f : Card → Card) : (modCard s c f).lockReqs = s.lockReqs := rfl
@[simp] theorem modCard_lockStats (c : Nat) (f : Card → Card) : (modCard s c f).lockStats = s.lockStats := rfl
@[simp] theorem modCard_probes (c : Nat) (f : Card → Card) : (modCard s c f).probes = s.probes := rfl
@[simp] theorem modCard_lockSerial (c : Nat) (f : Card → Card) : (modCard s c f).lockSerial = s.lockSerial := rfl
@[simp] theorem modCard_lockTurn (c : Nat) (f : Card → Card) : (modCard s c f).lockTurn = s.lockTurn := rfl
@[simp] theorem modCard_dir (c : Nat) (f : Card → Card) : (modCard s c f).dir = s.dir := rfl
@[simp] theorem modCard_dirReqs (c : Nat) (f : Card → Card) : (modCard s c f).dirReqs = s.dirReqs := rfl
@[simp] theorem modCard_dieLine (c : Nat) (f : Card → Card) : (modCard s c f).dieLine = s.dieLine := rfl
@[simp] theorem modCard_sectors (c : Nat) (f : Card → Card) : (modCard s c f).sectors = s.sectors := rfl
@[simp] theorem modCard_victims (c : Nat) (f : Card → Card) : (modCard s c f).victims = s.victims := rfl
@[simp] theorem modCard_backInvs (c : Nat) (f : Card → Card) : (modCard s c f).backInvs = s.backInvs := rfl
@[simp] theorem modCard_dirPtr (c : Nat) (f : Card → Card) : (modCard s c f).dirPtr = s.dirPtr := rfl
@[simp] theorem modCard_cols (c : Nat) (f : Card → Card) : (modCard s c f).cols = s.cols := rfl
@[simp] theorem modCard_colSerial (c : Nat) (f : Card → Card) : (modCard s c f).colSerial = s.colSerial := rfl
@[simp] theorem modCard_remote (c : Nat) (f : Card → Card) : (modCard s c f).remote = s.remote := rfl
@[simp] theorem modCard_laneBad (c : Nat) (f : Card → Card) : (modCard s c f).laneBad = s.laneBad := rfl
@[simp] theorem modCard_laneSpared (c : Nat) (f : Card → Card) : (modCard s c f).laneSpared = s.laneSpared := rfl
@[simp] theorem modCard_linksDown (c : Nat) (f : Card → Card) : (modCard s c f).linksDown = s.linksDown := rfl
@[simp] theorem modCard_portsDown (c : Nat) (f : Card → Card) : (modCard s c f).portsDown = s.portsDown := rfl
@[simp] theorem modCard_sliceBad (c : Nat) (f : Card → Card) : (modCard s c f).sliceBad = s.sliceBad := rfl
@[simp] theorem modCard_quarantined (c : Nat) (f : Card → Card) : (modCard s c f).quarantined = s.quarantined := rfl
@[simp] theorem modCard_failedClusters (c : Nat) (f : Card → Card) : (modCard s c f).failedClusters = s.failedClusters := rfl
@[simp] theorem modCard_failedSlices (c : Nat) (f : Card → Card) : (modCard s c f).failedSlices = s.failedSlices := rfl
@[simp] theorem modCard_regs (c : Nat) (f : Card → Card) : (modCard s c f).regs = s.regs := rfl
@[simp] theorem modCard_mbx (c : Nat) (f : Card → Card) : (modCard s c f).mbx = s.mbx := rfl
@[simp] theorem modCard_mgmtData (c : Nat) (f : Card → Card) : (modCard s c f).mgmtData = s.mgmtData := rfl
@[simp] theorem modCard_hostData (c : Nat) (f : Card → Card) : (modCard s c f).hostData = s.hostData := rfl
@[simp] theorem modCard_irq (c : Nat) (f : Card → Card) : (modCard s c f).irq = s.irq := rfl
@[simp] theorem modCard_bootStep (c : Nat) (f : Card → Card) : (modCard s c f).bootStep = s.bootStep := rfl
@[simp] theorem modCard_bootFail (c : Nat) (f : Card → Card) : (modCard s c f).bootFail = s.bootFail := rfl
@[simp] theorem modCard_bootReady (c : Nat) (f : Card → Card) : (modCard s c f).bootReady = s.bootReady := rfl
@[simp] theorem modCard_meas (c : Nat) (f : Card → Card) : (modCard s c f).meas = s.meas := rfl
@[simp] theorem modCard_power (c : Nat) (f : Card → Card) : (modCard s c f).power = s.power := rfl
@[simp] theorem modCard_v48 (c : Nat) (f : Card → Card) : (modCard s c f).v48 = s.v48 := rfl
@[simp] theorem modCard_aux (c : Nat) (f : Card → Card) : (modCard s c f).aux = s.aux := rfl
@[simp] theorem modCard_rasLog (c : Nat) (f : Card → Card) : (modCard s c f).rasLog = s.rasLog := rfl

/-! ### modLaunch -/

@[simp] theorem modLaunch_schedule (l : Nat) (f : Launch → Launch) : (modLaunch s l f).schedule = s.schedule := rfl
@[simp] theorem modLaunch_draws (l : Nat) (f : Launch → Launch) : (modLaunch s l f).draws = s.draws := rfl
@[simp] theorem modLaunch_cycle (l : Nat) (f : Launch → Launch) : (modLaunch s l f).cycle = s.cycle := rfl
@[simp] theorem modLaunch_released (l : Nat) (f : Launch → Launch) : (modLaunch s l f).released = s.released := rfl
@[simp] theorem modLaunch_cur (l : Nat) (f : Launch → Launch) : (modLaunch s l f).cur = s.cur := rfl
@[simp] theorem modLaunch_undone (l : Nat) (f : Launch → Launch) : (modLaunch s l f).undone = s.undone := rfl
@[simp] theorem modLaunch_nextChord (l : Nat) (f : Launch → Launch) : (modLaunch s l f).nextChord = s.nextChord := rfl
@[simp] theorem modLaunch_nextCard (l : Nat) (f : Launch → Launch) : (modLaunch s l f).nextCard = s.nextCard := rfl
@[simp] theorem modLaunch_nextLaunch (l : Nat) (f : Launch → Launch) : (modLaunch s l f).nextLaunch = s.nextLaunch := rfl
@[simp] theorem modLaunch_nextAge (l : Nat) (f : Launch → Launch) : (modLaunch s l f).nextAge = s.nextAge := rfl
@[simp] theorem modLaunch_parties (l : Nat) (f : Launch → Launch) : (modLaunch s l f).parties = s.parties := rfl
@[simp] theorem modLaunch_blocks (l : Nat) (f : Launch → Launch) : (modLaunch s l f).blocks = s.blocks := rfl
@[simp] theorem modLaunch_chords (l : Nat) (f : Launch → Launch) : (modLaunch s l f).chords = s.chords := rfl
@[simp] theorem modLaunch_cards (l : Nat) (f : Launch → Launch) : (modLaunch s l f).cards = s.cards := rfl
@[simp] theorem modLaunch_launches (l : Nat) (f : Launch → Launch) : (modLaunch s l f).launches = s.launches.modify l f := rfl
@[simp] theorem modLaunch_cores (l : Nat) (f : Launch → Launch) : (modLaunch s l f).cores = s.cores := rfl
@[simp] theorem modLaunch_clusters (l : Nat) (f : Launch → Launch) : (modLaunch s l f).clusters = s.clusters := rfl
@[simp] theorem modLaunch_parts (l : Nat) (f : Launch → Launch) : (modLaunch s l f).parts = s.parts := rfl
@[simp] theorem modLaunch_ctxs (l : Nat) (f : Launch → Launch) : (modLaunch s l f).ctxs = s.ctxs := rfl
@[simp] theorem modLaunch_mem (l : Nat) (f : Launch → Launch) : (modLaunch s l f).mem = s.mem := rfl
@[simp] theorem modLaunch_hist (l : Nat) (f : Launch → Launch) : (modLaunch s l f).hist = s.hist := rfl
@[simp] theorem modLaunch_vis (l : Nat) (f : Launch → Launch) : (modLaunch s l f).vis = s.vis := rfl
@[simp] theorem modLaunch_nextWrite (l : Nat) (f : Launch → Launch) : (modLaunch s l f).nextWrite = s.nextWrite := rfl
@[simp] theorem modLaunch_stamps (l : Nat) (f : Launch → Launch) : (modLaunch s l f).stamps = s.stamps := rfl
@[simp] theorem modLaunch_keyGen (l : Nat) (f : Launch → Launch) : (modLaunch s l f).keyGen = s.keyGen := rfl
@[simp] theorem modLaunch_owner (l : Nat) (f : Launch → Launch) : (modLaunch s l f).owner = s.owner := rfl
@[simp] theorem modLaunch_creator (l : Nat) (f : Launch → Launch) : (modLaunch s l f).creator = s.creator := rfl
@[simp] theorem modLaunch_tgPages (l : Nat) (f : Launch → Launch) : (modLaunch s l f).tgPages = s.tgPages := rfl
@[simp] theorem modLaunch_poison (l : Nat) (f : Launch → Launch) : (modLaunch s l f).poison = s.poison := rfl
@[simp] theorem modLaunch_dropped (l : Nat) (f : Launch → Launch) : (modLaunch s l f).dropped = s.dropped := rfl
@[simp] theorem modLaunch_ts (l : Nat) (f : Launch → Launch) : (modLaunch s l f).ts = s.ts := rfl
@[simp] theorem modLaunch_locks (l : Nat) (f : Launch → Launch) : (modLaunch s l f).locks = s.locks := rfl
@[simp] theorem modLaunch_lockReqs (l : Nat) (f : Launch → Launch) : (modLaunch s l f).lockReqs = s.lockReqs := rfl
@[simp] theorem modLaunch_lockStats (l : Nat) (f : Launch → Launch) : (modLaunch s l f).lockStats = s.lockStats := rfl
@[simp] theorem modLaunch_probes (l : Nat) (f : Launch → Launch) : (modLaunch s l f).probes = s.probes := rfl
@[simp] theorem modLaunch_lockSerial (l : Nat) (f : Launch → Launch) : (modLaunch s l f).lockSerial = s.lockSerial := rfl
@[simp] theorem modLaunch_lockTurn (l : Nat) (f : Launch → Launch) : (modLaunch s l f).lockTurn = s.lockTurn := rfl
@[simp] theorem modLaunch_dir (l : Nat) (f : Launch → Launch) : (modLaunch s l f).dir = s.dir := rfl
@[simp] theorem modLaunch_dirReqs (l : Nat) (f : Launch → Launch) : (modLaunch s l f).dirReqs = s.dirReqs := rfl
@[simp] theorem modLaunch_dieLine (l : Nat) (f : Launch → Launch) : (modLaunch s l f).dieLine = s.dieLine := rfl
@[simp] theorem modLaunch_sectors (l : Nat) (f : Launch → Launch) : (modLaunch s l f).sectors = s.sectors := rfl
@[simp] theorem modLaunch_victims (l : Nat) (f : Launch → Launch) : (modLaunch s l f).victims = s.victims := rfl
@[simp] theorem modLaunch_backInvs (l : Nat) (f : Launch → Launch) : (modLaunch s l f).backInvs = s.backInvs := rfl
@[simp] theorem modLaunch_dirPtr (l : Nat) (f : Launch → Launch) : (modLaunch s l f).dirPtr = s.dirPtr := rfl
@[simp] theorem modLaunch_cols (l : Nat) (f : Launch → Launch) : (modLaunch s l f).cols = s.cols := rfl
@[simp] theorem modLaunch_colSerial (l : Nat) (f : Launch → Launch) : (modLaunch s l f).colSerial = s.colSerial := rfl
@[simp] theorem modLaunch_remote (l : Nat) (f : Launch → Launch) : (modLaunch s l f).remote = s.remote := rfl
@[simp] theorem modLaunch_laneBad (l : Nat) (f : Launch → Launch) : (modLaunch s l f).laneBad = s.laneBad := rfl
@[simp] theorem modLaunch_laneSpared (l : Nat) (f : Launch → Launch) : (modLaunch s l f).laneSpared = s.laneSpared := rfl
@[simp] theorem modLaunch_linksDown (l : Nat) (f : Launch → Launch) : (modLaunch s l f).linksDown = s.linksDown := rfl
@[simp] theorem modLaunch_portsDown (l : Nat) (f : Launch → Launch) : (modLaunch s l f).portsDown = s.portsDown := rfl
@[simp] theorem modLaunch_sliceBad (l : Nat) (f : Launch → Launch) : (modLaunch s l f).sliceBad = s.sliceBad := rfl
@[simp] theorem modLaunch_quarantined (l : Nat) (f : Launch → Launch) : (modLaunch s l f).quarantined = s.quarantined := rfl
@[simp] theorem modLaunch_failedClusters (l : Nat) (f : Launch → Launch) : (modLaunch s l f).failedClusters = s.failedClusters := rfl
@[simp] theorem modLaunch_failedSlices (l : Nat) (f : Launch → Launch) : (modLaunch s l f).failedSlices = s.failedSlices := rfl
@[simp] theorem modLaunch_regs (l : Nat) (f : Launch → Launch) : (modLaunch s l f).regs = s.regs := rfl
@[simp] theorem modLaunch_mbx (l : Nat) (f : Launch → Launch) : (modLaunch s l f).mbx = s.mbx := rfl
@[simp] theorem modLaunch_mgmtData (l : Nat) (f : Launch → Launch) : (modLaunch s l f).mgmtData = s.mgmtData := rfl
@[simp] theorem modLaunch_hostData (l : Nat) (f : Launch → Launch) : (modLaunch s l f).hostData = s.hostData := rfl
@[simp] theorem modLaunch_irq (l : Nat) (f : Launch → Launch) : (modLaunch s l f).irq = s.irq := rfl
@[simp] theorem modLaunch_bootStep (l : Nat) (f : Launch → Launch) : (modLaunch s l f).bootStep = s.bootStep := rfl
@[simp] theorem modLaunch_bootFail (l : Nat) (f : Launch → Launch) : (modLaunch s l f).bootFail = s.bootFail := rfl
@[simp] theorem modLaunch_bootReady (l : Nat) (f : Launch → Launch) : (modLaunch s l f).bootReady = s.bootReady := rfl
@[simp] theorem modLaunch_meas (l : Nat) (f : Launch → Launch) : (modLaunch s l f).meas = s.meas := rfl
@[simp] theorem modLaunch_power (l : Nat) (f : Launch → Launch) : (modLaunch s l f).power = s.power := rfl
@[simp] theorem modLaunch_v48 (l : Nat) (f : Launch → Launch) : (modLaunch s l f).v48 = s.v48 := rfl
@[simp] theorem modLaunch_aux (l : Nat) (f : Launch → Launch) : (modLaunch s l f).aux = s.aux := rfl
@[simp] theorem modLaunch_rasLog (l : Nat) (f : Launch → Launch) : (modLaunch s l f).rasLog = s.rasLog := rfl

/-! ### setLock -/

@[simp] theorem setLock_schedule (l : Nat) (r : LockRec) : (setLock s l r).schedule = s.schedule := rfl
@[simp] theorem setLock_draws (l : Nat) (r : LockRec) : (setLock s l r).draws = s.draws := rfl
@[simp] theorem setLock_cycle (l : Nat) (r : LockRec) : (setLock s l r).cycle = s.cycle := rfl
@[simp] theorem setLock_released (l : Nat) (r : LockRec) : (setLock s l r).released = s.released := rfl
@[simp] theorem setLock_cur (l : Nat) (r : LockRec) : (setLock s l r).cur = s.cur := rfl
@[simp] theorem setLock_undone (l : Nat) (r : LockRec) : (setLock s l r).undone = s.undone := rfl
@[simp] theorem setLock_nextChord (l : Nat) (r : LockRec) : (setLock s l r).nextChord = s.nextChord := rfl
@[simp] theorem setLock_nextCard (l : Nat) (r : LockRec) : (setLock s l r).nextCard = s.nextCard := rfl
@[simp] theorem setLock_nextLaunch (l : Nat) (r : LockRec) : (setLock s l r).nextLaunch = s.nextLaunch := rfl
@[simp] theorem setLock_nextAge (l : Nat) (r : LockRec) : (setLock s l r).nextAge = s.nextAge := rfl
@[simp] theorem setLock_parties (l : Nat) (r : LockRec) : (setLock s l r).parties = s.parties := rfl
@[simp] theorem setLock_blocks (l : Nat) (r : LockRec) : (setLock s l r).blocks = s.blocks := rfl
@[simp] theorem setLock_chords (l : Nat) (r : LockRec) : (setLock s l r).chords = s.chords := rfl
@[simp] theorem setLock_cards (l : Nat) (r : LockRec) : (setLock s l r).cards = s.cards := rfl
@[simp] theorem setLock_launches (l : Nat) (r : LockRec) : (setLock s l r).launches = s.launches := rfl
@[simp] theorem setLock_cores (l : Nat) (r : LockRec) : (setLock s l r).cores = s.cores := rfl
@[simp] theorem setLock_clusters (l : Nat) (r : LockRec) : (setLock s l r).clusters = s.clusters := rfl
@[simp] theorem setLock_parts (l : Nat) (r : LockRec) : (setLock s l r).parts = s.parts := rfl
@[simp] theorem setLock_ctxs (l : Nat) (r : LockRec) : (setLock s l r).ctxs = s.ctxs := rfl
@[simp] theorem setLock_mem (l : Nat) (r : LockRec) : (setLock s l r).mem = s.mem := rfl
@[simp] theorem setLock_hist (l : Nat) (r : LockRec) : (setLock s l r).hist = s.hist := rfl
@[simp] theorem setLock_vis (l : Nat) (r : LockRec) : (setLock s l r).vis = s.vis := rfl
@[simp] theorem setLock_nextWrite (l : Nat) (r : LockRec) : (setLock s l r).nextWrite = s.nextWrite := rfl
@[simp] theorem setLock_stamps (l : Nat) (r : LockRec) : (setLock s l r).stamps = s.stamps := rfl
@[simp] theorem setLock_keyGen (l : Nat) (r : LockRec) : (setLock s l r).keyGen = s.keyGen := rfl
@[simp] theorem setLock_owner (l : Nat) (r : LockRec) : (setLock s l r).owner = s.owner := rfl
@[simp] theorem setLock_creator (l : Nat) (r : LockRec) : (setLock s l r).creator = s.creator := rfl
@[simp] theorem setLock_tgPages (l : Nat) (r : LockRec) : (setLock s l r).tgPages = s.tgPages := rfl
@[simp] theorem setLock_poison (l : Nat) (r : LockRec) : (setLock s l r).poison = s.poison := rfl
@[simp] theorem setLock_dropped (l : Nat) (r : LockRec) : (setLock s l r).dropped = s.dropped := rfl
@[simp] theorem setLock_ts (l : Nat) (r : LockRec) : (setLock s l r).ts = s.ts := rfl
@[simp] theorem setLock_locks (l : Nat) (r : LockRec) : (setLock s l r).locks = s.locks.insert l r := rfl
@[simp] theorem setLock_lockReqs (l : Nat) (r : LockRec) : (setLock s l r).lockReqs = s.lockReqs := rfl
@[simp] theorem setLock_lockStats (l : Nat) (r : LockRec) : (setLock s l r).lockStats = s.lockStats := rfl
@[simp] theorem setLock_probes (l : Nat) (r : LockRec) : (setLock s l r).probes = s.probes := rfl
@[simp] theorem setLock_lockSerial (l : Nat) (r : LockRec) : (setLock s l r).lockSerial = s.lockSerial := rfl
@[simp] theorem setLock_lockTurn (l : Nat) (r : LockRec) : (setLock s l r).lockTurn = s.lockTurn := rfl
@[simp] theorem setLock_dir (l : Nat) (r : LockRec) : (setLock s l r).dir = s.dir := rfl
@[simp] theorem setLock_dirReqs (l : Nat) (r : LockRec) : (setLock s l r).dirReqs = s.dirReqs := rfl
@[simp] theorem setLock_dieLine (l : Nat) (r : LockRec) : (setLock s l r).dieLine = s.dieLine := rfl
@[simp] theorem setLock_sectors (l : Nat) (r : LockRec) : (setLock s l r).sectors = s.sectors := rfl
@[simp] theorem setLock_victims (l : Nat) (r : LockRec) : (setLock s l r).victims = s.victims := rfl
@[simp] theorem setLock_backInvs (l : Nat) (r : LockRec) : (setLock s l r).backInvs = s.backInvs := rfl
@[simp] theorem setLock_dirPtr (l : Nat) (r : LockRec) : (setLock s l r).dirPtr = s.dirPtr := rfl
@[simp] theorem setLock_cols (l : Nat) (r : LockRec) : (setLock s l r).cols = s.cols := rfl
@[simp] theorem setLock_colSerial (l : Nat) (r : LockRec) : (setLock s l r).colSerial = s.colSerial := rfl
@[simp] theorem setLock_remote (l : Nat) (r : LockRec) : (setLock s l r).remote = s.remote := rfl
@[simp] theorem setLock_laneBad (l : Nat) (r : LockRec) : (setLock s l r).laneBad = s.laneBad := rfl
@[simp] theorem setLock_laneSpared (l : Nat) (r : LockRec) : (setLock s l r).laneSpared = s.laneSpared := rfl
@[simp] theorem setLock_linksDown (l : Nat) (r : LockRec) : (setLock s l r).linksDown = s.linksDown := rfl
@[simp] theorem setLock_portsDown (l : Nat) (r : LockRec) : (setLock s l r).portsDown = s.portsDown := rfl
@[simp] theorem setLock_sliceBad (l : Nat) (r : LockRec) : (setLock s l r).sliceBad = s.sliceBad := rfl
@[simp] theorem setLock_quarantined (l : Nat) (r : LockRec) : (setLock s l r).quarantined = s.quarantined := rfl
@[simp] theorem setLock_failedClusters (l : Nat) (r : LockRec) : (setLock s l r).failedClusters = s.failedClusters := rfl
@[simp] theorem setLock_failedSlices (l : Nat) (r : LockRec) : (setLock s l r).failedSlices = s.failedSlices := rfl
@[simp] theorem setLock_regs (l : Nat) (r : LockRec) : (setLock s l r).regs = s.regs := rfl
@[simp] theorem setLock_mbx (l : Nat) (r : LockRec) : (setLock s l r).mbx = s.mbx := rfl
@[simp] theorem setLock_mgmtData (l : Nat) (r : LockRec) : (setLock s l r).mgmtData = s.mgmtData := rfl
@[simp] theorem setLock_hostData (l : Nat) (r : LockRec) : (setLock s l r).hostData = s.hostData := rfl
@[simp] theorem setLock_irq (l : Nat) (r : LockRec) : (setLock s l r).irq = s.irq := rfl
@[simp] theorem setLock_bootStep (l : Nat) (r : LockRec) : (setLock s l r).bootStep = s.bootStep := rfl
@[simp] theorem setLock_bootFail (l : Nat) (r : LockRec) : (setLock s l r).bootFail = s.bootFail := rfl
@[simp] theorem setLock_bootReady (l : Nat) (r : LockRec) : (setLock s l r).bootReady = s.bootReady := rfl
@[simp] theorem setLock_meas (l : Nat) (r : LockRec) : (setLock s l r).meas = s.meas := rfl
@[simp] theorem setLock_power (l : Nat) (r : LockRec) : (setLock s l r).power = s.power := rfl
@[simp] theorem setLock_v48 (l : Nat) (r : LockRec) : (setLock s l r).v48 = s.v48 := rfl
@[simp] theorem setLock_aux (l : Nat) (r : LockRec) : (setLock s l r).aux = s.aux := rfl
@[simp] theorem setLock_rasLog (l : Nat) (r : LockRec) : (setLock s l r).rasLog = s.rasLog := rfl

/-! ### dropLock -/

@[simp] theorem dropLock_schedule (l : Nat) : (dropLock s l).schedule = s.schedule := rfl
@[simp] theorem dropLock_draws (l : Nat) : (dropLock s l).draws = s.draws := rfl
@[simp] theorem dropLock_cycle (l : Nat) : (dropLock s l).cycle = s.cycle := rfl
@[simp] theorem dropLock_released (l : Nat) : (dropLock s l).released = s.released := rfl
@[simp] theorem dropLock_cur (l : Nat) : (dropLock s l).cur = s.cur := rfl
@[simp] theorem dropLock_undone (l : Nat) : (dropLock s l).undone = s.undone := rfl
@[simp] theorem dropLock_nextChord (l : Nat) : (dropLock s l).nextChord = s.nextChord := rfl
@[simp] theorem dropLock_nextCard (l : Nat) : (dropLock s l).nextCard = s.nextCard := rfl
@[simp] theorem dropLock_nextLaunch (l : Nat) : (dropLock s l).nextLaunch = s.nextLaunch := rfl
@[simp] theorem dropLock_nextAge (l : Nat) : (dropLock s l).nextAge = s.nextAge := rfl
@[simp] theorem dropLock_parties (l : Nat) : (dropLock s l).parties = s.parties := rfl
@[simp] theorem dropLock_blocks (l : Nat) : (dropLock s l).blocks = s.blocks := rfl
@[simp] theorem dropLock_chords (l : Nat) : (dropLock s l).chords = s.chords := rfl
@[simp] theorem dropLock_cards (l : Nat) : (dropLock s l).cards = s.cards := rfl
@[simp] theorem dropLock_launches (l : Nat) : (dropLock s l).launches = s.launches := rfl
@[simp] theorem dropLock_cores (l : Nat) : (dropLock s l).cores = s.cores := rfl
@[simp] theorem dropLock_clusters (l : Nat) : (dropLock s l).clusters = s.clusters := rfl
@[simp] theorem dropLock_parts (l : Nat) : (dropLock s l).parts = s.parts := rfl
@[simp] theorem dropLock_ctxs (l : Nat) : (dropLock s l).ctxs = s.ctxs := rfl
@[simp] theorem dropLock_mem (l : Nat) : (dropLock s l).mem = s.mem := rfl
@[simp] theorem dropLock_hist (l : Nat) : (dropLock s l).hist = s.hist := rfl
@[simp] theorem dropLock_vis (l : Nat) : (dropLock s l).vis = s.vis := rfl
@[simp] theorem dropLock_nextWrite (l : Nat) : (dropLock s l).nextWrite = s.nextWrite := rfl
@[simp] theorem dropLock_stamps (l : Nat) : (dropLock s l).stamps = s.stamps := rfl
@[simp] theorem dropLock_keyGen (l : Nat) : (dropLock s l).keyGen = s.keyGen := rfl
@[simp] theorem dropLock_owner (l : Nat) : (dropLock s l).owner = s.owner := rfl
@[simp] theorem dropLock_creator (l : Nat) : (dropLock s l).creator = s.creator := rfl
@[simp] theorem dropLock_tgPages (l : Nat) : (dropLock s l).tgPages = s.tgPages := rfl
@[simp] theorem dropLock_poison (l : Nat) : (dropLock s l).poison = s.poison := rfl
@[simp] theorem dropLock_dropped (l : Nat) : (dropLock s l).dropped = s.dropped := rfl
@[simp] theorem dropLock_ts (l : Nat) : (dropLock s l).ts = s.ts := rfl
@[simp] theorem dropLock_locks (l : Nat) : (dropLock s l).locks = s.locks.erase l := rfl
@[simp] theorem dropLock_lockReqs (l : Nat) : (dropLock s l).lockReqs = s.lockReqs := rfl
@[simp] theorem dropLock_lockStats (l : Nat) : (dropLock s l).lockStats = s.lockStats := rfl
@[simp] theorem dropLock_probes (l : Nat) : (dropLock s l).probes = s.probes := rfl
@[simp] theorem dropLock_lockSerial (l : Nat) : (dropLock s l).lockSerial = s.lockSerial := rfl
@[simp] theorem dropLock_lockTurn (l : Nat) : (dropLock s l).lockTurn = s.lockTurn := rfl
@[simp] theorem dropLock_dir (l : Nat) : (dropLock s l).dir = s.dir := rfl
@[simp] theorem dropLock_dirReqs (l : Nat) : (dropLock s l).dirReqs = s.dirReqs := rfl
@[simp] theorem dropLock_dieLine (l : Nat) : (dropLock s l).dieLine = s.dieLine := rfl
@[simp] theorem dropLock_sectors (l : Nat) : (dropLock s l).sectors = s.sectors := rfl
@[simp] theorem dropLock_victims (l : Nat) : (dropLock s l).victims = s.victims := rfl
@[simp] theorem dropLock_backInvs (l : Nat) : (dropLock s l).backInvs = s.backInvs := rfl
@[simp] theorem dropLock_dirPtr (l : Nat) : (dropLock s l).dirPtr = s.dirPtr := rfl
@[simp] theorem dropLock_cols (l : Nat) : (dropLock s l).cols = s.cols := rfl
@[simp] theorem dropLock_colSerial (l : Nat) : (dropLock s l).colSerial = s.colSerial := rfl
@[simp] theorem dropLock_remote (l : Nat) : (dropLock s l).remote = s.remote := rfl
@[simp] theorem dropLock_laneBad (l : Nat) : (dropLock s l).laneBad = s.laneBad := rfl
@[simp] theorem dropLock_laneSpared (l : Nat) : (dropLock s l).laneSpared = s.laneSpared := rfl
@[simp] theorem dropLock_linksDown (l : Nat) : (dropLock s l).linksDown = s.linksDown := rfl
@[simp] theorem dropLock_portsDown (l : Nat) : (dropLock s l).portsDown = s.portsDown := rfl
@[simp] theorem dropLock_sliceBad (l : Nat) : (dropLock s l).sliceBad = s.sliceBad := rfl
@[simp] theorem dropLock_quarantined (l : Nat) : (dropLock s l).quarantined = s.quarantined := rfl
@[simp] theorem dropLock_failedClusters (l : Nat) : (dropLock s l).failedClusters = s.failedClusters := rfl
@[simp] theorem dropLock_failedSlices (l : Nat) : (dropLock s l).failedSlices = s.failedSlices := rfl
@[simp] theorem dropLock_regs (l : Nat) : (dropLock s l).regs = s.regs := rfl
@[simp] theorem dropLock_mbx (l : Nat) : (dropLock s l).mbx = s.mbx := rfl
@[simp] theorem dropLock_mgmtData (l : Nat) : (dropLock s l).mgmtData = s.mgmtData := rfl
@[simp] theorem dropLock_hostData (l : Nat) : (dropLock s l).hostData = s.hostData := rfl
@[simp] theorem dropLock_irq (l : Nat) : (dropLock s l).irq = s.irq := rfl
@[simp] theorem dropLock_bootStep (l : Nat) : (dropLock s l).bootStep = s.bootStep := rfl
@[simp] theorem dropLock_bootFail (l : Nat) : (dropLock s l).bootFail = s.bootFail := rfl
@[simp] theorem dropLock_bootReady (l : Nat) : (dropLock s l).bootReady = s.bootReady := rfl
@[simp] theorem dropLock_meas (l : Nat) : (dropLock s l).meas = s.meas := rfl
@[simp] theorem dropLock_power (l : Nat) : (dropLock s l).power = s.power := rfl
@[simp] theorem dropLock_v48 (l : Nat) : (dropLock s l).v48 = s.v48 := rfl
@[simp] theorem dropLock_aux (l : Nat) : (dropLock s l).aux = s.aux := rfl
@[simp] theorem dropLock_rasLog (l : Nat) : (dropLock s l).rasLog = s.rasLog := rfl

/-! ### setRegs -/

@[simp] theorem setRegs_schedule (f : Regs → Regs) : (setRegs s f).schedule = s.schedule := rfl
@[simp] theorem setRegs_draws (f : Regs → Regs) : (setRegs s f).draws = s.draws := rfl
@[simp] theorem setRegs_cycle (f : Regs → Regs) : (setRegs s f).cycle = s.cycle := rfl
@[simp] theorem setRegs_released (f : Regs → Regs) : (setRegs s f).released = s.released := rfl
@[simp] theorem setRegs_cur (f : Regs → Regs) : (setRegs s f).cur = s.cur := rfl
@[simp] theorem setRegs_undone (f : Regs → Regs) : (setRegs s f).undone = s.undone := rfl
@[simp] theorem setRegs_nextChord (f : Regs → Regs) : (setRegs s f).nextChord = s.nextChord := rfl
@[simp] theorem setRegs_nextCard (f : Regs → Regs) : (setRegs s f).nextCard = s.nextCard := rfl
@[simp] theorem setRegs_nextLaunch (f : Regs → Regs) : (setRegs s f).nextLaunch = s.nextLaunch := rfl
@[simp] theorem setRegs_nextAge (f : Regs → Regs) : (setRegs s f).nextAge = s.nextAge := rfl
@[simp] theorem setRegs_parties (f : Regs → Regs) : (setRegs s f).parties = s.parties := rfl
@[simp] theorem setRegs_blocks (f : Regs → Regs) : (setRegs s f).blocks = s.blocks := rfl
@[simp] theorem setRegs_chords (f : Regs → Regs) : (setRegs s f).chords = s.chords := rfl
@[simp] theorem setRegs_cards (f : Regs → Regs) : (setRegs s f).cards = s.cards := rfl
@[simp] theorem setRegs_launches (f : Regs → Regs) : (setRegs s f).launches = s.launches := rfl
@[simp] theorem setRegs_cores (f : Regs → Regs) : (setRegs s f).cores = s.cores := rfl
@[simp] theorem setRegs_clusters (f : Regs → Regs) : (setRegs s f).clusters = s.clusters := rfl
@[simp] theorem setRegs_parts (f : Regs → Regs) : (setRegs s f).parts = s.parts := rfl
@[simp] theorem setRegs_ctxs (f : Regs → Regs) : (setRegs s f).ctxs = s.ctxs := rfl
@[simp] theorem setRegs_mem (f : Regs → Regs) : (setRegs s f).mem = s.mem := rfl
@[simp] theorem setRegs_hist (f : Regs → Regs) : (setRegs s f).hist = s.hist := rfl
@[simp] theorem setRegs_vis (f : Regs → Regs) : (setRegs s f).vis = s.vis := rfl
@[simp] theorem setRegs_nextWrite (f : Regs → Regs) : (setRegs s f).nextWrite = s.nextWrite := rfl
@[simp] theorem setRegs_stamps (f : Regs → Regs) : (setRegs s f).stamps = s.stamps := rfl
@[simp] theorem setRegs_keyGen (f : Regs → Regs) : (setRegs s f).keyGen = s.keyGen := rfl
@[simp] theorem setRegs_owner (f : Regs → Regs) : (setRegs s f).owner = s.owner := rfl
@[simp] theorem setRegs_creator (f : Regs → Regs) : (setRegs s f).creator = s.creator := rfl
@[simp] theorem setRegs_tgPages (f : Regs → Regs) : (setRegs s f).tgPages = s.tgPages := rfl
@[simp] theorem setRegs_poison (f : Regs → Regs) : (setRegs s f).poison = s.poison := rfl
@[simp] theorem setRegs_dropped (f : Regs → Regs) : (setRegs s f).dropped = s.dropped := rfl
@[simp] theorem setRegs_ts (f : Regs → Regs) : (setRegs s f).ts = s.ts := rfl
@[simp] theorem setRegs_locks (f : Regs → Regs) : (setRegs s f).locks = s.locks := rfl
@[simp] theorem setRegs_lockReqs (f : Regs → Regs) : (setRegs s f).lockReqs = s.lockReqs := rfl
@[simp] theorem setRegs_lockStats (f : Regs → Regs) : (setRegs s f).lockStats = s.lockStats := rfl
@[simp] theorem setRegs_probes (f : Regs → Regs) : (setRegs s f).probes = s.probes := rfl
@[simp] theorem setRegs_lockSerial (f : Regs → Regs) : (setRegs s f).lockSerial = s.lockSerial := rfl
@[simp] theorem setRegs_lockTurn (f : Regs → Regs) : (setRegs s f).lockTurn = s.lockTurn := rfl
@[simp] theorem setRegs_dir (f : Regs → Regs) : (setRegs s f).dir = s.dir := rfl
@[simp] theorem setRegs_dirReqs (f : Regs → Regs) : (setRegs s f).dirReqs = s.dirReqs := rfl
@[simp] theorem setRegs_dieLine (f : Regs → Regs) : (setRegs s f).dieLine = s.dieLine := rfl
@[simp] theorem setRegs_sectors (f : Regs → Regs) : (setRegs s f).sectors = s.sectors := rfl
@[simp] theorem setRegs_victims (f : Regs → Regs) : (setRegs s f).victims = s.victims := rfl
@[simp] theorem setRegs_backInvs (f : Regs → Regs) : (setRegs s f).backInvs = s.backInvs := rfl
@[simp] theorem setRegs_dirPtr (f : Regs → Regs) : (setRegs s f).dirPtr = s.dirPtr := rfl
@[simp] theorem setRegs_cols (f : Regs → Regs) : (setRegs s f).cols = s.cols := rfl
@[simp] theorem setRegs_colSerial (f : Regs → Regs) : (setRegs s f).colSerial = s.colSerial := rfl
@[simp] theorem setRegs_remote (f : Regs → Regs) : (setRegs s f).remote = s.remote := rfl
@[simp] theorem setRegs_laneBad (f : Regs → Regs) : (setRegs s f).laneBad = s.laneBad := rfl
@[simp] theorem setRegs_laneSpared (f : Regs → Regs) : (setRegs s f).laneSpared = s.laneSpared := rfl
@[simp] theorem setRegs_linksDown (f : Regs → Regs) : (setRegs s f).linksDown = s.linksDown := rfl
@[simp] theorem setRegs_portsDown (f : Regs → Regs) : (setRegs s f).portsDown = s.portsDown := rfl
@[simp] theorem setRegs_sliceBad (f : Regs → Regs) : (setRegs s f).sliceBad = s.sliceBad := rfl
@[simp] theorem setRegs_quarantined (f : Regs → Regs) : (setRegs s f).quarantined = s.quarantined := rfl
@[simp] theorem setRegs_failedClusters (f : Regs → Regs) : (setRegs s f).failedClusters = s.failedClusters := rfl
@[simp] theorem setRegs_failedSlices (f : Regs → Regs) : (setRegs s f).failedSlices = s.failedSlices := rfl
@[simp] theorem setRegs_regs (f : Regs → Regs) : (setRegs s f).regs = f s.regs := rfl
@[simp] theorem setRegs_mbx (f : Regs → Regs) : (setRegs s f).mbx = s.mbx := rfl
@[simp] theorem setRegs_mgmtData (f : Regs → Regs) : (setRegs s f).mgmtData = s.mgmtData := rfl
@[simp] theorem setRegs_hostData (f : Regs → Regs) : (setRegs s f).hostData = s.hostData := rfl
@[simp] theorem setRegs_irq (f : Regs → Regs) : (setRegs s f).irq = s.irq := rfl
@[simp] theorem setRegs_bootStep (f : Regs → Regs) : (setRegs s f).bootStep = s.bootStep := rfl
@[simp] theorem setRegs_bootFail (f : Regs → Regs) : (setRegs s f).bootFail = s.bootFail := rfl
@[simp] theorem setRegs_bootReady (f : Regs → Regs) : (setRegs s f).bootReady = s.bootReady := rfl
@[simp] theorem setRegs_meas (f : Regs → Regs) : (setRegs s f).meas = s.meas := rfl
@[simp] theorem setRegs_power (f : Regs → Regs) : (setRegs s f).power = s.power := rfl
@[simp] theorem setRegs_v48 (f : Regs → Regs) : (setRegs s f).v48 = s.v48 := rfl
@[simp] theorem setRegs_aux (f : Regs → Regs) : (setRegs s f).aux = s.aux := rfl
@[simp] theorem setRegs_rasLog (f : Regs → Regs) : (setRegs s f).rasLog = s.rasLog := rfl

/-! ### Updates of a party -/

variable (p : Party)

@[simp] theorem setV_bow (r l : Nat) (x : W32) : (setV p r l x).bow = p.bow := rfl
@[simp] theorem setV_grpid (r l : Nat) (x : W32) : (setV p r l x).grpid = p.grpid := rfl
@[simp] theorem setV_ctx (r l : Nat) (x : W32) : (setV p r l x).ctx = p.ctx := rfl
@[simp] theorem setV_party (r l : Nat) (x : W32) : (setV p r l x).party = p.party := rfl
@[simp] theorem setV_live (r l : Nat) (x : W32) : (setV p r l x).live = p.live := rfl
@[simp] theorem setV_v (r l : Nat) (x : W32) : (setV p r l x).v = p.v.put (vKey r l) x 0 := rfl
@[simp] theorem setV_s (r l : Nat) (x : W32) : (setV p r l x).s = p.s := rfl
@[simp] theorem setV_p (r l : Nat) (x : W32) : (setV p r l x).p = p.p := rfl
@[simp] theorem setV_ff (r l : Nat) (x : W32) : (setV p r l x).ff = p.ff := rfl
@[simp] theorem setV_slot0 (r l : Nat) (x : W32) : (setV p r l x).slot0 = p.slot0 := rfl
@[simp] theorem setV_slot1 (r l : Nat) (x : W32) : (setV p r l x).slot1 = p.slot1 := rfl
@[simp] theorem setV_spill (r l : Nat) (x : W32) : (setV p r l x).spill = p.spill := rfl
@[simp] theorem setV_splits (r l : Nat) (x : W32) : (setV p r l x).splits = p.splits := rfl
@[simp] theorem setV_tokens (r l : Nat) (x : W32) : (setV p r l x).tokens = p.tokens := rfl
@[simp] theorem setV_nextIssue (r l : Nat) (x : W32) : (setV p r l x).nextIssue = p.nextIssue := rfl
@[simp] theorem setV_pend (r l : Nat) (x : W32) : (setV p r l x).pend = p.pend := rfl
@[simp] theorem setV_serial (r l : Nat) (x : W32) : (setV p r l x).serial = p.serial := rfl
@[simp] theorem setV_lastSlot (r l : Nat) (x : W32) : (setV p r l x).lastSlot = p.lastSlot := rfl
@[simp] theorem setV_lastMem (r l : Nat) (x : W32) : (setV p r l x).lastMem = p.lastMem := rfl
@[simp] theorem setV_yieldHint (r l : Nat) (x : W32) : (setV p r l x).yieldHint = p.yieldHint := rfl
@[simp] theorem setV_yielded (r l : Nat) (x : W32) : (setV p r l x).yielded = p.yielded := rfl
@[simp] theorem setV_check (r l : Nat) (x : W32) : (setV p r l x).check = p.check := rfl
@[simp] theorem setV_ctr (r l : Nat) (x : W32) : (setV p r l x).ctr = p.ctr := rfl
@[simp] theorem setV_held (r l : Nat) (x : W32) : (setV p r l x).held = p.held := rfl
@[simp] theorem setV_inb (r l : Nat) (x : W32) : (setV p r l x).inb = p.inb := rfl
@[simp] theorem setV_buf (r l : Nat) (x : W32) : (setV p r l x).buf = p.buf := rfl
@[simp] theorem setV_sbuf (r l : Nat) (x : W32) : (setV p r l x).sbuf = p.sbuf := rfl
@[simp] theorem setV_bnd (r l : Nat) (x : W32) : (setV p r l x).bnd = p.bnd := rfl
@[simp] theorem setV_scs (r l : Nat) (x : W32) : (setV p r l x).scs = p.scs := rfl
@[simp] theorem setV_hG (r l : Nat) (x : W32) : (setV p r l x).hG = p.hG := rfl
@[simp] theorem setV_hL (r l : Nat) (x : W32) : (setV p r l x).hL = p.hL := rfl
@[simp] theorem setV_priv (r l : Nat) (x : W32) : (setV p r l x).priv = p.priv := rfl
@[simp] theorem setV_gen (r l : Nat) (x : W32) : (setV p r l x).gen = p.gen := rfl
@[simp] theorem setV_copies (r l : Nat) (x : W32) : (setV p r l x).copies = p.copies := rfl
@[simp] theorem setV_pubs (r l : Nat) (x : W32) : (setV p r l x).pubs = p.pubs := rfl
@[simp] theorem setV_pages (r l : Nat) (x : W32) : (setV p r l x).pages = p.pages := rfl
@[simp] theorem setV_stopped (r l : Nat) (x : W32) : (setV p r l x).stopped = p.stopped := rfl
@[simp] theorem setV_retired (r l : Nat) (x : W32) : (setV p r l x).retired = p.retired := rfl

@[simp] theorem setS_bow (r : Nat) (x : W64) : (setS p r x).bow = p.bow := rfl
@[simp] theorem setS_grpid (r : Nat) (x : W64) : (setS p r x).grpid = p.grpid := rfl
@[simp] theorem setS_ctx (r : Nat) (x : W64) : (setS p r x).ctx = p.ctx := rfl
@[simp] theorem setS_party (r : Nat) (x : W64) : (setS p r x).party = p.party := rfl
@[simp] theorem setS_live (r : Nat) (x : W64) : (setS p r x).live = p.live := rfl
@[simp] theorem setS_v (r : Nat) (x : W64) : (setS p r x).v = p.v := rfl
@[simp] theorem setS_s (r : Nat) (x : W64) : (setS p r x).s = p.s.put r x 0 := rfl
@[simp] theorem setS_p (r : Nat) (x : W64) : (setS p r x).p = p.p := rfl
@[simp] theorem setS_ff (r : Nat) (x : W64) : (setS p r x).ff = p.ff := rfl
@[simp] theorem setS_slot0 (r : Nat) (x : W64) : (setS p r x).slot0 = p.slot0 := rfl
@[simp] theorem setS_slot1 (r : Nat) (x : W64) : (setS p r x).slot1 = p.slot1 := rfl
@[simp] theorem setS_spill (r : Nat) (x : W64) : (setS p r x).spill = p.spill := rfl
@[simp] theorem setS_splits (r : Nat) (x : W64) : (setS p r x).splits = p.splits := rfl
@[simp] theorem setS_tokens (r : Nat) (x : W64) : (setS p r x).tokens = p.tokens := rfl
@[simp] theorem setS_nextIssue (r : Nat) (x : W64) : (setS p r x).nextIssue = p.nextIssue := rfl
@[simp] theorem setS_pend (r : Nat) (x : W64) : (setS p r x).pend = p.pend := rfl
@[simp] theorem setS_serial (r : Nat) (x : W64) : (setS p r x).serial = p.serial := rfl
@[simp] theorem setS_lastSlot (r : Nat) (x : W64) : (setS p r x).lastSlot = p.lastSlot := rfl
@[simp] theorem setS_lastMem (r : Nat) (x : W64) : (setS p r x).lastMem = p.lastMem := rfl
@[simp] theorem setS_yieldHint (r : Nat) (x : W64) : (setS p r x).yieldHint = p.yieldHint := rfl
@[simp] theorem setS_yielded (r : Nat) (x : W64) : (setS p r x).yielded = p.yielded := rfl
@[simp] theorem setS_check (r : Nat) (x : W64) : (setS p r x).check = p.check := rfl
@[simp] theorem setS_ctr (r : Nat) (x : W64) : (setS p r x).ctr = p.ctr := rfl
@[simp] theorem setS_held (r : Nat) (x : W64) : (setS p r x).held = p.held := rfl
@[simp] theorem setS_inb (r : Nat) (x : W64) : (setS p r x).inb = p.inb := rfl
@[simp] theorem setS_buf (r : Nat) (x : W64) : (setS p r x).buf = p.buf := rfl
@[simp] theorem setS_sbuf (r : Nat) (x : W64) : (setS p r x).sbuf = p.sbuf := rfl
@[simp] theorem setS_bnd (r : Nat) (x : W64) : (setS p r x).bnd = p.bnd := rfl
@[simp] theorem setS_scs (r : Nat) (x : W64) : (setS p r x).scs = p.scs := rfl
@[simp] theorem setS_hG (r : Nat) (x : W64) : (setS p r x).hG = p.hG := rfl
@[simp] theorem setS_hL (r : Nat) (x : W64) : (setS p r x).hL = p.hL := rfl
@[simp] theorem setS_priv (r : Nat) (x : W64) : (setS p r x).priv = p.priv := rfl
@[simp] theorem setS_gen (r : Nat) (x : W64) : (setS p r x).gen = p.gen := rfl
@[simp] theorem setS_copies (r : Nat) (x : W64) : (setS p r x).copies = p.copies := rfl
@[simp] theorem setS_pubs (r : Nat) (x : W64) : (setS p r x).pubs = p.pubs := rfl
@[simp] theorem setS_pages (r : Nat) (x : W64) : (setS p r x).pages = p.pages := rfl
@[simp] theorem setS_stopped (r : Nat) (x : W64) : (setS p r x).stopped = p.stopped := rfl
@[simp] theorem setS_retired (r : Nat) (x : W64) : (setS p r x).retired = p.retired := rfl

@[simp] theorem setFF_bow (l : Nat) (x : BitVec 5) : (setFF p l x).bow = p.bow := rfl
@[simp] theorem setFF_grpid (l : Nat) (x : BitVec 5) : (setFF p l x).grpid = p.grpid := rfl
@[simp] theorem setFF_ctx (l : Nat) (x : BitVec 5) : (setFF p l x).ctx = p.ctx := rfl
@[simp] theorem setFF_party (l : Nat) (x : BitVec 5) : (setFF p l x).party = p.party := rfl
@[simp] theorem setFF_live (l : Nat) (x : BitVec 5) : (setFF p l x).live = p.live := rfl
@[simp] theorem setFF_v (l : Nat) (x : BitVec 5) : (setFF p l x).v = p.v := rfl
@[simp] theorem setFF_s (l : Nat) (x : BitVec 5) : (setFF p l x).s = p.s := rfl
@[simp] theorem setFF_p (l : Nat) (x : BitVec 5) : (setFF p l x).p = p.p := rfl
@[simp] theorem setFF_ff (l : Nat) (x : BitVec 5) : (setFF p l x).ff = p.ff.put l x 0 := rfl
@[simp] theorem setFF_slot0 (l : Nat) (x : BitVec 5) : (setFF p l x).slot0 = p.slot0 := rfl
@[simp] theorem setFF_slot1 (l : Nat) (x : BitVec 5) : (setFF p l x).slot1 = p.slot1 := rfl
@[simp] theorem setFF_spill (l : Nat) (x : BitVec 5) : (setFF p l x).spill = p.spill := rfl
@[simp] theorem setFF_splits (l : Nat) (x : BitVec 5) : (setFF p l x).splits = p.splits := rfl
@[simp] theorem setFF_tokens (l : Nat) (x : BitVec 5) : (setFF p l x).tokens = p.tokens := rfl
@[simp] theorem setFF_nextIssue (l : Nat) (x : BitVec 5) : (setFF p l x).nextIssue = p.nextIssue := rfl
@[simp] theorem setFF_pend (l : Nat) (x : BitVec 5) : (setFF p l x).pend = p.pend := rfl
@[simp] theorem setFF_serial (l : Nat) (x : BitVec 5) : (setFF p l x).serial = p.serial := rfl
@[simp] theorem setFF_lastSlot (l : Nat) (x : BitVec 5) : (setFF p l x).lastSlot = p.lastSlot := rfl
@[simp] theorem setFF_lastMem (l : Nat) (x : BitVec 5) : (setFF p l x).lastMem = p.lastMem := rfl
@[simp] theorem setFF_yieldHint (l : Nat) (x : BitVec 5) : (setFF p l x).yieldHint = p.yieldHint := rfl
@[simp] theorem setFF_yielded (l : Nat) (x : BitVec 5) : (setFF p l x).yielded = p.yielded := rfl
@[simp] theorem setFF_check (l : Nat) (x : BitVec 5) : (setFF p l x).check = p.check := rfl
@[simp] theorem setFF_ctr (l : Nat) (x : BitVec 5) : (setFF p l x).ctr = p.ctr := rfl
@[simp] theorem setFF_held (l : Nat) (x : BitVec 5) : (setFF p l x).held = p.held := rfl
@[simp] theorem setFF_inb (l : Nat) (x : BitVec 5) : (setFF p l x).inb = p.inb := rfl
@[simp] theorem setFF_buf (l : Nat) (x : BitVec 5) : (setFF p l x).buf = p.buf := rfl
@[simp] theorem setFF_sbuf (l : Nat) (x : BitVec 5) : (setFF p l x).sbuf = p.sbuf := rfl
@[simp] theorem setFF_bnd (l : Nat) (x : BitVec 5) : (setFF p l x).bnd = p.bnd := rfl
@[simp] theorem setFF_scs (l : Nat) (x : BitVec 5) : (setFF p l x).scs = p.scs := rfl
@[simp] theorem setFF_hG (l : Nat) (x : BitVec 5) : (setFF p l x).hG = p.hG := rfl
@[simp] theorem setFF_hL (l : Nat) (x : BitVec 5) : (setFF p l x).hL = p.hL := rfl
@[simp] theorem setFF_priv (l : Nat) (x : BitVec 5) : (setFF p l x).priv = p.priv := rfl
@[simp] theorem setFF_gen (l : Nat) (x : BitVec 5) : (setFF p l x).gen = p.gen := rfl
@[simp] theorem setFF_copies (l : Nat) (x : BitVec 5) : (setFF p l x).copies = p.copies := rfl
@[simp] theorem setFF_pubs (l : Nat) (x : BitVec 5) : (setFF p l x).pubs = p.pubs := rfl
@[simp] theorem setFF_pages (l : Nat) (x : BitVec 5) : (setFF p l x).pages = p.pages := rfl
@[simp] theorem setFF_stopped (l : Nat) (x : BitVec 5) : (setFF p l x).stopped = p.stopped := rfl
@[simp] theorem setFF_retired (l : Nat) (x : BitVec 5) : (setFF p l x).retired = p.retired := rfl

@[simp] theorem dropG_bow (k : Nat) : (dropG p k).bow = p.bow := rfl
@[simp] theorem dropG_grpid (k : Nat) : (dropG p k).grpid = p.grpid := rfl
@[simp] theorem dropG_ctx (k : Nat) : (dropG p k).ctx = p.ctx := rfl
@[simp] theorem dropG_party (k : Nat) : (dropG p k).party = p.party := rfl
@[simp] theorem dropG_live (k : Nat) : (dropG p k).live = p.live := rfl
@[simp] theorem dropG_v (k : Nat) : (dropG p k).v = p.v := rfl
@[simp] theorem dropG_s (k : Nat) : (dropG p k).s = p.s := rfl
@[simp] theorem dropG_p (k : Nat) : (dropG p k).p = p.p := rfl
@[simp] theorem dropG_ff (k : Nat) : (dropG p k).ff = p.ff := rfl
@[simp] theorem dropG_slot0 (k : Nat) : (dropG p k).slot0 = p.slot0 := rfl
@[simp] theorem dropG_slot1 (k : Nat) : (dropG p k).slot1 = p.slot1 := rfl
@[simp] theorem dropG_spill (k : Nat) : (dropG p k).spill = p.spill := rfl
@[simp] theorem dropG_splits (k : Nat) : (dropG p k).splits = p.splits := rfl
@[simp] theorem dropG_tokens (k : Nat) : (dropG p k).tokens = p.tokens := rfl
@[simp] theorem dropG_nextIssue (k : Nat) : (dropG p k).nextIssue = p.nextIssue := rfl
@[simp] theorem dropG_pend (k : Nat) : (dropG p k).pend = p.pend := rfl
@[simp] theorem dropG_serial (k : Nat) : (dropG p k).serial = p.serial := rfl
@[simp] theorem dropG_lastSlot (k : Nat) : (dropG p k).lastSlot = p.lastSlot := rfl
@[simp] theorem dropG_lastMem (k : Nat) : (dropG p k).lastMem = p.lastMem := rfl
@[simp] theorem dropG_yieldHint (k : Nat) : (dropG p k).yieldHint = p.yieldHint := rfl
@[simp] theorem dropG_yielded (k : Nat) : (dropG p k).yielded = p.yielded := rfl
@[simp] theorem dropG_check (k : Nat) : (dropG p k).check = p.check := rfl
@[simp] theorem dropG_ctr (k : Nat) : (dropG p k).ctr = p.ctr := rfl
@[simp] theorem dropG_held (k : Nat) : (dropG p k).held = p.held := rfl
@[simp] theorem dropG_inb (k : Nat) : (dropG p k).inb = p.inb := rfl
@[simp] theorem dropG_buf (k : Nat) : (dropG p k).buf = p.buf := rfl
@[simp] theorem dropG_sbuf (k : Nat) : (dropG p k).sbuf = p.sbuf := rfl
@[simp] theorem dropG_bnd (k : Nat) : (dropG p k).bnd = p.bnd := rfl
@[simp] theorem dropG_scs (k : Nat) : (dropG p k).scs = p.scs := rfl
@[simp] theorem dropG_hG (k : Nat) : (dropG p k).hG = p.hG.erase k := rfl
@[simp] theorem dropG_hL (k : Nat) : (dropG p k).hL = p.hL := rfl
@[simp] theorem dropG_priv (k : Nat) : (dropG p k).priv = p.priv := rfl
@[simp] theorem dropG_gen (k : Nat) : (dropG p k).gen = p.gen := rfl
@[simp] theorem dropG_copies (k : Nat) : (dropG p k).copies = p.copies := rfl
@[simp] theorem dropG_pubs (k : Nat) : (dropG p k).pubs = p.pubs := rfl
@[simp] theorem dropG_pages (k : Nat) : (dropG p k).pages = p.pages := rfl
@[simp] theorem dropG_stopped (k : Nat) : (dropG p k).stopped = p.stopped := rfl
@[simp] theorem dropG_retired (k : Nat) : (dropG p k).retired = p.retired := rfl

@[simp] theorem dropL_bow (k : Nat) (m : Mask) : (dropL p k m).bow = p.bow := rfl
@[simp] theorem dropL_grpid (k : Nat) (m : Mask) : (dropL p k m).grpid = p.grpid := rfl
@[simp] theorem dropL_ctx (k : Nat) (m : Mask) : (dropL p k m).ctx = p.ctx := rfl
@[simp] theorem dropL_party (k : Nat) (m : Mask) : (dropL p k m).party = p.party := rfl
@[simp] theorem dropL_live (k : Nat) (m : Mask) : (dropL p k m).live = p.live := rfl
@[simp] theorem dropL_v (k : Nat) (m : Mask) : (dropL p k m).v = p.v := rfl
@[simp] theorem dropL_s (k : Nat) (m : Mask) : (dropL p k m).s = p.s := rfl
@[simp] theorem dropL_p (k : Nat) (m : Mask) : (dropL p k m).p = p.p := rfl
@[simp] theorem dropL_ff (k : Nat) (m : Mask) : (dropL p k m).ff = p.ff := rfl
@[simp] theorem dropL_slot0 (k : Nat) (m : Mask) : (dropL p k m).slot0 = p.slot0 := rfl
@[simp] theorem dropL_slot1 (k : Nat) (m : Mask) : (dropL p k m).slot1 = p.slot1 := rfl
@[simp] theorem dropL_spill (k : Nat) (m : Mask) : (dropL p k m).spill = p.spill := rfl
@[simp] theorem dropL_splits (k : Nat) (m : Mask) : (dropL p k m).splits = p.splits := rfl
@[simp] theorem dropL_tokens (k : Nat) (m : Mask) : (dropL p k m).tokens = p.tokens := rfl
@[simp] theorem dropL_nextIssue (k : Nat) (m : Mask) : (dropL p k m).nextIssue = p.nextIssue := rfl
@[simp] theorem dropL_pend (k : Nat) (m : Mask) : (dropL p k m).pend = p.pend := rfl
@[simp] theorem dropL_serial (k : Nat) (m : Mask) : (dropL p k m).serial = p.serial := rfl
@[simp] theorem dropL_lastSlot (k : Nat) (m : Mask) : (dropL p k m).lastSlot = p.lastSlot := rfl
@[simp] theorem dropL_lastMem (k : Nat) (m : Mask) : (dropL p k m).lastMem = p.lastMem := rfl
@[simp] theorem dropL_yieldHint (k : Nat) (m : Mask) : (dropL p k m).yieldHint = p.yieldHint := rfl
@[simp] theorem dropL_yielded (k : Nat) (m : Mask) : (dropL p k m).yielded = p.yielded := rfl
@[simp] theorem dropL_check (k : Nat) (m : Mask) : (dropL p k m).check = p.check := rfl
@[simp] theorem dropL_ctr (k : Nat) (m : Mask) : (dropL p k m).ctr = p.ctr := rfl
@[simp] theorem dropL_held (k : Nat) (m : Mask) : (dropL p k m).held = p.held := rfl
@[simp] theorem dropL_inb (k : Nat) (m : Mask) : (dropL p k m).inb = p.inb := rfl
@[simp] theorem dropL_buf (k : Nat) (m : Mask) : (dropL p k m).buf = p.buf := rfl
@[simp] theorem dropL_sbuf (k : Nat) (m : Mask) : (dropL p k m).sbuf = p.sbuf := rfl
@[simp] theorem dropL_bnd (k : Nat) (m : Mask) : (dropL p k m).bnd = p.bnd := rfl
@[simp] theorem dropL_scs (k : Nat) (m : Mask) : (dropL p k m).scs = p.scs := rfl
@[simp] theorem dropL_hG (k : Nat) (m : Mask) : (dropL p k m).hG = p.hG := rfl
@[simp] theorem dropL_priv (k : Nat) (m : Mask) : (dropL p k m).priv = p.priv := rfl
@[simp] theorem dropL_gen (k : Nat) (m : Mask) : (dropL p k m).gen = p.gen := rfl
@[simp] theorem dropL_copies (k : Nat) (m : Mask) : (dropL p k m).copies = p.copies := rfl
@[simp] theorem dropL_pubs (k : Nat) (m : Mask) : (dropL p k m).pubs = p.pubs := rfl
@[simp] theorem dropL_pages (k : Nat) (m : Mask) : (dropL p k m).pages = p.pages := rfl
@[simp] theorem dropL_stopped (k : Nat) (m : Mask) : (dropL p k m).stopped = p.stopped := rfl
@[simp] theorem dropL_retired (k : Nat) (m : Mask) : (dropL p k m).retired = p.retired := rfl

@[simp] theorem mapFrags_bow (f : Frag → Frag) : (mapFrags p f).bow = p.bow := rfl
@[simp] theorem mapFrags_grpid (f : Frag → Frag) : (mapFrags p f).grpid = p.grpid := rfl
@[simp] theorem mapFrags_ctx (f : Frag → Frag) : (mapFrags p f).ctx = p.ctx := rfl
@[simp] theorem mapFrags_party (f : Frag → Frag) : (mapFrags p f).party = p.party := rfl
@[simp] theorem mapFrags_live (f : Frag → Frag) : (mapFrags p f).live = p.live := rfl
@[simp] theorem mapFrags_v (f : Frag → Frag) : (mapFrags p f).v = p.v := rfl
@[simp] theorem mapFrags_s (f : Frag → Frag) : (mapFrags p f).s = p.s := rfl
@[simp] theorem mapFrags_p (f : Frag → Frag) : (mapFrags p f).p = p.p := rfl
@[simp] theorem mapFrags_ff (f : Frag → Frag) : (mapFrags p f).ff = p.ff := rfl
@[simp] theorem mapFrags_slot0 (f : Frag → Frag) : (mapFrags p f).slot0 = p.slot0.map f := rfl
@[simp] theorem mapFrags_slot1 (f : Frag → Frag) : (mapFrags p f).slot1 = p.slot1.map f := rfl
@[simp] theorem mapFrags_spill (f : Frag → Frag) : (mapFrags p f).spill = p.spill.map f := rfl
@[simp] theorem mapFrags_splits (f : Frag → Frag) : (mapFrags p f).splits = p.splits := rfl
@[simp] theorem mapFrags_tokens (f : Frag → Frag) : (mapFrags p f).tokens = p.tokens := rfl
@[simp] theorem mapFrags_nextIssue (f : Frag → Frag) : (mapFrags p f).nextIssue = p.nextIssue := rfl
@[simp] theorem mapFrags_pend (f : Frag → Frag) : (mapFrags p f).pend = p.pend := rfl
@[simp] theorem mapFrags_serial (f : Frag → Frag) : (mapFrags p f).serial = p.serial := rfl
@[simp] theorem mapFrags_lastSlot (f : Frag → Frag) : (mapFrags p f).lastSlot = p.lastSlot := rfl
@[simp] theorem mapFrags_lastMem (f : Frag → Frag) : (mapFrags p f).lastMem = p.lastMem := rfl
@[simp] theorem mapFrags_yieldHint (f : Frag → Frag) : (mapFrags p f).yieldHint = p.yieldHint := rfl
@[simp] theorem mapFrags_yielded (f : Frag → Frag) : (mapFrags p f).yielded = p.yielded := rfl
@[simp] theorem mapFrags_check (f : Frag → Frag) : (mapFrags p f).check = p.check := rfl
@[simp] theorem mapFrags_ctr (f : Frag → Frag) : (mapFrags p f).ctr = p.ctr := rfl
@[simp] theorem mapFrags_held (f : Frag → Frag) : (mapFrags p f).held = p.held := rfl
@[simp] theorem mapFrags_inb (f : Frag → Frag) : (mapFrags p f).inb = p.inb := rfl
@[simp] theorem mapFrags_buf (f : Frag → Frag) : (mapFrags p f).buf = p.buf := rfl
@[simp] theorem mapFrags_sbuf (f : Frag → Frag) : (mapFrags p f).sbuf = p.sbuf := rfl
@[simp] theorem mapFrags_bnd (f : Frag → Frag) : (mapFrags p f).bnd = p.bnd := rfl
@[simp] theorem mapFrags_scs (f : Frag → Frag) : (mapFrags p f).scs = p.scs := rfl
@[simp] theorem mapFrags_hG (f : Frag → Frag) : (mapFrags p f).hG = p.hG := rfl
@[simp] theorem mapFrags_hL (f : Frag → Frag) : (mapFrags p f).hL = p.hL := rfl
@[simp] theorem mapFrags_priv (f : Frag → Frag) : (mapFrags p f).priv = p.priv := rfl
@[simp] theorem mapFrags_gen (f : Frag → Frag) : (mapFrags p f).gen = p.gen := rfl
@[simp] theorem mapFrags_copies (f : Frag → Frag) : (mapFrags p f).copies = p.copies := rfl
@[simp] theorem mapFrags_pubs (f : Frag → Frag) : (mapFrags p f).pubs = p.pubs := rfl
@[simp] theorem mapFrags_pages (f : Frag → Frag) : (mapFrags p f).pages = p.pages := rfl
@[simp] theorem mapFrags_stopped (f : Frag → Frag) : (mapFrags p f).stopped = p.stopped := rfl
@[simp] theorem mapFrags_retired (f : Frag → Frag) : (mapFrags p f).retired = p.retired := rfl

/-! ### Records read after they are replaced -/

@[simp] theorem coreOf_setCore_self (c : Nat) (x : Core) : coreOf (setCore s c x) c = x := by
  simp [coreOf, setCore, AMap.getD]

@[simp] theorem coreOf_setCore_ne {c d : Nat} (x : Core) (h : d ≠ c) : coreOf (setCore s c x) d = coreOf s d := by
  simp [coreOf, setCore, AMap.getD, h]

@[simp] theorem clusterOf_setCluster_self (c : Nat) (x : Cluster) : clusterOf (setCluster s c x) c = x := by
  simp [clusterOf, setCluster, AMap.getD]

@[simp] theorem partOf_setPart_self (n : Nat) (x : Part) : partOf (setPart s n x) n = x := by
  simp [partOf, setPart, AMap.getD]

@[simp] theorem partOf_setPart_ne {n m : Nat} (x : Part) (h : m ≠ n) : partOf (setPart s n x) m = partOf s m := by
  simp [partOf, setPart, AMap.getD, h]

@[simp] theorem ctxOf_setCtx_self (k : Nat) (x : CtxDev) : ctxOf (setCtx s k x) k = x := by
  simp [ctxOf, setCtx, AMap.getD]

@[simp] theorem ctxOf_setCtx_ne {k j : Nat} (x : CtxDev) (h : j ≠ k) : ctxOf (setCtx s k x) j = ctxOf s j := by
  simp [ctxOf, setCtx, AMap.getD, h]

@[simp] theorem get?_setParty_self (q : Nat) (x : Party) : (setParty s q x).parties.get? q = some x := by simp

@[simp] theorem get?_modParty_self (q : Nat) (f : Party → Party) :
    (modParty s q f).parties.get? q = (s.parties.get? q).map f := by simp

@[simp] theorem get?_modParty_ne {q r : Nat} (f : Party → Party) (h : r ≠ q) :
    (modParty s q f).parties.get? r = s.parties.get? r := by simp [h]

end Sys2Proof.Machine
end

