-- ==== Sys2Proof/Laws/Memory.lean ====
section
/-!
SUPPORT. Laws of memory (spec/15 R316-R320): a byte read after a write, what a performed write and a device write change,
and that every memory operation keeps the canonical form.
-/
namespace Sys2Proof.Machine

/-! ### One byte -/

@[simp] theorem readByte_writeByte_self (m : AMap Byte) (a : Nat) (b : Byte) : readByte (writeByte m a b) a = b := by
  simp [readByte, writeByte, AMap.getD_put]

@[simp] theorem readByte_writeByte_ne (m : AMap Byte) {a r : Nat} (b : Byte) (h : r ≠ a) :
    readByte (writeByte m a b) r = readByte m r := by
  simp [readByte, writeByte, AMap.getD_put, h]

theorem readByte_writeByte (m : AMap Byte) (a r : Nat) (b : Byte) :
    readByte (writeByte m a b) r = if r = a then b else readByte m r := by
  simp [readByte, writeByte, AMap.getD_put]

theorem wf_writeByte (m : AMap Byte) (a : Nat) (b : Byte) (h : Memory.wf m = true) : Memory.wf (writeByte m a b) = true :=
  AMap.wf_put m a b memDefault h

theorem wf_writeBytes (l : List Byte) : ∀ (m : AMap Byte) (a : Nat), Memory.wf m = true → Memory.wf (writeBytes m a l) = true := by
  induction l with
  | nil => intro m a h; exact h
  | cons b l ih => intro m a h; exact ih _ _ (wf_writeByte m a b h)

theorem readByte_writeBytes_below (l : List Byte) : ∀ (m : AMap Byte) (a r : Nat), r < a →
    readByte (writeBytes m a l) r = readByte m r := by
  induction l with
  | nil => intro m a r _; rfl
  | cons b l ih => intro m a r h; rw [writeBytes, ih _ _ _ (by omega), readByte_writeByte_ne _ _ (by omega)]

theorem readByte_writeBytes_above (l : List Byte) : ∀ (m : AMap Byte) (a r : Nat), a + l.length ≤ r →
    readByte (writeBytes m a l) r = readByte m r := by
  induction l with
  | nil => intro m a r _; rfl
  | cons b l ih =>
    intro m a r h
    simp only [List.length_cons] at h
    rw [writeBytes, ih _ _ _ (by omega), readByte_writeByte_ne _ _ (by omega)]

/-! ### Performed writes -/

theorem wf_putCells (cells : List (Nat × Byte)) : ∀ m, Memory.wf m = true → Memory.wf (putCells m cells) = true := by
  induction cells with
  | nil => intro m h; exact h
  | cons c l ih => intro m h; exact ih _ (wf_writeByte m c.1 c.2 h)

/-- A property of states that each step of a fold keeps. -/
theorem foldl_keeps {σ α : Type} {P : σ → Prop} (f : σ → α → σ) (h : ∀ s x, P s → P (f s x)) (l : List α) :
    ∀ s, P s → P (l.foldl f s) := by
  induction l with
  | nil => intro s hs; exact hs
  | cons x l ih => intro s hs; exact ih _ (h s x hs)

theorem mem_foldl {α : Type} (f : State → α → State) (h : ∀ s x, (f s x).mem = s.mem) (l : List α) :
    ∀ s, (l.foldl f s).mem = s.mem := by
  induction l with
  | nil => intro s; rfl
  | cons x l ih => intro s; rw [List.foldl_cons, ih, h]

/-- `t` differs from `s` at most in the ordering machine's own fields and the free values drawn. -/
def OrderKept (s t : State) : Prop :=
  t = { s with draws := t.draws, mem := t.mem, hist := t.hist, vis := t.vis, nextWrite := t.nextWrite, owner := t.owner,
               dropped := t.dropped }

theorem OrderKept.refl (s : State) : OrderKept s s := rfl

theorem OrderKept.trans {s t u : State} (h1 : OrderKept s t) (h2 : OrderKept t u) : OrderKept s u := by
  unfold OrderKept at *; rw [h2, h1]

/-- From `s` to `t` some locations, all of them in `cs`, have been written: a line's owner is the key of one of them, or as it
was; a byte that is none of them and whose line they leave to its key is as it was (R393); memory keeps its form. -/
structure OrderStep (s t : State) (cs : Nat → Prop) : Prop where
  kept : OrderKept s t
  owner : ∀ l, t.owner.get? l = s.owner.get? l ∨
    ∃ b, cs b ∧ lineOf (dataLoc b) = l ∧ t.owner.get? l = some (ownerCode s (keyOf (dataLoc b)))
  bytes : ∀ a, ¬ cs a → Steady s cs a → readByte t.mem a = readByte s.mem a
  wf : MemOk s → MemOk t

theorem OrderStep.refl (s : State) (cs : Nat → Prop) : OrderStep s s cs :=
  ⟨rfl, fun _ => .inl rfl, fun _ _ _ => rfl, id⟩

/-- A change of the ordering machine that leaves memory and the owners of lines. -/
theorem OrderStep.of_kept {s t : State} {cs : Nat → Prop} (h : OrderKept s t) (hm : t.mem = s.mem) (ho : t.owner = s.owner) :
    OrderStep s t cs :=
  ⟨h, fun _ => .inl (by rw [ho]), fun _ _ _ => by rw [hm], fun w => by unfold MemOk; rw [hm]; exact w⟩

theorem foreign_eq {s : State} {a b : Nat} (hl : lineOf (dataLoc a) = lineOf (dataLoc b)) (hk : keyOf (dataLoc a) = keyOf (dataLoc b)) :
    foreign s a = foreign s b := by
  simp only [foreign, hl, hk]

/-- A line whose writes are all under the key of `a`, and which is not foreign to it, does not become so. -/
theorem OrderStep.steady {s t : State} {cs : Nat → Prop} (h : OrderStep s t cs) {a : Nat} (hs : Steady s cs a) : Steady t cs a := by
  intro b hb hl
  obtain ⟨hk, hf⟩ := hs b hb hl
  refine ⟨hk, ?_⟩
  have hg : t.keyGen = s.keyGen := by rw [h.kept]
  have hc : ∀ k, ownerCode t k = ownerCode s k := fun k => by simp only [ownerCode, hg]
  rcases h.owner (lineOf (dataLoc a)) with ho | ⟨b', hb', hl', ho⟩
  · simpa only [foreign, ho, hc] using hf
  · have hk' := (hs b' hb' hl'.symm).1
    simp [foreign, ho, hc, hk']

theorem OrderStep.trans {s t u : State} {cs : Nat → Prop} (h1 : OrderStep s t cs) (h2 : OrderStep t u cs) : OrderStep s u cs where
  kept := h1.kept.trans h2.kept
  owner l := by
    have hg : t.keyGen = s.keyGen := by rw [h1.kept]
    rcases h2.owner l with ho | ⟨b, hb, hl, ho⟩
    · rcases h1.owner l with hp | ⟨b, hb, hl, hp⟩
      · exact .inl (ho.trans hp)
      · exact .inr ⟨b, hb, hl, ho.trans hp⟩
    · exact .inr ⟨b, hb, hl, by rw [ho]; simp only [ownerCode, hg]⟩
  bytes a ha hs := (h2.bytes a ha (h1.steady hs)).trans (h1.bytes a ha hs)
  wf h := h2.wf (h1.wf h)

theorem OrderStep.foldl {α : Type} {cs : Nat → Prop} (f : State → α → State) (l : List α)
    (h : ∀ s, ∀ x ∈ l, OrderStep s (f s x) cs) : ∀ s, OrderStep s (l.foldl f s) cs := by
  induction l with
  | nil => intro s; exact .refl s cs
  | cons x l ih =>
    intro s
    exact (h s x (List.mem_cons_self ..)).trans (ih (fun s y hy => h s y (List.mem_cons_of_mem _ hy)) _)

theorem addVis_kept (s : State) (pt : Point) (w : Nat) : OrderKept s (addVis s pt w) := by
  unfold addVis; split <;> rfl

@[simp] theorem addVis_mem (s : State) (pt : Point) (w : Nat) : (addVis s pt w).mem = s.mem := by
  unfold addVis; split <;> rfl

@[simp] theorem addVis_owner (s : State) (pt : Point) (w : Nat) : (addVis s pt w).owner = s.owner := by
  unfold addVis; split <;> rfl

/-- The locations that a line taken by a key gives free values to. -/
def takenLocs (l : Nat) : List Nat := (List.range 128).map (l + ·) ++ (List.range 8).map (fun i => tagLoc l + i)

theorem takenLocs_line {a r : Nat} (ha : isLoc a) (h : r ∈ takenLocs (dataLoc a / 128 * 128)) :
    lineOf (dataLoc r) = lineOf (dataLoc a) ∧ keyOf (dataLoc r) = keyOf (dataLoc a) := by
  have hd : dataLoc a < 2 ^ 64 := by
    unfold isLoc at ha
    unfold dataLoc
    split <;> omega
  generalize dataLoc a = d at *
  have hr : dataLoc r / 128 = d / 128 := by
    simp only [takenLocs, List.mem_append, List.mem_map, List.mem_range] at h
    rcases h with ⟨i, hi, rfl⟩ | ⟨i, hi, rfl⟩
    · unfold dataLoc
      split <;> omega
    · unfold dataLoc tagLoc
      split <;> omega
  unfold lineOf keyOf paOf
  constructor <;> omega

theorem readByte_foldl_write (f : Nat → Byte) (l : List Nat) : ∀ (m : AMap Byte) (r : Nat), r ∉ l →
    readByte (l.foldl (fun m x => writeByte m x (f x)) m) r = readByte m r := by
  induction l with
  | nil => intro m r _; rfl
  | cons x l ih =>
    intro m r h
    simp only [List.mem_cons, not_or] at h
    rw [List.foldl_cons, ih _ _ h.2, readByte_writeByte_ne _ _ h.1]

theorem takeLine_eq (s : State) (a : Nat) : takeLine s a =
    if foreign s a then
      { s with
        mem := (takenLocs (dataLoc a / 128 * 128)).foldl (fun m x => writeByte m x (foreignByte s x)) s.mem,
        hist := (takenLocs (dataLoc a / 128 * 128)).foldl (fun (h : AMap Hist) x => h.erase x) s.hist, draws := s.draws + 1,
        owner := s.owner.insert (lineOf (dataLoc a / 128 * 128)) (ownerCode s (keyOf (dataLoc a / 128 * 128))) }
    else s := rfl

/-- A key takes a line that was last written under another (R393). -/
theorem takeLine_step {s : State} {a : Nat} {cs : Nat → Prop} (hc : cs a) (ha : isLoc a) : OrderStep s (takeLine s a) cs := by
  rw [takeLine_eq]
  split
  · next hf =>
    have hl : lineOf (dataLoc a / 128 * 128) = lineOf (dataLoc a) ∧ keyOf (dataLoc a / 128 * 128) = keyOf (dataLoc a) := by
      unfold lineOf keyOf paOf
      constructor <;> omega
    have hb : ∀ r, ¬ cs r → Steady s cs r → readByte ((takenLocs (dataLoc a / 128 * 128)).foldl
        (fun m x => writeByte m x (foreignByte s x)) s.mem) r = readByte s.mem r := by
      intro r hr hs
      refine readByte_foldl_write _ _ _ _ (fun hm => ?_)
      obtain ⟨h1, h2⟩ := takenLocs_line ha hm
      have := (hs a hc h1).2
      rw [foreign_eq h1 h2, hf] at this
      cases this
    have hw : MemOk s → Memory.wf ((takenLocs (dataLoc a / 128 * 128)).foldl
        (fun m x => writeByte m x (foreignByte s x)) s.mem) = true :=
      foldl_keeps (P := fun m => Memory.wf m = true) (fun m x => writeByte m x (foreignByte s x))
        (fun m x h => wf_writeByte m x _ h) _ s.mem
    generalize (takenLocs (dataLoc a / 128 * 128)).foldl (fun m x => writeByte m x (foreignByte s x)) s.mem = m at hb hw ⊢
    generalize List.foldl _ s.hist _ = h
    refine ⟨rfl, fun l => ?_, hb, hw⟩
    by_cases h : l = lineOf (dataLoc a)
    · exact .inr ⟨a, hc, h.symm, by rw [h, hl.1, hl.2, AMap.get?_insert_self]⟩
    · exact .inl (by rw [hl.1]; exact AMap.get?_insert_ne _ _ h)
  · exact .refl s cs

@[simp] theorem ownLineOf_mem (s : State) (a : Nat) : (ownLineOf s a).mem = s.mem := by
  unfold ownLineOf; split <;> rfl

theorem ownLineOf_kept (s : State) (a : Nat) : OrderKept s (ownLineOf s a) := by
  unfold ownLineOf; split <;> rfl

@[simp] theorem writeCell_mem (w : Nat) (s : State) (c : Nat × Byte) : (writeCell w s c).mem = writeByte s.mem c.1 c.2 := by
  simp [writeCell]

theorem ownLineOf_step {s : State} {a : Nat} {cs : Nat → Prop} (hc : cs a) : OrderStep s (ownLineOf s a) cs := by
  refine ⟨ownLineOf_kept s a, fun l => ?_, fun _ _ _ => by rw [ownLineOf_mem], fun w => by unfold MemOk; rw [ownLineOf_mem]; exact w⟩
  unfold ownLineOf
  split
  · next h =>
    by_cases hl : l = lineOf a
    · exact .inr ⟨a, hc, by unfold dataLoc; rw [if_pos h, hl], by unfold dataLoc; rw [if_pos h]; simp [hl]⟩
    · exact .inl (AMap.get?_insert_ne _ _ hl)
  · exact .inl rfl

theorem writeCell_step {w : Nat} {s : State} {c : Nat × Byte} {cs : Nat → Prop} (hc : cs c.1) : OrderStep s (writeCell w s c) cs := by
  refine OrderStep.trans (t := { s with hist := s.hist.insert c.1 ⟨initOf s c.1, coOf s c.1 ++ [(w, c.2)]⟩,
                                        mem := writeByte s.mem c.1 c.2 }) ⟨rfl, fun _ => .inl rfl, fun r hr _ => ?_, fun hw => ?_⟩ (ownLineOf_step hc)
  · exact readByte_writeByte_ne _ _ (fun h => hr (h ▸ hc))
  · exact wf_writeByte _ _ _ hw

theorem addVis_foldl_step {cs : Nat → Prop} (pts : List Point) (w : Nat) (s : State) :
    OrderStep s (pts.foldl (fun s p => addVis s p w) s) cs :=
  OrderStep.foldl _ _ (fun s p _ => .of_kept (addVis_kept s p w) (addVis_mem ..) (addVis_owner ..)) s

/-- A performed write changes the ordering machine alone, and of memory its cells and the lines that it takes (R319, R393). -/
theorem performCells_step {s : State} {cells : List (Nat × Byte)} (pts : List Point) {cs : Nat → Prop}
    (hc : ∀ c ∈ cells, cs c.1 ∧ isLoc c.1) : OrderStep s (performCells s cells pts).2 cs := by
  simp only [performCells, dropCells]
  have hk : ∀ c ∈ cells.filter (fun c => !portLost s c.1), cs c.1 ∧ isLoc c.1 := fun c h => hc c (List.mem_filter.1 h).1
  generalize cells.filter (fun c => !portLost s c.1) = kept at hk ⊢
  generalize List.foldl _ s.dropped _ = dr
  have h0 : OrderStep s { s with dropped := dr } cs := .of_kept rfl rfl rfl
  have h1 := OrderStep.foldl (cs := cs) (fun s (c : Nat × Byte) => takeLine s c.1) kept (fun s c h => takeLine_step (hk c h).1 (hk c h).2)
    { s with dropped := dr }
  generalize List.foldl (fun s (c : Nat × Byte) => takeLine s c.1) { s with dropped := dr } kept = s1 at h1 ⊢
  have h2 := OrderStep.foldl (cs := cs) (writeCell s.nextWrite) kept (fun s c h => writeCell_step (hk c h).1) s1
  generalize List.foldl (writeCell s.nextWrite) s1 kept = s2 at h2 ⊢
  have h3 : OrderStep s2 { s2 with nextWrite := s.nextWrite + 1 } cs := .of_kept rfl rfl rfl
  exact (((h0.trans h1).trans h2).trans h3).trans (addVis_foldl_step pts _ _)

theorem memOk_takeLine {s : State} (h : MemOk s) (a : Nat) : MemOk (takeLine s a) := by
  rw [takeLine_eq]
  split
  · exact foldl_keeps (P := fun m => Memory.wf m = true) (fun m x => writeByte m x (foreignByte s x))
      (fun m x h => wf_writeByte m x _ h) _ s.mem h
  · exact h

theorem memOk_writeCell {s : State} (h : MemOk s) (w : Nat) (c : Nat × Byte) : MemOk (writeCell w s c) :=
  (writeCell_step (cs := fun _ => True) trivial).wf h

theorem memOk_performCells {s : State} (h : MemOk s) (cells : List (Nat × Byte)) (pts : List Point) :
    MemOk (performCells s cells pts).2 := by
  simp only [performCells]
  refine foldl_keeps (P := MemOk) _ (fun s p hs => by unfold MemOk; rw [addVis_mem]; exact hs) _ _ ?_
  refine foldl_keeps (P := MemOk) (writeCell s.nextWrite) (fun s c hs => memOk_writeCell hs _ c) _ _ ?_
  refine foldl_keeps (P := MemOk) (fun s (c : Nat × Byte) => takeLine s c.1) (fun s c hs => memOk_takeLine hs _) _ _ ?_
  exact h

/-- A byte that a performed write names holds the last of its cells, where its port is up (R319, R392). -/
theorem readByte_foldl_writeCell (w : Nat) (cells : List (Nat × Byte)) : ∀ (s : State) (a : Nat),
    readByte (cells.foldl (writeCell w) s).mem a = (lastCell cells a).getD (readByte s.mem a) := by
  induction cells with
  | nil => intro s a; rfl
  | cons c l ih =>
    intro s a
    rw [List.foldl_cons, ih]
    have hl : lastCell (c :: l) a = (lastCell l a).or (if c.1 = a then some c.2 else none) := by
      simp only [lastCell, List.reverse_cons, List.find?_append]
      cases List.find? (fun c => c.1 == a) l.reverse with
      | some x => rfl
      | none => by_cases h : c.1 = a <;> simp [h]
    rw [hl, writeCell_mem, readByte_writeByte]
    cases lastCell l a with
    | some x => rfl
    | none => by_cases h : c.1 = a <;> simp [h, Ne.symm]

@[simp] theorem raiseBound_mem (s : State) (q : Nat) (path : Path) (a w : Nat) : (raiseBound s q path a w).mem = s.mem := by
  unfold raiseBound; split <;> rfl

@[simp] theorem stampStore_mem (s : State) (core line : Nat) : (stampStore s core line).mem = s.mem := rfl

/-- A performed write of a party, beside the bounds of its bytes, the times of its lines and its stamp: the write itself. -/
@[simp] theorem performAt_mem (s : State) (q : Nat) (cells : List (Nat × Byte)) (pts : List Point) :
    (performAt s q cells pts).2.mem = (performCells s cells pts).2.mem := by
  simp only [performAt]
  rw [mem_foldl (fun s l => stampStore s (coreIx s q) l) (fun _ _ => rfl),
    mem_foldl (fun u (c : Nat × Byte) => raiseBound u q .general c.1 (performCells s cells pts).1)
      (fun _ _ => raiseBound_mem _ _ _ _ _)]

theorem memOk_performAt {s : State} (h : MemOk s) (q : Nat) (cells : List (Nat × Byte)) (pts : List Point) :
    MemOk (performAt s q cells pts).2 := by
  unfold MemOk; rw [performAt_mem]; exact memOk_performCells h _ _

theorem memOk_resetBytes {s : State} (h : MemOk s) (as : List Nat) (b : Byte) : MemOk (resetBytes s as b) :=
  foldl_keeps (P := MemOk) (fun s a => { s with hist := s.hist.erase a, mem := writeByte s.mem a b })
    (fun s a hs => wf_writeByte s.mem a b hs) as s h

/-- A block save record leaves memory in its form (R422). -/
theorem memOk_saveBlock {s : State} (h : MemOk s) (b : Nat) : MemOk (saveBlock s b) := by
  unfold saveBlock
  split
  · next x c _ _ =>
    simp only [MemOk, Memory.wf]
    have key : ∀ (base : Nat) (l : AMap Byte), (∀ e ∈ l, e.1 < 0x400000) → ∀ (m : AMap Byte),
        AMap.wf m memDefault = true → (∀ x ∈ m, base ≤ x.1 ∧ x.1 < base + 0x400000) →
        AMap.wf (l.foldl (fun (m : AMap Byte) e => m.put (base + e.1) e.2 memDefault) m) memDefault = true ∧
        ∀ x ∈ l.foldl (fun (m : AMap Byte) e => m.put (base + e.1) e.2 memDefault) m, base ≤ x.1 ∧ x.1 < base + 0x400000 := by
      intro base l
      induction l with
      | nil => intro _ m hm hx; exact ⟨hm, hx⟩
      | cons e l ih =>
        intro hl m hm hx
        rw [List.foldl_cons]
        refine ih (fun d hd => hl d (List.mem_cons_of_mem _ hd)) _ (AMap.wf_put _ _ _ _ hm) ?_
        intro x hxm
        rcases AMap.mem_put _ _ _ _ hxm with h1 | h1
        · have := hl e (List.mem_cons_self ..)
          omega
        · exact hx x h1
    generalize locOf c.ctx ((descOf s c.ctx).savePa + 0x400000 * x.save) = base
    have hf : ∀ e ∈ ((saveBytes s b x).filter (fun (e : Nat × Byte) => decide (e.1 < 0x400000))).filter
        (fun e => !portLost s (base + e.1)), e.1 < 0x400000 := by
      intro e he; simpa using (List.mem_filter.1 (List.mem_filter.1 he).1).2
    obtain ⟨h1, h2⟩ := key base _ hf
      (s.mem.filter (fun (e : Nat × Byte) => decide (base ≤ e.1) && decide (e.1 < base + 0x400000) && portLost s e.1))
      (AMap.wf_filter _ _ _ h) (by
        intro e he
        have := (List.mem_filter.1 he).2
        simp only [Bool.and_eq_true, decide_eq_true_eq] at this
        exact this.1)
    have h3 := AMap.wf_splice memDefault s.mem _ _ _ h h1 h2 (by omega)
    exact AMap.wf_splice memDefault _ _ _ _ h3 rfl (by simp) (by omega)
  · exact h

end Sys2Proof.Machine
end

