-- ==== Sys2Proof/Laws/Lines.lean ====
section
/-!
SUPPORT. What the directory and the caches change where lines move (spec/18 R379-R389, spec/15 R309): one lemma for each
operation of Machine/Lines.lean, each saying that it is `LinesMoved`; and the writes whose lines come to their writer first.
-/
namespace Sys2Proof.Machine

theorem LinesMoved.refl (s : State) : LinesMoved s s := ⟨rfl, fun _ => rfl⟩

theorem LinesMoved.trans {s t u : State} (h1 : LinesMoved s t) (h2 : LinesMoved t u) : LinesMoved s u where
  fields := by have a := h1.fields; have b := h2.fields; rw [b, a]
  cores c := (h2.cores c).trans (h1.cores c)

theorem LinesMoved.foldl {α : Type} (f : State → α → State) (h : ∀ s x, LinesMoved s (f s x)) (l : List α) :
    ∀ s, LinesMoved s (l.foldl f s) := by
  induction l with
  | nil => intro s; exact .refl s
  | cons x l ih => intro s; exact (h s x).trans (ih _)

/-- A change of the directory's own fields. -/
theorem LinesMoved.dir {s t : State}
    (h : t = { s with undone := t.undone, vis := t.vis, dir := t.dir, dirReqs := t.dirReqs, dieLine := t.dieLine, sectors := t.sectors,
                      victims := t.victims, backInvs := t.backInvs, dirPtr := t.dirPtr }) : LinesMoved s t := by
  have hc : t.cores = s.cores := by rw [h]
  have hy : t.cycle = s.cycle := by rw [h]
  refine ⟨?_, fun c => by simp only [coreOf, hc, hy]⟩
  rw [hc]; exact h

theorem LinesMoved.setCore {s : State} {core : Nat} {x : Core}
    (h : ({ x with victims := [], l1 := [], ro := [] } : Core) = { coreOf s core with victims := [], l1 := [], ro := [] }) :
    LinesMoved s (setCore s core x) where
  fields := rfl
  cores c := by
    by_cases hc : c = core
    · subst hc; simpa using h
    · simp [hc]

theorem LinesMoved.mem {s t : State} (h : LinesMoved s t) : t.mem = s.mem := by rw [h.fields]
theorem LinesMoved.owner {s t : State} (h : LinesMoved s t) : t.owner = s.owner := by rw [h.fields]
theorem LinesMoved.parties {s t : State} (h : LinesMoved s t) : t.parties = s.parties := by rw [h.fields]

/-! ### Lines of caches -/

theorem moved_dropL1 (s : State) (core : Nat) (f : L1Line → Bool) : LinesMoved s (dropL1 s core f) := .setCore rfl
theorem moved_writeBackL1 (s : State) (core : Nat) (f : L1Line → Bool) : LinesMoved s (writeBackL1 s core f) := .setCore rfl
theorem moved_dropRo (s : State) (core : Nat) (f : RoLine → Bool) : LinesMoved s (dropRo s core f) := .setCore rfl

theorem moved_setHeldBy (s : State) (d line : Nat) (x : DirSt) : LinesMoved s (setHeldBy s d line x) := .dir rfl
theorem moved_setSectors (s : State) (d line : Nat) (x : BitVec 8) : LinesMoved s (setSectors s d line x) := .dir rfl
theorem moved_setReqs (s : State) (line : Nat) (l : List DirReq) : LinesMoved s (setReqs s line l) := .dir rfl
theorem moved_setVictim (s : State) (d line : Nat) (x : WbSt) : LinesMoved s (setVictim s d line x) := .dir rfl
theorem moved_dropVictim (s : State) (d line : Nat) : LinesMoved s (dropVictim s d line) := .dir rfl
theorem moved_swapEntry (s : State) (home : Nat) (x : DirEntry) (ys : List DirEntry) : LinesMoved s (swapEntry s home x ys) := .dir rfl

theorem moved_dropCopies (s : State) (d line : Nat) : LinesMoved s (dropCopies s d line) := by
  unfold dropCopies
  simp only
  refine LinesMoved.trans (LinesMoved.foldl _ (fun s c => ?_) _ s) ((moved_setHeldBy ..).trans (moved_setSectors ..))
  split
  · exact (moved_dropL1 ..).trans (moved_dropRo ..)
  · exact .refl s

/-! ### Data of lines -/

theorem moved_addVis (s : State) (pt : Point) (w : Nat) : LinesMoved s (addVis s pt w) := by
  unfold addVis; split
  · exact .refl s
  · exact .dir rfl

theorem moved_passLine (s : State) (line : Nat) (pts : List Point) : LinesMoved s (passLine s line pts) := by
  unfold passLine
  exact .foldl _ (fun s w => .foldl _ (fun s pt => moved_addVis s pt _) _ s) _ s

/-! ### Requests -/

theorem moved_rotateReqs (s : State) (line : Nat) (l : List DirReq) : LinesMoved s (rotateReqs s line l).1 := by
  unfold rotateReqs
  split
  · exact .refl s
  · simp only
    split
    · exact .refl s
    · split
      · exact .dir rfl
      · exact .refl s

theorem moved_planOf {s : State} {line : Nat} {p : Plan} (h : planOf s line = some p) : LinesMoved s p.s := by
  unfold planOf at h
  simp only at h
  have hr := moved_rotateReqs s line (reqsOf s line)
  split at h
  · cases h
  · split at h <;> (injection h with h; rw [← h]; exact hr)

theorem moved_planDone (p : Plan) (line : Nat) : LinesMoved p.s (planDone p line) := by
  unfold planDone
  simp only
  split
  · exact .dir rfl
  · exact moved_swapEntry ..

theorem moved_serveWhen {early : Bool} {s : State} {line : Nat} {x : State × DirReq × List DirReq}
    (h : serveWhen early s line = some x) : LinesMoved s x.1 := by
  unfold serveWhen at h
  split at h
  · cases h
  · split at h
    · injection h with h; rw [← h]; exact .refl s
    · split at h
      · cases h
      · split at h
        · next p hp =>
          split at h
          · injection h with h; rw [← h]; exact (moved_planOf hp).trans (moved_planDone p line)
          · cases h
        · cases h

theorem moved_putHead (s : State) (line : Nat) (r : DirReq) (l : List DirReq) : LinesMoved s (putHead s line r l) := moved_setReqs ..
theorem moved_askHome (s : State) (line : Nat) (k : DirKind) (d : Nat) : LinesMoved s (askHome s line k d) := moved_setReqs ..

theorem moved_record (s : State) (line : Nat) (r : DirReq) : LinesMoved s (record s line r) := by
  unfold record
  split
  · exact .refl s
  · exact moved_swapEntry ..

theorem moved_fwdSTo (s : State) (line x : Nat) (r : DirReq) (l : List DirReq) : LinesMoved s (fwdSTo s line x r l) :=
  ((moved_passLine ..).trans (moved_setHeldBy ..)).trans (moved_putHead ..)

theorem moved_fwdMTo (s : State) (line x : Nat) (r : DirReq) (l : List DirReq) : LinesMoved s (fwdMTo s line x r l) :=
  (((moved_passLine ..).trans (moved_dropCopies ..)).trans (moved_setSectors ..)).trans (moved_putHead ..)

theorem moved_missAt (s : State) (line x : Nat) (r : DirReq) (l : List DirReq) : LinesMoved s (missAt s line x r l) := moved_putHead ..

theorem moved_invAt (s : State) (line d : Nat) (r : DirReq) (l : List DirReq) : LinesMoved s (invAt s line d r l) :=
  (moved_dropCopies ..).trans (moved_putHead ..)

theorem moved_ackFrom (s : State) (line d : Nat) (r : DirReq) (l : List DirReq) : LinesMoved s (ackFrom s line d r l) := moved_putHead ..

theorem moved_finishReq (s : State) (line : Nat) (r : DirReq) (l : List DirReq) : LinesMoved s (finishReq s line r l) := by
  unfold finishReq
  simp only
  refine LinesMoved.trans ?_ (moved_setReqs ..)
  refine LinesMoved.trans ?_ (moved_setHeldBy ..)
  refine LinesMoved.trans ?_ (moved_record ..)
  refine LinesMoved.trans ?_ (moved_setSectors ..)
  split
  · exact moved_passLine ..
  · exact .refl s

/-! ### Write-backs and back-invalidations -/

theorem moved_writeBack (s : State) (d line : Nat) (e : DirEntry) (ys : List DirEntry) : LinesMoved s (writeBack s d line e ys) :=
  (((moved_passLine ..).trans (moved_dropCopies ..)).trans (moved_dropVictim ..)).trans (moved_swapEntry ..)

theorem moved_freeBacked (s : State) (b : BackInv) : LinesMoved s (freeBacked s b) := by
  unfold freeBacked
  split <;> exact .dir rfl

theorem moved_startBack (s : State) (home : Nat) (e : DirEntry) : LinesMoved s (startBack s home e) :=
  LinesMoved.trans (.dir rfl) (moved_freeBacked ..)

theorem moved_backAt (s : State) (d line : Nat) (b : BackInv) : LinesMoved s (backAt s d line b) :=
  ((moved_dropCopies ..).trans (moved_dropVictim ..)).trans (moved_freeBacked ..)

theorem moved_backAck (s : State) (d line : Nat) (b : BackInv) : LinesMoved s (backAck s d line b) :=
  (moved_passLine ..).trans (moved_freeBacked ..)

theorem moved_endBack (s : State) (home base : Nat) : LinesMoved s (endBack s home base) := by
  unfold endBack
  split
  · exact .refl s
  · simp only
    refine LinesMoved.trans (.foldl _ (fun s x => ?_) _ s) (.foldl _ (fun s x => ?_) _ _)
    · split
      · exact moved_backAt ..
      · exact .refl s
    · split
      · exact moved_backAck ..
      · exact .refl s

/-! ### An access that needs a line -/

theorem moved_makeRoom (n : Nat) : ∀ (s : State) (line : Nat) (x : Option DirEntry) (ys : List DirEntry),
    LinesMoved s (makeRoom n s line x ys) := by
  induction n with
  | zero => intro s line x ys; exact .refl s
  | succ n ih =>
    intro s line x ys
    unfold makeRoom
    simp only
    split
    · exact .refl s
    · split
      · exact ((moved_startBack ..).trans (moved_endBack ..)).trans (ih _ _ _ _)
      · exact .refl s

theorem moved_settleVictim (s : State) (v : Victim) : LinesMoved s (settleVictim s v) := by
  unfold settleVictim
  split
  · exact .refl s
  · split
    · exact moved_dropVictim ..
    · split
      · exact moved_dropVictim ..
      · simp only
        split
        · exact (moved_makeRoom ..).trans (moved_writeBack ..)
        · exact moved_makeRoom ..

theorem moved_settleLine (s : State) (line : Nat) : LinesMoved s (settleLine s line) := by
  unfold settleLine
  simp only
  exact LinesMoved.trans (.foldl _ (fun s v => moved_settleVictim ..) _ s) (.foldl _ (fun s b => moved_endBack ..) _ _)

theorem moved_roomForHead (s : State) (line : Nat) : LinesMoved s (roomForHead s line) := by
  unfold roomForHead
  split
  · split
    · exact .refl _
    · split
      · exact moved_makeRoom ..
      · exact .refl _
  · exact .refl _

theorem moved_answerFwd (s : State) (line : Nat) (r : DirReq) (l : List DirReq) : LinesMoved s (answerFwd s line r l) := by
  unfold answerFwd
  split
  · exact moved_putHead ..
  · split
    · exact moved_missAt ..
    · split
      · exact moved_fwdSTo ..
      · exact moved_fwdMTo ..

theorem moved_atHead {f : DirReq → List DirReq → State} {s : State} {line : Nat} (h : ∀ r l, LinesMoved s (f r l)) :
    LinesMoved s (atHead f s line) := by
  unfold atHead
  split
  · exact h _ _
  · exact .refl s

theorem moved_finishHead (s : State) (line : Nat) : LinesMoved s (finishHead s line) := by
  unfold finishHead
  split
  · simp only
    split
    · exact (moved_makeRoom ..).trans (moved_finishReq ..)
    · exact moved_makeRoom ..
  · exact moved_finishReq ..
  · exact .refl s

theorem moved_driveHead (s : State) (line : Nat) : LinesMoved s (driveHead s line) := by
  unfold driveHead
  simp only
  split
  · exact moved_roomForHead ..
  · next s1 r l hs =>
    split
    · exact moved_roomForHead ..
    have h1 : LinesMoved _ s1 := moved_serveWhen hs
    refine (moved_roomForHead ..).trans (h1.trans ((moved_answerFwd s1 line r l).trans ?_))
    have h2 (ds : List Nat) (u : State) : LinesMoved u (ds.foldl (fun s d => atHead (invAt s line d) s line) u) :=
      .foldl _ (fun s d => moved_atHead (moved_invAt s line d)) ds u
    have h3 (ds : List Nat) (u : State) : LinesMoved u (ds.foldl (fun s d => atHead (ackFrom s line d) s line) u) :=
      .foldl _ (fun s d => moved_atHead (moved_ackFrom s line d)) ds u
    exact (h2 _ _).trans ((h3 _ _).trans (moved_finishHead _ line))

theorem moved_driveAll (n : Nat) : ∀ (s : State) (line : Nat), LinesMoved s (driveAll n s line) := by
  induction n with
  | zero => intro s line; exact .refl s
  | succ n ih =>
    intro s line
    unfold driveAll
    split
    · exact .refl s
    · exact (moved_driveHead ..).trans (ih _ _)

theorem moved_fetchLine (s : State) (d line : Nat) (k : DirKind) : LinesMoved s (fetchLine s d line k) := by
  have h0 (u : State) (b : Bool) : LinesMoved u { u with undone := b } := .dir rfl
  unfold fetchLine
  simp only
  have h2 := ((moved_settleLine s line).trans (moved_driveAll (reqsOf (settleLine s line) line).length _ line)).trans (moved_settleLine _ line)
  split
  · split
    · exact h2.trans ((moved_askHome ..).trans (moved_driveHead ..))
    · exact h2.trans (((moved_askHome ..).trans (moved_driveHead ..)).trans (h0 ..))
  · exact h2.trans (h0 ..)

theorem moved_noteAccess (s : State) (d line : Nat) : LinesMoved s (noteAccess s d line) := by
  unfold noteAccess
  split
  · exact moved_setReqs ..
  · exact .refl s

theorem moved_holdLine (s : State) (d line : Nat) : LinesMoved s (holdLine s d line) := by
  unfold holdLine
  refine LinesMoved.trans ?_ (moved_noteAccess ..)
  split
  · exact moved_fetchLine ..
  · exact .refl s

theorem moved_takeOwn (s : State) (d line : Nat) : LinesMoved s (takeOwn s d line) := by
  unfold takeOwn
  split
  · exact .refl s
  · exact .refl s
  · exact moved_fetchLine ..
  · exact moved_fetchLine ..

theorem moved_ownLine (s : State) (d line : Nat) : LinesMoved s (ownLine s d line) := by
  unfold ownLine
  refine (moved_takeOwn s d line).trans (LinesMoved.trans ?_ (moved_noteAccess ..))
  split
  · exact moved_setHeldBy ..
  · exact .refl _

theorem moved_dirtySectors (s : State) (d : Nat) (as : List Nat) : LinesMoved s (dirtySectors s d as) := by
  unfold dirtySectors
  refine .foldl _ (fun s a => ?_) _ s
  simp only
  split
  · exact .refl s
  · exact moved_setSectors ..

/-! ### Writes -/

theorem moved_writeThrough (s : State) (f : Nat → Nat) (ls : List Nat) : LinesMoved s (writeThrough s f ls) :=
  .foldl _ (fun _ _ => (moved_passLine ..).trans (moved_setSectors ..)) _ s

/-- A write whose lines come to their dies first: the lines have moved, it is performed, and lines move again (R404). -/
theorem moved_performIn (s : State) (q : Nat) (f : Nat → Nat) (cells : List (Nat × Byte)) (pts : List Point) :
    ∃ u, LinesMoved s u ∧ (performIn s q f cells pts).1 = (performAt u q cells pts).1 ∧
      LinesMoved (performAt u q cells pts).2 (performIn s q f cells pts).2 :=
  ⟨_, (LinesMoved.foldl _ (fun _ _ => moved_ownLine ..) _ s).trans (.foldl _ (fun _ _ => moved_dirtySectors ..) _ _), rfl,
    moved_writeThrough ..⟩

theorem moved_homeWrite (s : State) (cells : List (Nat × Byte)) :
    ∃ u, LinesMoved s u ∧ homeWrite s cells = (linesOf cells).foldl stampHome (performCells u cells (pointsFrom .pkg)).2 :=
  ⟨_, (LinesMoved.foldl _ (fun _ _ => moved_ownLine ..) _ s).trans (.foldl _ (fun _ _ => moved_dirtySectors ..) _ _), rfl⟩

theorem LinesMoved.memOk {s t : State} (h : LinesMoved s t) (w : MemOk s) : MemOk t := by unfold MemOk; rw [h.mem]; exact w

theorem memOk_performIn {s : State} (h : MemOk s) (q : Nat) (f : Nat → Nat) (cells : List (Nat × Byte)) (pts : List Point) :
    MemOk (performIn s q f cells pts).2 := by
  obtain ⟨u, h1, _, h2⟩ := moved_performIn s q f cells pts
  exact h2.memOk (memOk_performAt (h1.memOk h) _ _ _)

theorem memOk_performBy {s : State} (h : MemOk s) (q : Nat) (cells : List (Nat × Byte)) (pts : List Point) :
    MemOk (performBy s q cells pts).2 := memOk_performIn h _ _ _ _

theorem memOk_performAtomic {s : State} (h : MemOk s) (q : Nat) (sc : Scope) (cells : List (Nat × Byte)) (pts : List Point) :
    MemOk (performAtomic s q sc cells pts).2 := memOk_performIn h _ _ _ _

theorem memOk_homeWrite {s : State} (h : MemOk s) (cells : List (Nat × Byte)) : MemOk (homeWrite s cells) := by
  obtain ⟨u, h1, h2⟩ := moved_homeWrite s cells
  rw [h2]
  exact foldl_keeps (P := MemOk) stampHome (fun _ _ hs => hs) _ _ (memOk_performCells (h1.memOk h) _ _)

theorem memOk_deviceWrite {s : State} (h : MemOk s) (loc : Nat) (bs : List Byte) : MemOk (deviceWrite s loc bs) :=
  memOk_homeWrite h _

end Sys2Proof.Machine
end

