-- ==== Sys2Proof/Laws/Look.lean ====
section
/-!
SUPPORT. What looking up an address and reading leave behind (spec/14 R295-R299, spec/15 R313, R318-R320): the walk, the TLB,
the caches and the bounds. Every lemma says that the operation is `Looked`.
-/
namespace Sys2Proof.Machine

theorem Looked.refl (s : State) (q : Nat) (xs : List Tlb) : Looked s s q xs :=
  ⟨rfl, fun _ _ => rfl, rfl, fun _ => ⟨rfl, rfl⟩, fun _ h => h, fun _ => .inl rfl, fun _ _ _ => rfl⟩

theorem Steady.mono {s : State} {es fs : Nat → Prop} {a : Nat} (h : Steady s fs a) (hs : ∀ b, es b → fs b) : Steady s es a :=
  fun b hb hl => h b (hs b hb) hl

theorem Looked.entry {s t : State} {q : Nat} {xs : List Tlb} (h : Looked s t q xs) {a : Nat} (ha : EntryByte s xs a) :
    EntryByte t xs a := ha.imp (h.grows a) id

theorem Looked.ownerCode {s t : State} {q : Nat} {xs : List Tlb} (h : Looked s t q xs) (k : Nat) : ownerCode t k = ownerCode s k := by
  have : t.keyGen = s.keyGen := by rw [h.fields]
  simp only [Machine.ownerCode, this]

/-- A line that lookups leave to its key stays so. -/
theorem Looked.steady {s t : State} {q : Nat} {xs : List Tlb} (h : Looked s t q xs) {es : Nat → Prop} {a : Nat}
    (he : ∀ b, EntryByte t xs b → es b) (hs : Steady s es a) : Steady t es a := by
  intro b hb hl
  obtain ⟨hk, hf⟩ := hs b hb hl
  refine ⟨hk, ?_⟩
  rcases h.owner (lineOf (dataLoc a)) with ho | ⟨b', hb', hl', ho⟩
  · simpa only [foreign, ho, h.ownerCode] using hf
  · have hk' := (hs b' (he b' hb') hl'.symm).1
    simp [foreign, ho, h.ownerCode, hk']

theorem Looked.trans {s t u : State} {q : Nat} {xs : List Tlb} (h1 : Looked s t q xs) (h2 : Looked t u q xs) :
    Looked s u q xs where
  fields := by have a := h1.fields; have b := h2.fields; rw [b, a]
  others r hr := (h2.others r hr).trans (h1.others r hr)
  own := h2.own.trans h1.own
  cores c := ⟨(h2.cores c).1.trans (h1.cores c).1, (h2.cores c).2.trans (h1.cores c).2⟩
  grows a h := h2.grows a (h1.grows a h)
  owner l := by
    rcases h2.owner l with ho | ⟨b, hb, hl, ho⟩
    · rcases h1.owner l with hp | ⟨b, hb, hl, hp⟩
      · exact .inl (ho.trans hp)
      · exact .inr ⟨b, h2.entry hb, hl, ho.trans hp⟩
    · exact .inr ⟨b, hb, hl, by rw [ho, h1.ownerCode]⟩
  bytes a ha hs :=
    (h2.bytes a ha (h1.steady (fun _ hb => h2.entry hb) hs)).trans
      (h1.bytes a (fun h => ha (h2.entry h)) (hs.mono (fun _ hb => h2.entry hb)))

theorem Looked.mono {s t : State} {q : Nat} {xs ys : List Tlb} (h : Looked s t q xs) (hs : ∀ x ∈ xs, x ∈ ys) :
    Looked s t q ys := by
  have he : ∀ a, EntryByte t xs a → EntryByte t ys a := fun a ha => ha.imp id (fun ⟨x, hx, hl⟩ => ⟨x, hs x hx, hl⟩)
  exact ⟨h.fields, h.others, h.own, h.cores, h.grows,
    fun l => (h.owner l).imp id (fun ⟨b, hb, hl, ho⟩ => ⟨b, he b hb, hl, ho⟩),
    fun a ha hy => h.bytes a (fun h => ha (he a h)) (hy.mono he)⟩

/-- The leaf entries of translations that a TLB holds need not be named. -/
theorem Looked.absorb {s t : State} {q : Nat} {xs : List Tlb} (h : Looked s t q xs)
    (hx : ∀ x ∈ xs, ∃ c, x ∈ (clusterOf t c).tlb) : Looked s t q [] := by
  have he : ∀ a, EntryByte t xs a → EntryByte t [] a := fun a ha => .inl (ha.elim id (fun ⟨x, hm, hl⟩ =>
    let ⟨c, hc⟩ := hx x hm; ⟨c, x, hc, hl⟩))
  exact ⟨h.fields, h.others, h.own, h.cores, h.grows,
    fun l => (h.owner l).imp id (fun ⟨b, hb, hl, ho⟩ => ⟨b, he b hb, hl, ho⟩),
    fun a ha hy => h.bytes a (fun h => ha (he a h)) (hy.mono he)⟩

theorem Looked.foldl {α : Type} {q : Nat} {xs : List Tlb} (f : State → α → State) (l : List α)
    (h : ∀ s, ∀ x ∈ l, Looked s (f s x) q xs) : ∀ s, Looked s (l.foldl f s) q xs := by
  induction l with
  | nil => intro s; exact Looked.refl s q xs
  | cons x l ih =>
    intro s
    exact (h s x (List.mem_cons_self ..)).trans (ih (fun s y hy => h s y (List.mem_cons_of_mem _ hy)) _)

/-- A party that is there stays there. -/
theorem Looked.party {s t : State} {q : Nat} {xs : List Tlb} (h : Looked s t q xs) {p : Party}
    (hp : s.parties.get? q = some p) : ∃ p', t.parties.get? q = some p' ∧ p' = { p with bnd := p'.bnd, scs := p'.scs } := by
  have ho := h.own
  rw [hp] at ho
  cases ht : t.parties.get? q with
  | none => rw [ht] at ho; cases ho
  | some p' =>
    rw [ht] at ho
    simp only [Option.map_some, Option.some.injEq] at ho
    refine ⟨p', rfl, ?_⟩
    have h2 := congrArg (fun p : Party => ({ p with bnd := p'.bnd, scs := p'.scs } : Party)) ho
    exact h2

/-! ### Single changes -/

theorem clusterOf_eq {s t : State} (h : t.clusters = s.clusters) (c : Nat) : clusterOf t c = clusterOf s c := by
  simp only [clusterOf, h]

/-- The ordering machine has written leaf entries of `xs` at most. -/
theorem Looked.ofOrder {s t : State} {q : Nat} {xs : List Tlb} (h : OrderStep s t (fun a => ∃ x ∈ xs, LeafByte x a)) :
    Looked s t q xs := by
  have hk := h.kept
  have hc : t.clusters = s.clusters := by rw [hk]
  refine ⟨?_, fun r _ => by rw [hk], by rw [hk], fun c => ?_, fun a ⟨c, x, hx, hl⟩ => ⟨c, x, by rw [clusterOf_eq hc]; exact hx, hl⟩,
    fun l => (h.owner l).imp id (fun ⟨b, hb, hl, ho⟩ => ⟨b, .inr hb, hl, ho⟩),
    fun a ha hs => h.bytes a (fun hx => ha (.inr hx)) (hs.mono (fun _ hb => .inr hb))⟩
  · unfold OrderKept at hk
    generalize t.mem = m, t.owner = o at *
    rw [hk]
  · have h1 : coreOf t c = coreOf s c := by
      have : t.cores = s.cores := by rw [hk]
      have h2 : t.cycle = s.cycle := by rw [hk]
      simp only [coreOf, this, h2]
    rw [h1]; exact ⟨rfl, rfl⟩

/-- Lines that move change no byte of memory and no owner. -/
theorem LinesMoved.looked {s t : State} (h : LinesMoved s t) (q : Nat) (xs : List Tlb) : Looked s t q xs where
  fields := by have := h.fields; rw [this]
  others r _ := by rw [h.fields]
  own := by rw [h.fields]
  cores c := by
    have := h.cores c
    have ho := congrArg Core.octs this
    simp only at ho
    exact ⟨congrArg (fun x : Core => { x with octs := [], pts := 0 }) this, by rw [ho]⟩
  grows a ha := by
    obtain ⟨c, x, hx, hl⟩ := ha
    exact ⟨c, x, by rw [clusterOf_eq (by rw [h.fields])]; exact hx, hl⟩
  owner l := .inl (by rw [h.owner])
  bytes a _ _ := by rw [h.mem]

theorem Looked.setCore {s : State} {q : Nat} {xs : List Tlb} {core : Nat} {x : Core}
    (h1 : ({ x with octs := [], victims := [], pts := 0, l1 := [], ro := [] } : Core) =
      { coreOf s core with octs := [], victims := [], pts := 0, l1 := [], ro := [] })
    (h2 : x.octs.map (fun o => ({ o with events := 0 } : Octant)) = (coreOf s core).octs.map (fun o => { o with events := 0 })) :
    Looked s (setCore s core x) q xs where
  fields := rfl
  others r hr := rfl
  own := rfl
  cores c := by
    by_cases hc : c = core
    · subst hc; simp only [coreOf_setCore_self]; exact ⟨h1, h2⟩
    · simp [hc]
  grows a ha := ha
  owner l := .inl rfl
  bytes a ha hx := rfl

theorem Looked.ts {s : State} {q : Nat} {xs : List Tlb} (x : AMap (Nat × Nat)) : Looked s { s with ts := x } q xs :=
  ⟨rfl, fun _ _ => rfl, rfl, fun _ => ⟨rfl, rfl⟩, fun _ h => h, fun _ => .inl rfl, fun _ _ _ => rfl⟩

theorem Looked.draws {s : State} {q : Nat} {xs : List Tlb} (n : Nat) : Looked s { s with draws := n } q xs :=
  ⟨rfl, fun _ _ => rfl, rfl, fun _ => ⟨rfl, rfl⟩, fun _ h => h, fun _ => .inl rfl, fun _ _ _ => rfl⟩

theorem Looked.vis {s : State} {q : Nat} {xs : List Tlb} (v : List (Point × List Nat)) : Looked s { s with vis := v } q xs :=
  ⟨rfl, fun _ _ => rfl, rfl, fun _ => ⟨rfl, rfl⟩, fun _ h => h, fun _ => .inl rfl, fun _ _ _ => rfl⟩

theorem Looked.tgPages {s : State} {q : Nat} {xs : List Tlb} (x : AMap (Nat × Nat)) : Looked s { s with tgPages := x } q xs :=
  ⟨rfl, fun _ _ => rfl, rfl, fun _ => ⟨rfl, rfl⟩, fun _ h => h, fun _ => .inl rfl, fun _ _ _ => rfl⟩

theorem Looked.setCluster {s : State} {q : Nat} {xs : List Tlb} {c : Nat} {x : Cluster}
    (h : ∀ a, (∃ y ∈ (clusterOf s c).tlb, LeafByte y a) → ∃ y ∈ x.tlb, LeafByte y a) :
    Looked s (Machine.setCluster s c x) q xs where
  fields := rfl
  others r hr := rfl
  own := rfl
  cores _ := ⟨rfl, rfl⟩
  grows a ha := by
    obtain ⟨d, y, hy, hl⟩ := ha
    by_cases hd : d = c
    · subst hd
      obtain ⟨z, hz, hz2⟩ := h a ⟨y, hy, hl⟩
      exact ⟨d, z, by simpa [clusterOf, Machine.setCluster, AMap.getD] using hz, hz2⟩
    · exact ⟨d, y, by simpa [clusterOf, Machine.setCluster, AMap.getD, hd] using hy, hl⟩
  owner l := .inl rfl
  bytes a ha hx := rfl

theorem Looked.modParty {s : State} {q r : Nat} {xs : List Tlb} {f : Party → Party}
    (h : ∀ p, ({ f p with bnd := [], scs := [] } : Party) = { p with bnd := [], scs := [] })
    (hs : r ≠ q → ∀ p, (f p).scs = p.scs) : Looked s (Machine.modParty s r f) q xs where
  fields := rfl
  others x hx := by
    by_cases hr : x = r
    · subst hr
      rw [get?_modParty_self, Option.map_map]
      congr 1
      funext p
      have h1 := hs hx p
      have h2 := congrArg (fun y : Party => ({ y with scs := p.scs } : Party)) (h p)
      rw [Function.comp_apply]
      exact (congrArg (fun z => ({ f p with bnd := [], scs := z } : Party)) h1).trans h2
    · simp [hr]
  own := by
    by_cases hr : q = r
    · subst hr
      rw [get?_modParty_self, Option.map_map]
      exact congrArg (fun g => Option.map g _) (funext h)
    · simp [hr]
  cores _ := ⟨rfl, rfl⟩
  grows _ h := h
  owner _ := .inl rfl
  bytes _ _ _ := rfl

/-- A bound of any party is raised. -/
theorem looked_raiseBound (s : State) (q r : Nat) (path : Path) (a w : Nat) (xs : List Tlb) :
    Looked s (raiseBound s r path a w) q xs := by
  unfold raiseBound
  split
  · exact Looked.refl _ _ _
  · exact Looked.modParty (fun _ => rfl) (fun _ _ => rfl)

/-! ### Lookups -/

theorem leaf_isLoc {x : Tlb} {a : Nat} (h : LeafByte x a) : isLoc a := by
  obtain ⟨l, _, h⟩ := h
  unfold isLoc
  unfold locOf at h
  omega

theorem looked_orEntry {s : State} {ctx pa bit : Nat} (q : Nat) {xs : List Tlb} (hb : bit < 16)
    (hx : ∃ x ∈ xs, x.ctx = ctx ∧ pa ∈ x.leaves) : Looked s (orEntry s ctx pa bit) q xs := by
  unfold orEntry
  simp only
  split
  · exact Looked.refl _ _ _
  · obtain ⟨u, h1, h2⟩ := moved_homeWrite s (cellsOf (locOf ctx pa + bit / 8)
      [(lastWrite s (locOf ctx pa + bit / 8)).2 ||| BitVec.ofNat 8 (2 ^ (bit % 8))])
    unfold deviceWrite
    rw [h2]
    refine ((h1.looked q xs).trans (.ofOrder (performCells_step _ (fun c hc => ?_)))).trans
      (Looked.foldl _ _ (fun _ _ _ => Looked.ts _) _)
    simp only [cellsOf, List.zipIdx_cons, List.zipIdx_nil, List.map_cons, List.map_nil, List.mem_singleton] at hc
    obtain ⟨x, hx1, hx2, hx3⟩ := hx
    have hl : LeafByte x c.1 := by
      refine ⟨pa, hx3, ?_⟩
      rw [hc, hx2]
      have : bit / 8 = 0 ∨ bit / 8 = 1 := by omega
      rcases this with h | h <;> simp [h]
    exact ⟨⟨x, hx1, hl⟩, leaf_isLoc hl⟩

theorem looked_notePages (s : State) (q : Nat) (t : Tlb) (xs : List Tlb) : Looked s (notePages s t) q xs := by
  unfold notePages
  split
  · exact Looked.refl _ _ _
  · exact Looked.tgPages _

theorem looked_install (s : State) (q clu : Nat) (t : Tlb) (ws : List WalkEnt) : Looked s (install s clu t ws) q [] := by
  unfold install
  simp only
  have h1 := (looked_notePages s q t [t]).trans
    (Looked.foldl _ _ (fun s a ha => looked_orEntry (bit := 7) q (by omega) ⟨t, by simp, rfl, ha⟩) _)
  generalize t.leaves.foldl (fun s a => orEntry s t.ctx a 7) (notePages s t) = s1 at h1
  have h2 : Looked s1 (setCluster s1 clu { clusterOf s1 clu with tlb := t :: (clusterOf s1 clu).tlb, walk := ws ++ (clusterOf s1 clu).walk }) q [t] :=
    Looked.setCluster (fun a ⟨y, hy, hl⟩ => ⟨y, List.mem_cons_of_mem _ hy, hl⟩)
  refine (h1.trans h2).absorb (fun x hx => ⟨clu, ?_⟩)
  rw [List.mem_singleton] at hx
  subst hx
  simp [clusterOf, setCluster, AMap.getD]

theorem looked_translate (s : State) (q clu ctx : Nat) (priv : Bool) (va : Nat) :
    Looked s (translate s clu ctx priv va).2 q [] := by
  have hd (b : Bool) : Looked s (if b then { s with draws := s.draws + 1 } else s) q [] := by
    cases b
    · exact Looked.refl _ _ _
    · exact Looked.draws _
  unfold translate
  split
  · exact Looked.refl _ _ _
  · simp only
    split
    · exact Looked.refl _ _ _
    · split
      · split
        · exact (hd _).trans (looked_install _ _ _ _ _)
        · exact hd _
      · exact hd _

theorem looked_translateAt (s : State) (q core ctx : Nat) (priv : Bool) (va : Nat) :
    Looked s (translateAt s core ctx priv va).2 q [] := by
  unfold translateAt
  split
  · exact Looked.refl _ _ _
  · exact looked_translate _ _ _ _ _ _

theorem looked_checkVa (s : State) (q core ctx : Nat) (priv : Bool) (va : Nat) (p : Perm) :
    Looked s (checkVa s core ctx priv va p).2 q [] := by
  have h := looked_translateAt s q core ctx priv va
  unfold checkVa
  split
  · exact Looked.refl _ _ _
  · simp only
    split
    · split <;> exact h
    · exact h

theorem looked_stampFill (s : State) (q core line : Nat) (xs : List Tlb) : Looked s (stampFill s core line).2 q xs := by
  unfold stampFill
  simp only
  exact (Looked.ts _).trans (Looked.setCore rfl rfl)

theorem moved_holdFor (s : State) (core ctx line : Nat) : LinesMoved s (holdFor s core ctx line) := by
  unfold holdFor
  simp only
  split
  · exact (moved_holdLine ..).trans (moved_setSectors ..)
  · exact moved_holdLine ..

theorem looked_touchRo (s : State) (q core : Nat) (t : Tlb) (va : Nat) (xs : List Tlb) : Looked s (touchRo s core t va) q xs := by
  unfold touchRo
  simp only
  have h := (moved_holdFor s core t.ctx (trPa t va / 128)).looked q xs
  generalize holdFor s core t.ctx (trPa t va / 128) = u at h
  split
  · exact h
  · exact h.trans ((looked_stampFill u q core _ xs).trans (Looked.setCore rfl rfl))

theorem octs_events (l : List Octant) (i : Nat) :
    (listModify l i (fun o => { o with events := o.events + 1 })).map (fun o => ({ o with events := 0 } : Octant)) =
      l.map (fun o => { o with events := 0 }) := by
  induction l generalizing i with
  | nil => rfl
  | cons a l ih => cases i <;> simp [listModify, ih]

theorem looked_touchL1 (s : State) (q core oct : Nat) (t : Tlb) (va : Nat) (store nol1 : Bool) (xs : List Tlb) :
    Looked s (touchL1 s core oct t va store nol1) q xs := by
  unfold touchL1
  simp only
  have h := (moved_holdFor s core t.ctx (trPa t va / 128)).looked q xs
  generalize holdFor s core t.ctx (trPa t va / 128) = u at h
  refine h.trans ?_
  split
  · next l _ =>
    have hr (b : Bool) : Looked u (if b then stampFill u core (trPa t va / 128) else (l.rts, u)).2 q xs := by
      cases b
      · exact Looked.refl _ _ _
      · exact looked_stampFill ..
    exact (hr _).trans (Looked.setCore rfl rfl)
  · have hr : Looked u (if store then (0, u) else stampFill u core (trPa t va / 128)).2 q xs := by
      cases store
      · exact looked_stampFill u q core _ xs
      · exact Looked.refl _ _ _
    generalize (if store then (0, u) else stampFill u core (trPa t va / 128)) = r at hr
    refine hr.trans ?_
    split
    · refine Looked.setCore ?_ ?_ <;> split
      · rfl
      · rfl
      · exact octs_events _ _
      · rfl
    · refine Looked.setCore ?_ ?_ <;> split
      · rfl
      · rfl
      · exact octs_events _ _
      · rfl

theorem looked_renewL1 (s : State) (q core pl w : Nat) (xs : List Tlb) : Looked s (renewL1 s core pl w) q xs := by
  unfold renewL1
  simp only
  split
  · exact (looked_stampFill s q core _ xs).trans (Looked.setCore rfl rfl)
  · exact Looked.refl _ _ _

theorem looked_renewRo (s : State) (q core pl w : Nat) (xs : List Tlb) : Looked s (renewRo s core pl w) q xs := by
  unfold renewRo
  simp only
  split
  · exact (looked_stampFill s q core _ xs).trans (Looked.setCore rfl rfl)
  · exact Looked.refl _ _ _

theorem looked_renewLine (s : State) (q r core : Nat) (ro : Bool) (l : Nat) (locs : List Nat) (xs : List Tlb) :
    Looked s (renewLine s r core ro l locs) q xs := by
  unfold renewLine
  refine Looked.foldl _ _ (fun s x _ => ?_) s
  split
  · exact looked_renewRo ..
  · exact looked_renewL1 ..

theorem looked_setDirty (s : State) (q core : Nat) (t : Tlb) : Looked s (setDirty s core t) q [t] := by
  unfold setDirty
  split
  · exact Looked.refl _ _ _
  · simp only
    have h1 : Looked s (t.leaves.foldl (fun s a => orEntry s t.ctx a 8) s) q [t] :=
      Looked.foldl _ _ (fun s a ha => looked_orEntry q (by omega) ⟨t, by simp, rfl, ha⟩) s
    generalize t.leaves.foldl (fun s a => orEntry s t.ctx a 8) s = s1 at h1
    let up : Tlb → Tlb := fun u => if u.leaves == t.leaves && u.ctx == t.ctx && u.priv == t.priv then { u with d := true } else u
    have h2 : Looked s1 (setCluster s1 (cluOf core) { clusterOf s1 (cluOf core) with tlb := (clusterOf s1 (cluOf core)).tlb.map up }) q [t] := by
      refine Looked.setCluster ?_
      intro a ⟨y, hy, l, hl, hal⟩
      refine ⟨up y, List.mem_map.2 ⟨y, hy, rfl⟩, l, ?_, ?_⟩
      · simp only [up]; split <;> exact hl
      · simp only [up]; split <;> exact hal
    exact (h1.trans h2).trans (Looked.setCore rfl rfl)

/-! ### Reads -/

theorem looked_readCells {s s1 : State} {q : Nat} {path : Path} {as : List Nat} {bs : List Byte}
    (h : readCells s q path as = some (bs, s1)) (xs : List Tlb) : Looked s s1 q xs := by
  unfold readCells at h
  simp only at h
  split at h
  · cases h
  · next pt _ =>
    simp only [Option.some.injEq, Prod.mk.injEq] at h
    obtain ⟨_, h⟩ := h
    have hr : ∀ (l : List Nat), Looked s (l.foldl (fun u a => raiseBound u q path a (latest u pt a).1) s) q xs :=
      fun l => Looked.foldl _ _ (fun s a _ => looked_raiseBound ..) s
    rw [← h]
    split
    · exact hr _
    · exact (hr _).trans (Looked.draws _)

theorem looked_refreshAt (s : State) (q r : Nat) (path : Path) (pt : Point) (xs : List Tlb) :
    Looked s (refreshAt s r path pt) q xs := by
  unfold refreshAt
  refine Looked.foldl _ _ (fun s a _ => ?_) s
  split
  · exact Looked.refl _ _ _
  · exact looked_raiseBound ..

theorem looked_refresh (s : State) (q r : Nat) (sc : Scope) (xs : List Tlb) : Looked s (refresh s r sc) q xs :=
  looked_refreshAt ..

theorem looked_refreshPath (s : State) (q : Nat) (path : Path) (xs : List Tlb) : Looked s (refreshPath s q path) q xs := by
  unfold refreshPath
  split
  · exact Looked.refl _ _ _
  · refine Looked.foldl _ _ (fun s a _ => ?_) s
    split
    · exact looked_raiseBound ..
    · exact Looked.refl _ _ _

theorem looked_refreshFrom (s : State) (q r : Nat) (sc : Scope) (m : Nat × Nat) (xs : List Tlb) :
    Looked s (refreshFrom s r sc m) q xs :=
  ((Looked.vis _).trans (looked_refresh (earlier s m) q r sc xs)).trans (Looked.vis _)

/-- A Refresh that an SC operation of a party takes, with those of other parties that come after it (R323). -/
theorem looked_refreshSc (s : State) (q : Nat) (sc : Scope) (m : Nat × Nat) (xs : List Tlb) : Looked s (refreshSc s q sc m) q xs := by
  unfold refreshSc refreshLater
  refine Looked.trans ((looked_refreshFrom s q q sc m xs).trans ?_) (Looked.foldl _ _ (fun u e _ => ?_) _)
  · exact Looked.modParty (fun _ => rfl) (fun h => absurd rfl h)
  split
  · exact Looked.refl _ _ _
  · refine Looked.foldl _ _ (fun u x _ => ?_) u
    split
    · exact looked_refreshFrom ..
    · exact Looked.refl _ _ _

theorem looked_readGlobal {s s1 : State} {c : Cur} {ctx core : Nat} {ro : Bool} {va n lane : Nat} {perm : Perm} {v : Nat}
    (h : readGlobal s c ctx core ro va n lane perm = .ok v s1) : Looked s s1 c.q [] := by
  unfold readGlobal at h
  simp only at h
  have h0 := looked_checkVa s c.q core ctx false va perm
  generalize checkVa s core ctx false va perm = r at h h0
  split at h
  · cases h
  · cases h
  · split at h
    · cases h
    · split at h
      · next t _ _ bytes u hb =>
        injection h with h1 h2
        subst h2
        refine h0.trans (Looked.trans ?_ ((looked_readCells hb []).trans (looked_renewLine ..)))
        split
        · exact looked_touchRo _ _ _ _ _ _
        · exact looked_touchL1 _ _ _ _ _ _ _ _ _
      · cases h

/-- A constant's read looks up one address and reads (R23). -/
theorem looked_readConst {s s1 : State} {c : Cur} {p : Party} {b : Block} {lane : Nat} {k : Nat × Nat × Ty} {v : Nat}
    (h : readConst s c p b lane k = .ok v s1) : Looked s s1 c.q [] := by
  unfold readConst at h
  split at h
  · cases h
  · exact looked_readGlobal h

/-- What comes before an instruction's own effect is a lookup. -/
theorem looked_issues {ins : Instr} {i : Insn} {s s1 : State} {k : Ctx} (h : Issues ins i s k s1) : Looked s s1 k.c.q [] := by
  obtain ⟨p, b, _, _, _, _, hn, hc⟩ := h
  by_cases he : execSet ins i s k.c p b = 0 ∨ constOf (envOf s p b k.c.q) ins i = none
  · rw [(hn he).1]; exact Looked.draws _
  · rw [not_or] at he
    obtain ⟨kc, hk⟩ := Option.ne_none_iff_exists'.1 he.2
    obtain ⟨x, h1, _⟩ := hc kc he.1 hk
    exact (Looked.draws _).trans (looked_readConst h1)

/-- The issuing party is there when the effect begins. -/
theorem issues_party {ins : Instr} {i : Insn} {s s1 : State} {k : Ctx} (h : Issues ins i s k s1) :
    ∃ p, s1.parties.get? k.c.q = some p := by
  obtain ⟨p, b, _, hp, _⟩ := id h
  obtain ⟨p', hp', _⟩ := (looked_issues h).party hp
  exact ⟨p', hp'⟩

end Sys2Proof.Machine
end

