-- ==== Sys2Proof/Laws/Access.lean ====
section
/-!
SUPPORT. What the checks and the reads of memory instructions leave behind (spec/06 R150-R161, spec/08 R169): each is `Looked`.
-/
namespace Sys2Proof.Machine

/-! ### Checks -/

theorem looked_checkPieces (core ctx : Nat) (priv : Bool) (perm : Perm) (q : Nat) :
    ∀ (l : List Nat) (s : State), Looked s (checkPieces core ctx priv perm l s).2 q [] := by
  intro l
  induction l with
  | nil => intro s; exact Looked.refl _ _ _
  | cons va l ih =>
    intro s
    have h2 := (looked_checkVa s q core ctx priv va perm).trans (ih (checkVa s core ctx priv va perm).2)
    unfold checkPieces
    simp only
    split
    · exact h2
    · split <;> exact h2
    · split <;> exact h2

theorem looked_checkLane (s : State) (p : Party) (b : Block) (sp : Space) (n : Nat) (perm : Perm) (lane : Nat) (ea : Int)
    (q : Nat) : Looked s (checkLane s p b sp n perm lane ea).2 q [] := by
  unfold checkLane
  split
  · exact Looked.refl _ _ _
  · split
    · exact Looked.refl _ _ _
    · split
      · exact Looked.refl _ _ _
      · have h : ∀ va, Looked s (checkPieces b.core p.ctx (sp == .priv) perm (piecesOf (sp == .priv) s p lane va n) s).2 q [] :=
          fun va => looked_checkPieces b.core p.ctx (sp == .priv) perm q _ s
        generalize hva : (ea.toNat + (if sp = .pin then (descOf s p.ctx).pinVa else 0)) = va
        have h := h va
        simp only
        generalize checkPieces b.core p.ctx (sp == .priv) perm (piecesOf (sp == .priv) s p lane va n) s = r at h ⊢
        split
        · exact h
        · split
          · exact h
          · split <;> exact h

theorem looked_checkScratch (b : Block) (n : Nat) (s : State) (lane : Nat) (ea : Int) (q : Nat) :
    Looked s (checkScratch b n s lane ea).2 q [] := by
  unfold checkScratch
  repeat' split
  all_goals exact Looked.refl _ _ _

theorem looked_checkConst (p : Party) (b : Block) (bank n : Nat) (s : State) (lane : Nat) (ea : Int) (q : Nat) :
    Looked s (checkConst p b bank n s lane ea).2 q [] := by
  unfold checkConst
  split
  · exact Looked.refl _ _ _
  · split
    · exact Looked.refl _ _ _
    · split
      · exact Looked.refl _ _ _
      · simp only
        split <;> exact Looked.refl _ _ _

theorem looked_checkLanes {f : State → Nat → Int → LaneRes × State} {q : Nat} (hf : ∀ s l ea, Looked s (f s l ea).2 q [])
    (nr : Bool) : ∀ (l : List (Nat × Int)) (s : State), Looked s (checkLanes f nr l s).2 q [] := by
  intro l
  induction l with
  | nil => intro s; exact Looked.refl _ _ _
  | cons x l ih =>
    intro s
    obtain ⟨a, ea⟩ := x
    have h1 := hf s a ea
    have h2 := h1.trans (ih (f s a ea).2)
    unfold checkLanes
    simp only
    split
    · exact h1
    · split <;> exact h2
    · split
      · split <;> exact h2
      · exact h2
      · exact h2

/-! ### Reads -/

theorem looked_touchAccs (s : State) (q core oct : Nat) (ro store nol1 : Bool) (as : List Acc) (xs : List Tlb) :
    Looked s (touchAccs s core oct ro store nol1 as) q xs := by
  unfold touchAccs
  refine Looked.foldl _ _ (fun s t _ => ?_) s
  split
  · exact looked_touchRo _ _ _ _ _ _
  · exact looked_touchL1 _ _ _ _ _ _ _ _ _

theorem looked_readLanes {c : Cur} {path : Path} {d : Nat} {xs : List Tlb} : ∀ {as : List Acc} {s s1 : State}
    {ds : List (Nat × List Byte)}, readLanes c path d as s = .ok ds s1 → Looked s s1 c.q xs := by
  intro as
  induction as with
  | nil => intro s s1 ds h; injection h with _ h2; rw [← h2]; exact Looked.refl _ _ _
  | cons a as ih =>
    intro s s1 ds h
    unfold readLanes at h
    split at h
    · cases h
    · split at h
      · cases h
      · next bytes u hu =>
        split at h
        · next l v hv =>
          injection h with _ h2
          rw [← h2]
          exact (Looked.draws d).trans ((looked_readCells hu _).trans (ih hv))
        · next x hx =>
          exact absurd h (by intro e; exact hx _ _ e)

theorem looked_readAccs {c : Cur} {path : Path} {xs : List Tlb} {as : List Acc} {s s1 : State}
    {ds : List (Nat × List Byte)} (h : readAccs c path as s = .ok ds s1) : Looked s s1 c.q xs := by
  unfold readAccs at h
  split at h
  · next l u hu =>
    injection h with _ h2
    rw [← h2]
    exact (looked_readLanes hu).trans (Looked.draws _)
  · next x hx => exact absurd h (by intro e; exact hx _ _ e)

theorem looked_readAtPlace {c : Cur} {xs : List Tlb} {as : List Acc} {s s1 : State} {m : Nat × Nat}
    {ds : List (Nat × List Byte)} (h : readAtPlace c as s m = .ok ds s1) : Looked s s1 c.q xs := by
  unfold readAtPlace at h
  split at h
  · next l u hu =>
    injection h with _ h2
    rw [← h2]
    exact ((Looked.vis _).trans (looked_readAccs (s := earlier s m) hu)).trans (Looked.vis _)
  · cases h
  · exact looked_readAccs h

theorem looked_renewAccs (s : State) (q r core : Nat) (ro : Bool) (as : List Acc) (xs : List Tlb) :
    Looked s (renewAccs s r core ro as) q xs := by
  unfold renewAccs
  refine Looked.foldl _ _ (fun s a _ => ?_) s
  exact Looked.foldl _ _ (fun s t _ => looked_renewLine ..) s

theorem looked_readPrivs {c : Cur} {p : Party} {xs : List Tlb} : ∀ {as : List Acc} {s s1 : State}
    {ds : List (Nat × List Byte)}, readPrivs c p as s = .ok ds s1 → Looked s s1 c.q xs := by
  intro as
  induction as with
  | nil => intro s s1 ds h; injection h with _ h2; rw [← h2]; exact Looked.refl _ _ _
  | cons a as ih =>
    intro s s1 ds h
    unfold readPrivs at h
    split at h
    · cases h
    · simp only at h
      split at h
      · next l v hv =>
        injection h with _ h2
        rw [← h2]
        exact (Looked.draws _).trans (ih hv)
      · next x hx => exact absurd h (by intro e; exact hx _ _ e)

theorem onStop_ok {α : Type} {s t : State} {c : Cur} {r : ReadRes α} {a : α} : onStop s c r = .ok a t ↔ r = .ok a t := by
  cases r <;> simp [onStop]

theorem withChecked_ok {α : Type} {s t : State} {c : Cur} {r : Checked × State} {g : List Acc → State → ReadRes α} {a : α}
    (h : withChecked s c r g = .ok a t) : ∃ as, r.1 = .ok as ∧ g as r.2 = .ok a t := by
  unfold withChecked at h
  split at h
  · next as has => exact ⟨as, has, h⟩
  · cases h
  · cases h

theorem looked_loadBytes {s s1 : State} {c : Cur} {p : Party} {core : Nat} {sp : Space} {order : LdOrder} {sc : Scope}
    {as : List Acc} {ds : List (Nat × List Byte)} (h : loadBytes s c p core sp order sc as = .ok ds s1) : Looked s s1 c.q [] := by
  unfold loadBytes at h
  split at h
  · exact looked_readPrivs h
  · split at h
    · exact looked_readAccs h
    · exact (looked_refreshSc _ _ _ _ _).trans (looked_readAtPlace h)
    · exact looked_readAccs h

theorem looked_loadAfter (s : State) (c : Cur) (core : Nat) (sp : Space) (order : LdOrder) (sc : Scope) (as : List Acc) :
    Looked s (loadAfter s c core sp order sc as) c.q [] := by
  unfold loadAfter
  simp only
  have h : Looked s (if sp = .priv then s else renewAccs s c.q core (order == .ro) as) c.q [] := by
    split
    · exact Looked.refl _ _ _
    · exact looked_renewAccs ..
  split
  · exact h.trans (looked_refresh ..)
  · exact h

theorem looked_loadMem {s s2 : State} {c : Cur} {p : Party} {b : Block} {lanes : List (Nat × Int)} {sp : Space} {w : Width}
    {sx : Bool} {order : LdOrder} {sc : Scope} {nol1 : Bool} {dst : Opnd} {nr : Option (BitVec 3)} {ws : List RegWrite}
    (h : loadMem s c p b lanes sp w sx order sc nol1 dst nr = .ok ws s2) : Looked s s2 c.q [] := by
  unfold loadMem at h
  obtain ⟨as, _, h⟩ := withChecked_ok h
  have h1 := looked_checkLanes (q := c.q) (fun s l ea => looked_checkLane s p b sp (widthBytes w) permR l ea c.q)
    nr.isSome lanes s
  refine h1.trans ?_
  refine (looked_touchAccs _ c.q b.core (octOf b p) (order == .ro) false nol1 (as.filter (·.res)) []).trans ?_
  simp only at h
  generalize touchAccs _ b.core (octOf b p) (order == .ro) false nol1 (as.filter (·.res)) = u at *
  split at h
  · next data v hv =>
    injection h with _ h2
    rw [onStop_ok] at hv
    rw [← h2]
    exact (looked_loadBytes hv).trans (looked_loadAfter _ _ _ _ _ _ _)
  · cases h
  · cases h

theorem looked_loadScratch {s s2 : State} {c : Cur} {p : Party} {b : Block} {lanes : List (Nat × Int)} {w : Width}
    {sx : Bool} {dst : Opnd} {ws : List RegWrite}
    (h : loadScratch s c p b lanes w sx dst = .ok ws s2) : Looked s s2 c.q [] := by
  unfold loadScratch at h
  obtain ⟨as, _, h⟩ := withChecked_ok h
  injection h with _ h2
  rw [← h2]
  exact looked_checkLanes (fun s l ea => looked_checkScratch _ _ _ _ _ _) _ _ _

theorem looked_loadConst {s s2 : State} {c : Cur} {p : Party} {b : Block} {lanes : List (Nat × Int)} {bank : Nat} {w : Width}
    {sx : Bool} {dst : Opnd} {ws : List RegWrite}
    (h : loadConst s c p b lanes bank w sx dst = .ok ws s2) : Looked s s2 c.q [] := by
  unfold loadConst at h
  obtain ⟨as, _, h⟩ := withChecked_ok h
  refine (looked_checkLanes (q := c.q) (fun s l ea => looked_checkConst p b bank (widthBytes w) s l ea c.q) false lanes s).trans ?_
  split at h
  · next data v hv =>
    injection h with _ h2
    rw [onStop_ok] at hv
    rw [← h2]
    exact (looked_touchAccs _ _ _ _ _ _ _ _ _).trans ((looked_readAccs hv).trans (looked_renewAccs ..))
  · cases h
  · cases h

/-- A read of a load, of any kind that an issue makes, is a lookup (R153-R161, R320). -/
theorem looked_loadPart {s s2 : State} {c : Cur} {p : Party} {b : Block} {r : ReadReq} {ws : List RegWrite}
    (h : loadPart s c p b r = .ok ws s2) : Looked s s2 c.q [] := by
  cases r
  · exact looked_loadMem h
  · exact looked_loadScratch h
  · exact looked_loadConst h
  all_goals cases h

/-! ### TAGRD, LKQRY -/

theorem looked_readTag {s s1 : State} {q a : Nat} {b : Byte} (h : readTag s q a = some (b, s1)) (xs : List Tlb) :
    Looked s s1 q xs := by
  unfold readTag at h
  split at h
  · next hr =>
    simp only [Option.some.injEq, Prod.mk.injEq] at h
    rw [← h.2]
    exact looked_readCells hr xs
  · cases h

theorem looked_readTags {q : Nat} (xs : List Tlb) : ∀ {l : List Nat} {s s1 : State} {bs : List Byte},
    readTags q l s = some (bs, s1) → Looked s s1 q xs := by
  intro l
  induction l with
  | nil => intro s s1 bs h; simp only [readTags, Option.some.injEq, Prod.mk.injEq] at h; rw [← h.2]; exact Looked.refl _ _ _
  | cons a l ih =>
    intro s s1 bs h
    unfold readTags at h
    split at h
    · cases h
    · next b u hu =>
      simp only [Option.map_eq_some_iff, Prod.mk.injEq] at h
      obtain ⟨⟨cs, v⟩, hv, _, h2⟩ := h
      simp only at h2
      rw [← h2]
      exact (looked_readTag hu xs).trans (ih hv)

theorem looked_tagLanes {c : Cur} {line : Bool} {d : Nat} (xs : List Tlb) : ∀ {as : List Acc} {s s1 : State} {vs : List (Nat × Nat)},
    tagLanes c line d as s = .ok vs s1 → Looked s s1 c.q xs := by
  intro as
  induction as with
  | nil => intro s s1 vs h; injection h with _ h2; rw [← h2]; exact Looked.draws _
  | cons a as ih =>
    intro s s1 vs h
    unfold tagLanes at h
    split at h
    · cases h
    · split at h
      · cases h
      · next bs u hu =>
        split at h
        · next l v hv =>
          injection h with _ h2
          rw [← h2]
          exact (Looked.draws d).trans ((looked_readTags xs hu).trans (ih hv))
        · next x hx => exact absurd h (by intro e; exact hx _ _ e)

theorem looked_tagPart {s s2 : State} {c : Cur} {p : Party} {b : Block} {lanes : List (Nat × Int)} {line : Bool} {dst : Opnd}
    {ws : List RegWrite} (h : tagPart s c p b lanes line dst = .ok ws s2) : Looked s s2 c.q [] := by
  unfold tagPart at h
  obtain ⟨as, _, h⟩ := withChecked_ok h
  refine (looked_checkLanes (q := c.q) (f := checkTag p b) (fun s l ea => looked_checkLane s p b .global 1 permR l ea c.q) false lanes s).trans ?_
  refine (looked_touchAccs _ c.q b.core (octOf b p) false false false (as.filter (fun a => a.trs.any (fun t => t.2.tg))) []).trans ?_
  simp only at h
  generalize touchAccs _ b.core (octOf b p) false false false (as.filter (fun a => a.trs.any (fun t => t.2.tg))) = u at *
  generalize hr : onStop u c (tagLanes c line u.draws as u) = r at h
  cases r with
  | ok vs v =>
    injection h with _ h2
    rw [onStop_ok] at hr
    rw [← h2]
    exact looked_tagLanes _ hr
  | stop t => cases h
  | wait => cases h

theorem looked_lkqPart {s s2 : State} {c : Cur} {p : Party} {b : Block} {va lane : Nat} {dst : Opnd}
    {ws : List RegWrite} (h : lkqPart s c p b va lane dst = .ok ws s2) : Looked s s2 c.q [] := by
  unfold lkqPart at h
  simp only at h
  split at h
  · cases h
  · cases h
  · injection h with _ h2
    rw [← h2]
    exact looked_checkVa _ _ _ _ _ _ _

theorem looked_cnsPart {s s2 : State} {c : Cur} {p : Party} {b : Block} {va lane : Nat} {dst : Opnd}
    {ws : List RegWrite} (h : cnsPart s c p b va lane dst = .ok ws s2) : Looked s s2 c.q [] := by
  unfold cnsPart at h
  split at h
  · cases h
  · split at h
    · next x u hu =>
      simp only at h
      split at h
      · cases h
      · injection h with _ h2
        rw [← h2]
        exact looked_readGlobal hu
    · cases h
    · cases h

end Sys2Proof.Machine
end

