-- ==== Sys2Proof/Laws/Frags.lean ====
section
/-!
SUPPORT. Laws of fragments (spec/02 R50-R62): settling and resuming change a party in its fragments and split records alone,
and depend on those and its live lanes alone.
-/
namespace Sys2Proof.Machine

/-- The fragments, the split records and the results on their way. -/
def partsOf (p : Party) : Option Frag × Option Frag × List Frag × AMap Split × List Pend :=
  (p.slot0, p.slot1, p.spill, p.splits, p.pend)

/-- `p` with others. -/
def putFrags (p : Party) (x : Option Frag × Option Frag × List Frag × AMap Split × List Pend) : Party :=
  { p with slot0 := x.1, slot1 := x.2.1, spill := x.2.2.1, splits := x.2.2.2.1, pend := x.2.2.2.2 }

@[simp] theorem partsOf_putFrags (p : Party) (x) : partsOf (putFrags p x) = x := rfl
@[simp] theorem putFrags_partsOf (p : Party) : putFrags p (partsOf p) = p := rfl
@[simp] theorem putFrags_putFrags (p : Party) (x y) : putFrags (putFrags p x) y = putFrags p y := rfl

theorem fragsOf_of_partsOf {p q : Party} (h : partsOf p = partsOf q) : fragsOf p = fragsOf q := by
  simp only [partsOf, Prod.mk.injEq] at h
  simp [fragsOf, h]

/-! ### Writes of %link that are dropped (R53, R55, R72) -/

/-- The write is one of %link to a fragment with a lane in `own`. -/
def linkTo (own : Mask) : RegWrite → Bool
  | .link o _ => o &&& own != 0
  | _ => false

theorem cutLinks_pend (p : Party) (own : Mask) :
    (cutLinks p own).pend = p.pend.map (fun d => { d with writes := d.writes.filter (fun w => !linkTo own w) }) := by
  unfold cutLinks linkTo
  rfl

theorem linkTo_or (a b : Mask) (w : RegWrite) : linkTo (a ||| b) w = (linkTo a w || linkTo b w) := by
  cases w <;> simp only [linkTo, Bool.or_self]
  next o x =>
    simp only [bne, ← Bool.not_and]
    congr 1
    rw [Bool.eq_iff_iff]
    simp only [beq_iff_eq, Bool.and_eq_true]
    constructor
    · intro h
      constructor <;> (apply BitVec.eq_of_getLsbD_eq; intro i hi; have := congrArg (·.getLsbD i) h; simp at this ⊢; grind)
    · intro ⟨h1, h2⟩
      apply BitVec.eq_of_getLsbD_eq; intro i hi
      have h3 := congrArg (·.getLsbD i) h1
      have h4 := congrArg (·.getLsbD i) h2
      simp at h3 h4 ⊢; grind

theorem cutLinks_zero (p : Party) : cutLinks p 0 = p := by
  have h : ∀ w, linkTo 0 w = false := by intro w; cases w <;> simp [linkTo]
  have hp : (cutLinks p 0).pend = p.pend := by
    rw [cutLinks_pend]
    have hd : ∀ d : Pend, { d with writes := d.writes.filter (fun w => !linkTo 0 w) } = d := by
      intro d
      have : d.writes.filter (fun w => !linkTo 0 w) = d.writes := by
        rw [List.filter_eq_self]
        intro w _
        rw [h]; rfl
      rw [this]
    rw [List.map_congr_left (fun d _ => hd d), List.map_id'']
    intro x; rfl
  have hc : cutLinks p 0 = { p with pend := (cutLinks p 0).pend } := rfl
  rw [hc, hp]

/-- Writes dropped in two steps are those dropped in one. -/
theorem cutLinks_cutLinks {p q : Party} {a : Mask} (h : q.pend = (cutLinks p a).pend) (b : Mask) :
    (cutLinks q b).pend = (cutLinks p (a ||| b)).pend := by
  rw [cutLinks_pend, h, cutLinks_pend, cutLinks_pend, List.map_map]
  apply List.map_congr_left
  intro d _
  simp only [Function.comp_apply, List.filter_filter, linkTo_or, Bool.not_or, Bool.and_comm]

/-- `q` has the results of `p` but for writes of %link that were dropped. -/
def CutFrom (p q : Party) : Prop := ∃ own, q.pend = (cutLinks p own).pend

theorem CutFrom.of_eq {p q : Party} (h : q.pend = p.pend) : CutFrom p q := ⟨0, by rw [cutLinks_zero, h]⟩
theorem CutFrom.refl (p : Party) : CutFrom p p := .of_eq rfl
theorem CutFrom.trans {p q r : Party} (h1 : CutFrom p q) (h2 : CutFrom q r) : CutFrom p r := by
  obtain ⟨a, ha⟩ := h1
  obtain ⟨b, hb⟩ := h2
  exact ⟨a ||| b, by rw [hb, cutLinks_cutLinks ha]⟩

/-! ### Functions of fragments -/

/-- A function of parties that changes only fragments and the results on their way, of these drops only writes of %link, and
depends on them and the live lanes alone. -/
structure FragFn (f : Party → Party) : Prop where
  only : ∀ p, f p = putFrags p (partsOf (f p))
  dep : ∀ p q, partsOf p = partsOf q → p.live = q.live → partsOf (f p) = partsOf (f q)
  cut : ∀ p, CutFrom p (f p)

theorem FragFn.comp {f g : Party → Party} (hf : FragFn f) (hg : FragFn g) : FragFn (fun p => f (g p)) where
  only p := by
    have h1 := hf.only (g p)
    generalize partsOf (f (g p)) = x at h1 ⊢
    rw [h1, hg.only p, putFrags_putFrags]
  dep p q h hl := by
    refine hf.dep _ _ (hg.dep p q h hl) ?_
    rw [hg.only p, hg.only q]; exact hl
  cut p := (hg.cut p).trans (hf.cut (g p))

/-- Of two functions, one by a test on fragments. -/
theorem FragFn.ite {f g : Party → Party} (hf : FragFn f) (hg : FragFn g) {c : Party → Bool}
    (hc : ∀ p q, partsOf p = partsOf q → p.live = q.live → c p = c q) : FragFn (fun p => if c p then f p else g p) where
  only p := by split; exact hf.only p; exact hg.only p
  dep p q h hl := by rw [hc p q h hl]; split; exact hf.dep p q h hl; exact hg.dep p q h hl
  cut p := by split; exact hf.cut p; exact hg.cut p

theorem FragFn.id : FragFn (fun p => p) where
  only _ := rfl
  dep _ _ h _ := h
  cut p := .refl p

theorem FragFn.iter {f : Party → Party} (hf : FragFn f) : ∀ l : List Nat, FragFn (fun p => l.foldl (fun p _ => f p) p)
  | [] => FragFn.id
  | _ :: l => by simpa using FragFn.comp (FragFn.iter hf l) hf

theorem parts_eq {p q : Party} (h : partsOf p = partsOf q) :
    p.slot0 = q.slot0 ∧ p.slot1 = q.slot1 ∧ p.spill = q.spill ∧ p.splits = q.splits ∧ p.pend = q.pend := by
  simpa [partsOf] using h

theorem fragFn_mapJoin : FragFn (fun p => mapFrags p joinFrag) where
  only p := rfl
  dep p q h _ := by
    simp only [partsOf, Prod.mk.injEq] at h ⊢
    simp [mapFrags, h]
  cut p := .of_eq rfl

theorem fuses_congr (p q : Party) (h : partsOf p = partsOf q) (hl : p.live = q.live) (k : Nat) (r : Split) :
    fuses p k r = fuses q k r := by
  simp only [partsOf, Prod.mk.injEq] at h
  simp [fuses, fragList, h, hl]

theorem cutLinks_only (p : Party) (own : Mask) : cutLinks p own = putFrags p (partsOf (cutLinks p own)) := rfl

theorem cutLinks_dep {p q : Party} (own : Mask) (h : partsOf p = partsOf q) :
    partsOf (cutLinks p own) = partsOf (cutLinks q own) := by
  obtain ⟨h0, h1, h2, h3, h4⟩ := parts_eq h
  simp [cutLinks, partsOf, h0, h1, h2, h3, h4]

theorem fragFn_cutLinks (own : Mask) : FragFn (fun p => cutLinks p own) where
  only _ := rfl
  dep _ _ h _ := cutLinks_dep own h
  cut _ := ⟨own, rfl⟩

/-- Fusion after its writes of %link have been dropped. -/
def fuseParts (p : Party) (k : Nat) (r : Split) : Party :=
  let mine : Frag → Bool := fun f => f.split == some k
  let parts := (fragList p).filter mine
  let at0 := p.slot0.any mine
  let at1 := p.slot1.any mine
  let p1 := { p with
    slot0 := if at0 then none else p.slot0, slot1 := if at1 then none else p.slot1,
    spill := p.spill.filter (fun f => !mine f), splits := p.splits.erase k }
  match parts with
  | [] => p1
  | f :: _ =>
    if r.own &&& p.live == 0 then p1
    else
      let g : Frag := { own := r.own &&& p.live, mask := parts.foldl (fun m h => m ||| h.mask) 0, pc := f.pc,
                        join := r.join, split := r.split, link := r.link, st := .run }
      if at0 then { p1 with slot0 := some g }
      else if at1 then { p1 with slot1 := some g }
      else if p1.slot0.isNone then { p1 with slot0 := some g }
      else if p1.slot1.isNone then { p1 with slot1 := some g }
      else { p1 with spill := p1.spill ++ [g] }

theorem fuse_eq (p : Party) (k : Nat) (r : Split) : fuse p k r = fuseParts (cutLinks p r.own) k r := rfl

theorem fragFn_fuseParts (k : Nat) (r : Split) : FragFn (fun p => fuseParts p k r) where
  only p := by
    simp only [fuseParts]
    split
    · rfl
    · split
      · rfl
      · (repeat' split) <;> rfl
  dep p q h hl := by
    obtain ⟨h0, h1, h2, h3, h4⟩ := parts_eq h
    simp only [fuseParts, fragList, h0, h1, h2, h3, hl]
    split
    · simp [partsOf, h4]
    · split
      · simp [partsOf, h4]
      · (repeat' split) <;> simp [partsOf, h4]
  cut p := by
    refine .of_eq ?_
    simp only [fuseParts]
    split
    · rfl
    · split
      · rfl
      · (repeat' split) <;> rfl

theorem fragFn_fuse (k : Nat) (r : Split) : FragFn (fun p => fuse p k r) := by
  have h := FragFn.comp (fragFn_fuseParts k r) (fragFn_cutLinks r.own)
  exact h

theorem fragFn_refill (k : Nat) (hk : k < 2) : FragFn (fun p => refill p k) where
  only p := by
    simp only [refill]
    split
    · rcases k with _ | _ | k
      · rfl
      · rfl
      · omega
    · rfl
  dep p q h hl := by
    obtain ⟨h0, h1, h2, h3, h4⟩ := parts_eq h
    rcases k with _ | _ | k
    · simp only [refill, fragAt, h0, h2]; split
      · simp [partsOf, putFrag, h1, h3, h4]
      · exact h
    · simp only [refill, fragAt, h1, h2]; split
      · simp [partsOf, putFrag, h0, h3, h4]
      · exact h
    · omega
  cut p := by
    refine .of_eq ?_
    simp only [refill]
    split
    · rcases k with _ | _ | k
      · rfl
      · rfl
      · omega
    · rfl

theorem fragFn_refillBoth : FragFn refillBoth := by
  have h := FragFn.comp (fragFn_refill 1 (by omega)) (fragFn_refill 0 (by omega))
  exact h

theorem fragFn_swapOut (k : Nat) (hk : k < 2) : FragFn (fun p => swapOut p k) where
  only p := by
    simp only [swapOut]
    split
    · split
      · rcases k with _ | _ | k
        · rfl
        · rfl
        · omega
      · rfl
    · rfl
  dep p q h hl := by
    obtain ⟨h0, h1, h2, h3, h4⟩ := parts_eq h
    rcases k with _ | _ | k
    · simp only [swapOut, fragAt, h0, h2]; split
      · split
        · simp [partsOf, putFrag, h1, h3, h4]
        · exact h
      · exact h
    · simp only [swapOut, fragAt, h1, h2]; split
      · split
        · simp [partsOf, putFrag, h0, h3, h4]
        · exact h
      · exact h
    · omega
  cut p := by
    refine .of_eq ?_
    simp only [swapOut]
    split
    · split
      · rcases k with _ | _ | k
        · rfl
        · rfl
        · omega
      · rfl
    · rfl

/-- One round of fusion. -/
theorem fragFn_fuseAny : FragFn (fun p => match p.splits.find? (fun e => fuses p e.1 e.2) with
    | some (k, r) => fuse p k r
    | none => p) where
  only p := by
    split
    · exact (fragFn_fuse _ _).only p
    · rfl
  dep p q h hl := by
    have h3 : p.splits = q.splits := (parts_eq h).2.2.2.1
    have hf : (fun e : Nat × Split => fuses p e.1 e.2) = (fun e => fuses q e.1 e.2) := by
      funext e; exact fuses_congr p q h hl _ _
    simp only [h3, hf]
    split
    · exact (fragFn_fuse _ _).dep p q h hl
    · exact h
  cut p := by
    split
    · exact (fragFn_fuse _ _).cut p
    · exact .refl p

/-- A round with the swaps of slots `a` and `b`. -/
def roundOf (a b : Bool) (p : Party) : Party :=
  let p1 := mapFrags p joinFrag
  let p2 := match p1.splits.find? (fun e => fuses p1 e.1 e.2) with
    | some (k, r) => fuse p1 k r
    | none => p1
  let p3 := if a then swapOut p2 0 else p2
  refillBoth (if b then swapOut p3 1 else p3)

theorem fragFn_roundOf (a b : Bool) : FragFn (roundOf a b) := by
  have h1 := FragFn.comp fragFn_fuseAny fragFn_mapJoin
  have ha : FragFn (fun p => if a then swapOut p 0 else p) :=
    FragFn.ite (c := fun _ => a) (fragFn_swapOut 0 (by omega)) FragFn.id (fun _ _ _ _ => rfl)
  have hb : FragFn (fun p => if b then swapOut p 1 else p) :=
    FragFn.ite (c := fun _ => b) (fragFn_swapOut 1 (by omega)) FragFn.id (fun _ _ _ _ => rfl)
  have h := FragFn.comp fragFn_refillBoth (FragFn.comp hb (FragFn.comp ha h1))
  exact h

theorem settleRound_eq (p : Party) : settleRound p = roundOf (p.slot0.any atJoin) (p.slot1.any atJoin) p := rfl

theorem fragFn_settleRound : FragFn settleRound where
  only p := (fragFn_roundOf _ _).only p
  dep p q h hl := by
    obtain ⟨h0, h1, _⟩ := parts_eq h
    rw [settleRound_eq, settleRound_eq, h0, h1]
    exact (fragFn_roundOf _ _).dep p q h hl
  cut p := (fragFn_roundOf _ _).cut p

theorem fragFn_rouse : FragFn rouse where
  only p := by
    unfold rouse
    repeat' split
    all_goals first | rfl | exact (fragFn_swapOut _ (by omega)).only p
  dep p q h hl := by
    obtain ⟨h0, h1, _⟩ := parts_eq h
    unfold rouse
    rw [h0, h1]
    repeat' split
    all_goals first | exact h | exact (fragFn_swapOut _ (by omega)).dep p q h hl
  cut p := by
    unfold rouse
    repeat' split
    all_goals first | exact .refl p | exact (fragFn_swapOut _ (by omega)).cut p

theorem fragFn_settle : FragFn settleFrags := by
  have h := FragFn.comp fragFn_rouse (FragFn.comp (FragFn.iter fragFn_settleRound (List.range 9)) fragFn_refillBoth)
  exact h

/-- Settling changes nothing of a party but its fragments. -/
theorem settleFrags_kept (p : Party) : settleFrags p = putFrags p (partsOf (settleFrags p)) := fragFn_settle.only p

theorem fragAt_congr (p q : Party) (h : partsOf p = partsOf q) : fragAt p = fragAt q := by
  obtain ⟨h0, h1, h2, _⟩ := parts_eq h
  funext j
  rcases j with _ | _ | j <;> simp [fragAt, h0, h1, h2]

theorem putFrag_only (p : Party) (k : Nat) (f : Frag) : putFrag p k f = putFrags p (partsOf (putFrag p k f)) := by
  rcases k with _ | _ | k <;> rfl

theorem putFrag_dep (p q : Party) (k : Nat) (f : Frag) (h : partsOf p = partsOf q) :
    partsOf (putFrag p k f) = partsOf (putFrag q k f) := by
  obtain ⟨h0, h1, h2, h3, h4⟩ := parts_eq h
  rcases k with _ | _ | k <;> simp [putFrag, partsOf, h0, h1, h2, h3, h4]

theorem putFrag_pend (p : Party) (k : Nat) (f : Frag) : (putFrag p k f).pend = p.pend := by
  rcases k with _ | _ | k <;> rfl

/-- A change of the fragment in a place. -/
theorem fragFn_put (k : Nat) (g : Frag → Frag) :
    FragFn (fun p => match fragAt p k with | some f => putFrag p k (g f) | none => p) where
  only p := by split; exact putFrag_only _ _ _; rfl
  dep p q h _ := by
    rw [fragAt_congr p q h]
    split
    · exact putFrag_dep p q _ _ h
    · exact h
  cut p := by split; exact .of_eq (putFrag_pend _ _ _); exact .refl p

theorem settleFrags_only_of {p q : Party} (h : q = putFrags p (partsOf q)) :
    settleFrags q = putFrags p (partsOf (settleFrags q)) := by
  rw [settleFrags_kept]
  generalize partsOf (settleFrags q) = x
  rw [h]; rfl

theorem live_of_only {p q : Party} (h : q = putFrags p (partsOf q)) : q.live = p.live := by rw [h]; rfl

/-- The same, and what follows from it. -/
theorem fragFn_putSettle (k : Nat) (g : Frag → Frag) :
    FragFn (fun p => match fragAt p k with | some f => settleFrags (putFrag p k (g f)) | none => p) where
  only p := by split; exact settleFrags_only_of (putFrag_only _ _ _); rfl
  dep p q h hl := by
    rw [fragAt_congr p q h]
    split
    · exact fragFn_settle.dep _ _ (putFrag_dep p q _ _ h)
        (by rw [live_of_only (putFrag_only p _ _), live_of_only (putFrag_only q _ _), hl])
    · exact h
  cut p := by
    split
    · exact .trans (.of_eq (putFrag_pend _ _ _)) (fragFn_settle.cut _)
    · exact .refl p

theorem fragFn_advanced (slot : Bool) : FragFn (advanced slot) :=
  fragFn_putSettle (slotIx slot) (fun f => { f with pc := nextPc f.pc })

theorem fragFn_masked (slot : Bool) (g : Frag → Mask) : FragFn (masked slot g) :=
  fragFn_put (slotIx slot) (fun f => { f with mask := g f })

theorem fragFn_jumped (slot : Bool) (t : W64) : FragFn (jumped slot t) :=
  fragFn_putSettle (slotIx slot) (fun f => { f with pc := t })

theorem joiners_congr (p q : Party) (h : partsOf p = partsOf q) (k : Nat) (pc : W64) : joiners p k pc = joiners q k pc := by
  have hf := fragAt_congr p q h
  have h2 := (parts_eq h).2.2.1
  have hj : joins p k pc = joins q k pc := by funext j; simp only [joins, hf]
  simp only [joiners, places, h2, hj]

theorem mergeInto_congr {p q : Party} (h : p.pend = q.pend) : mergeInto p = mergeInto q := by
  have ha : agrees p = agrees q := by funext f g; simp only [agrees, linkPending, h]
  funext l
  induction l with
  | nil => funext f; rfl
  | cons g l ih => funext f; simp only [mergeInto, ha, ih]

theorem fragFn_resumeJoined (k : Party → Nat) (hk : ∀ p q, partsOf p = partsOf q → k p = k q) (pc : W64) (st : FragState) :
    FragFn (fun p => resumeJoined p (k p) pc st) where
  only p := by
    simp only [resumeJoined]
    exact settleFrags_only_of rfl
  dep p q h hl := by
    obtain ⟨h0, h1, h2, h3, h4⟩ := parts_eq h
    simp only [resumeJoined]
    refine fragFn_settle.dep _ _ ?_ hl
    simp only [partsOf, joiners_congr p q h, fragAt_congr p q h, mergeInto_congr h4, hk p q h, h2, h3, h4]
  cut p := by
    simp only [resumeJoined]
    refine .trans (.of_eq ?_) (fragFn_settle.cut _)
    rfl

theorem fragFn_joinedOn (c : Cur) (st : FragState) : FragFn (joinedOn c st) :=
  fragFn_resumeJoined (fun p => 2 + p.spill.length) (fun _ _ h => by rw [(parts_eq h).2.2.1]) c.iaddr st

/-! ### Branches -/

theorem only_trans {p q r : Party} (h1 : q = putFrags p (partsOf q)) (h2 : r = putFrags q (partsOf r)) :
    r = putFrags p (partsOf r) := by
  generalize partsOf r = x at *
  rw [h2, h1, putFrags_putFrags]

/-- The party of a divided branch (R52, R56). -/
def divided (p : Party) (k n : Nat) (r : Split) (t m : Frag) : Party :=
  if (fragAt (putFrag { p with splits := p.splits.insert n r } k t) (1 - k)).isNone then
    putFrag (putFrag { p with splits := p.splits.insert n r } k t) (1 - k) m
  else { putFrag { p with splits := p.splits.insert n r } k t with
    spill := (putFrag { p with splits := p.splits.insert n r } k t).spill ++ [m] }

theorem divided_only (p : Party) (k n : Nat) (r : Split) (t m : Frag) :
    divided p k n r t m = putFrags p (partsOf (divided p k n r t m)) := by
  have h1 : ({ p with splits := p.splits.insert n r } : Party) = putFrags p (partsOf { p with splits := p.splits.insert n r }) := rfl
  have h2 := only_trans h1 (putFrag_only _ k t)
  unfold divided
  split
  · exact only_trans h2 (putFrag_only _ _ _)
  · exact only_trans h2 rfl

theorem divided_dep {p q : Party} (k n : Nat) (r : Split) (t m : Frag) (h : partsOf p = partsOf q) :
    partsOf (divided p k n r t m) = partsOf (divided q k n r t m) := by
  have h1 : partsOf ({ p with splits := p.splits.insert n r } : Party) = partsOf { q with splits := q.splits.insert n r } := by
    simp only [partsOf, Prod.mk.injEq] at h ⊢
    simp [h]
  have h2 := putFrag_dep _ _ k t h1
  unfold divided
  rw [fragAt_congr _ _ h2]
  generalize putFrag { p with splits := p.splits.insert n r } k t = P at h2 ⊢
  generalize putFrag { q with splits := q.splits.insert n r } k t = Q at h2 ⊢
  split
  · exact putFrag_dep _ _ _ _ h2
  · simp only [partsOf, Prod.mk.injEq] at h2 ⊢
    simp [h2]

/-- What a resolved branch or call does to a party. -/
theorem resolveBranch_eq (p : Party) (sd k : Nat) (e : Mask) (t : W64) (j : Option W64) (l tl : W64) :
    resolveBranch p sd k e t j l tl =
      match fragAt p k with
      | none => some p
      | some f =>
        if e = 0 then some (settleFrags (putFrag p k { f with pc := nextPc f.pc }))
        else if f.mask &&& ~~~e = 0 then some (settleFrags (putFrag p k { f with pc := t, link := tl }))
        else
          let d := divided (cutLinks p f.own) k (freeSplit p) ⟨f.own, f.join, f.split, l⟩
            { own := e, mask := e, pc := t, join := j, split := some (freeSplit p), link := tl, st := .run }
            { own := f.own &&& ~~~e, mask := f.mask &&& ~~~e, pc := nextPc f.pc, join := j, split := some (freeSplit p),
              link := l, st := .run }
          if sd < areaUsed d then none else some (settleFrags d) := rfl

/-- A resolved branch changes a party in its fragments and the writes of %link on their way alone. -/
theorem resolveBranch_only {p p2 : Party} {sd k : Nat} {e : Mask} {t : W64} {j : Option W64} {l tl : W64}
    (h : resolveBranch p sd k e t j l tl = some p2) : p2 = putFrags p (partsOf p2) := by
  rw [resolveBranch_eq] at h
  split at h
  · rw [← Option.some.inj h]; rfl
  · split at h
    · rw [← Option.some.inj h]; exact settleFrags_only_of (putFrag_only _ _ _)
    · split at h
      · rw [← Option.some.inj h]; exact settleFrags_only_of (putFrag_only _ _ _)
      · simp only at h
        split at h
        · cases h
        · rw [← Option.some.inj h]
          exact settleFrags_only_of (only_trans (cutLinks_only _ _) (divided_only _ _ _ _ _ _))

theorem divided_pend (p : Party) (k n : Nat) (r : Split) (t m : Frag) : (divided p k n r t m).pend = p.pend := by
  unfold divided
  split <;> simp only [putFrag_pend]

/-- It drops no write but of %link. -/
theorem resolveBranch_cut {p p2 : Party} {sd k : Nat} {e : Mask} {t : W64} {j : Option W64} {l tl : W64}
    (h : resolveBranch p sd k e t j l tl = some p2) : CutFrom p p2 := by
  rw [resolveBranch_eq] at h
  split at h
  · rw [← Option.some.inj h]; exact .refl p
  · split at h
    · rw [← Option.some.inj h]; exact .trans (.of_eq (putFrag_pend _ _ _)) (fragFn_settle.cut _)
    · split at h
      · rw [← Option.some.inj h]; exact .trans (.of_eq (putFrag_pend _ _ _)) (fragFn_settle.cut _)
      · next f _ _ _ =>
        simp only at h
        split at h
        · cases h
        · rw [← Option.some.inj h]
          exact .trans ⟨f.own, divided_pend _ _ _ _ _ _⟩ (fragFn_settle.cut _)

theorem resolveBranch_dep {p q : Party} {sd k : Nat} {e : Mask} {t : W64} {j : Option W64} {l tl : W64}
    (h : partsOf p = partsOf q) (hl : p.live = q.live) :
    (resolveBranch p sd k e t j l tl).map partsOf = (resolveBranch q sd k e t j l tl).map partsOf := by
  have hf := fragAt_congr p q h
  have hn : freeSplit p = freeSplit q := by
    simp only [partsOf, Prod.mk.injEq] at h
    simp [freeSplit, h]
  have hs : ∀ (P Q : Party), P = putFrags p (partsOf P) → Q = putFrags q (partsOf Q) → partsOf P = partsOf Q →
      partsOf (settleFrags P) = partsOf (settleFrags Q) := fun P Q h1 h2 h3 =>
    fragFn_settle.dep _ _ h3 (by rw [live_of_only h1, live_of_only h2, hl])
  rw [resolveBranch_eq, resolveBranch_eq, hf, hn]
  split
  · simp [h]
  · split
    · exact congrArg some (hs _ _ (putFrag_only _ _ _) (putFrag_only _ _ _) (putFrag_dep p q _ _ h))
    · split
      · exact congrArg some (hs _ _ (putFrag_only _ _ _) (putFrag_only _ _ _) (putFrag_dep p q _ _ h))
      · next f _ _ _ =>
        simp only
        have hd := divided_dep k (freeSplit q) ⟨f.own, f.join, f.split, l⟩
          { own := e, mask := e, pc := t, join := j, split := some (freeSplit q), link := tl, st := .run }
          { own := f.own &&& ~~~e, mask := f.mask &&& ~~~e, pc := nextPc f.pc, join := j, split := some (freeSplit q),
            link := l, st := .run } (cutLinks_dep f.own h)
        have ho := only_trans (cutLinks_only p f.own) (divided_only (cutLinks p f.own) k (freeSplit q) ⟨f.own, f.join, f.split, l⟩
          { own := e, mask := e, pc := t, join := j, split := some (freeSplit q), link := tl, st := .run }
          { own := f.own &&& ~~~e, mask := f.mask &&& ~~~e, pc := nextPc f.pc, join := j, split := some (freeSplit q),
            link := l, st := .run })
        have hq := only_trans (cutLinks_only q f.own) (divided_only (cutLinks q f.own) k (freeSplit q) ⟨f.own, f.join, f.split, l⟩
          { own := e, mask := e, pc := t, join := j, split := some (freeSplit q), link := tl, st := .run }
          { own := f.own &&& ~~~e, mask := f.mask &&& ~~~e, pc := nextPc f.pc, join := j, split := some (freeSplit q),
            link := l, st := .run })
        generalize divided (cutLinks p f.own) k _ _ _ _ = P at hd ho ⊢
        generalize divided (cutLinks q f.own) k _ _ _ _ = Q at hd hq ⊢
        have ha : areaUsed P = areaUsed Q := by
          simp only [partsOf, Prod.mk.injEq] at hd
          simp [areaUsed, hd]
        rw [ha]
        split
        · rfl
        · exact congrArg some (hs _ _ ho hq hd)

end Sys2Proof.Machine
end

