-- ==== Sys2Proof/Laws/Issue.lean ====
section
/-!
SUPPORT. The spec lemmas of issue: what `issue` answers where an instruction comes to its own effect, what `finish` and
`finishJoined` change, and what a result on its way is. Provers cite these instead of unfolding the operations.
-/
namespace Sys2Proof.Machine

/-! ### issue -/

/-- Where an instruction comes to its own effect, `issue` answers what the effect gives. -/
theorem issue_of_issues {ins : Instr} {i : Insn} {s s1 : State} {k : Ctx} (h : Issues ins i s k s1)
    (f : Ctx → State → Option State) : issue ins i s f = .next ((f k s1).getD s) := by
  obtain ⟨p, b, hc, hp, hb, he, hn, hr⟩ := h
  have h0 : issue ins i s f = .next (issueAt ins i k.c p b s f) := by
    unfold issue; simp only [hc]; simp only [hp, hb]
  rw [h0]
  congr 1
  simp only [execSet, viewOf] at he hn hr
  simp only [issueAt]
  rw [if_neg (by rw [he]; decide)]
  split
  · next hd =>
    have := hn (by by_cases hz : guardMask (earlyView s (readRuns (envOf s p b k.c.q) ins i) p b).lane i.g k.c.m = 0
                   · exact .inl hz
                   · rw [if_neg hz] at hd; exact .inr hd)
    rw [this.1, ← this.2]
  · next kc hd =>
    by_cases hz : guardMask (earlyView s (readRuns (envOf s p b k.c.q) ins i) p b).lane i.g k.c.m = 0
    · rw [if_pos hz] at hd; cases hd
    · rw [if_neg hz] at hd
      obtain ⟨x, h1, h2⟩ := hr kc hz hd
      simp only [h1, ← h2]

theorem issue_next {ins : Instr} {i : Insn} {s s1 t : State} {k : Ctx} (h : Issues ins i s k s1)
    {f : Ctx → State → Option State} (hf : f k s1 = some t) : issue ins i s f = .next t := by
  rw [issue_of_issues h, hf]; rfl

/-- `issue` never answers a refusal, and a fault only where no party issues. -/
theorem issue_cases (ins : Instr) (i : Insn) (s : State) (f : Ctx → State → Option State) :
    (s.cur = none ∧ issue ins i s f = .fault .noIssuer) ∨ ∃ t, issue ins i s f = .next t := by
  unfold issue
  split
  · next h => exact .inl ⟨h, rfl⟩
  · split <;> exact .inr ⟨_, rfl⟩

theorem raiseBound_others (s : State) (q : Nat) (path : Path) (a w r : Nat) (h : r ≠ q) :
    (raiseBound s q path a w).parties.get? r = s.parties.get? r := by
  unfold raiseBound
  split
  · rfl
  · simp [h]

/-! ### noteIssue -/

/-- What an issue notes in its own party (R30, R34, R51, R77, R185). -/
def noted (s : State) (c : Cur) (h : Hints) (p : Party) : Party :=
  { p with nextIssue := partyClock s c.q + max 1 h.stall.toNat, lastSlot := c.slot, yieldHint := h.yield,
           lastMem := if memOpcode c.word.toNat then some s.cycle else p.lastMem,
           yielded := p.yielded.filter (fun x => x != c.q) }

/-- A party that no longer waits for `q` under a YIELD. -/
def unyield (q : Nat) (p : Party) : Party := { p with yielded := p.yielded.filter (fun x => x != q) }

theorem wake_eq (p : Party) (q : Nat) :
    (if p.yielded.contains q then { p with yielded := p.yielded.filter (fun x => x != q) } else p) = unyield q p := by
  unfold unyield
  split
  · rfl
  · next h =>
    have : p.yielded.filter (fun x => x != q) = p.yielded := by
      rw [List.filter_eq_self]
      intro a ha
      simp only [bne_iff_ne, ne_eq]
      intro e; subst e
      exact h (by simpa using ha)
    rw [this]

theorem listModify_map {α β : Type} (g : α → β) (f : α → α) (h : ∀ a, g (f a) = g a) (l : List α) (i : Nat) :
    (listModify l i f).map g = l.map g := by
  induction l generalizing i with
  | nil => rfl
  | cons a l ih => cases i <;> simp [listModify, h, ih]

/-- The cycle of an octant's issue is noted, and nothing else (R184). -/
theorem octIssued_cores (s : State) (core o c : Nat) :
    coreOf (octIssued s core o) c = { coreOf s c with octs := (coreOf (octIssued s core o) c).octs } ∧
    (coreOf (octIssued s core o) c).octs.map (fun o => ({ o with lastIssue := none } : Octant)) =
      (coreOf s c).octs.map (fun o => ({ o with lastIssue := none } : Octant)) := by
  unfold octIssued
  by_cases hc : c = core
  · subst hc
    simp only [coreOf_setCore_self, true_and]
    apply listModify_map; intro o; rfl
  · simp [hc]

/-- The party of an issue with what it notes, but for the groups that it waits for. -/
def notedIssue (s : State) (c : Cur) (h : Hints) (p : Party) : Party :=
  { p with nextIssue := partyClock s c.q + max 1 h.stall.toNat, lastSlot := c.slot, yieldHint := h.yield,
           lastMem := if memOpcode c.word.toNat then some s.cycle else p.lastMem }

theorem noteIssue_parties (s : State) (c : Cur) (h : Hints) : (noteIssue s c h).parties =
    (s.parties.modify c.q (notedIssue s c h)).map (fun (e : Nat × Party) => (e.1, unyield c.q e.2)) := by
  simp only [noteIssue, octIssued, setCore_parties, modParty_parties, wake_eq]
  rfl

theorem noteIssue_party {s : State} {c : Cur} {h : Hints} {p : Party} (hp : s.parties.get? c.q = some p) :
    (noteIssue s c h).parties.get? c.q = some (noted s c h p) := by
  rw [noteIssue_parties, AMap.get?_map, AMap.get?_modify_self, hp]
  rfl

theorem noteIssue_others (s : State) (c : Cur) (h : Hints) : OthersKept s (noteIssue s c h) c.q where
  fields := rfl
  parties r hr := by
    rw [noteIssue_parties, AMap.get?_map, AMap.get?_modify_ne _ _ hr]
    rfl
  cores d := octIssued_cores
    { modParty s c.q (notedIssue s c h) with
      parties := (modParty s c.q (notedIssue s c h)).parties.map
        (fun (e : Nat × Party) => (e.1, if e.2.yielded.contains c.q then { e.2 with yielded := e.2.yielded.filter (· != c.q) } else e.2)) }
    (coreIx s c.q) (partyOct s c.q) d

/-- A further change of the issuing party alone. -/
theorem OthersKept.modParty {s t : State} {q : Nat} (h : OthersKept s t q) (f : Party → Party) :
    OthersKept s (modParty t q f) q where
  fields := by
    have := h.fields
    generalize hp : t.parties = tp at this
    generalize hc : t.cores = tc at this
    subst this
    rfl
  parties r hr := by simpa [hr] using h.parties r hr
  cores c := h.cores c

theorem OthersKept.trans_rfl (s : State) (q : Nat) (f : Party → Party) (hy : ∀ r p, r ≠ q → s.parties.get? r = some p →
    p.yielded.filter (fun x => x != q) = p.yielded) : OthersKept s (Machine.modParty s q f) q where
  fields := rfl
  parties r hr := by
    simp only [modParty_parties, AMap.get?_modify_ne _ _ hr]
    cases h : s.parties.get? r with
    | none => rfl
    | some p => simp [hy r p hr h]
  cores c := ⟨rfl, rfl⟩

/-! ### finish and finishJoined -/

/-- What an issue that goes on through `go` does to its own party. -/
theorem finish_party {k : Ctx} {i : Insn} {s : State} {p : Party} (hp : s.parties.get? k.c.q = some p) :
    (finish k i s).parties.get? k.c.q = some (advanced k.c.slot (noted s k.c i.h p)) := by
  simp only [finish, stepPc, get?_modParty_self, noteIssue_party hp, Option.map_some]
  rfl

theorem finishJoined_party {k : Ctx} {i : Insn} {st : FragState} {s : State} {p : Party}
    (hp : s.parties.get? k.c.q = some p) :
    (finishJoined k i st s).parties.get? k.c.q = some (joinedOn k.c st (noted s k.c i.h p)) := by
  simp only [finishJoined, stepJoined, get?_modParty_self, noteIssue_party hp, Option.map_some]
  rfl

theorem finish_others (k : Ctx) (i : Insn) (s : State) : OthersKept s (finish k i s) k.c.q :=
  (noteIssue_others s k.c i.h).modParty _

theorem finishJoined_others (k : Ctx) (i : Insn) (st : FragState) (s : State) : OthersKept s (finishJoined k i st s) k.c.q :=
  (noteIssue_others s k.c i.h).modParty _

/-- An issue leaves the clock of its party's core (R7). -/
theorem OthersKept.clock {s t : State} {q : Nat} (h : OthersKept s t q) : partyClock t q = partyClock s q := by
  have hb : coreIx t q = coreIx s q := by
    have := congrArg State.blocks h.fields
    simp only at this
    simp only [coreIx, blockOf, this]
  have hc := congrArg State.cycle h.fields
  have hw := congrArg Core.withheld (h.cores (coreIx s q)).1
  simp only at hc hw
  simp only [partyClock, coreClock, hb, hc, hw]

@[simp] theorem finish_clock (k : Ctx) (i : Insn) (s : State) : partyClock (finish k i s) k.c.q = partyClock s k.c.q :=
  (finish_others k i s).clock

@[simp] theorem finishJoined_clock (k : Ctx) (i : Insn) (st : FragState) (s : State) :
    partyClock (finishJoined k i st s) k.c.q = partyClock s k.c.q := (finishJoined_others k i st s).clock

/-- A function of fragments leaves the registers. -/
theorem FragFn.kept {go : Party → Party} (hg : FragFn go) (s : State) (c : Cur) (h : Hints) (p : Party) :
    RegistersKept p (go (noted s c h p)) ∧ fragsOf (go (noted s c h p)) = fragsOf (go p) ∧
    (go (noted s c h p)).pend = (go p).pend ∧ (go (noted s c h p)).tokens = p.tokens ∧ (go (noted s c h p)).serial = p.serial := by
  have h1 := hg.only (noted s c h p)
  have h2 := hg.dep (noted s c h p) p rfl rfl
  generalize partsOf (go (noted s c h p)) = x at h1 h2
  have hx : partsOf (go (noted s c h p)) = partsOf (go p) := by rw [h1]; exact h2
  refine ⟨?_, fragsOf_of_partsOf hx, (parts_eq hx).2.2.2.2, ?_, ?_⟩ <;> rw [h1] <;> rfl

/-! ### Results -/

/-- An issue whose fragments went on through `go`, followed by a result that has raised bounds. -/
theorem issuedRead_addRead {k : Ctx} {s t : State} {go : Party → Party} (hg : FragFn go) {h : Hints} {p : Party}
    (hp : s.parties.get? k.c.q = some p) (ht : t.parties.get? k.c.q = some (go (noted s k.c h p)))
    (ho : OthersKept s t k.c.q) (kind : PendKind) (token : Nat) {ws : List RegWrite} (hw : ws ≠ []) (rs : List (Nat × Nat)) :
    IssuedRead k s (addRead t k.c kind token ws rs) go kind token ws rs := by
  obtain ⟨h1, h2, h3, h4, h5⟩ := hg.kept s k.c h p
  generalize hx : go (noted s k.c h p) = x at *
  refine ⟨ho.modParty _, p, { x with pend := x.pend ++ [⟨x.serial, kind, token, k.c.iaddr, k.c.word, ws, rs⟩], serial := x.serial + 1, tokens := if token = 0 then x.tokens else x.tokens ||| BitVec.ofNat 8 (2 ^ token) },
    hp, by simp only [addRead, get?_modParty_self, ht, Option.map_some], ?_, h2, ?_, ?_, hg.cut p⟩
  · simp only [RegistersKept] at h1 ⊢
    rw [h1]
  · simp [resultOf, h3, h5, hw]
  · simp only [tokensOf, h4]
    by_cases hz : token = 0 <;> simp [hz, hw]

/-- The same with a result that has read nothing. -/
theorem issuedWith_addResult {k : Ctx} {s t : State} {go : Party → Party} (hg : FragFn go) {h : Hints} {p : Party}
    (hp : s.parties.get? k.c.q = some p) (ht : t.parties.get? k.c.q = some (go (noted s k.c h p)))
    (ho : OthersKept s t k.c.q) (kind : PendKind) (token : Nat) (ws : List RegWrite) :
    IssuedWith k s (addResult t k.c kind token ws) go kind token ws := by
  cases ws with
  | nil =>
    obtain ⟨h1, h2, h3, h4, h5⟩ := hg.kept s k.c h p
    exact ⟨ho, p, _, hp, ht, h1, h2, by simpa [resultOf] using h3, by simpa [tokensOf] using h4, hg.cut p⟩
  | cons w ws => exact issuedRead_addRead hg hp ht ho kind token (by simp) []

theorem finish_addResult {k : Ctx} {i : Insn} {s : State} {p : Party} (hp : s.parties.get? k.c.q = some p) (kind : PendKind)
    (token : Nat) (ws : List RegWrite) :
    IssuedWith k s (addResult (finish k i s) k.c kind token ws) (advanced k.c.slot) kind token ws :=
  issuedWith_addResult (fragFn_advanced _) hp (finish_party hp) (finish_others k i s) kind token ws

theorem finish_addRead {k : Ctx} {i : Insn} {s : State} {p : Party} (hp : s.parties.get? k.c.q = some p) (kind : PendKind)
    (token : Nat) {ws : List RegWrite} (hw : ws ≠ []) (rs : List (Nat × Nat)) :
    IssuedRead k s (addRead (finish k i s) k.c kind token ws rs) (advanced k.c.slot) kind token ws rs :=
  issuedRead_addRead (fragFn_advanced _) hp (finish_party hp) (finish_others k i s) kind token hw rs

theorem finish_addFixed {k : Ctx} {i : Insn} {s : State} {p : Party} (hp : s.parties.get? k.c.q = some p) (L : Nat)
    (ws : List RegWrite) : FixedResult k s (addFixed (finish k i s) k.c L ws) L ws := by
  simp only [FixedResult, addFixed, finish_clock]
  exact finish_addResult hp _ _ _

theorem finish_only {k : Ctx} {i : Insn} {s : State} {p : Party} (hp : s.parties.get? k.c.q = some p) :
    IssuedOnly k s (finish k i s) := finish_addResult hp .deliver 0 []

theorem finishJoined_addFixed {k : Ctx} {i : Insn} {st : FragState} {s : State} {p : Party}
    (hp : s.parties.get? k.c.q = some p) (L : Nat) (ws : List RegWrite) :
    IssuedWith k s (addFixed (finishJoined k i st s) k.c L ws) (joinedOn k.c st) (.fixed (partyClock s k.c.q + L)) 0 ws := by
  simp only [addFixed, finishJoined_clock]
  exact issuedWith_addResult (fragFn_joinedOn _ _) hp (finishJoined_party hp) (finishJoined_others k i st s) _ _ _

theorem finishJoined_addResult {k : Ctx} {i : Insn} {st : FragState} {s : State} {p : Party}
    (hp : s.parties.get? k.c.q = some p) (kind : PendKind) (token : Nat) (ws : List RegWrite) :
    IssuedWith k s (addResult (finishJoined k i st s) k.c kind token ws) (joinedOn k.c st) kind token ws :=
  issuedWith_addResult (fragFn_joinedOn _ _) hp (finishJoined_party hp) (finishJoined_others k i st s) _ _ _

/-- The party of an issue is held in the state its effect starts from, where the constant's read keeps it. -/
theorem issues_party_of_none {ins : Instr} {i : Insn} {s s1 : State} {k : Ctx} (h : Issues ins i s k s1)
    (hc : ∀ env, constOf env ins i = none) : ∃ p, s1.parties.get? k.c.q = some p := by
  obtain ⟨p, b, _, hp, _, _, hn, _⟩ := h
  exact ⟨p, by rw [(hn (.inr (hc _))).1]; exact hp⟩

end Sys2Proof.Machine
end

