-- ==== Sys2Proof/Laws/Ops.lean ====
section
/-!
SUPPORT. What the shared operations change (spec/08 R185, spec/10 R239, spec/20 R429, spec/15 R318): the fields of the state
that each leaves as they were, said once.
-/
namespace Sys2Proof.Machine

theorem raiseFor_fields (s : State) (r : FaultRec) : raiseFor s r = { s with ctxs := (raiseFor s r).ctxs } := by
  unfold raiseFor; simp only; split <;> rfl

theorem setOct_fields (s : State) (c o : Nat) (x : Octant) : setOct s c o x = { s with cores := (setOct s c o x).cores } := rfl

theorem leaveMemSet_fields (s : State) (q : Nat) : leaveMemSet s q = { s with cores := (leaveMemSet s q).cores } := by
  unfold leaveMemSet
  split
  · simp only
    split
    · rfl
    · split
      · split <;> rfl
      · rfl
  · rfl

theorem dropL1_fields (s : State) (core : Nat) (f : L1Line → Bool) : dropL1 s core f = { s with cores := (dropL1 s core f).cores } := rfl

theorem leavePrivate_fields (s : State) (p : Party) : leavePrivate s p = { s with ctxs := (leavePrivate s p).ctxs } := rfl

theorem raiseStuck_fields (s : State) (qs : List Nat) : raiseStuck s qs = { s with ctxs := (raiseStuck s qs).ctxs } := by
  unfold raiseStuck
  simp only
  split
  · split
    · rfl
    · exact raiseFor_fields _ _
  · rfl

theorem checkStuck_fields (s : State) (b : Nat) : checkStuck s b = { s with ctxs := (checkStuck s b).ctxs } := by
  unfold checkStuck
  split
  · exact raiseStuck_fields _ _
  · simp only
    split
    · split
      · exact raiseStuck_fields _ _
      · rfl
    · rfl

/-- Register writes that land change their party and what is staged in its block (R32, R199). -/
theorem applyWrites_fields (q : Nat) (ws : List RegWrite) : ∀ s : State,
    applyWrites s q ws = { s with parties := (applyWrites s q ws).parties, blocks := (applyWrites s q ws).blocks } := by
  induction ws with
  | nil => intro s; rfl
  | cons w ws ih =>
    intro s
    have e : applyWrites s q (w :: ws) = applyWrites (applyWrite s q w) q ws := rfl
    rw [e, ih]
    rfl

theorem completeWrites_fields (s : State) (q : Nat) :
    completeWrites s q = { s with parties := (completeWrites s q).parties, blocks := (completeWrites s q).blocks } := by
  unfold completeWrites
  split
  · rfl
  · split
    · rfl
    · rw [applyWrites_fields]; rfl

/-- A party with nothing on its way has nothing to complete. -/
theorem completeWrites_none {s : State} {q : Nat} {p : Party} (hp : s.parties.get? q = some p) (h : p.pend = []) :
    completeWrites s q = s := by
  unfold completeWrites
  simp [hp, h, knownNow]

/-- A precise fault changes the context's candidates, its party, and what the party's block has staged. -/
theorem faultRec_fields (s : State) (c : Cur) (r : FaultRec) :
    faultRec s c r = { s with ctxs := (faultRec s c r).ctxs, parties := (faultRec s c r).parties, blocks := (faultRec s c r).blocks } := by
  have e : faultRec s c r = modParty (raiseFor (completeWrites s c.q) { r with iaddr := c.iaddr, word := c.word }) c.q
      (fun p => { p with stopped := true }) := rfl
  have h := raiseFor_fields (completeWrites s c.q) { r with iaddr := c.iaddr, word := c.word }
  have h2 := completeWrites_fields s c.q
  rw [e, h, h2]; rfl

/-- A fold of entries into a party's general buffer. -/
theorem pushBuf_fold {α : Type} (q : Nat) (f : α → BufKind) (rel : Option Scope) (l : List α) : ∀ (s : State) (p : Party),
    s.parties.get? q = some p →
    let t := l.foldl (fun s x => pushBuf s q .general (f x) [] [] rel false) s
    t = { s with parties := t.parties } ∧ (∀ r, r ≠ q → t.parties.get? r = s.parties.get? r) ∧
    ∃ p', t.parties.get? q = some p' ∧ p' = { p with buf := p'.buf, serial := p'.serial } ∧
      p'.buf.map (fun e => (e.kind, e.rel)) = p.buf.map (fun e => (e.kind, e.rel)) ++ l.map (fun x => (f x, rel)) := by
  induction l with
  | nil => intro s p hp; exact ⟨rfl, fun _ _ => rfl, p, hp, rfl, by simp⟩
  | cons x l ih =>
    intro s p hp
    simp only [List.foldl_cons]
    obtain ⟨h1, h2, p', h3, h4, h5⟩ := ih (pushBuf s q .general (f x) [] [] rel false)
      { p with buf := p.buf ++ [⟨p.serial, f x, [], [], rel, false⟩], serial := p.serial + 1 }
      (by simp [pushBuf, hp])
    refine ⟨h1.trans rfl, fun r hr => (h2 r hr).trans (by simp [pushBuf, hr]), p', h3, ?_, ?_⟩
    · rw [h4]
    · rw [h5]; simp

/-- An instruction of the issuing party completes where its effect answers a state as `post` says. -/
theorem completes_of {ins : Instr} {i : Insn} {f : Ctx → State → Option State} (he : ∀ s, exec ins s = issue ins i s f)
    {pre : Ctx → State → Prop} {post : Ctx → State → State → Prop}
    (h : ∀ k s p, s.parties.get? k.c.q = some p → pre k s → ∃ t, f k s = some t ∧ post k s t) : Completes ins i pre post := by
  intro s s1 k hi hp
  obtain ⟨p, hpp⟩ := issues_party hi
  obtain ⟨t, ht, hpo⟩ := h k s1 p hpp hp
  exact ⟨t, by rw [he]; exact issue_next hi ht, hpo⟩

end Sys2Proof.Machine
end

