-- ==== Sys2Proof/Tests/Slice0.lean ====
section
/-!
SUPPORT. The author's tests: well-formedness, decoding of words written out from the spec's encodings, single steps whose
expected results are worked out from the spec, and, for each obligation with hypotheses, states that meet them.
-/
namespace Sys2Proof.Tests

set_option Elab.async false

open Sys2Proof Sys2Proof.Machine

/-! ### Small states -/

/-- The group of a new block, or its bow, about to issue `ins` with all lanes; every register 0. -/
def at_ (bow : Bool) (ins : Instr) : State :=
  let s := fetchState State.reset bow (encode ins).toNat
  { s with
    schedule := []
    cur := some ⟨if bow then 64 else 0, false, if bow then 1 else 255,
      BitVec.ofNat 64 (0x200000 + if bow then 256 else 128), encode ins, []⟩ }

/-- A change of the issuing party. -/
def tune (s : State) (f : Party → Party) : State := match s.cur with | some c => modParty s c.q f | none => s

/-- A change of its block. -/
def tuneB (s : State) (f : Block → Block) : State := modBlock s 0 f

/-- What an effect works on, where the instruction comes to it with no constant to read. -/
def issueOf (ins : Instr) (i : Insn) (s : State) : Option (Ctx × State) :=
  match s.cur with
  | none => none
  | some c => match s.parties.get? c.q, blockOf s c.q with
    | some p, some b =>
      let v := viewOf ins i s c p b
      let e := execSet ins i s c p b
      if p.check && readsEarly p (readKeys (envOf s p b c.q) ins i c.m e) then none
      else if e = 0 ∨ constOf (envOf s p b c.q) ins i = none then some (mkCtx s c p v e 0, { s with draws := v.draws })
      else none
    | _, _ => none

theorem issueOf_issues {ins : Instr} {i : Insn} {s u : State} {k : Ctx} (h : issueOf ins i s = some (k, u)) :
    Issues ins i s k u := by
  unfold issueOf at h
  split at h
  · cases h
  · next c hc =>
    split at h
    · next p b hp hb =>
      simp only at h
      split at h
      · cases h
      · next hn =>
        split at h
        · next hk =>
          cases h
          refine ⟨p, b, hc, hp, hb, (Bool.not_eq_true _).mp hn, fun _ => ⟨rfl, rfl⟩, ?_⟩
          intro kc he hc2
          rcases hk with hk | hk
          · exact absurd hk he
          · exact absurd (hk.symm.trans hc2) (by simp)
        · cases h
    · cases h

/-- The instruction comes to its effect at `s` with what `f` asks for. -/
def meets (ins : Instr) (i : Insn) (s : State) (f : Ctx → State → Bool) : Bool :=
  match issueOf ins i s with
  | some (k, u) => f k u
  | none => false

/-- What a witness of `Completes` shows: somewhere the instruction comes to its effect with the precondition. -/
def Met (ins : Instr) (i : Insn) (pre : Ctx → State → Prop) : Prop := ∃ s u k, Issues ins i s k u ∧ pre k u

theorem met {ins : Instr} {i : Insn} (s : State) {pre : Ctx → State → Prop} (f : Ctx → State → Bool)
    (hf : ∀ k u, f k u = true → pre k u) (h : meets ins i s f = true) : Met ins i pre := by
  unfold meets at h
  split at h
  · next k u hk => exact ⟨s, u, k, issueOf_issues hk, hf k u h⟩
  · cases h

/-- The same for a precondition that can be decided as it stands. -/
theorem met_decide {ins : Instr} {i : Insn} (s : State) {pre : Ctx → State → Prop} [∀ k u, Decidable (pre k u)]
    (h : meets ins i s (fun k u => decide (pre k u)) = true) : Met ins i pre :=
  met s _ (fun _ _ h => of_decide_eq_true h) h

/-- No guard and no hint. -/
def g7 : Guard := ⟨7, false⟩
def h0 : Hints := ⟨0, 0, 0, false⟩
def h1 : Hints := ⟨0, 1, 0, false⟩
def insn (a b c : Opnd) : Insn := ⟨a, b, c, .none, g7, h0⟩
def insnX (a b c x : Opnd) : Insn := ⟨a, b, c, .opnd x, g7, h0⟩
/-- Of variable latency, under token 1. -/
def insnV (a b c : Opnd) : Insn := ⟨a, b, c, .none, g7, h1⟩

/-! ### One instruction of each constructor, written with operands of every class -/

/-- A guard that no lane meets: predicate 0 is 0. -/
def off : Guard := ⟨0, false⟩
def offI (i : Insn) : Insn := { i with g := off }
def mem (a b c : Opnd) : Insn := ⟨a, b, c, .mem 0 0 0, g7, h0⟩
def memV (a b c : Opnd) : Insn := ⟨a, b, c, .mem 0 0 0, g7, h1⟩

def intSamples : List Instr :=
  [.iadd ⟨.n32, false⟩ (insn (.v 2) (.v 1) (.imm 1)), .isub ⟨.s64, true⟩ (insn (.v 2) (.v 4) (.s 3)),
   .imul ⟨.n16, false⟩ (insn (.v 2) (.h 3 .resolve) (.v 1)), .imulh .n64 (insn (.s 2) (.s 1) (.s 3)),
   .imad ⟨.n32, false⟩ (insnX (.v 2) (.v 1) (.v 1) (.imm 5)), .imadw ⟨.s32, false⟩ (insnX (.v 2) (.v 1) (.v 1) (.v 4)),
   .idiv ⟨.s32, false⟩ (insnV (.v 2) (.v 1) (.v 0)), .irem .n32 (insnV (.v 2) (.v 1) (.v 0)),
   .imin .s8 (insn (.v 2) (.v 1) (.v 0)), .imax .n32 (insn (.v 2) (.v 1) (.imm 7)),
   .iabs ⟨.s32, false⟩ (insn (.v 2) (.v 1) .unused), .ineg ⟨.n32, false⟩ (insn (.v 2) (.v 1) .unused),
   .iset ⟨.s32, .lt, true⟩ (insn (.v 2) (.v 1) (.v 0)), .sel ⟨.n32, false⟩ (insnX (.v 2) (.v 1) (.v 0) (.p 1)),
   .lea ⟨.n32, 3⟩ (insn (.v 2) (.v 4) (.v 1)), .dp4 ⟨.s32, false, true, true⟩ (insnX (.v 2) (.v 1) (.v 0) (.v 3))]

def logicSamples : List Instr :=
  [.and .n32 (insn (.v 2) (.v 1) (.imm32 0x0F0F0F0F)), .or .n32 (insn (.v 2) (.v 1) (.v 0)), .xor .n64 (insn (.v 2) (.v 4) (.v 6)),
   .not .n32 (insn (.v 2) (.v 1) .unused), .lop3 .n32 ⟨.v 2, .v 1, .v 0, .lut (.v 3) 0x96, g7, h0⟩,
   .shl ⟨.n32, false⟩ (insn (.v 2) (.v 1) (.imm 31)), .shr ⟨.n32, true⟩ (insn (.v 2) (.v 1) (.imm 33)),
   .sar ⟨.s32, false⟩ (insn (.v 2) (.v 1) (.imm 40)), .rol .n32 (insn (.v 2) (.v 1) (.imm 8)),
   .fshl .n32 (insnX (.v 2) (.v 1) (.v 0) (.imm 4)), .popc .n32 (insn (.v 2) (.v 1) .unused),
   .clz .n32 (insn (.v 2) (.v 1) .unused), .ctz .n64 (insn (.v 2) (.v 4) .unused), .brev .n8 (insn (.v 2) (.v 1) .unused),
   .bfx .s32 (insn (.v 2) (.v 1) (.imm 0x105)), .bfi .n32 (insnX (.v 2) (.v 1) (.v 0) (.imm 0x44)), .mov .n32 (insn (.v 2) .unused (.imm 9)),
   .movi true (insn (.v 2) .unused (.imm32 0x89ABCDEF)), .prmt (insnX (.v 2) (.v 1) (.v 0) (.imm 0x11))]

def floatSamples : List Instr :=
  [.fadd ⟨.f32, .rne, false, false⟩ (insn (.v 2) (.v 1) (.v 0)), .fsub ⟨.f16x2, .rtz, true, true⟩ (insn (.v 2) (.v 1) (.v 0)),
   .fmul ⟨.bf16, .rup, false, false⟩ (insn (.v 2) (.v 1) (.v 0)), .ffma ⟨.f32, .rdn, false, false⟩ (insnX (.v 2) (.v 1) (.v 0) (.v 3)),
   .fmin ⟨.f32, false⟩ (insn (.v 2) (.v 1) (.v 0)), .fmax ⟨.f16, true⟩ (insn (.v 2) (.v 1) (.v 0)),
   .fneg .f32 (insn (.v 2) (.v 1) .unused), .fabs .f8a (insn (.v 2) (.v 1) .unused), .fset ⟨.f32, true⟩ (insn (.v 2) (.p 1) .unused),
   .frnd ⟨.f32, .rne, false, true⟩ (insn (.v 2) (.v 1) .unused), .fclsOne ⟨.f32, false⟩ (insn (.v 2) (.v 1) .unused),
   .frcp ⟨.f32, .rne, false⟩ (insnV (.v 2) (.v 1) .unused), .frsq ⟨.f32, false⟩ (insnV (.v 2) (.v 1) .unused),
   .fsqrt ⟨.f32, .rna, false⟩ (insnV (.v 2) (.v 1) .unused), .fdiv ⟨.f32, .rne, false⟩ (insnV (.v 2) (.v 1) (.v 0)),
   .fex2 ⟨.f32, false⟩ (insnV (.v 2) (.v 1) .unused), .flg2 ⟨.f32, false⟩ (insnV (.v 2) (.v 1) .unused),
   .fsin ⟨.f32, false⟩ (insnV (.v 2) (.v 1) .unused), .fcos ⟨.f32, true⟩ (insnV (.v 2) (.v 1) .unused),
   .ftnh ⟨.f16, false⟩ (insnV (.v 2) (.v 1) .unused), .cvt ⟨.f16, .s32, .ieee, .rtz, false, false⟩ (insn (.v 2) (.v 1) .unused),
   .qnt ⟨false, true, .rne, .ieee⟩ (insn (.v 2) (.v 8) (.imm 1)), .fcls ⟨.f32, false⟩ (insn (.p 2) (.v 1) (.imm 3))]

def predSamples : List Instr :=
  [.pset ⟨.n32, .ge⟩ (insn (.p 2) (.v 1) (.v 0)), .fpset ⟨.f32, .lt, true, false⟩ (insn (.p 2) (.v 1) (.v 0)),
   .plop 0x80 (insnX (.p 2) (.p 1) (.p 7) (.p 3)), .pmov true (insn (.p 2) (.p 1) .unused), .pmovPack (insn (.v 2) .unused .unused)]

def wideSamples : List Instr :=
  [.vote ⟨.ballot, false⟩ (insn (.v 2) (.p 1) .unused), .shfl ⟨true, true, false⟩ (insnX (.v 2) (.v 1) (.imm 3) (.p 2)),
   .bcast ⟨false, false⟩ (insn (.s 2) (.v 1) (.imm 7)), .redux ⟨.f32, .add, false, false⟩ (insn (.v 2) (.v 1) .unused),
   .scan ⟨.n32, .add, false, true⟩ (insn (.v 2) (.v 1) .unused), .matchOp ⟨.peers, false, true⟩ (insnX (.v 2) (.v 1) .unused (.p 3)),
   .unison (insn (.p 2) (.h 0 .resolve) .unused)]

def plainSamples : List Instr :=
  [.nop (insn .unused .unused .unused), .yield (insn .unused .unused .unused), .mset (insn .unused .unused .unused),
   .brz ⟨.unused, .unused, .unused, .disp 2, g7, h0⟩, .msave (insn (.s 2) .unused .unused), .mrest (insn .unused (.s 2) .unused),
   .trap (insn .unused .unused (.imm 0x100)), .exit (insn .unused .unused .unused), .pmovUnpack (insn .unused (.v 1) .unused),
   .dqnt ⟨false, false, .rne, .finite⟩ (insn (.v 4) (.v 1) (.v 0)), .bra true ⟨.unused, .imm 0, .imm 4, .disp 4, g7, h0⟩,
   .brx true ⟨.unused, .s 3, .unused, .disp 4, g7, h0⟩, .call ⟨.unused, .unused, .unused, .disp 4, g7, h0⟩,
   .callx (insn .unused (.s 3) .unused), .ret (insn .unused .unused .unused), .hmov false (insn (.h 0 .g) .unused (.imm 100)),
   .hpeek true (insn (.s 2) .unused .unused), .hdrop .g (insn .unused (.h 1 .resolve) .unused), .pref .slice (mem .unused (.v 8) (.imm 4)),
   .cctl .wb (mem .unused (.s 8) (.imm 0)), .rdsr 0x18 (insnV (.s 2) .unused .unused), .wrsr 0x10 (insn .unused (.imm 1) .unused),
   .fence ⟨.sc, .sys⟩ (insn .unused .unused .unused), .pfence .all (insn .unused .unused .unused)]

def memSamples : List Instr :=
  [.ld ⟨.global, .b32, false, .dflt, .plain⟩ (memV (.v 4) (.s 8) (.imm 0)), .st ⟨.global, .b64, .dflt, .rel⟩ (mem (.v 4) (.s 8) (.imm 0)),
   .ldc ⟨.b32, false⟩ (memV (.v 4) (.const 3 0) (.imm 0)), .ldnr ⟨.b16, true, .dflt, false, 2⟩ (memV (.v 4) (.s 8) (.imm 0)),
   .lds ⟨.b32, false⟩ (memV (.v 4) (.s 8) (.imm 0)), .sts .b32 (mem (.v 4) (.v 8) (.imm 0)),
   .atom ⟨.n32, .add, .relaxed⟩ (memV (.v 4) (.s 8) (.imm 1)), .red ⟨.n32, .add, false⟩ (mem .unused (.s 8) (.imm 1)),
   .atoms ⟨.s32, .cas, false⟩ (memV (.v 4) (.imm 16) (.v 6)), .lkqry (memV (.s 2) (.s 8) .unused), .tagrd true (memV (.s 2) (.s 8) (.imm 0)),
   .objnew true (mem (.imm 32) (.s 8) (.imm 0)), .stref false (mem (.imm 0) (.s 8) (.imm 0)), .cnsqry (memV (.s 2) (.s 8) .unused)]

def syncSamples : List Instr :=
  [.lock .die (memV (.s 2) (.s 8) (.imm 255)), .trylock .sys (memV (.s 2) (.s 8) .unused), .unlock .blk (mem .unused (.s 8) .unused),
   .publish .clu (mem .unused (.s 8) (.s 3)), .pagereq true (insn .unused (.s 8) (.imm 16)), .barSync (insn .unused (.imm 63) (.imm 2)),
   .barArr (insn .unused (.imm 0) (.imm 65)), .barWait (insn .unused (.imm 1) .unused), .barExp (insnX .unused (.imm 1) (.imm 2) (.imm 16)),
   .qinit 255 (insn .unused (.imm 15) (.imm 64)), .qinitOff (insn .unused (.imm 0) .unused), .qpush (insn .unused (.imm 0) (.s 3)),
   .qpop (insnV (.s 2) (.imm 0) .unused), .qtryPop 2 (insnV (.v 2) (.imm 0) .unused), .qtryPush 2 (insnV .unused (.imm 0) (.imm 5)),
   .waitc .copy (insn .unused (.imm 63) .unused), .bcopy ⟨false, some 1, .dflt⟩ (insnX .unused (.s 8) (.imm 0) (.imm 16)),
   .bcopy2 ⟨true, none, .keep⟩ (insnX .unused (.s 8) (.imm 0) (.s 10)), .bgath ⟨false, none, .dflt⟩ (insnX .unused (.s 8) (.imm 0) (.s 10)),
   .cbarSync (insn .unused (.imm 1) (.imm 2)), .cbarArr (insn .unused (.imm 0) (.imm 2)), .cbarWait (insn .unused (.imm 0) .unused),
   .post .next (mem .unused (.s 8) .unused), .consort ⟨.allreduce, .max, some .bf16⟩ (mem .unused (.s 8) .unused)]

def bowSamples : List Instr :=
  [.unisonB (insn (.p 2) (.h 0 .resolve) .unused), .hmov true (insn (.h 0 .resolve) .unused (.imm 3)),
   .hplaneWin true (insn .unused (.s 8) .unused), .hplaneRaw ⟨false, 7, .g64, .finite⟩ (insn .unused (.s 8) .unused),
   .halign ⟨.bf16, .g32, .ieee⟩ (insnX (.s 1) (.s 2) (.s 3) (.imm 0)), .hmma ⟨true, .s8, .finite, true⟩ (insnX (.s 1) (.s 2) (.s 3) (.imm 0)),
   .haccld (insnX (.imm 0) (.imm 1) (.imm 0) (.imm 0)), .haccst ⟨.n8, true, .rup, .nanOnly⟩ (insnX (.imm 0) (.imm 1) (.imm 0) (.s 4)),
   .hzero (insn (.imm 0) (.imm 1) .unused), .htest (insn .unused (.imm 4) .unused), .htestFlags (insn .unused (.imm 4) .unused)]

/-- Legal in the stream, and decoded from its own word. -/
def sound (bow : Bool) (ins : Instr) : Bool :=
  WellFormed (envMax bow) ins && (match decode (envMax bow) (encode ins) with | .ok j => j == ins | .error _ => false)

theorem test_int_words : intSamples.all (sound false) = true := by decide +kernel
theorem test_logic_words : logicSamples.all (sound false) = true := by decide +kernel
theorem test_float_words : floatSamples.all (sound false) = true := by decide +kernel
theorem test_predicate_words : predSamples.all (sound false) = true := by decide +kernel
theorem test_wide_words : wideSamples.all (sound false) = true := by decide +kernel
theorem test_plain_words : plainSamples.all (sound false) = true := by decide +kernel
theorem test_memory_words : memSamples.all (sound false) = true := by decide +kernel
theorem test_sync_words : syncSamples.all (sound false) = true := by decide +kernel
theorem test_bow_words : bowSamples.all (sound true) = true := by decide +kernel

/-! ### Ill-formed instructions, one for each check -/

/-- Refused by the check of well-formedness, and so by the decoder on its own word. -/
def refuses (env : Env) (ins : Instr) : Bool := !WellFormed env ins

/-- A stream with 8 vector registers, 4 shade registers, 2 barriers and 1 queue. -/
def small : Env := ⟨false, 8, 4, 2, 1, false, false⟩

/-- R37, R38, R264: a group-only instruction in the bow's stream, a bow-only one in a group's, a Harp instruction without a Harp. -/
theorem test_refused_stream : refuses (envMax true) (.mset (insn .unused .unused .unused)) &&
    refuses (envMax false) (.unisonB (insn (.p 2) (.h 0 .resolve) .unused)) &&
    refuses { envMax true with harp := false } (.hzero (insn (.imm 0) (.imm 1) .unused)) = true := by decide +kernel

/-- Modifiers that no opcode lists: a float type of IADD (R119), IABS of an N type (R119), U with NUM (R82), AND of floats (R90),
EXCL of REDUX (R90), an ordered private store (R157), LOCK at .GRP (R342), .SGN with .NIB (R139). -/
theorem test_refused_modifiers :
    [.iadd ⟨.f32, false⟩ (insn (.v 2) (.v 1) (.v 0)), .iabs ⟨.n32, false⟩ (insn (.v 2) (.v 1) .unused),
      .fpset ⟨.f32, .num, true, false⟩ (insn (.p 2) (.v 1) (.v 0)), .redux ⟨.f32, .and, false, false⟩ (insn (.v 2) (.v 1) .unused),
      .redux ⟨.n32, .add, true, false⟩ (insn (.v 2) (.v 1) .unused), .st ⟨.priv, .b32, .dflt, .rel⟩ (mem (.v 4) (.v 1) (.imm 0)),
      .lock .grp (memV (.s 2) (.s 8) (.imm 0)), .qnt ⟨true, true, .rne, .ieee⟩ (insn (.v 0) (.v 8) (.imm 1))].all
      (refuses (envMax false)) = true := by decide +kernel

/-- Operands: a vector past VREGS, a misaligned pair, a misaligned run, a shade past SHADE, a shade of a 64-bit type (R115), a
group's destination hK:b (R198), UNISON of a tagged shade (R204), a scalar pair past s95, a 29-bit immediate of a float type
(R21), a special of 32 bits in 64 (R115), %ctxid as a destination (R24). -/
theorem test_refused_operands :
    [.iadd ⟨.n32, false⟩ (insn (.v 8) (.v 1) (.v 0)), .iadd ⟨.n64, false⟩ (insn (.v 1) (.v 2) (.v 4)),
      .ld ⟨.global, .b128, false, .dflt, .plain⟩ (memV (.v 2) (.s 8) (.imm 0)), .iadd ⟨.n32, false⟩ (insn (.h 4 .resolve) (.v 1) (.v 0)),
      .iadd ⟨.n64, false⟩ (insn (.h 1 .resolve) (.v 2) (.v 4)), .iadd ⟨.n32, false⟩ (insn (.h 1 .b) (.v 1) (.v 0)),
      .unison (insn (.p 2) (.h 0 .g) .unused), .st ⟨.global, .b256, .dflt, .plain⟩ (mem (.s 96) (.s 8) (.imm 0)),
      .fadd ⟨.f32, .rne, false, false⟩ (insn (.v 2) (.v 1) (.imm29 1)), .iadd ⟨.n64, false⟩ (insn (.v 2) (.spec .laneid) (.v 4)),
      .mov .n32 (insn (.spec .ctxid) .unused (.imm 1)), .iadd ⟨.n32, false⟩ (insn .unused (.v 1) (.v 0)),
      .nop (insn (.v 0) .unused .unused)].all (refuses small) = true := by decide +kernel

/-- Bounds of immediates: barrier 2 of 2, a count of 66 (R217), a queue of 1 (R221), 17 pages (R304), a deadline of -1 (R342). -/
theorem test_refused_immediates :
    [.barWait (insn .unused (.imm 2) .unused), .barSync (insn .unused (.imm 0) (.imm 66)), .qinit 0 (insn .unused (.imm 1) (.imm 0)),
      .pagereq false (insn .unused (.s 8) (.imm 17)), .lock .die (memV (.s 2) (.s 8) (.imm 511)), .waitc .copy (insn .unused (.imm 64) .unused)].all
      (refuses small) = true := by decide +kernel

/-- X (R22): a shift past 4, a scope past .SYS, a scope where none stands, no displacement, two operands that claim X, a claim
beside a fourth operand. -/
theorem test_refused_x :
    [.ld ⟨.global, .b32, false, .dflt, .plain⟩ ⟨.v 4, .s 8, .imm 0, .mem 0 5 0, g7, h1⟩,
      .ld ⟨.global, .b32, false, .dflt, .acq⟩ ⟨.v 4, .s 8, .imm 0, .mem 0 0 7, g7, h1⟩,
      .ld ⟨.global, .b32, false, .dflt, .plain⟩ ⟨.v 4, .s 8, .imm 0, .mem 0 0 1, g7, h1⟩, .call (insn .unused .unused .unused),
      .iadd ⟨.n32, false⟩ (insn (.v 2) (.const 0 0) (.imm29 4)),
      .imad ⟨.n32, false⟩ (insnX (.v 2) (.const 0 0) (.v 1) (.v 0))].all (refuses small) = true := by decide +kernel

/-- A guard of a group-wide UNISON (R37), a token of a fixed-latency result (R35), a scalar for a per-lane result of lanes (R20),
%fflags as a branch target (R70), %link of a 32-bit MOV (R127), CBAR without a second block (R288), RD.FINITE without an F8 type
and SAT of a float CVT (R137), MOVI without its immediate (R127), an offset of LDC's bank (R159), an event. -/
theorem test_refused_rules :
    [.unison { insn (.p 2) (.h 0 .resolve) .unused with g := ⟨1, false⟩ }, .iadd ⟨.n32, false⟩ (insnV (.v 2) (.v 1) (.v 0)),
      .iadd ⟨.n32, false⟩ (insn (.s 2) (.v 1) (.s 0)), .callx (insn .unused (.spec .clock) .unused),
      .mov .n32 (insn (.spec .link) .unused (.imm 1)), .cbarWait (insn .unused (.imm 0) .unused),
      .cvt ⟨.f16, .s32, .finite, .rtz, false, false⟩ (insn (.v 2) (.v 1) .unused),
      .cvt ⟨.f16, .f32, .ieee, .rtz, false, true⟩ (insn (.v 2) (.v 1) .unused), .movi true (insn (.v 2) .unused (.imm 1)),
      .ldc ⟨.b32, false⟩ (memV (.v 4) (.const 3 4) (.imm 0)), .boot].all (refuses small) = true := by decide +kernel

/-! ### Words written out in the spec, or built field by field from R17-R25 -/

/-- A word of 96 bits from its three 32-bit words, the first at the lowest address (R15). -/
def w96 (a b c : Nat) : Nat := a + 2 ^ 32 * b + 2 ^ 64 * c

/-- Each decodes, for its stream, to what the spec says it is. -/
def reads (w : Nat) (ins : Instr) : Bool := decodeTableWord 96 w == some ins

def lo (i : Insn) (wait : BitVec 7) (set : BitVec 3) (stall : BitVec 5) : Insn := { i with h := ⟨wait, set, stall, false⟩ }

/-- R17 (both examples), R132, R137; PSET (R81) and VOTE (R87) built by hand. -/
theorem test_decode_arithmetic :
    (reads (w96 0x00100840 0x00801001 0x10002000) (.iadd ⟨.s32, false⟩
        ⟨.v 1, .v 1, .imm 1, .none, ⟨2, false⟩, ⟨0, 0, 4, false⟩⟩) &&
      reads (w96 0x00781840 0xDBEEF003 0x00007DEA) (.iadd ⟨.n32, false⟩ (insn (.v 7) (.v 3) (.imm32 0xDEADBEEF))) &&
      reads (w96 0x0040E903 0x07006005 0x00007000) (.ffma ⟨.f32, .rup, false, false⟩ (insnX (.v 4) (.v 5) (.v 6) (.v 7))) &&
      reads (w96 0x0096B920 0x00804002 0x00007000) (.cvt ⟨.f8a, .f32, .finite, .rna, false, false⟩ (insn (.v 9) (.v 2) .unused)) &&
      reads (w96 0x60108810 0x00003002 0x00007000) (.pset ⟨.s32, .lt⟩ (insn (.p 1) (.v 2) (.v 3))) &&
      reads (w96 0x00200420 0x00000601 0x00007000) (.vote ⟨.count, false⟩ (insn (.v 2) (.p 1) .unused))) = true := by
  decide +kernel

/-- R75, R190, R205, R204, R206, R217, R235. -/
theorem test_decode_control :
    (reads (w96 0x00000401 0x04804800 0x00001000) (.bra true ⟨.unused, .imm 0, .imm 4, .disp 4, ⟨1, false⟩, h0⟩) &&
      reads (w96 0x214066E0 0 0x00007000) (.rdsr 0x19 (insn (.s 20) .unused .unused)) &&
      reads (w96 0x40000180 0x00864000 0x00007000) (.hmov false (insn (.h 0 .resolve) .unused (.imm 100))) &&
      reads (w96 0x60200181 0x00000400 0x10007000) (.unison ⟨.p 2, .h 0 .resolve, .unused, .none, g7, ⟨0, 0, 4, false⟩⟩) &&
      reads (w96 0x60100581 0x00000400 0x00007000) (.unisonB (insn (.p 1) (.h 0 .resolve) .unused)) &&
      reads (w96 0x00000240 0x00802800 0x00007000) (.barSync (insn .unused (.imm 0) (.imm 2))) &&
      reads (w96 0x00001A47 0x06800204 0x00007002) (.bcopy ⟨false, some 1, .dflt⟩ (insnX .unused (.s 4) (.imm 0) (.s 6)))) = true := by
  decide +kernel

/-- R144, R329, R332, R342 (SET 4 and WAIT t1 placed by R34 and R35; log entry 28), R344, R368, R418. -/
theorem test_decode_memory :
    (reads (w96 0x004021C0 0x40006208 0x00007080) (.ld ⟨.global, .b32, false, .dflt, .plain⟩
        ⟨.v 4, .s 8, .v 6, .mem 0x40 2 0, g7, h0⟩) &&
      reads (w96 0x002019D0 0x10801206 0x00007600) (.atom ⟨.n32, .add, .relaxed⟩
        ⟨.v 2, .s 6, .imm 1, .mem 0x10 0 3, g7, h0⟩) &&
      reads (w96 0x000039D3 0 0x00007000) (.fence ⟨.rel, .die⟩ (insn .unused .unused .unused)) &&
      reads (w96 0x20C011E0 0x00210204 0x02017000) (.lock .pkg ⟨.s 12, .s 4, .s 16, .mem 0 0 0, g7, ⟨1, 4, 0, false⟩⟩) &&
      reads (w96 0x000011E2 0x00000204 0x00007000) (.unlock .pkg (mem .unused (.s 4) .unused)) &&
      reads (w96 0x00000DF2 0x00204206 0x00007000) (.publish .die (mem .unused (.s 6) (.s 4))) &&
      reads (w96 0x0000064A 0x40000208 0x00007000) (.post .next ⟨.unused, .s 8, .unused, .mem 0x40 0 0, g7, h0⟩)) = true := by
  decide +kernel

/-- R281, R288, R304, R437. -/
theorem test_decode_rest :
    (reads (w96 0x80000A82 0x0020A804 0x00007008) (.hmma ⟨false, .s8, .ieee, false⟩ (insnX (.imm 0) (.imm 4) (.s 10) (.imm 0))) &&
      reads (w96 0x00000241 0x00808800 0x00007000) (.cbarSync (insn .unused (.imm 0) (.imm 8))) &&
      reads (w96 0x00000600 0x0080420C 0x00007000) (.pagereq true (insn .unused (.s 12) (.imm 4))) &&
      reads (w96 0x000A02C0 0x0000020A 0x00007000) (.consort ⟨.allreduce, .add, some .f32⟩ (mem .unused (.s 10) .unused))) = true := by
  decide +kernel

/-! ### Single steps: expected values worked out from the spec -/

/-- Vector registers, each with one value in every lane. -/
def vecs (l : List (Nat × Nat)) (p : Party) : Party :=
  l.foldl (fun p x => (List.range 8).foldl (fun p k => setV p x.1 k (BitVec.ofNat 32 x.2)) p) p

/-- A vector register, lane by lane. -/
def lanes (r : Nat) (l : List Nat) (p : Party) : Party := l.zipIdx.foldl (fun p x => setV p r x.2 (BitVec.ofNat 32 x.1)) p

def scalars (l : List (Nat × Nat)) (p : Party) : Party := l.foldl (fun p x => setS p x.1 (BitVec.ofNat 64 x.2)) p

/-- The next state of `ins` there. -/
def after (ins : Instr) (s : State) : Option State := match exec ins s with | .next t => some t | _ => none

def cq (s : State) : Nat := match s.cur with | some c => c.q | none => 0

/-- What the instruction has put on its way: the writes of the newest result of its party. -/
def outs (ins : Instr) (s : State) : List RegWrite :=
  match after ins s with
  | some t => match t.parties.get? (cq s) with
    | some p => match p.pend.getLast? with | some d => d.writes | none => []
    | none => []
  | none => []

/-- Lane l's vector result, and its flags. -/
def outV (ws : List RegWrite) (l : Nat) : Option Nat := ws.findSome? (fun w => match w with
  | .v _ k x => if k = l then some x.toNat else none
  | _ => none)
def outF (ws : List RegWrite) (l : Nat) : Nat := (ws.findSome? (fun w => match w with
  | .ffOr k x => if k = l then some x.toNat else none
  | _ => none)).getD 0
def outP (ws : List RegWrite) (l : Nat) : Option Bool := ws.findSome? (fun w => match w with
  | .p _ k x => if k = l then some x else none
  | _ => none)
def outS (ws : List RegWrite) : Option Nat := ws.findSome? (fun w => match w with
  | .s _ x => some x.toNat
  | _ => none)

/-- Lane 0's result of a group's instruction on v1 = `b`, v0 = `c`, v3 = `x`. -/
def ran (ins : Instr) (b c x : Nat) : Option Nat := outV (outs ins (tune (at_ false ins) (vecs [(1, b), (0, c), (3, x)]))) 0

/-- The same with the flags. -/
def ranF (ins : Instr) (b c x : Nat) : Option Nat × Nat :=
  let ws := outs ins (tune (at_ false ins) (vecs [(1, b), (0, c), (3, x)]))
  (outV ws 0, outF ws 0)

/-- Lane 0's predicate result. -/
def ranP (ins : Instr) (b c : Nat) : Option Bool := outP (outs ins (tune (at_ false ins) (vecs [(1, b), (0, c)]))) 0

def bin : Insn := insn (.v 2) (.v 1) (.v 0)
def una : Insn := insn (.v 2) (.v 1) .unused
def ter : Insn := insnX (.v 2) (.v 1) (.v 0) (.v 3)

/-- R116, R119: wrapping, SAT, and an 8-bit result sign-extended to its register (R93). -/
theorem test_iadd : (ran (.iadd ⟨.s32, false⟩ bin) 0x7FFFFFFF 1 0, ran (.iadd ⟨.s32, true⟩ bin) 0x7FFFFFFF 1 0,
    ran (.iadd ⟨.s8, false⟩ bin) 0x7F 1 0) = (some 0x80000000, some 0x7FFFFFFF, some 0xFFFFFF80) := by decide +kernel
theorem test_isub : (ran (.isub ⟨.n32, false⟩ bin) 3 5 0, ran (.isub ⟨.n32, true⟩ bin) 3 5 0) = (some 0xFFFFFFFE, some 0) := by
  decide +kernel
theorem test_imul : (ran (.imul ⟨.s32, false⟩ bin) 0x10000 0x10000 0, ran (.imul ⟨.s32, true⟩ bin) 0x10000 0x10000 0) =
    (some 0, some 0x7FFFFFFF) := by decide +kernel
theorem test_imulh : (ran (.imulh .s32 bin) 0xFFFFFFFF 1 0, ran (.imulh .n32 bin) 0xFFFFFFFF 0xFFFFFFFF 0) =
    (some 0xFFFFFFFF, some 0xFFFFFFFE) := by decide +kernel
theorem test_imad : (ran (.imad ⟨.s32, false⟩ ter) 3 0xFFFFFFFC 5 = some 0xFFFFFFF9) ∧
    ran (.imad ⟨.n32, true⟩ ter) 0x10000 0xFFFF 0x10000 = some 0xFFFFFFFF := by decide +kernel
theorem test_imin_imax : (ran (.imin .s32 bin) 0xFFFFFFFF 1 0, ran (.imin .n32 bin) 0xFFFFFFFF 1 0,
    ran (.imax .s32 bin) 0xFFFFFFFF 1 0) = (some 0xFFFFFFFF, some 1, some 1) := by decide +kernel
theorem test_iabs : (ran (.iabs ⟨.s32, false⟩ una) 0x80000000 0 0, ran (.iabs ⟨.s32, true⟩ una) 0x80000000 0 0) =
    (some 0x80000000, some 0x7FFFFFFF) := by decide +kernel
theorem test_ineg : (ran (.ineg ⟨.n32, false⟩ una) 1 0 0, ran (.ineg ⟨.n32, true⟩ una) 1 0 0) = (some 0xFFFFFFFF, some 0) := by
  decide +kernel
/-- R121: a divisor of 0 gives all ones, and the dividend as the remainder. -/
theorem test_idiv_zero : (ran (.idiv ⟨.s32, false⟩ (insnV (.v 2) (.v 1) (.v 0))) 7 0 0,
    ran (.irem .s32 (insnV (.v 2) (.v 1) (.v 0))) 7 0 0) = (some 0xFFFFFFFF, some 7) := by decide +kernel
/-- R121: toward zero, the remainder with the sign of b; lo by -1. -/
theorem test_idiv_signs : (ran (.idiv ⟨.s32, false⟩ (insnV (.v 2) (.v 1) (.v 0))) 0xFFFFFFF9 2 0,
    ran (.irem .s32 (insnV (.v 2) (.v 1) (.v 0))) 0xFFFFFFF9 2 0,
    ran (.idiv ⟨.s32, false⟩ (insnV (.v 2) (.v 1) (.v 0))) 0x80000000 0xFFFFFFFF 0,
    ran (.idiv ⟨.s32, true⟩ (insnV (.v 2) (.v 1) (.v 0))) 0x80000000 0xFFFFFFFF 0) =
    (some 0xFFFFFFFD, some 0xFFFFFFFF, some 0x80000000, some 0x7FFFFFFF) := by decide +kernel
theorem test_iset : (ran (.iset ⟨.s32, .lt, false⟩ bin) 0xFFFFFFFF 0 0, ran (.iset ⟨.n32, .gt, true⟩ bin) 0xFFFFFFFF 0 0) =
    (some 1, some 0xFFFFFFFF) := by decide +kernel
/-- R122: predicate 7 is 1. -/
theorem test_sel : (ran (.sel ⟨.n32, false⟩ (insnX (.v 2) (.v 1) (.v 0) (.p 7))) 5 6 0,
    ran (.sel ⟨.n32, true⟩ (insnX (.v 2) (.v 1) (.v 0) (.p 7))) 5 6 0) = (some 5, some 6) := by decide +kernel
/-- R120: four products of signed and of unsigned bytes. -/
theorem test_dp4 : (ran (.dp4 ⟨.s32, false, true, true⟩ ter) 0xFF010203 0x01010101 10,
    ran (.dp4 ⟨.s32, false, false, false⟩ ter) 0xFF010203 0x01010101 10) = (some 15, some 271) := by decide +kernel
theorem test_logic : (ran (.and .n32 bin) 0xF0F0 0xFF00 0, ran (.or .n32 bin) 0xF0F0 0xFF00 0, ran (.xor .n32 bin) 0xF0F0 0xFF00 0,
    ran (.not .n32 una) 0xF0F0 0 0) = (some 0xF000, some 0xFFF0, some 0x0FF0, some 0xFFFF0F0F) := by decide +kernel
/-- R124: 0xAC takes b where x is 1 and c elsewhere; 0xF2 is (b and not c) or x. -/
theorem test_lop3 : (ran (.lop3 .n32 ⟨.v 2, .v 1, .v 0, .lut (.v 3) 0xAC, g7, h0⟩) 0x1234 0xABCD 0xFF00,
    ran (.lop3 .n32 ⟨.v 2, .v 1, .v 0, .lut (.v 3) 0xF2, g7, h0⟩) 0xF0 0x30 0x5) = (some 0x12CD, some 0xC5) := by decide +kernel
/-- R125: a count of w, under WRAP and not. -/
theorem test_shl : (ran (.shl ⟨.n32, false⟩ bin) 3 32 0, ran (.shl ⟨.n32, true⟩ bin) 3 33 0) = (some 0, some 6) := by decide +kernel
theorem test_shr : (ran (.shr ⟨.s8, false⟩ bin) 0x80 0 0, ran (.shr ⟨.n32, false⟩ bin) 0x80000000 31 0) =
    (some 0xFFFFFF80, some 1) := by decide +kernel
theorem test_sar : (ran (.sar ⟨.s32, false⟩ bin) 0x80000000 40 0, ran (.sar ⟨.n32, false⟩ bin) 0x80000000 4 0) =
    (some 0xFFFFFFFF, some 0xF8000000) := by decide +kernel
theorem test_rol_fshl : (ran (.rol .n32 bin) 0x80000001 33 0, ran (.fshl .n32 ter) 0x12345678 0x9ABCDEF0 8) =
    (some 3, some 0x3456789A) := by decide +kernel
theorem test_counts : (ran (.popc .n8 una) 0x1F7 0 0, ran (.clz .n16 una) 1 0 0, ran (.ctz .n32 una) 0 0 0, ran (.brev .n8 una) 0x13 0 0) =
    (some 7, some 15, some 32, some 0xC8) := by decide +kernel
/-- R126: bits past the width read as the sign; a field of no bits is 0. -/
theorem test_bfx : (ran (.bfx .s32 bin) 0x80000000 0x0C1C 0, ran (.bfx .n32 bin) 0xABCD 0x0804 0, ran (.bfx .s32 bin) 0xFF 4 0) =
    (some 0xFFFFFFF8, some 0xBC, some 0) := by decide +kernel
theorem test_bfi : (ran (.bfi .n32 ter) 0xFF 0 0x0408, ran (.bfi .n32 ter) 0xFF 0x12345678 0x081C) =
    (some 0xF00, some 0xF2345678) := by decide +kernel
/-- R128: the selectors that the spec names. -/
theorem test_prmt : (ran (.prmt ter) 0x11112222 0x33334444 0x05040100, ran (.prmt ter) 0x80 0 0x10101000,
    ran (.prmt ter) 0xABCD1234 0 0x08080100) = (some 0x44442222, some 0xFFFFFF80, some 0x1234) := by decide +kernel

/-- R132's worked example, under RUP and RNE, with NX. -/
theorem test_ffma : (ranF (.ffma ⟨.f32, .rup, false, false⟩ ter) 0x3F800001 0x3F800001 0xBF800000,
    ranF (.ffma ⟨.f32, .rne, false, false⟩ ter) 0x3F800001 0x3F800001 0xBF800000) = ((some 0x34800001, 1), (some 0x34800000, 1)) := by
  decide +kernel
/-- R130: the overflow of FADD.SAT gives 1.0 with OF and NX; inf - inf is NaN with IV. -/
theorem test_fadd : (ranF (.fadd ⟨.f32, .rne, false, true⟩ bin) 0x7F7FFFFF 0x7F7FFFFF 0,
    ranF (.fadd ⟨.f32, .rne, false, false⟩ bin) 0x7F800000 0xFF800000 0) = ((some 0x3F800000, 5), (some 0x7FC00000, 16)) := by
  decide +kernel
theorem test_fsub_fmul : (ranF (.fsub ⟨.f32, .rdn, false, false⟩ bin) 0x3F800000 0x3F800000 0,
    ranF (.fmul ⟨.f16, .rne, false, false⟩ bin) 0x4200 0xC000 0) = ((some 0x80000000, 0), (some 0xC600, 0)) := by decide +kernel
/-- R131: minimumNumber passes a quiet NaN by; -0 is below +0. -/
theorem test_fmin_fmax : (ran (.fmin ⟨.f32, false⟩ bin) 0x7FC00000 0x40000000 0, ran (.fmin ⟨.f32, false⟩ bin) 0 0x80000000 0,
    ran (.fmax ⟨.f32, false⟩ bin) 0x80000000 0 0) = (some 0x40000000, some 0x80000000, some 0) := by decide +kernel
theorem test_fneg_fabs : (ran (.fneg .f16x2 una) 0x3C00BC00 0 0, ran (.fabs .f32 una) 0xC0200000 0 0) =
    (some 0xBC003C00, some 0x40200000) := by decide +kernel
theorem test_fset : (ran (.fset ⟨.f16x2, false⟩ (insn (.v 2) (.p 7) .unused)) 0 0 0,
    ran (.fset ⟨.f32, true⟩ (insn (.v 2) (.p 7) .unused)) 0 0 0) = (some 0x3C003C00, some 0) := by decide +kernel
/-- R132: 2.5 to even, with NX under EXACT; -0.25 keeps its sign. -/
theorem test_frnd : (ranF (.frnd ⟨.f32, .rne, false, true⟩ una) 0x40200000 0 0, ranF (.frnd ⟨.f32, .rne, false, false⟩ una) 0xBE800000 0 0) =
    ((some 0x40000000, 1), (some 0x80000000, 0)) := by decide +kernel
/-- R133: a quiet NaN under the mask of NaNs; a subnormal under FTZ is a zero. -/
theorem test_fcls : (ranP (.fcls ⟨.f32, false⟩ (insn (.p 2) (.v 1) (.imm 3))) 0x7FC00000 0,
    ran (.fclsOne ⟨.f32, true⟩ una) 0x80000001 0 0) = (some true, some 32) := by decide +kernel
/-- R134: DZ and IV of division, and a root. -/
theorem test_fdiv : (ranF (.fdiv ⟨.f32, .rne, false⟩ (insnV (.v 2) (.v 1) (.v 0))) 0xBF800000 0 0,
    ranF (.fdiv ⟨.f32, .rne, false⟩ (insnV (.v 2) (.v 1) (.v 0))) 0 0 0) = ((some 0xFF800000, 8), (some 0x7FC00000, 16)) := by
  decide +kernel
theorem test_frcp_fsqrt : (ranF (.frcp ⟨.f32, .rne, false⟩ (insnV (.v 2) (.v 1) .unused)) 0x40000000 0 0,
    ranF (.fsqrt ⟨.f32, .rne, false⟩ (insnV (.v 2) (.v 1) .unused)) 0x40000000 0 0,
    ranF (.fsqrt ⟨.f32, .rne, false⟩ (insnV (.v 2) (.v 1) .unused)) 0xBF800000 0 0) =
    ((some 0x3F000000, 0), (some 0x3FB504F3, 1), (some 0x7FC00000, 16)) := by decide +kernel
/-- R135: the values that the table fixes, and exact powers. -/
theorem test_approximations : [ranF (.frsq ⟨.f32, false⟩ (insnV (.v 2) (.v 1) .unused)) 0x40800000 0 0,
    ranF (.fex2 ⟨.f32, false⟩ (insnV (.v 2) (.v 1) .unused)) 0x40400000 0 0, ranF (.flg2 ⟨.f32, false⟩ (insnV (.v 2) (.v 1) .unused)) 0x41000000 0 0,
    ranF (.fsin ⟨.f32, false⟩ (insnV (.v 2) (.v 1) .unused)) 0x7F800000 0 0, ranF (.fcos ⟨.f32, false⟩ (insnV (.v 2) (.v 1) .unused)) 0 0 0,
    ranF (.ftnh ⟨.f32, false⟩ (insnV (.v 2) (.v 1) .unused)) 0xFF800000 0 0] =
    [(some 0x3F000000, 0), (some 0x41000000, 0), (some 0x40400000, 0), (some 0x7FC00000, 16), (some 0x3F800000, 0), (some 0xBF800000, 0)] := by
  decide +kernel
/-- R138's worked example: 500.0 overflows to 0x7F, with OF and NX; and 3000000000 clamps. -/
theorem test_cvt : (ranF (.cvt ⟨.f8a, .f32, .finite, .rna, false, false⟩ una) 0x43FA0000 0 0,
    ranF (.cvt ⟨.s32, .n32, .ieee, .rne, false, true⟩ una) 3000000000 0 0) = ((some 0x7F, 5), (some 0x7FFFFFFF, 0)) := by decide +kernel

/-- R140's worked example. -/
theorem test_qnt :
    let ins := Instr.qnt ⟨true, false, .rne, .ieee⟩ (insn (.v 12) (.v 8) (.imm32 0x2800))
    let ws := outs ins (tune (at_ false ins) (vecs [(8, 0x3F800000), (9, 0xBF400000), (10, 0x40533333), (11, 0)]))
    (outV ws 3, outF ws 3) = (some 0x006AE820, 1) := by decide +kernel
theorem test_dqnt :
    let ins := Instr.dqnt ⟨true, false, .rne, .ieee⟩ (insn (.v 16) (.v 12) (.imm32 0x2800))
    let ws := outs ins (tune (at_ false ins) (vecs [(12, 0x006AE820)]))
    [RegWrite.v 16 0 0x3F800000, .v 17 0 0xBF400000, .v 18 0 0x40540000, .v 19 0 0].all (ws.contains ·) && outF ws 0 == 0 := by
  decide +kernel

/-- R81, R82: signed against unsigned; a NaN compares unordered. -/
theorem test_pset : (ranP (.pset ⟨.s32, .lt⟩ (insn (.p 1) (.v 1) (.v 0))) 0xFFFFFFFF 0,
    ranP (.pset ⟨.n32, .lt⟩ (insn (.p 1) (.v 1) (.v 0))) 0xFFFFFFFF 0) = (some true, some false) := by decide +kernel
theorem test_fpset : (ranP (.fpset ⟨.f32, .lt, false, false⟩ (insn (.p 1) (.v 1) (.v 0))) 0x7FC00000 0,
    ranP (.fpset ⟨.f32, .lt, true, false⟩ (insn (.p 1) (.v 1) (.v 0))) 0x7FC00000 0) = (some false, some true) := by decide +kernel
/-- R83: table 0x80 is the AND; R84. -/
theorem test_plop : (ranP (.plop 0x80 (insnX (.p 2) (.p 7) (.p 7) (.p 7))) 0 0, ranP (.plop 0x80 (insnX (.p 2) (.p 7) (.p 7) (.p 1))) 0 0,
    ranP (.pmov true (insn (.p 2) (.p 7) .unused)) 0 0) = (some true, some false, some false) := by decide +kernel
theorem test_pmov_pack :
    let ins := Instr.pmovPack (insn (.v 2) .unused .unused)
    outV (outs ins (tune (at_ false ins) (fun p => setP (setP p 1 4 true) 6 4 true))) 4 = some 0xC2 := by decide +kernel

/-- A state with the lanes 0, 1, 2 and 5 in the fragment. -/
def some4 (s : State) : State := { s with cur := s.cur.map (fun c => { c with m := 0x27 }) }
def exLanes : List Nat := [0x3F800000, 0x4B800000, 0x3F800000, 0, 0, 0xCB800000]

/-- R90's worked example, and SCAN's of the same lanes. -/
theorem test_redux :
    let ins := Instr.redux ⟨.f32, .add, false, false⟩ una
    let ws := outs ins (some4 (tune (at_ false ins) (lanes 1 exLanes)))
    (outV ws 0, outV ws 5, outV ws 3, outF ws 5) = (some 0, some 0, none, 1) := by decide +kernel
theorem test_scan :
    let ins := Instr.scan ⟨.f32, .add, false, false⟩ una
    let ws := outs ins (some4 (tune (at_ false ins) (lanes 1 exLanes)))
    (outV ws 0, outV ws 1, outV ws 2, outV ws 5) = (some 0x3F800000, some 0x4B800000, some 0x4B800000, some 0) := by decide +kernel
/-- R91: peers by value, and unanimity. -/
theorem test_match :
    let ins := Instr.matchOp ⟨.peers, false, true⟩ (insnX (.v 2) (.v 1) .unused (.p 3))
    let ws := outs ins (tune (at_ false ins) (lanes 1 [7, 8, 7, 9, 7, 8, 9, 7]))
    (outV ws 0, outV ws 5, outV ws 6, outP ws 0) = (some 0x95, some 0x22, some 0x48, some false) := by decide +kernel
/-- R87: the count and the ballot of the lanes whose predicate is 1. -/
theorem test_vote :
    let f : Party → Party := fun p => setP (setP (setP p 1 0 true) 1 3 true) 1 6 true
    let c := Instr.vote ⟨.count, false⟩ (insn (.v 2) (.p 1) .unused)
    let b := Instr.vote ⟨.ballot, false⟩ (insn (.s 2) (.p 1) .unused)
    (outV (outs c (tune (at_ false c) f)) 7, outS (outs b (tune (at_ false b) f))) = (some 3, some 0x49) := by decide +kernel

/-- R88: lane l reads l - 1 and nothing below lane 0; rotation by 1 under WRAP. -/
theorem test_shfl :
    let up := Instr.shfl ⟨false, true, false⟩ (insnX (.v 2) (.v 1) (.v 0) (.p 2))
    let rot := Instr.shfl ⟨true, false, false⟩ (insn (.v 2) (.v 1) (.v 0))
    let f : Nat → Party → Party := fun c p => vecs [(0, c)] (lanes 1 [10, 11, 12, 13, 14, 15, 16, 17] p)
    let ws := outs up (tune (at_ false up) (f 0xFF07))
    let wr := outs rot (tune (at_ false rot) (f 0x0107))
    (outV ws 0, outP ws 0, outV ws 5, outP ws 5, outV wr 7) = (some 10, some false, some 14, some true, some 10) := by
  decide +kernel
theorem test_bcast :
    let ins := Instr.bcast ⟨false, false⟩ (insn (.s 2) (.v 1) (.imm 2))
    outS (outs ins (tune (at_ false ins) (lanes 1 [10, 11, 12, 13]))) = some 12 := by decide +kernel

/-! #### Control -/

def partyAfter (ins : Instr) (s : State) : Option Party := (after ins s).bind (fun t => t.parties.get? (cq s))

/-- R75's guarded skip, at 0x200080: the lanes of p1 go to the join and wait; the others go on. -/
theorem test_bra_split :
    let ins := Instr.bra true ⟨.unused, .imm 0, .imm 4, .disp 4, ⟨1, false⟩, h0⟩
    let p := partyAfter ins (tune (at_ false ins) (fun p => setP (setP p 1 0 true) 1 1 true))
    ((p.map fragList).getD []).map (fun f => (f.mask, f.pc, f.st)) =
      [(3, 0x2000BC, FragState.joined), (0xFC, 0x20008C, FragState.run)] := by decide +kernel
theorem test_bra_all :
    let ins := Instr.bra false ⟨.unused, .unused, .unused, .disp (-2), g7, h0⟩
    (partyAfter ins (at_ false ins)).map (fun p => (p.slot0.map (·.pc), p.splits.length)) =
      some (some 0x200074, 0) := by decide +kernel
/-- R72: a call whose lanes are all taken has the next address as LINK. -/
theorem test_call :
    let ins := Instr.call ⟨.unused, .unused, .unused, .disp 4, g7, h0⟩
    (partyAfter ins (at_ false ins)).map (fun p => p.slot0.map (fun f => (f.pc, f.link))) =
      some (some (0x2000BC, 0x20008C)) := by decide +kernel
/-- R74: an indirect target that is no multiple of 4 faults; nothing moves. -/
theorem test_callx_misaligned :
    let ins := Instr.callx (insn .unused (.s 3) .unused)
    let s := tune (at_ false ins) (scalars [(3, 0x200102)])
    ((partyAfter ins s).map (fun p => (p.stopped, p.slot0.map (·.pc))),
      (after ins s).map (fun t => (ctxOf t 1).cands.map (fun r => (r.code, r.addr, r.iaddr)))) =
    (some (true, some 0x200080), some [(0x10, 0x200102, 0x200080)]) := by decide +kernel
theorem test_brz : (let ins := Instr.brz ⟨.unused, .unused, .unused, .disp 2, off, h0⟩
    (partyAfter ins (at_ false ins)).map (fun p => p.slot0.map (·.pc))) = some (some 0x2000A4) := by decide +kernel
theorem test_msave :
    let ins := Instr.msave (insn (.s 2) .unused .unused)
    outS (outs ins (tune (at_ false ins) (fun p => { p with slot0 := p.slot0.map (fun f => { f with mask := 0x0F }) }))) =
      some 0xFF0F := by decide +kernel
theorem test_mrest :
    let ins := Instr.mrest (insn .unused (.s 2) .unused)
    let s := tune (at_ false ins) (fun p => scalars [(2, 0xAB3C)] { p with slot0 := p.slot0.map (fun f => { f with own := 0x3F }) })
    (partyAfter ins s).map (fun p => p.slot0.map (·.mask)) = some (some 0x3C) := by decide +kernel
/-- R76: the lanes of p1 leave; with the last lane the party retires. -/
theorem test_exit :
    let ins := Instr.exit { insn .unused .unused .unused with g := ⟨1, false⟩ }
    let all := Instr.exit (insn .unused .unused .unused)
    ((partyAfter ins (tune (at_ false ins) (fun p => setP p 1 3 true))).map (fun p => (p.live, p.retired, p.slot0.map (·.own))),
      (partyAfter all (at_ false all)).map (fun p => (p.live, p.retired, p.slot0.isSome))) =
    (some (0xF7, false, some 0xF7), some (0, true, false)) := by decide +kernel
theorem test_trap :
    let ins := Instr.trap (insn .unused .unused (.imm 0x55))
    (after ins (at_ false ins)).map (fun t => (ctxOf t 1).cands.map (fun r => (r.code, r.detail))) = some [(7, 0x55)] := by decide +kernel

/-! #### Shade registers -/

/-- R197: the values of all live lanes agree, so the write without a tag lands at G; else at L. -/
theorem test_shade_write :
    let s := at_ false (.nop (insn .unused .unused .unused))
    let at2 : List (BitVec 32) → Option (Option W32 × Mask) := fun xs =>
      ((applyWrite s (cq s) (.shade 2 .resolve 255 xs)).parties.get? (cq s)).map (fun p => (p.hG.get? 2, lMask p 2))
    (at2 (List.replicate 8 9), at2 [9, 9, 9, 9, 9, 9, 9, 8]) = (some (some 9, 0), some (none, 255)) := by decide +kernel
/-- R195: a lane's copy comes before the group's, the group's before the block's. -/
theorem test_shade_resolve :
    let s := tuneB (tune (at_ false (.nop (insn .unused .unused .unused))) (fun p =>
      { p with hG := [(2, 20)], hL := [(hlKey 2 1, 21)] })) (fun b => { b with hB := [(2, 5), (3, 6)] })
    (match s.parties.get? 0, s.blocks.get? 0 with
      | some p, some b => [resolve p b 2 1, resolve p b 2 0, resolve p b 3 0, resolve p b 4 0]
      | _, _ => []) = [21, 20, 6, 0] := by decide +kernel
/-- R198: hK:g by some of the live lanes. -/
theorem test_shade_rank :
    let ins := Instr.mov .n32 { insn (.h 1 .g) .unused (.imm 4) with g := ⟨1, false⟩ }
    (after ins (tune (at_ false ins) (fun p => setP p 1 2 true))).map (fun t => (ctxOf t 1).cands.map (·.code)) = some [0x40] := by
  decide +kernel
/-- R205: where all lanes agree UNISON takes the lane copies together and sets its predicate. -/
theorem test_unison :
    let ins := Instr.unison (insn (.p 2) (.h 0 .resolve) .unused)
    let f : Nat → Party → Party := fun n p => { p with hL := ((List.range 8).map (fun l => (hlKey 0 l, if l = 7 then BitVec.ofNat 32 n else 4))) }
    (outP (outs ins (tune (at_ false ins) (f 4))) 0, outP (outs ins (tune (at_ false ins) (f 5))) 0) = (some true, some false) := by
  decide +kernel

/-! #### Memory -/

/-- Bytes in the page, under the context's key. -/
def poke (s : State) (a : Nat) (bytes : List Byte) : State :=
  { s with mem := writeBytes s.mem (locOf 1 a) bytes, owner := s.owner.insert (lineOf (locOf 1 a)) (ownerCode s 1) }

def dataAt (s : State) : State := poke (tune s (scalars [(8, 0x200400)])) 0x200400 [0x80, 0x11, 0x22, 0x93, 0x44, 0x55, 0x66, 0x77]

theorem test_ld :
    let w := Instr.ld ⟨.global, .b32, false, .dflt, .plain⟩ (memV (.v 4) (.s 8) (.imm 0))
    let b := Instr.ld ⟨.global, .b8, true, .dflt, .plain⟩ (memV (.v 4) (.s 8) (.imm 0))
    (outV (outs w (dataAt (at_ false w))) 3, outV (outs b (dataAt (at_ false b))) 0) = (some 0x93221180, some 0xFFFFFF80) := by
  decide +kernel
/-- R154: a load of 64 bits fills the pair in little-endian order; a misaligned one faults in its lowest lane with its address. -/
theorem test_ld_wide :
    let w := Instr.ld ⟨.global, .b64, false, .dflt, .plain⟩ (memV (.v 4) (.s 8) (.imm 0))
    let m := Instr.ld ⟨.global, .b64, false, .dflt, .plain⟩ (memV (.v 4) (.s 8) (.imm 4))
    ((outs w (dataAt (at_ false w))).contains (.v 5 2 0x77665544),
      (after m (dataAt (at_ false m))).map (fun t => (ctxOf t 1).cands.map (fun r => (r.code, r.lane, r.addr)))) =
      (true, some [(0x10, 0, 0x200404)]) := by decide +kernel
/-- R155: the entry of a store holds its bytes, and memory does not change yet. -/
theorem test_st :
    let ins := Instr.st ⟨.global, .b16, .dflt, .plain⟩ (mem (.v 4) (.s 8) (.imm 0))
    let s := tune (dataAt (at_ false ins)) (fun p => setV p 4 7 0xABCD1234)
    (after ins s).map (fun t => (((t.parties.get? 0).map (fun p => (p.buf.getLast?.map (·.cells)))).join,
      readByte t.mem (locOf 1 0x200400))) =
      some (some [(locOf 1 0x200400, 0x34), (locOf 1 0x200401, 0x12)], 0x80) := by decide +kernel
/-- R328: lanes step in ascending order, each with the value before it; the sum is in memory. -/
theorem test_atom_add :
    let ins := Instr.atom ⟨.n32, .add, .relaxed⟩ (memV (.v 4) (.s 8) (.imm 1))
    let s := poke (tune (at_ false ins) (fun p => vecs [] (scalars [(8, 0x200400)] p))) 0x200400 [10, 0, 0, 0]
    (outV (outs ins (some4 s)) 0, (after ins (some4 s)).map (fun t => readByte t.mem (locOf 1 0x200400))) =
      (some 10, some 14) := by decide +kernel
theorem test_atom_cas :
    let ins := Instr.atom ⟨.n32, .cas, .relaxed⟩ (memV (.v 4) (.s 8) (.v 6))
    let s := poke (tune (at_ false ins) (fun p => vecs [(6, 10), (7, 99)] (scalars [(8, 0x200400)] p))) 0x200400 [10, 0, 0, 0]
    (outV (outs ins s) 0, (after ins s).map (fun t => readByte t.mem (locOf 1 0x200400))) = (some 10, some 99) := by decide +kernel
theorem test_lds_sts :
    let l := Instr.lds ⟨.b16, true⟩ (memV (.v 4) (.imm 6) (.imm 0))
    let s := tuneB (at_ false l) (fun b => { b with sp := [(6, 0xFE), (7, 0xFF)] })
    let t := Instr.sts .b32 (mem (.v 4) (.imm 8) (.imm 0))
    (outV (outs l s) 0, (partyAfter t (tune (at_ false t) (vecs [(4, 0x01020304)]))).map (fun p => (p.sbuf.getLast?.map (·.cells)))) =
      (some 0xFFFFFFFE, some (some [(8, 4), (9, 3), (10, 2), (11, 1)])) := by decide +kernel
theorem test_atoms :
    let ins := Instr.atoms ⟨.s32, .max, false⟩ (memV (.v 4) (.imm 16) (.v 6))
    let s := tuneB (tune (at_ false ins) (vecs [(6, 3)])) (fun b => { b with sp := [(16, 0xFF), (17, 0xFF), (18, 0xFF), (19, 0xFF)] })
    (outV (outs ins s) 0, (after ins s).map (fun t => (t.blocks.get? 0).map (fun b => b.sp.getD 16 0))) =
      (some 0xFFFFFFFF, some (some 3)) := by decide +kernel
theorem test_rdsr : (let ins := Instr.rdsr 0x19 (insnV (.s 2) .unused .unused)
    let ver := Instr.rdsr 0x0 (insnV (.s 2) .unused .unused)
    ((outs ins (at_ false ins)).length, outS (outs ver (at_ false ver)) == some 0)) = (1, false) := by decide +kernel
theorem test_wrsr : (let ins := Instr.wrsr 0x18 (insn .unused (.imm 1) .unused)
    (after ins (at_ false ins)).map (fun t => (ctxOf t 1).cands.map (·.code))) = some [0x11] := by decide +kernel

/-! #### Barriers, queues, counters, locks -/

/-- The fragment has come to a group-wide instruction (R62). -/
def wide (s : State) : State :=
  tune s (fun p => { p with slot0 := p.slot0.map (fun f => { f with st := .converging }) })

/-- R217: with a count of 1 SYNC goes on; with 2 the party is blocked; 66 is refused at issue (R217, DETAIL the barrier). -/
theorem test_bar_sync :
    let one := Instr.barSync (insn .unused (.imm 3) (.imm 1))
    let two := Instr.barSync (insn .unused (.imm 3) (.imm 2))
    ((partyAfter one (wide (at_ false one))).map (fun p => p.slot0.map (fun f => (f.pc, f.st))),
      (partyAfter two (wide (at_ false two))).map (fun p => p.slot0.map (·.st))) =
    (some (some (0x20008C, .run)), some (some (.blocked (.bar 3)))) := by decide +kernel
theorem test_bar_count :
    let ins := Instr.barArr (insn .unused (.imm 3) (.s 2))
    (after ins (tune (at_ false ins) (scalars [(2, 0)]))).map (fun t => (ctxOf t 1).cands.map (fun r => (r.code, r.detail))) =
      some [(0x20, 3)] := by decide +kernel
/-- R221 to R223: a new queue; a full one blocks its pusher; the head of a queue, and the slot that it leaves. -/
theorem test_qinit :
    let ins := Instr.qinit 3 (insn .unused (.imm 1) (.imm 64))
    (after ins (at_ false ins)).map (fun t => (t.blocks.get? 0).map (fun b => (queueOf b 1).live && (queueOf b 1).depth == 4)) =
      some (some true) := by decide +kernel
def queue1 (n : Nat) (b : Block) : Block :=
  setQueue { b with sp := [(64, 7), (72, 8)] } 1 ⟨true, 64, 2, n, 0, n % 2, [], []⟩
theorem test_qpop :
    let ins := Instr.qpop (insnV (.s 2) (.imm 1) .unused)
    let s := tuneB (at_ false ins) (queue1 2)
    (outS (outs ins s), (after ins s).map (fun t => (t.blocks.get? 0).map (fun b => ((queueOf b 1).count, (queueOf b 1).hd)))) =
      (some 7, some (some (1, 1))) := by decide +kernel
theorem test_qpush_full :
    let ins := Instr.qpush (insn .unused (.imm 1) (.s 3))
    (partyAfter ins (wide (tuneB (at_ false ins) (queue1 2)))).map (fun p => p.slot0.map (·.st)) = some (some (.blocked (.qpush 1))) := by
  decide +kernel
theorem test_qtry :
    let pop := Instr.qtryPop 2 (insnV (.s 2) (.imm 1) .unused)
    let push := Instr.qtryPush 2 (insnV .unused (.imm 1) (.imm 5))
    (outP (outs pop (tuneB (at_ false pop) (queue1 0))) 0, outP (outs push (tuneB (at_ false push) (queue1 1))) 0) =
      (some false, some true) := by decide +kernel
theorem test_waitc :
    let ins := Instr.waitc .copy (insn .unused (.imm 1) .unused)
    let f : Nat → Party → Party := fun n p => { p with ctr := { p.ctr with copy := n } }
    ((partyAfter ins (tune (at_ false ins) (f 1))).map (fun p => p.slot0.map (·.pc)),
      (partyAfter ins (tune (at_ false ins) (f 2))).map (fun p => p.slot0.map (·.pc))) = (some (some 0x20008C), some (some 0x200080)) := by
  decide +kernel
/-- R233, R226: a copy counts up its counter; a size that is no multiple of 16 is MISALIGNED or BOUNDS, never a copy. -/
theorem test_bcopy :
    let ins := Instr.bcopy ⟨false, none, .dflt⟩ (insnX .unused (.s 8) (.imm 0) (.imm 32))
    (partyAfter ins (dataAt (at_ false ins))).map (fun p => (p.ctr.copy, p.copies.map (fun c => (c.rows, c.rowBytes)))) =
      some (1, [([(0x200400, 0)], 32)]) := by decide +kernel
/-- R343: ALREADY_HELD answers 5 at once; else a slot is reserved and a request sent. -/
theorem test_trylock :
    let ins := Instr.trylock .die (memV (.s 2) (.s 8) .unused)
    let held : Party → Party := fun p => { p with held := p.held.set 0 ⟨.held, 0x200400 / 128, .die⟩ }
    (outS (outs ins (tune (dataAt (at_ false ins)) held)),
      (after ins (dataAt (at_ false ins))).map (fun t => (t.lockReqs.map (fun r => (r.line, r.try_)),
        (t.parties.get? 0).map (fun p => p.held.map (·.st))))) =
    (some 5, some ([(0x200400 / 128, true)], some [.reserved, .free, .free, .free])) := by decide +kernel
/-- R344: an UNLOCK of a line that is not held. -/
theorem test_unlock_misuse : (let ins := Instr.unlock .die (mem .unused (.s 8) .unused)
    (after ins (dataAt (at_ false ins))).map (fun t => (ctxOf t 1).cands.map (·.code))) = some [0x21] := by decide +kernel
/-- R345: a free line. -/
theorem test_lkqry : (let ins := Instr.lkqry (memV (.s 2) (.s 8) .unused)
    outS (outs ins (dataAt (at_ false ins)))) = some 0xFFFFFFFF00000000 := by decide +kernel
/-- R304: 17 pages from a register are BOUNDS; R226: a counter of 63 is COUNTER_OVERFLOW. -/
theorem test_pagereq :
    let ins := Instr.pagereq false (insn .unused (.s 8) (.s 9))
    let f : Nat → Nat → Party → Party := fun n c p => { scalars [(9, n)] p with ctr := { p.ctr with page := c } }
    [f 17 0, f 1 63].map (fun g => (after ins (tune (dataAt (at_ false ins)) g)).map (fun t => (ctxOf t 1).cands.map (·.code))) =
      [some [0x12], some [0x22]] := by decide +kernel

/-! #### Worked examples of the Harp, the memory and the fabric -/

/-- R312: with no entry, and with an entry of stride 5 over dies 0 and 2 and slices 0 to 15. -/
theorem test_home :
    let e : BitVec 128 := BitVec.ofNat 128 (1 + 5 * 2 + 5 * 256 + 0xFFFF * 2 ^ 16 + 0x20000 * 2 ^ 64 + 0x20000 * 2 ^ 96)
    (homeOf State.reset 0x12345680, homeOf (let r := { State.reset.regs with
        art := [(3, e)] }
      { State.reset with
        regs := r }) 0x4000007000) =
      ((1, 18), (2, 3)) := by decide +kernel
/-- R251: the groups of column 5 in turn. -/
theorem test_accumulate :
    let v0 := contribution (fval fmtF16 .ieee 0x2000) (fval fmtF16 .ieee 0x3400) 144 false
    let v1 := contribution (fval fmtF16 .ieee 0x2000) (fval fmtF16 .ieee 0x0080) 1 false
    (v0.code, v1.code, (accAdd 0x3F800000 v0.code).code, (accAdd 0x3FA40000 v1.code).code, (accAdd 0x3FA40000 v1.code).fl) =
      (0x3E900000, 0x33800000, 0x3FA40000, 0x3FA40000, 1) := by decide +kernel
/-- R252: the group of 3.0, 0x2E66 and -1.5. -/
theorem test_align :
    let r := alignGroup ([0x4200, 0x2E66, 0xBE00].map (fval fmtF16 .ieee) ++ List.replicate 29 (fval fmtF16 .ieee 0))
    (r.a.take 4, r.ea, r.nan, r.fl) = ([12288, 410, -6144, 0], -12, false, 1) := by decide +kernel
/-- R269: the tile at VA offset 0x20100 of a Q4 window with K = 1,024 begins at row 256, column 512. -/
theorem test_tile :
    let w : Window := ⟨4, .g32, .ieee, 1024, 0x60000000, 0x60100000, 0, 0⟩
    (tileOrigin w 0x60020100, windowBad w 0x60020100, tileOrigin w 0x60020110, windowBad w 0x60020110,
      windowBad w (0x60020000 + 400)) = ((256, 512), false, (256, 544), false, true) := by decide +kernel
/-- R440: five ranks, 4.0 with NX. -/
theorem test_tree : (let r := colTree .f32 .add ([0x3F800000, 0x4B800000, 0x3F800000, 0xCB800000, 0x40400000].map (fun c => ⟨c, 0⟩))
    (r.code, r.fl)) = (0x40800000, 1) := by decide +kernel
/-- R426: the fields of a record in their places. -/
theorem test_record :
    let r : FaultRec :=
      ⟨0x10, true, true, false, false, 2, 5, 0x123, 0x104, 0x01020304, 0xA1A2A3A4, 0x200080, 0x1122334455667788, 9, 0x0A0B0C, 7⟩
    let b := recBytes r
    (b.length, b.take 8, b.drop 0x38, b.getD 0x18 0, b.getD 0x28 0, (b.drop 8).take 4) =
      (64, [0x10, 3, 2, 5, 0x23, 1, 4, 1], [7, 0, 0, 0, 0, 0, 0, 0], 0x88, 0x0C, [4, 3, 2, 1]) := by decide +kernel

/-- The words of the listings (spec/07, spec/13, spec/17), worked there from R17. -/
theorem test_decode_listings :
    (reads 0x038070C02021120E20EC31C0 (.ld ⟨.global, .b64, false, .dflt, .ro⟩
        ⟨.s 14, .s 14, .s 17, .mem 0x20 3 0, g7, ⟨0, 7, 0, false⟩⟩) &&
      reads 0x180070000000060221000020 (.vote ⟨.ballot, false⟩ ⟨.s 16, .p 2, .unused, .none, g7, ⟨0, 0, 6, false⟩⟩) &&
      reads 0x00003FFFF800000000000001 (.bra false ⟨.unused, .unused, .unused, .disp (-8), ⟨3, false⟩, h0⟩) &&
      reads 0x180870000021400400800521 (.qnt ⟨true, false, .rne, .ieee⟩ ⟨.v 8, .v 4, .s 20, .none, g7, ⟨8, 0, 6, false⟩⟩) &&
      reads 0x000170000000020200003A80 (.hplaneRaw ⟨false, 3, .g32, .ieee⟩ ⟨.unused, .s 2, .unused, .none, g7, ⟨1, 0, 0, false⟩⟩) &&
      reads 0x000070000050080000080243 (.qpush (insn .unused (.imm 0) (.imm32 0x500))) &&
      reads 0x0000700010800204810001F0 (.objnew false ⟨.imm 16, .s 4, .imm 0, .mem 0x10 0 0, g7, h0⟩) &&
      reads 0x000070000880020420C001F1 (.stref false ⟨.s 12, .s 4, .imm 0, .mem 8 0 0, g7, h0⟩)) = true := by
  decide +kernel

/-! ### Witnesses: states and operands that meet the hypotheses of the obligations -/

/-- Each of the instructions comes to its effect at its small state with `f`. -/
def metAll (bow : Bool) (l : List Instr) (f : Insn → Ctx → State → Bool) : Bool :=
  l.all (fun ins => match insnOf ins with
    | some i => meets ins i (at_ bow ins) (f i)
    | none => false)

theorem metAll_met {bow : Bool} {l : List Instr} {f : Insn → Ctx → State → Bool} (h : metAll bow l f = true) :
    ∀ ins ∈ l, ∃ i, insnOf ins = some i ∧ Met ins i (fun k s => f i k s = true) := by
  intro ins hin
  have h1 := List.all_eq_true.mp h ins hin
  cases hi : insnOf ins with
  | none => rw [hi] at h1; cases h1
  | some i => rw [hi] at h1; exact ⟨i, rfl, met _ _ (fun _ _ h => h) h1⟩

/-- Its destination is no hK:g that e does not fill. -/
def rankGood (i : Insn) (k : Ctx) (_ : State) : Bool := !shadeRankBad k i.a

theorem witness_IntegerArithmetic : ∀ ins ∈ intSamples, ∃ i, insnOf ins = some i ∧ Met ins i (fun k s => rankGood i k s = true) :=
  metAll_met (bow := false) (by decide +kernel)
theorem witness_LogicAndMoves : ∀ ins ∈ logicSamples, ∃ i, insnOf ins = some i ∧ Met ins i (fun k s => rankGood i k s = true) :=
  metAll_met (bow := false) (by decide +kernel)
theorem witness_Floats : ∀ ins ∈ floatSamples, ∃ i, insnOf ins = some i ∧ Met ins i (fun k s => rankGood i k s = true) :=
  metAll_met (bow := false) (by decide +kernel)
theorem witness_Conversions : Met (.dqnt ⟨false, false, .rne, .finite⟩ (insn (.v 4) (.v 1) (.v 0))) (insn (.v 4) (.v 1) (.v 0))
    (fun _ _ => True) := met_decide (at_ false (.dqnt ⟨false, false, .rne, .finite⟩ (insn (.v 4) (.v 1) (.v 0)))) (by decide +kernel)
theorem witness_Predicates : ∀ ins ∈ predSamples, ∃ i, insnOf ins = some i ∧ Met ins i (fun k s => rankGood i k s = true) :=
  metAll_met (bow := false) (by decide +kernel)
theorem witness_GroupWide : ∀ ins ∈ wideSamples, ∃ i, insnOf ins = some i ∧ Met ins i (fun k s => rankGood i k s = true) :=
  metAll_met (bow := false) (by decide +kernel)
theorem witness_PlainControl : ∀ ins ∈ plainSamples, ∃ i, insnOf ins = some i ∧ Met ins i (fun k s => rankGood i k s = true) :=
  metAll_met (bow := false) (by decide +kernel)
theorem witness_PlainControl_lanes :
    Met (.trap (insn .unused .unused (.imm 5))) (insn .unused .unused (.imm 5)) (fun k _ => k.e ≠ 0) ∧
    Met (.trap (offI (insn .unused .unused (.imm 5)))) (offI (insn .unused .unused (.imm 5))) (fun k _ => k.e = 0) ∧
    Met (.exit (insn .unused .unused .unused)) (insn .unused .unused .unused) (fun k _ => k.e ≠ 0) ∧
    Met (.exit (offI (insn .unused .unused .unused))) (offI (insn .unused .unused .unused)) (fun k _ => k.e = 0) :=
  ⟨met_decide (at_ false (.trap (insn .unused .unused (.imm 5)))) (by decide +kernel),
    met_decide (at_ false (.trap (offI (insn .unused .unused (.imm 5))))) (by decide +kernel),
    met_decide (at_ false (.exit (insn .unused .unused .unused))) (by decide +kernel),
    met_decide (at_ false (.exit (offI (insn .unused .unused .unused)))) (by decide +kernel)⟩

/-! #### Branches -/

def fits (k : Ctx) (s : State) (t : W64) (j : Option W64) (l : W64) : Bool :=
  match s.parties.get? k.c.q with
  | some p => (resolved k p t j l).isSome
  | none => true

theorem fits_Fits {k : Ctx} {s : State} {t : W64} {j : Option W64} {l : W64} (h : fits k s t j l = true) : Fits k s t j l := by
  intro p hp; unfold fits at h; rw [hp] at h; exact h

def iBra : Insn := ⟨.unused, .imm 0, .imm 4, .disp 4, g7, h0⟩
def iBrx : Insn := ⟨.unused, .s 3, .unused, .disp 4, g7, h0⟩
def iCall : Insn := ⟨.unused, .unused, .unused, .disp 4, g7, h0⟩
def iNone : Insn := insn .unused .unused .unused

theorem witness_Branches_bra : Met (.bra true iBra) iBra (fun k s => Fits k s (dispTarget k (xDisp iBra)) (some (dispTarget k (braJoin iBra))) (linkOf k)) :=
  met (at_ false (.bra true iBra)) (fun k s => fits k s (dispTarget k (xDisp iBra)) (some (dispTarget k (braJoin iBra))) (linkOf k))
    (fun _ _ h => fits_Fits h) (by decide +kernel)
theorem witness_Branches_brx : Met (.brx true iBrx) iBrx (fun k s => (k.e = 0 ∨ (bTarget k iBrx).toNat % 4 = 0) ∧
    Fits k s (bTarget k iBrx) (some (dispTarget k (xDisp iBrx))) (linkOf k)) :=
  met (at_ false (.brx true iBrx)) (fun k s => (bTarget k iBrx).toNat % 4 == 0 && fits k s (bTarget k iBrx) (some (dispTarget k (xDisp iBrx))) (linkOf k))
    (fun _ _ h => by rw [Bool.and_eq_true] at h; exact ⟨.inr (eq_of_beq h.1), fits_Fits h.2⟩) (by decide +kernel)
theorem witness_Branches_call : Met (.call iCall) iCall (fun k s =>
    Fits k s (dispTarget k (xDisp iCall)) (some (nextPc k.c.iaddr)) (nextPc k.c.iaddr)) :=
  met (at_ false (.call iCall)) (fun k s => fits k s (dispTarget k (xDisp iCall)) (some (nextPc k.c.iaddr)) (nextPc k.c.iaddr))
    (fun _ _ h => fits_Fits h) (by decide +kernel)
theorem witness_Branches_callx : Met (.callx (insn .unused (.s 3) .unused)) (insn .unused (.s 3) .unused) (fun k s =>
    (k.e = 0 ∨ (bTarget k (insn .unused (.s 3) .unused)).toNat % 4 = 0) ∧
    Fits k s (bTarget k (insn .unused (.s 3) .unused)) (some (nextPc k.c.iaddr)) (nextPc k.c.iaddr)) :=
  met (at_ false (.callx (insn .unused (.s 3) .unused))) (fun k s => (bTarget k (insn .unused (.s 3) .unused)).toNat % 4 == 0 &&
      fits k s (bTarget k (insn .unused (.s 3) .unused)) (some (nextPc k.c.iaddr)) (nextPc k.c.iaddr))
    (fun _ _ h => by rw [Bool.and_eq_true] at h; exact ⟨.inr (eq_of_beq h.1), fits_Fits h.2⟩) (by decide +kernel)
theorem witness_Branches_ret : Met (.ret iNone) iNone (fun k s => (k.e = 0 ∨ (linkOf k).toNat % 4 = 0) ∧ Fits k s (linkOf k) (some (linkOf k)) (linkOf k)) :=
  met (at_ false (.ret iNone)) (fun k s => (linkOf k).toNat % 4 == 0 && fits k s (linkOf k) (some (linkOf k)) (linkOf k))
    (fun _ _ h => by rw [Bool.and_eq_true] at h; exact ⟨.inr (eq_of_beq h.1), fits_Fits h.2⟩) (by decide +kernel)
/-- A fragment, and executing sets with none, all and some of its lanes. -/
theorem witness_Branches_resolution : (newParty false 0 1 0 0 fetchKernel).slot0 = some ⟨255, 255, 0x200080, none, none, 0, .run⟩ ∧
    ((255 : Mask) ≠ 0 ∧ (255 : Mask) &&& ~~~255 = 0) ∧ ((15 : Mask) ≠ 0 ∧ (255 : Mask) &&& ~~~15 ≠ 0) := by decide +kernel
/-- A target that is no multiple of 4. -/
theorem witness_Branches_misaligned :
    Met (.brx true iBrx) iBrx (fun k _ => k.e ≠ 0 ∧ (bTarget k iBrx).toNat % 4 ≠ 0) ∧
    Met (.callx (insn .unused (.s 3) .unused)) (insn .unused (.s 3) .unused) (fun k _ =>
      k.e ≠ 0 ∧ (bTarget k (insn .unused (.s 3) .unused)).toNat % 4 ≠ 0) ∧
    Met (.ret iNone) iNone (fun k _ => k.e ≠ 0 ∧ (linkOf k).toNat % 4 ≠ 0) :=
  ⟨met_decide (tune (at_ false (.brx true iBrx)) (scalars [(3, 2)])) (by decide +kernel),
    met_decide (tune (at_ false (.callx (insn .unused (.s 3) .unused))) (scalars [(3, 2)])) (by decide +kernel),
    met_decide (tune (at_ false (.ret iNone)) (fun p => { p with slot0 := p.slot0.map (fun f => { f with link := 2 }) })) (by decide +kernel)⟩
/-- A spill area that is full, and a branch or call of some lanes. -/
def fullSpill (ins : Instr) : State :=
  tune (at_ false ins) (fun p => { setP p 1 0 true with splits := (List.range 300).map (fun n => (n, ⟨255, none, none, 0⟩)) })
def noRoom (k : Ctx) (s : State) (t : W64) (j : Option W64) (l : W64) : Bool :=
  t.toNat % 4 == 0 && match s.parties.get? k.c.q with
    | some p => (resolved k p t j l).isNone
    | none => false
theorem noRoom_full {k : Ctx} {s : State} {t : W64} {j : Option W64} {l : W64} (h : noRoom k s t j l = true) :
    t.toNat % 4 = 0 ∧ ∀ p, s.parties.get? k.c.q = some p → resolved k p t j l = none := by
  unfold noRoom at h
  rw [Bool.and_eq_true] at h
  exact ⟨eq_of_beq h.1, fun p hp => by have h2 := h.2; rw [hp] at h2; exact Option.isNone_iff_eq_none.mp h2⟩
def some1 (i : Insn) : Insn := { i with g := ⟨1, false⟩ }
theorem witness_Branches_overflow :
    let full : (Ctx → W64) → (Ctx → Option W64) → (Ctx → W64) → Ctx → State → Prop := fun tg j link k s =>
      (tg k).toNat % 4 = 0 ∧ ∀ p, s.parties.get? k.c.q = some p → resolved k p (tg k) (j k) (link k) = none
    let next : Ctx → W64 := fun k => nextPc k.c.iaddr
    Met (.bra true (some1 iBra)) (some1 iBra) (full (fun k => dispTarget k (xDisp iBra)) (fun k => some (dispTarget k (braJoin iBra))) linkOf) ∧
    Met (.brx true (some1 iBrx)) (some1 iBrx) (full (fun k => bTarget k iBrx) (fun k => some (dispTarget k (xDisp iBrx))) linkOf) ∧
    Met (.call (some1 iCall)) (some1 iCall) (full (fun k => dispTarget k (xDisp iCall)) (fun k => some (next k)) next) ∧
    Met (.callx (some1 (insn .unused (.s 3) .unused))) (some1 (insn .unused (.s 3) .unused))
      (full (fun k => bTarget k (insn .unused (.s 3) .unused)) (fun k => some (next k)) next) ∧
    Met (.ret (some1 iNone)) (some1 iNone) (full linkOf (fun k => some (linkOf k)) linkOf) :=
  ⟨met (fullSpill (.bra true (some1 iBra))) (fun k s => noRoom k s (dispTarget k (xDisp iBra)) (some (dispTarget k (braJoin iBra))) (linkOf k))
      (fun _ _ h => noRoom_full h) (by decide +kernel),
    met (fullSpill (.brx true (some1 iBrx))) (fun k s => noRoom k s (bTarget k iBrx) (some (dispTarget k (xDisp iBrx))) (linkOf k))
      (fun _ _ h => noRoom_full h) (by decide +kernel),
    met (fullSpill (.call (some1 iCall))) (fun k s => noRoom k s (dispTarget k (xDisp iCall)) (some (nextPc k.c.iaddr)) (nextPc k.c.iaddr))
      (fun _ _ h => noRoom_full h) (by decide +kernel),
    met (fullSpill (.callx (some1 (insn .unused (.s 3) .unused))))
      (fun k s => noRoom k s (bTarget k (insn .unused (.s 3) .unused)) (some (nextPc k.c.iaddr)) (nextPc k.c.iaddr))
      (fun _ _ h => noRoom_full h) (by decide +kernel),
    met (fullSpill (.ret (some1 iNone))) (fun k s => noRoom k s (linkOf k) (some (linkOf k)) (linkOf k))
      (fun _ _ h => noRoom_full h) (by decide +kernel)⟩

/-! #### Shade -/

def iHmov : Insn := insn (.h 0 .g) .unused (.imm 100)
def iUni : Insn := insn (.p 2) (.h 0 .resolve) .unused
theorem witness_ShadeInstructions : Met (.hmov false iHmov) iHmov (fun k _ => shadeRankBad k iHmov.a = false) ∧
    (∀ all, Met (.hpeek all (insn (.s 2) (if all then .unused else .h 0 .resolve) .unused)) (insn (.s 2) (if all then .unused else .h 0 .resolve) .unused)
      (fun _ _ => True)) ∧
    Met (.unison iUni) iUni (fun _ _ => True) ∧ Met (.unisonB iUni) iUni (fun k _ => k.e ≠ 0) ∧
    Met (.hmov true (insn (.h 0 .resolve) .unused (.imm 3))) (insn (.h 0 .resolve) .unused (.imm 3)) (fun k _ => k.e ≠ 0) ∧
    (∀ m, Met (.hdrop m (insn .unused (.h 1 .resolve) .unused)) (insn .unused (.h 1 .resolve) .unused)
      (fun k _ => k.p.bow ∨ m = .l ∨ k.e = 0 ∨ k.e = k.p.live)) := by
  refine ⟨met_decide (at_ false (.hmov false iHmov)) (by decide +kernel), fun all => ?_,
    met_decide (at_ false (.unison iUni)) (by decide +kernel), met_decide (at_ true (.unisonB iUni)) (by decide +kernel),
    met_decide (at_ true (.hmov true (insn (.h 0 .resolve) .unused (.imm 3)))) (by decide +kernel), fun m => ?_⟩
  · cases all
    · exact met_decide (at_ false (.hpeek false (insn (.s 2) (.h 0 .resolve) .unused))) (by decide +kernel)
    · exact met_decide (at_ false (.hpeek true (insn (.s 2) .unused .unused))) (by decide +kernel)
  · cases m
    · exact met_decide (at_ false (.hdrop .l (insn .unused (.h 1 .resolve) .unused))) (by decide +kernel)
    · exact met_decide (at_ false (.hdrop .g (insn .unused (.h 1 .resolve) .unused))) (by decide +kernel)
    · exact met_decide (at_ false (.hdrop .all (insn .unused (.h 1 .resolve) .unused))) (by decide +kernel)
theorem witness_ShadeInstructions_resolved :
    let s := at_ true (.unisonB iUni)
    (0 ∈ blockParties (bidOf 64)) ∧ ((s.parties.get? 0).map (fun p => (p.bow, p.live.has 0)) = some (false, true)) ∧
      (s.blocks.get? (bidOf 64)).isSome = true := by decide +kernel
/-- Some of the live lanes, and a destination at rank G. -/
theorem witness_ShadeRank :
    let g1 : Insn → Insn := fun i => { i with g := ⟨1, false⟩ }
    let part : Ctx → State → Prop := fun k _ => k.p.bow = false ∧ k.e ≠ 0 ∧ k.e ≠ k.p.live
    Met (.mov .n32 (g1 (insn (.h 1 .g) .unused (.imm 4)))) (g1 (insn (.h 1 .g) .unused (.imm 4))) part ∧
    Met (.iadd ⟨.n32, false⟩ (g1 (insn (.h 1 .g) (.v 1) (.imm 4)))) (g1 (insn (.h 1 .g) (.v 1) (.imm 4))) part ∧
    Met (.hmov false (g1 iHmov)) (g1 iHmov) part ∧
    Met (.ld ⟨.global, .b32, false, .dflt, .plain⟩ (g1 (memV (.h 1 .g) (.s 8) (.imm 0)))) (g1 (memV (.h 1 .g) (.s 8) (.imm 0))) part ∧
    Met (.atom ⟨.n32, .add, .relaxed⟩ (g1 (memV (.h 1 .g) (.s 8) (.imm 1)))) (g1 (memV (.h 1 .g) (.s 8) (.imm 1))) part ∧
    Met (.hdrop .g (g1 (insn .unused (.h 1 .resolve) .unused))) (g1 (insn .unused (.h 1 .resolve) .unused)) part :=
  let g1 : Insn → Insn := fun i => { i with g := ⟨1, false⟩ }
  let f : Party → Party := fun p => setP p 1 3 true
  ⟨met_decide (tune (at_ false (.mov .n32 (g1 (insn (.h 1 .g) .unused (.imm 4))))) f) (by decide +kernel),
    met_decide (tune (at_ false (.iadd ⟨.n32, false⟩ (g1 (insn (.h 1 .g) (.v 1) (.imm 4))))) f) (by decide +kernel),
    met_decide (tune (at_ false (.hmov false (g1 iHmov))) f) (by decide +kernel),
    met_decide (tune (at_ false (.ld ⟨.global, .b32, false, .dflt, .plain⟩ (g1 (memV (.h 1 .g) (.s 8) (.imm 0))))) f) (by decide +kernel),
    met_decide (tune (at_ false (.atom ⟨.n32, .add, .relaxed⟩ (g1 (memV (.h 1 .g) (.s 8) (.imm 1))))) f) (by decide +kernel),
    met_decide (tune (at_ false (.hdrop .g (g1 (insn .unused (.h 1 .resolve) .unused)))) f) (by decide +kernel)⟩
/-- A legal instruction of a group whose destination is a shade register at rank G. -/
theorem witness_ShadeRank_shape :
    let i := insn (.h 1 .g) .unused (.imm 4)
    let env := envMax false
    env.bow = false ∧ WellFormed env (.mov .n32 i) = true ∧ insnOf (.mov .n32 i) = some i ∧
      (shapeOf false env (.mov .n32 i)).a.dst = true ∧ allows (shapeOf false env (.mov .n32 i)).a.allow aH = true ∧ i.a = .h 1 .g := by
  decide +kernel

/-! #### Memory instructions -/

def okC (r : Checked × State) : Bool := match r.1 with | .ok _ => true | _ => false
def badC (r : Checked × State) : Bool := match r.1 with | .fault _ _ _ _ _ => true | _ => false
def okR {α : Type} (r : ReadRes α) : Bool := match r with | .ok _ _ => true | _ => false

theorem okC_ok {r : Checked × State} (h : okC r = true) : ∃ as u, r = (.ok as, u) := by
  obtain ⟨c, u⟩ := r
  cases c with
  | ok as => exact ⟨as, u, rfl⟩
  | _ => cases h

theorem badC_fault {r : Checked × State} (h : badC r = true) : ∃ code l level d ea u, r = (.fault code l level d ea, u) := by
  obtain ⟨c, u⟩ := r
  cases c with
  | fault c l v d e => exact ⟨c, l, v, d, e, u, rfl⟩
  | _ => cases h

theorem okR_ok {α : Type} {r : ReadRes α} (h : okR r = true) : ∃ w u, r = .ok w u := by
  cases r with
  | ok w u => exact ⟨w, u, rfl⟩
  | _ => cases h

def glob : Ctx → State → Nat → Int → LaneRes × State := fun k s l ea => checkLane s k.p k.b .global 4 permR l ea

/-- The bytes of a page of the party's context, read at its innermost point. -/
theorem witness_ReadRule : (let s := dataAt (at_ false (.nop iNone))
    ([locOf 1 0x200400, locOf 1 0x200401].all (fun a => !foreign s a && !loosePrivate s 0 a)) &&
      (readCells s 0 .general [locOf 1 0x200400, locOf 1 0x200401]).isSome) = true := by decide +kernel

/-- The clauses of one lane, at their boundary values. -/
theorem witness_AccessChecks_lane : ((3 : Int) % ((4 : Nat) : Int) ≠ 0) ∧ ((2 : Int) ^ 57 % ((4 : Nat) : Int) = 0 ∧ (2 : Int) ^ 57 ≤ 2 ^ 57) ∧
    ((-4 : Int) % ((4 : Nat) : Int) = 0 ∧ ¬ (Space.global = .global ∧ (2 : Int) ^ 57 ≤ -4) ∧ ((-4 : Int) < 0 ∨ (0 : Int) < -4 + 4)) := by
  decide
theorem witness_AccessChecks_order :
    let s := dataAt (at_ false (.nop iNone))
    (match s.parties.get? 0, s.blocks.get? 0 with
      | some p, some b => badC (checkLanes (fun s l ea => checkLane s p b .global 4 permR l ea) false [(0, 0x200400), (3, 0x200402)] s)
      | _, _ => false) = true := by decide +kernel

/-- What `AccessChecks` asks for of an instruction whose lanes are checked by `f`. -/
def badAccess (i : Insn) (f : Ctx → State → Checked × State) : Ctx → State → Prop := fun k s =>
  k.e ≠ 0 ∧ shadeRankBad k i.a = false ∧ ∃ code l level d ea u, f k s = (.fault code l level d ea, u)

theorem bad_met {ins : Instr} {i : Insn} (f : Ctx → State → Checked × State) (s : State)
    (h : meets ins i s (fun k u => k.e != 0 && !shadeRankBad k i.a && badC (f k u)) = true) : Met ins i (badAccess i f) :=
  met s _ (fun k u h => by
    simp only [Bool.and_eq_true, bne_iff_ne, Bool.not_eq_true'] at h
    exact ⟨h.1.1, h.1.2, badC_fault h.2⟩) h

/-- What completion asks for of an instruction whose lanes are checked by `f`. -/
def okAccess (f : Ctx → State → Checked × State) : Ctx → State → Prop := fun k s => k.e ≠ 0 ∧ ∃ as u, f k s = (.ok as, u)

theorem ok_met {ins : Instr} {i : Insn} (f : Ctx → State → Checked × State) (s : State)
    (h : meets ins i s (fun k u => k.e != 0 && okC (f k u)) = true) : Met ins i (okAccess f) :=
  met s _ (fun k u h => by
    simp only [Bool.and_eq_true, bne_iff_ne] at h
    exact ⟨h.1, okC_ok h.2⟩) h

def chkG (n : Nat) (perm : Perm) (nr : Bool) (ls : Ctx → List (Nat × Int)) (k : Ctx) (s : State) : Checked × State :=
  checkLanes (fun s l ea => checkLane s k.p k.b .global n perm l ea) nr (ls k) s
def chkS (n : Nat) (ls : Ctx → List (Nat × Int)) (k : Ctx) (s : State) : Checked × State :=
  checkLanes (checkScratch k.b n) false (ls k) s

def iLd : Insn := memV (.v 4) (.s 8) (.imm 0)
def iSt : Insn := mem (.v 4) (.s 8) (.imm 0)
def iLds : Insn := memV (.v 4) (.v 8) (.imm 0)
def iSts : Insn := mem (.v 4) (.v 8) (.imm 0)
def iLdc : Insn := memV (.v 4) (.const 3 0) (.imm 0)
def iAtom : Insn := memV (.v 4) (.s 8) (.imm 1)
def iRed : Insn := mem .unused (.s 8) (.imm 1)
def iAtoms : Insn := memV (.v 4) (.v 8) (.imm 1)
def mLd : LdMod := ⟨.global, .b32, false, .dflt, .plain⟩
def mSt (sp : Space) (o : StOrder) : StMod := ⟨sp, .b32, .dflt, o⟩
def mAtom : AtomMod := ⟨.n32, .add, .relaxed⟩

/-- s8 and v8 hold `a`. -/
def base (a : Nat) (s : State) : State := tune s (fun p => vecs [(8, a)] (scalars [(8, a)] p))

theorem witness_AccessChecks_global :
    Met (.ld mLd iLd) iLd (badAccess iLd (chkG 4 permR false (fun k => laneEas k iLd true true (oneAccess iLd)))) ∧
    Met (.ldnr ⟨.b32, false, .dflt, false, 2⟩ iLd) iLd (badAccess iLd (chkG 4 permR true (fun k => laneEas k iLd true true false))) ∧
    Met (.st (mSt .global .plain) iSt) iSt (badAccess iSt (chkG 4 permW false (fun k => laneEas k iSt true true (uniformStore iSt)))) ∧
    Met (.atom mAtom iAtom) iAtom (badAccess iAtom (chkG 4 permRW false (fun k => atomEas k iAtom true))) ∧
    Met (.red ⟨.n32, .add, false⟩ iRed) iRed (badAccess iRed (chkG 4 permW false (fun k => atomEas k iRed true))) :=
  ⟨bad_met _ (base 0x200402 (at_ false (.ld mLd iLd))) (by decide +kernel),
    bad_met _ (base 0x200402 (at_ false (.ldnr ⟨.b32, false, .dflt, false, 2⟩ iLd))) (by decide +kernel),
    bad_met _ (base 0x200402 (at_ false (.st (mSt .global .plain) iSt))) (by decide +kernel),
    bad_met _ (base 0x200402 (at_ false (.atom mAtom iAtom))) (by decide +kernel),
    bad_met _ (base 0x200402 (at_ false (.red ⟨.n32, .add, false⟩ iRed))) (by decide +kernel)⟩
theorem witness_AccessChecks_scratch :
    Met (.lds ⟨.b32, false⟩ iLds) iLds (badAccess iLds (chkS 4 (fun k => laneEas k iLds false true (oneAccess iLds)))) ∧
    Met (.sts .b32 iSts) iSts (badAccess iSts (chkS 4 (fun k => laneEas k iSts false true (uniformStore iSts)))) ∧
    Met (.atoms ⟨.n32, .add, false⟩ iAtoms) iAtoms (badAccess iAtoms (chkS 4 (fun k => atomEas k iAtoms false))) ∧
    Met (.ldc ⟨.b32, false⟩ iLdc) iLdc (badAccess iLdc (fun k s =>
      checkLanes (checkConst k.p k.b (bankOf iLdc) 4) false (laneEas k iLdc false false (oneAccess iLdc)) s)) :=
  ⟨bad_met _ (base 2 (at_ false (.lds ⟨.b32, false⟩ iLds))) (by decide +kernel),
    bad_met _ (base 2 (at_ false (.sts .b32 iSts))) (by decide +kernel),
    bad_met _ (base 2 (at_ false (.atoms ⟨.n32, .add, false⟩ iAtoms))) (by decide +kernel),
    bad_met _ (at_ false (.ldc ⟨.b32, false⟩ iLdc)) (by decide +kernel)⟩

/-- What a load or query asks for. -/
def okLoad (i : Insn) (part : Ctx → State → ReadRes (List RegWrite)) : Ctx → State → Prop := fun k s =>
  k.e ≠ 0 ∧ shadeRankBad k i.a = false ∧ ∃ ws u, part k s = .ok ws u

theorem load_met {ins : Instr} {i : Insn} (f : Ctx → State → ReadRes (List RegWrite)) (s : State)
    (h : meets ins i s (fun k u => k.e != 0 && !shadeRankBad k i.a && okR (f k u)) = true) : Met ins i (okLoad i f) :=
  met s _ (fun k u h => by
    simp only [Bool.and_eq_true, bne_iff_ne, Bool.not_eq_true'] at h
    exact ⟨h.1.1, h.1.2, okR_ok h.2⟩) h

/-- Bank 3 is bound, at 0x200180. -/
def bank (s : State) : State := tuneB s (fun b =>
  let k := { b.kern with
    consts := 8 }
  { b with kern := k })

/-- A descriptor of one element for communicator 0, which is the context's, with one rank (R435, R436). -/
def desc (count : Nat) (s : State) : State :=
  let t := poke (base 0x200400 s) 0x200400 (bytesOf 64 (count * 2 ^ 64))
  let r := { t.regs with
    comm := [(0, 0x10001)] }
  { t with regs := r }

def iTag : Insn := memV (.v 4) (.s 8) (.imm 0)
def iQry : Insn := memV (.s 2) (.s 8) .unused
def pageBase (s : State) : State :=
  setCluster s 0 { clusterOf s 0 with
    tlb := (clusterOf s 0).tlb.map (fun x => { x with tg := true }) }
/-- The same page with reference tags, at 0x200400. -/
def tagged (s : State) : State := pageBase (dataAt s)

theorem witness_Loads_plain : Met (.ld mLd iLd) iLd (okLoad iLd (fun k s => loadPart s k.c k.p k.b (.mem
      (laneEas k iLd true true (oneAccess iLd)) .global .b32 false .plain (xScope iLd) false iLd.a none))) :=
  load_met _ (dataAt (at_ false (.ld mLd iLd))) (by decide +kernel)
theorem witness_Loads_ldnr : Met (.ldnr ⟨.b32, false, .dflt, false, 2⟩ iLd) iLd (okLoad iLd (fun k s => loadPart s k.c k.p k.b (.mem
      (laneEas k iLd true true false) .global .b32 false .plain .grp false iLd.a (some 2)))) :=
  load_met _ (dataAt (at_ false (.ldnr ⟨.b32, false, .dflt, false, 2⟩ iLd))) (by decide +kernel)
theorem witness_Loads_lds : Met (.lds ⟨.b32, false⟩ iLds) iLds (okLoad iLds (fun k s => loadPart s k.c k.p k.b (.scratch
      (laneEas k iLds false true (oneAccess iLds)) .b32 false iLds.a))) :=
  load_met _ (base 4 (at_ false (.lds ⟨.b32, false⟩ iLds))) (by decide +kernel)
theorem witness_Loads_tagrd : Met (.tagrd false iTag) iTag (okLoad iTag (fun k s =>
      tagPart s k.c k.p k.b (laneEas k iTag true true (oneAccess iTag)) false iTag.a)) :=
  load_met _ (tagged (at_ false (.tagrd false iTag))) (by decide +kernel)
theorem witness_Loads_lkqry : Met (.lkqry iQry) iQry (okLoad iQry (fun k s =>
      lkqPart s k.c k.p k.b (sbEa k iQry) (lowLane k.e % 8) iQry.a)) := load_met _ (dataAt (at_ false (.lkqry iQry))) (by decide +kernel)
theorem witness_Loads_cnsqry : Met (.cnsqry iQry) iQry (okLoad iQry (fun k s =>
      cnsPart s k.c k.p k.b (sbEa k iQry) (lowLane k.e % 8) iQry.a)) := load_met _ (desc 1 (at_ false (.cnsqry iQry))) (by decide +kernel)
theorem witness_Loads_ldc : Met (.ldc ⟨.b32, false⟩ iLdc) iLdc (okLoad iLdc (fun k s => loadPart s k.c k.p k.b (.const
      (laneEas k iLdc false false (oneAccess iLdc)) (bankOf iLdc) .b32 false iLdc.a))) :=
  load_met _ (bank (poke (at_ false (.ldc ⟨.b32, false⟩ iLdc)) 0x200180 [1, 2, 3, 4])) (by decide +kernel)
def iRd : Insn := insnV (.s 2) .unused .unused
theorem witness_Loads_rdsr : Met (.rdsr 0x10 iRd) iRd (fun k _ => k.e ≠ 0) := met_decide (at_ false (.rdsr 0x10 iRd)) (by decide +kernel)
theorem witness_Loads_none : Met (.ld mLd (offI iLd)) (offI iLd) (fun k _ => k.e = 0) :=
  met_decide (at_ false (.ld mLd (offI iLd))) (by decide +kernel)
/-- The last clause of `Loads`: such a load answers. -/
theorem witness_Loads_data : (let s := dataAt (at_ false (.ld mLd iLd))
    match s.cur, s.parties.get? 0, s.blocks.get? 0 with
    | some c, some p, some b => okR (loadMem s c p b [(0, 0x200400), (3, 0x200404)] .global .b32 false .plain .grp false (.v 4) none)
    | _, _, _ => false) = true := by decide +kernel

def iWr : Insn := insn .unused (.imm 1) .unused
/-- A core of the package, and both sides of an overflow. -/
theorem witness_FixedSystemRegisters : (match (at_ false (.nop iNone)).blocks.get? 0 with | some b => decide (b.core < 288) | none => false) = true := by
  decide +kernel
theorem witness_Overflow : (roundDyadic fmtF8A .rne .finite false true 1000 0).fl &&& flOF ≠ 0 ∧ Reading.finite ≠ .ieee ∧
    fmtF8A ∈ [fmtF32, fmtF16, fmtBF16, fmtF8A, fmtF8B] := by decide +kernel
/-- R104's table at F16: 65,520 rounds to infinity, to Max toward zero, and negative toward plus infinity. -/
theorem test_overflow : (roundDyadic fmtF16 .rne .ieee false true 65520 0).code = 0xFC00 ∧ (roundDyadic fmtF16 .rtz .ieee false false 65536 0).code = 0x7BFF ∧
    (roundDyadic fmtF16 .rup .ieee false true 65536 0).code = 0xFBFF ∧ (roundDyadic fmtF16 .rup .nanOnly false false 200000 0).code = 0x7FFE := by
  decide +kernel
theorem witness_SystemRegisters : Met (.wrsr 0x10 iWr) iWr (fun k _ => k.e ≠ 0) ∧ Met (.wrsr 0x18 iWr) iWr (fun k _ => k.e ≠ 0) ∧
    Met (.wrsr 0x10 (offI iWr)) (offI iWr) (fun k _ => k.e = 0) ∧ (0x5 : Nat) ∉ [0x000, 0x008, 0x010, 0x018, 0x019] ∧
    (coreOf { State.reset with cores := [(0, { Core.reset with mode := 3 })] } 0).mode = 3 ∧
    Met (.pref .l1 (mem .unused (.s 8) (.imm 0))) (mem .unused (.s 8) (.imm 0)) (fun _ _ => True) ∧
    Met (.cctl .wb (mem .unused (.s 8) (.imm 0))) (mem .unused (.s 8) (.imm 0)) (fun k _ => k.e = 0 → True) :=
  ⟨met_decide (at_ false (.wrsr 0x10 iWr)) (by decide +kernel), met_decide (at_ false (.wrsr 0x18 iWr)) (by decide +kernel),
    met_decide (at_ false (.wrsr 0x10 (offI iWr))) (by decide +kernel), by decide, by decide +kernel,
    met_decide (at_ false (.pref .l1 (mem .unused (.s 8) (.imm 0)))) (by decide +kernel),
    met_decide (at_ false (.cctl .wb (mem .unused (.s 8) (.imm 0)))) (by decide +kernel)⟩

/-! #### Stores and atomics -/

theorem witness_Stores : Met (.st (mSt .global .plain) iSt) iSt (okAccess (chkG 4 permW false (fun k => laneEas k iSt true true (uniformStore iSt)))) ∧
    Met (.sts .b32 iSts) iSts (okAccess (chkS 4 (fun k => laneEas k iSts false true (uniformStore iSts)))) ∧
    Met (.st (mSt .global .plain) (offI iSt)) (offI iSt) (fun k _ => k.e = 0) ∧ Met (.sts .b32 (offI iSts)) (offI iSts) (fun k _ => k.e = 0) :=
  ⟨ok_met _ (dataAt (at_ false (.st (mSt .global .plain) iSt))) (by decide +kernel),
    ok_met _ (base 4 (at_ false (.sts .b32 iSts))) (by decide +kernel),
    met_decide (at_ false (.st (mSt .global .plain) (offI iSt))) (by decide +kernel),
    met_decide (at_ false (.sts .b32 (offI iSts))) (by decide +kernel)⟩

/-- The checks of a list pass, and what follows them has `f`. -/
def okThen (r : Checked × State) (f : List Acc → State → Bool) : Bool := match r.1 with | .ok as => f as r.2 | _ => false
theorem okThen_ok {r : Checked × State} {f : List Acc → State → Bool} (h : okThen r f = true) : ∃ as u, r = (.ok as, u) ∧ f as u = true := by
  obtain ⟨c, u⟩ := r
  cases c with
  | ok as => exact ⟨as, u, rfl, h⟩
  | _ => cases h

def scCheck (k : Ctx) (s : State) : Checked × State := chkG 4 permW false (fun k => laneEas k iSt true true (uniformStore iSt)) k s
/-- An older store that is not performed. -/
def pendingStore (s : State) : State :=
  tune s (fun p => { p with buf := [⟨0, .store, [(locOf 1 0x200500, 1)], [], none, false⟩], serial := 1 })

theorem witness_Stores_sc : ∀ w : Bool, Met (.st (mSt .global .sc) iSt) iSt (fun k s => k.e ≠ 0 ∧ ∃ as u, scCheck k s = (.ok as, u) ∧
    scStoreWaits u k iSt .sc = w) := by
  intro w
  refine met (let s := dataAt (at_ false (.st (mSt .global .sc) iSt)); if w then pendingStore s else s)
    (fun k s => k.e != 0 && okThen (scCheck k s) (fun _ u => scStoreWaits u k iSt .sc == w)) (fun k s h => ?_) ?_
  · simp only [Bool.and_eq_true, bne_iff_ne] at h
    obtain ⟨as, u, h1, h2⟩ := okThen_ok h.2
    exact ⟨h.1, as, u, h1, eq_of_beq h2⟩
  · cases w <;> decide +kernel
/-- A private space of 64 bytes a lane, its first page at 0x400000. -/
def privateSpace (s : State) : State :=
  let t := tuneB s (fun b =>
    let k := { b.kern with
      priv := 64 }
    { b with kern := k })
  setCluster t 0 { clusterOf t 0 with
    tlb := { fetchTlb with
      priv := true, va := 0, pa := 0x400000 } :: (clusterOf t 0).tlb }
theorem witness_Stores_private : Met (.st (mSt .priv .plain) iSts) iSts (okAccess (fun k s =>
    checkLanes (fun s l ea => checkLane s k.p k.b .priv 4 permW l ea) false (laneEas k iSts false true (uniformStore iSts)) s)) :=
  ok_met _ (privateSpace (base 4 (at_ false (.st (mSt .priv .plain) iSts)))) (by decide +kernel)

theorem witness_Atomics : Met (.atom ⟨.n32, .add, .ar⟩ iAtom) iAtom (fun k s => k.e ≠ 0 ∧ shadeRankBad k iAtom.a = false ∧ ∃ as u,
      chkG 4 permRW false (fun k => atomEas k iAtom true) k s = (.ok as, u) ∧ poisonFault u k.c as = none ∧ bufTouches k.p.buf as = false ∧
      (atomReleases .ar = true → releaseReady u k.c.q (xScope iAtom) = true)) ∧
    Met (.atoms ⟨.n32, .add, false⟩ iAtoms) iAtoms (fun k s => k.e ≠ 0 ∧ shadeRankBad k iAtoms.a = false ∧
      ∃ as u, chkS 4 (fun k => atomEas k iAtoms false) k s = (.ok as, u) ∧ bufTouches k.p.sbuf as = false) ∧
    Met (.red ⟨.n32, .add, false⟩ iRed) iRed (okAccess (chkG 4 permW false (fun k => atomEas k iRed true))) := by
  refine ⟨met (dataAt (at_ false (.atom ⟨.n32, .add, .ar⟩ iAtom))) (fun k s => k.e != 0 && !shadeRankBad k iAtom.a &&
      okThen (chkG 4 permRW false (fun k => atomEas k iAtom true) k s) (fun as u => (poisonFault u k.c as).isNone && !bufTouches k.p.buf as &&
        releaseReady u k.c.q (xScope iAtom))) (fun k s h => ?_) (by decide +kernel),
    met (base 4 (at_ false (.atoms ⟨.n32, .add, false⟩ iAtoms))) (fun k s => k.e != 0 && !shadeRankBad k iAtoms.a &&
      okThen (chkS 4 (fun k => atomEas k iAtoms false) k s) (fun as _ => !bufTouches k.p.sbuf as)) (fun k s h => ?_) (by decide +kernel),
    ok_met _ (dataAt (at_ false (.red ⟨.n32, .add, false⟩ iRed))) (by decide +kernel)⟩
  · simp only [Bool.and_eq_true, bne_iff_ne, Bool.not_eq_true'] at h
    obtain ⟨as, u, h1, h2⟩ := okThen_ok h.2
    simp only [Bool.and_eq_true, Bool.not_eq_true', Option.isNone_iff_eq_none] at h2
    exact ⟨h.1.1, h.1.2, as, u, h1, h2.1.1, h2.1.2, fun _ => h2.2⟩
  · simp only [Bool.and_eq_true, bne_iff_ne, Bool.not_eq_true'] at h
    obtain ⟨as, u, h1, h2⟩ := okThen_ok h.2
    rw [Bool.not_eq_true'] at h2
    exact ⟨h.1.1, h.1.2, as, u, h1, h2⟩
/-- The clause of one step of an ATOM. -/
theorem witness_Atomics_step : (List.range 4).all (fun j => !foreign (dataAt (at_ false (.nop iNone))) (locOf 1 0x200400 + j)) = true ∧
    locOf 1 0x200400 + 4 ≤ 2 ^ 64 := by decide +kernel

def redChk : Ctx → State → Checked × State := chkG 4 permW false (fun k => atomEas k iRed true)
/-- A RED at .DIE, where it combines. -/
def iRedD : Insn := { iRed with x := .mem 0 0 3 }
def mRed : RedOpMod := ⟨.n32, .add, false⟩
/-- No lock unit holds anything of a party. -/
def noLocks (u : State) : Bool := u.lockReqs.isEmpty && u.lockStats.isEmpty && u.locks.isEmpty
theorem noLocks_out {u : State} (h : noLocks u = true) (q n : Nat) : lockOutstanding u q n = false := by
  simp only [noLocks, Bool.and_eq_true, List.isEmpty_iff] at h
  simp [lockOutstanding, h.1.1, h.1.2, h.2]

theorem witness_Atomics_red : Met (.red mRed iRed) iRed (fun k s => k.e ≠ 0 ∧ ∃ as u, redChk k s = (.ok as, u)) ∧
    Met (.red mRed iRedD) iRedD (fun k s => k.e ≠ 0 ∧ ∃ as u, redChk k s = (.ok as, u) ∧
      ((!mRed.rel && combinable mRed.ty mRed.op (xScope iRedD)) = true → (∀ n, lockOutstanding u k.c.q n = false) ∧
        bufTouches k.p.buf as = false ∧ (clusterOf u (cluOf k.core)).comb.length + as.length ≤ 64)) ∧
    (!mRed.rel && combinable mRed.ty mRed.op (xScope iRedD)) = true := by
  refine ⟨met (dataAt (at_ false (.red mRed iRed))) (fun k s => k.e != 0 && okThen (redChk k s) (fun _ _ => true))
      (fun k s h => ?_) (by decide +kernel),
    met (dataAt (at_ false (.red mRed iRedD))) (fun k s => k.e != 0 && okThen (redChk k s) (fun as u => noLocks u && (!bufTouches k.p.buf as &&
      decide ((clusterOf u (cluOf k.core)).comb.length + as.length ≤ 64)))) (fun k s h => ?_) (by decide +kernel), by decide +kernel⟩
  · simp only [Bool.and_eq_true, bne_iff_ne] at h
    obtain ⟨as, u, h1, _⟩ := okThen_ok h.2
    exact ⟨h.1, as, u, h1⟩
  · simp only [Bool.and_eq_true, bne_iff_ne] at h
    obtain ⟨as, u, h1, h2⟩ := okThen_ok h.2
    simp only [Bool.and_eq_true, Bool.not_eq_true', decide_eq_true_eq] at h2
    exact ⟨h.1, as, u, h1, fun _ => ⟨noLocks_out h2.1 k.c.q, h2.2⟩⟩

theorem witness_Fences : Met (.fence ⟨.sc, .sys⟩ iNone) iNone (fun k s => k.e ≠ 0 ∧ (fenceReleases .sc = true → releaseReady s k.c.q .sys = true)) ∧
    Met (.fence ⟨.sc, .sys⟩ iNone) iNone (fun k s => k.e ≠ 0 ∧ fenceReleases .sc = true ∧ releaseReady s k.c.q .sys = false) ∧
    Met (.pfence .all iNone) iNone (fun k s => k.e ≠ 0 ∧ k.p.buf.any isStoreEntry = false ∧ ∀ a, coIx s a 0 = 0) ∧
    Met (.pfence .all iNone) iNone (fun k _ => k.e ≠ 0 ∧ k.p.buf.any isStoreEntry = true) := by
  refine ⟨met_decide (at_ false (.fence ⟨.sc, .sys⟩ iNone)) (by decide +kernel),
    met_decide (pendingStore (at_ false (.fence ⟨.sc, .sys⟩ iNone))) (by decide +kernel),
    met (at_ false (.pfence .all iNone)) (fun k s => k.e != 0 && !k.p.buf.any isStoreEntry && s.hist.isEmpty) (fun k s h => ?_) (by decide +kernel),
    met_decide (pendingStore (at_ false (.pfence .all iNone))) (by decide +kernel)⟩
  simp only [Bool.and_eq_true, bne_iff_ne, List.isEmpty_iff, Bool.not_eq_true'] at h
  refine ⟨h.1.1, h.1.2, fun a => ?_⟩
  simp [coIx, coOf, h.2, AMap.get?]

/-! #### Locks -/

def vaThen (r : TrRes × State) (f : Tlb → State → Bool) : Bool := match r.1 with | .ok x => f x r.2 | _ => false
theorem vaThen_ok {r : TrRes × State} {f : Tlb → State → Bool} (h : vaThen r f = true) : ∃ x u, r = (.ok x, u) ∧ f x u = true := by
  obtain ⟨c, u⟩ := r
  cases c with
  | ok x => exact ⟨x, u, rfl, h⟩
  | _ => cases h

/-- The line of `[s8]` passes the checks with `perm`, and `f` holds of it. -/
def onLine (i : Insn) (perm : Perm) (f : Ctx → Nat → Prop) : Ctx → State → Prop := fun k s =>
  ∃ x u, (k.e ≠ 0 ∧ checkVa s k.core k.p.ctx false (sbEa k i) perm = (.ok x, u)) ∧ f k (trPa x (sbEa k i) / 128)

theorem line_met {ins : Instr} {i : Insn} {perm : Perm} {f : Ctx → Nat → Prop} [∀ k n, Decidable (f k n)] (s : State)
    (h : meets ins i s (fun k u => k.e != 0 && vaThen (checkVa u k.core k.p.ctx false (sbEa k i) perm)
      (fun x _ => decide (f k (trPa x (sbEa k i) / 128)))) = true) : Met ins i (onLine i perm f) :=
  met s _ (fun k u h => by
    simp only [Bool.and_eq_true, bne_iff_ne] at h
    obtain ⟨x, u, h1, h2⟩ := vaThen_ok h.2
    exact ⟨x, u, ⟨h.1, h1⟩, of_decide_eq_true h2⟩) h

def iLock : Insn := memV (.s 2) (.s 8) (.imm 5)
def iTry : Insn := memV (.s 2) (.s 8) .unused
def iUnl : Insn := mem .unused (.s 8) .unused
def holds (n line : Nat) (s : State) : State := tune s (fun p => { p with held := (List.range 4).map (fun j => if j < n then ⟨.held, line + j, .die⟩ else heldFree) })
def noPerm : Perm := ⟨false, false, false, false⟩

theorem witness_LockInstructions_lock :
    Met (.lock .die (offI iLock)) (offI iLock) (fun k _ => k.e = 0) ∧
    Met (.lock .die iLock) iLock (onLine iLock permRW (fun k n => namesLine k.p n = true)) ∧
    Met (.lock .die iLock) iLock (onLine iLock permRW (fun k n => namesLine k.p n = false ∧ freeHeld k.p = none)) ∧
    Met (.lock .die iLock) iLock (onLine iLock permRW (fun k n => namesLine k.p n = false ∧ freeHeld k.p = some 2)) :=
  ⟨met_decide (at_ false (.lock .die (offI iLock))) (by decide +kernel),
    line_met (holds 1 (0x200400 / 128) (dataAt (at_ false (.lock .die iLock)))) (by decide +kernel),
    line_met (holds 4 7 (dataAt (at_ false (.lock .die iLock)))) (by decide +kernel),
    line_met (holds 2 7 (dataAt (at_ false (.lock .die iLock)))) (by decide +kernel)⟩
theorem witness_LockInstructions_trylock :
    Met (.trylock .die iTry) iTry (onLine iTry permRW (fun k n => namesLine k.p n = true)) ∧
    Met (.trylock .die iTry) iTry (onLine iTry permRW (fun k n => namesLine k.p n = false ∧ freeHeld k.p = none)) ∧
    Met (.trylock .die iTry) iTry (onLine iTry permRW (fun k n => namesLine k.p n = false ∧ freeHeld k.p = some 0)) :=
  ⟨line_met (holds 1 (0x200400 / 128) (dataAt (at_ false (.trylock .die iTry)))) (by decide +kernel),
    line_met (holds 4 7 (dataAt (at_ false (.trylock .die iTry)))) (by decide +kernel),
    line_met (dataAt (at_ false (.trylock .die iTry))) (by decide +kernel)⟩
theorem witness_LockInstructions_unlock :
    Met (.unlock .die (offI iUnl)) (offI iUnl) (fun k _ => k.e = 0) ∧
    Met (.unlock .die iUnl) iUnl (onLine iUnl noPerm (fun k n => heldSlot k.p n = some 0)) ∧
    Met (.unlock .die iUnl) iUnl (onLine iUnl noPerm (fun k n => heldSlot k.p n = none)) :=
  ⟨met_decide (at_ false (.unlock .die (offI iUnl))) (by decide +kernel),
    line_met (holds 1 (0x200400 / 128) (dataAt (at_ false (.unlock .die iUnl)))) (by decide +kernel),
    line_met (dataAt (at_ false (.unlock .die iUnl))) (by decide +kernel)⟩

/-- A request of party 0 for line 0, and the group of `at_` to make it. -/
def waiter0 (n gid : Nat) : Waiter := ⟨n, gid, 0, 0, .die, some 0, 0, 1, 0⟩
def asked (try_ : Bool) (locks : AMap LockRec) : State :=
  { at_ false (.nop iNone) with
    lockReqs := [⟨0, try_, waiter0 0 1⟩], locks := locks }
def comes (s : State) : Bool := match s.lockReqs.find? (fun x => x.w.n == 0) with | some r => mayArrive s r | none => false
/-- 256 records whose home is that of line 0. -/
def full256 : AMap LockRec := (List.range 256).map (fun n => (65537 * (n + 1), ⟨some 9, 0, false, []⟩))

theorem witness_LockArrival_free : (comes (asked false []) && decide (recsUsed { asked false [] with lockReqs := [] } 0 < 256) &&
    comes (asked false full256) && decide (256 ≤ recsUsed { asked false full256 with lockReqs := [] } 0)) = true := by decide +kernel
theorem witness_LockArrival_record : (comes (asked false [(0, ⟨none, 0, true, []⟩)]) && comes (asked true [(0, ⟨some 9, 0, false, []⟩)]) &&
    comes (asked false [(0, ⟨some 9, 0, false, []⟩)]) && decide (waitsUsed { asked false [(0, ⟨some 9, 0, false, []⟩)] with lockReqs := [] } 0 < 256) &&
    comes (asked false [(0, ⟨some 9, 0, false, (List.range 256).map (fun n => waiter0 (n + 5) (n + 5))⟩)]) &&
    decide (256 ≤ waitsUsed { asked false [(0, ⟨some 9, 0, false, (List.range 256).map (fun n => waiter0 (n + 5) (n + 5))⟩)] with lockReqs := [] } 0)) = true := by
  decide +kernel
/-- An event of a later rank has taken effect at the records in this cycle. -/
def late (s : State) : State := { s with
  lockTurn := [0, 3, 5].map (fun l => (l, 8 * s.cycle + 7)) }
theorem witness_LockArrival_late : (let s := late (asked false [])
    match s.lockReqs.find? (fun x => x.w.n == 0) with | some r => !mayArrive s r | none => false) = true := by decide +kernel
/-- An UNLOCK in the buffer of a party that holds the line with a waiter, alone, or not at all. -/
def unlocking (locks : AMap LockRec) : State :=
  { tune (at_ false (.nop iNone)) (fun p => { p with buf := [⟨0, .unlock 5, [], [], some .sys, false⟩], serial := 1 }) with
    locks := locks }
theorem witness_LockArrival_unlock : ([[(5, (⟨some 1, 0, false, [waiter0 9 7]⟩ : LockRec))], [(5, ⟨some 1, 0, false, []⟩)], [(5, ⟨some 2, 0, false, []⟩)]].all (fun l =>
    (match mayLeave (unlocking l) 0 0 with | some e => e.kind == .unlock 5 | none => false)) &&
    ((unlocking []).parties.get? 0).map gidOf == some 1 && inTurn (unlocking []) 5 rankUnlock &&
    !inTurn (late (unlocking [])) 5 rankUnlock && (mayLeave (late (unlocking [])) 0 0).isSome) = true := by decide +kernel
/-- A status on its way to a party that runs, to one whose older result has still to write s2, and to one that has retired. -/
theorem witness_LockStatuses_arrival : (let s : State := { at_ false (.nop iNone) with
      lockStats := [⟨0, 0, 0, 5, .die, 0⟩] }
    let busy := tune { s with
        lockStats := [⟨reqId 0 1, 0, 0, 5, .die, 0⟩] } (fun p => { p with
      pend := [⟨0, .deliver, 0, 0, 0, statusWrite iLock 1, []⟩, ⟨1, .await, 0, 0, 0, statusWrite iLock 0, []⟩] })
    statusFree s ⟨0, 0, 0, 5, .die, 0⟩ && active busy 0 && !statusFree busy ⟨reqId 0 1, 0, 0, 5, .die, 0⟩ &&
    (busy.lockStats.find? (fun y => y.n == reqId 0 1)).isSome &&
    (s.lockStats.find? (fun y => y.n == 0)).isSome && (s.parties.get? 0).isSome && active s 0 &&
      !(active (tune s (fun p => { p with retired := true })) 0) && present (tune s (fun p => { p with retired := true })) 0) = true := by
  decide +kernel
/-- A waiter past its deadline and past its probe time, with probes of its wait at a record of its own, at that of another that
waits and at no record, and one of an earlier wait. -/
def waiting : State :=
  { at_ false (.nop iNone) with
    locks := [(3, ⟨some 8, 0, false, [waiter0 1 7]⟩), (4, ⟨some 7, 0, false, []⟩), (6, ⟨some 9, 0, false, []⟩), (8, ⟨some 1, 0, false, [waiter0 2 9]⟩)],
    probes := [⟨0, 7, 1, 3, 4, 0⟩, ⟨1, 7, 1, 3, 6, 0⟩, ⟨2, 7, 1, 3, 5, 0⟩, ⟨3, 7, 0, 3, 4, 0⟩] }
theorem witness_LockStatuses_wait : (match waiting.locks.get? 3 with
    | some r => (match r.fifo.find? (fun v => v.gid == 7) with
      | some w => w.deadline == some 0 && w.probe != 0 && decide (w.nextProbe ≤ ticksOf waiting.cycle)
      | none => false)
    | none => false) = true ∧ (waiting.locks.get? 4).map (·.holder) = some (some 7) ∧
    (waiting.locks.get? 6).map (·.holder) = some (some 9) ∧ waitingLine waiting 9 = some 8 ∧ waiting.locks.get? 5 = none ∧
    inTurn waiting 3 rankDeadline = true ∧ inTurn waiting 3 rankProbe = true ∧
    (waiting.probes.all (fun y => y.origin == 7 && y.originLine == 3 && decide (y.hops < 1024))) = true := by
  decide +kernel

/-! #### Objects, references, page requests -/

def iObj : Insn := mem (.imm 32) (.s 8) (.imm 0)
def iRef : Insn := mem (.imm 0) (.s 8) (.imm 0)
/-- An object starts at 0x200400. -/
def object (s : State) : State := { s with mem := writeByte s.mem (tagLoc (locOf 1 0x200400)) 1 }
theorem witness_ObjectStores :
    Met (.objnew true iObj) iObj (okAccess (fun k s => checkLanes (checkObj k iObj) false (laneEas k iObj true true false) s)) ∧
    Met (.stref false iRef) iRef (okAccess (fun k s => checkLanes (checkStref k iRef) false (laneEas k iRef true true false) s)) ∧
    Met (.objnew true (offI iObj)) (offI iObj) (fun k _ => k.e = 0) ∧ Met (.stref false (offI iRef)) (offI iRef) (fun k _ => k.e = 0) :=
  ⟨ok_met _ (tagged (at_ false (.objnew true iObj))) (by decide +kernel), ok_met _ (object (tagged (at_ false (.stref false iRef)))) (by decide +kernel),
    met_decide (at_ false (.objnew true (offI iObj))) (by decide +kernel), met_decide (at_ false (.stref false (offI iRef))) (by decide +kernel)⟩
/-- The boundary values of an address and of sizes. -/
theorem witness_ObjectStores_checks : ((8 : Int).toNat % 16 ≠ 0) ∧ Met (.objnew false (mem (.imm 15) (.s 8) (.imm 0))) (mem (.imm 15) (.s 8) (.imm 0))
    (fun k _ => objSize k (mem (.imm 15) (.s 8) (.imm 0)) 0 < 16) ∧
    Met (.objnew false (mem (.v 1) (.s 8) (.imm 0))) (mem (.v 1) (.s 8) (.imm 0)) (fun k _ => 4096 < objSize k (mem (.v 1) (.s 8) (.imm 0)) 0) :=
  ⟨by decide, met_decide (at_ false (.objnew false (mem (.imm 15) (.s 8) (.imm 0)))) (by decide +kernel),
    met_decide (tune (at_ false (.objnew false (mem (.v 1) (.s 8) (.imm 0)))) (vecs [(1, 4097)])) (by decide +kernel)⟩

def iPub : Insn := mem .unused (.s 8) (.imm 0)
theorem witness_Publication_issue :
    Met (.publish .die (offI iPub)) (offI iPub) (fun k _ => k.e = 0) ∧
    Met (.publish .die iPub) iPub (fun k _ => k.e ≠ 0 ∧ k.p.ctr.pub = 63) ∧
    Met (.publish .die iPub) iPub (fun k _ => k.e ≠ 0 ∧ k.p.ctr.pub ≠ 63 ∧ sbEa k iPub % 8 ≠ 0) ∧
    Met (.publish .die iPub) iPub (fun k s => ∃ x u v, k.e ≠ 0 ∧ k.p.ctr.pub ≠ 63 ∧ sbEa k iPub % 8 = 0 ∧
      checkVa s k.core k.p.ctx false (sbEa k iPub) permW = (.ok x, u) ∧ checkPubRef u k (pubRef k iPub) = .ok () v) := by
  refine ⟨met_decide (at_ false (.publish .die (offI iPub))) (by decide +kernel),
    met_decide (tune (at_ false (.publish .die iPub)) (fun p => { p with ctr := ⟨0, 0, 63, 0, 0⟩ })) (by decide +kernel),
    met_decide (base 4 (at_ false (.publish .die iPub))) (by decide +kernel),
    met (dataAt (at_ false (.publish .die iPub))) (fun k s => k.e != 0 && k.p.ctr.pub != 63 && sbEa k iPub % 8 == 0 &&
      vaThen (checkVa s k.core k.p.ctx false (sbEa k iPub) permW) (fun _ u => okR (checkPubRef u k (pubRef k iPub)))) (fun k s h => ?_) (by decide +kernel)⟩
  simp only [Bool.and_eq_true, bne_iff_ne, beq_iff_eq] at h
  obtain ⟨x, u, h1, h2⟩ := vaThen_ok h.2
  obtain ⟨_, v, h3⟩ := okR_ok h2
  exact ⟨x, u, v, h.1.1.1, h.1.1.2, h.1.2, h1, h3⟩

/-- A PUBLISH of `ref` in flight. -/
def publishing (ref : Nat) (walked : Bool) : State :=
  tune (dataAt (at_ false (.nop iNone))) (fun p =>
    { p with pubs := [⟨0, false, 0x200400, fetchTlb, ref, .die, walked, [], walked, 0, 0⟩], pages := [⟨[]⟩], serial := 1 })
def walkRes (s : State) : Nat :=
  match s.parties.get? 0, blockOf s 0 with
  | some p, some b => (match walking p with
    | some j => (match p.pubs[j]? with
      | some w => (match walkStep s 0 p b w with | .go _ _ => 1 | .fail _ _ _ _ => 2 | _ => 3)
      | none => 0)
    | none => 0)
  | _, _ => 0
theorem witness_Publication_walk : present (publishing 0 false) 0 = true ∧ walkRes (publishing 0 false) = 1 ∧ walkRes (publishing 0x200400 false) = 2 := by
  decide +kernel
theorem witness_Publication_end : ([false, true].map (fun gone =>
    let s := tune (publishing 0 true) (fun p => { p with pubs := p.pubs.map (fun w => { w with lost := gone }) })
    match s.parties.get? 0 with
    | some p => present s 0 && (match p.pubs with | w :: _ => w.walked && w.lost == gone && pubReady s 0 p w | [] => false) &&
        (match p.pages with | r :: _ => r.open_ == [] | [] => false)
    | none => false)) = [true, true] := by decide +kernel

def iPage : Insn := insn .unused (.s 8) (.s 9)
def paging (a n c : Nat) (s : State) : State := tune s (fun p => { scalars [(8, a), (9, n)] p with ctr := { p.ctr with page := c } })
theorem witness_Publication_pagereq :
    Met (.pagereq true (offI iPage)) (offI iPage) (fun k _ => k.e = 0) ∧
    Met (.pagereq true iPage) iPage (fun k _ => k.e ≠ 0 ∧ k.p.ctr.page = 63) ∧
    Met (.pagereq true iPage) iPage (fun k _ => k.e ≠ 0 ∧ k.p.ctr.page ≠ 63 ∧ (uniform64 k iPage.c < 1 ∨ 16 < uniform64 k iPage.c)) ∧
    Met (.pagereq true iPage) iPage (fun k _ => k.e ≠ 0 ∧ k.p.ctr.page ≠ 63 ∧ 1 ≤ uniform64 k iPage.c ∧ uniform64 k iPage.c ≤ 16 ∧
      ∀ a ∈ reqPages (uniform64 k iPage.b) (uniform64 k iPage.c), a < 2 ^ 57) ∧
    Met (.pagereq true iPage) iPage (fun k _ => k.e ≠ 0 ∧ k.p.ctr.page ≠ 63 ∧ 1 ≤ uniform64 k iPage.c ∧ uniform64 k iPage.c ≤ 16 ∧
      (reqPages (uniform64 k iPage.b) (uniform64 k iPage.c)).find? (fun a => 2 ^ 57 ≤ a) = some (2 ^ 57)) :=
  ⟨met_decide (at_ false (.pagereq true (offI iPage))) (by decide +kernel),
    met_decide (paging 0 1 63 (at_ false (.pagereq true iPage))) (by decide +kernel),
    met_decide (paging 0 17 0 (at_ false (.pagereq true iPage))) (by decide +kernel),
    met_decide (paging 0x200000 16 0 (at_ false (.pagereq true iPage))) (by decide +kernel),
    met_decide (paging (2 ^ 57 - 4096) 2 0 (at_ false (.pagereq true iPage))) (by decide +kernel)⟩

/-! #### Barriers, queues, copies -/

def withPB (k : Ctx) (s : State) (f : Party → Block → Bool) : Bool :=
  match s.parties.get? k.c.q, blockOf s k.c.q with
  | some p, some b => f p b
  | _, _ => false

/-- The issuing party and its block have `f`. -/
def PB (f : Ctx → State → Party → Block → Bool) : Ctx → State → Prop := fun k s =>
  ∃ p b, s.parties.get? k.c.q = some p ∧ blockOf s k.c.q = some b ∧ f k s p b = true

theorem pb_met {ins : Instr} {i : Insn} {f : Ctx → State → Party → Block → Bool} (s : State)
    (h : meets ins i s (fun k u => withPB k u (f k u)) = true) : Met ins i (PB f) :=
  met s _ (fun k u h => by
    unfold withPB at h
    split at h
    · next p b hp hb => exact ⟨p, b, hp, hb, h⟩
    · cases h) h

def iBar (n : Nat) : Insn := insn .unused (.imm 3) (.imm (BitVec.ofNat 9 n))
def iWait : Insn := insn .unused (.imm 3) .unused
def iExp : Insn := insnX .unused (.imm 3) (.imm 2) (.imm 16)
def refused (i : Insn) (bytes : Ctx → Int) (k : Ctx) (_ : State) (p : Party) (b : Block) : Bool :=
  arriveBad (barOf b 3) (inBit p 3) (partyCount b) (cCount k i) (bytes k)
/-- A good arrival, after which the party's IN bit is `v`. -/
def arrives (i : Insn) (bytes : Ctx → Int) (v : Bool) (k : Ctx) (s : State) (p : Party) (b : Block) : Bool :=
  !refused i bytes k s p b && releaseReady s k.c.q .blk && (!p.bow || !stagesOpen p) && !p.stopped &&
  (match (arriveAt s k.c.q 3 (cCount k i).toNat (bytes k)).parties.get? k.c.q with | some p => inBit p 3 == v | none => false)
def early (i : Insn) (bytes : Ctx → Int) (k : Ctx) (s : State) (p : Party) (b : Block) : Bool :=
  !refused i bytes k s p b && !releaseReady s k.c.q .blk

/-- The first part: arrivals that do and do not complete a phase, with and without a bow in it. -/
theorem witness_Barriers_arrival : (let s := at_ true (.nop iNone)
    ([0, 64].all (fun q => (s.parties.get? q).isSome && (s.blocks.get? (bidOf q)).isSome)) &&
      (match s.parties.get? 64 with | some p => p.bow | none => false) &&
      decide (landStages s 64 = s) && barDone (arriveBar Barrier.reset false 0 1 0) && !barDone (arriveBar Barrier.reset false 0 2 0) &&
      (arriveBar Barrier.reset true 0 1 0).bowin && !(arriveBar Barrier.reset false 0 1 0).bowin) = true := by decide +kernel
theorem witness_Barriers_sync :
    Met (.barSync (iBar 1)) (iBar 1) (PB (arrives (iBar 1) (fun _ => 0) false)) ∧
    Met (.barSync (iBar 2)) (iBar 2) (PB (arrives (iBar 2) (fun _ => 0) true)) ∧
    Met (.barSync (iBar 3)) (iBar 3) (PB (refused (iBar 3) (fun _ => 0))) ∧
    Met (.barSync (iBar 2)) (iBar 2) (PB (early (iBar 2) (fun _ => 0))) :=
  ⟨pb_met (wide (at_ false (.barSync (iBar 1)))) (by decide +kernel), pb_met (wide (at_ false (.barSync (iBar 2)))) (by decide +kernel),
    pb_met (wide (at_ false (.barSync (iBar 3)))) (by decide +kernel), pb_met (pendingStore (wide (at_ false (.barSync (iBar 2))))) (by decide +kernel)⟩
theorem witness_Barriers_arr :
    Met (.barArr (iBar 2)) (iBar 2) (PB (arrives (iBar 2) (fun _ => 0) true)) ∧
    Met (.barArr (iBar 3)) (iBar 3) (PB (refused (iBar 3) (fun _ => 0))) ∧
    Met (.barArr (iBar 2)) (iBar 2) (PB (early (iBar 2) (fun _ => 0))) ∧
    Met (.barExp iExp) iExp (PB (arrives iExp (fun k => expBytes k iExp) true)) ∧
    Met (.barExp { iExp with x := .opnd (.imm 511) }) { iExp with x := .opnd (.imm 511) }
      (PB (refused { iExp with x := .opnd (.imm 511) } (fun k => expBytes k { iExp with x := .opnd (.imm 511) }))) ∧
    Met (.barExp iExp) iExp (PB (early iExp (fun k => expBytes k iExp))) :=
  ⟨pb_met (wide (at_ false (.barArr (iBar 2)))) (by decide +kernel), pb_met (wide (at_ false (.barArr (iBar 3)))) (by decide +kernel),
    pb_met (pendingStore (wide (at_ false (.barArr (iBar 2))))) (by decide +kernel), pb_met (wide (at_ false (.barExp iExp))) (by decide +kernel),
    pb_met (wide (at_ false (.barExp { iExp with x := .opnd (.imm 511) }))) (by decide +kernel),
    pb_met (pendingStore (wide (at_ false (.barExp iExp)))) (by decide +kernel)⟩
theorem witness_Barriers_wait :
    Met (.barWait iWait) iWait (PB (fun _ _ p _ => !inBit p 3)) ∧ Met (.barWait iWait) iWait (PB (fun _ _ p _ => inBit p 3)) :=
  ⟨pb_met (wide (at_ false (.barWait iWait))) (by decide +kernel),
    pb_met (tune (wide (at_ false (.barWait iWait))) (fun p => setIn p 3 true)) (by decide +kernel)⟩

/-- A write with CLR of h1 after one of h2, and a group of the block. -/
theorem witness_ShadeCommit : (let s := tuneB (at_ false (.nop iNone)) (fun b => { b with staged := [.write 2 7 false, .write 1 9 true] })
    match s.blocks.get? 0 with
    | some x => decide (x.staged.take (2 - x.stageBase) = [.write 2 7 false] ++ .write 1 9 true :: []) && (blockParties 0).contains 0 &&
        (s.parties.get? 0).isSome && x.staged.all (fun o => match o with | .write k _ _ => k != 3 | .drop k => k != 3)
    | none => false) = true := by decide +kernel

def iCb (n : Nat) : Insn := insn .unused (.imm 1) (.imm (BitVec.ofNat 9 n))
def iCw : Insn := insn .unused (.imm 1) .unused
def chordGood (n : Nat) (v : Bool) (k : Ctx) (s : State) (p : Party) (_ : Block) : Bool :=
  match s.chords.get? (cidOf (bidOf k.c.q)) with
  | some x => !arriveBad (cbOf x 1) (inBit p 65) (chordCount s (cidOf (bidOf k.c.q))) (cCount k (iCb n)) 0 &&
    releaseReady s k.c.q .clu && !p.stopped &&
    (match (arriveCb s k.c.q 1 (cCount k (iCb n)).toNat).parties.get? k.c.q with | some p => inBit p 65 == v | none => false)
  | none => false
def chordBad (n : Nat) (k : Ctx) (s : State) (p : Party) (_ : Block) : Bool :=
  match s.chords.get? (cidOf (bidOf k.c.q)) with
  | some x => arriveBad (cbOf x 1) (inBit p 65) (chordCount s (cidOf (bidOf k.c.q))) (cCount k (iCb n)) 0
  | none => false
theorem witness_ChordBarriers :
    Met (.cbarSync (iCb 1)) (iCb 1) (PB (chordGood 1 false)) ∧ Met (.cbarSync (iCb 4)) (iCb 4) (PB (chordGood 4 true)) ∧
    Met (.cbarArr (iCb 4)) (iCb 4) (PB (chordGood 4 true)) ∧ Met (.cbarArr (iCb 5)) (iCb 5) (PB (chordBad 5)) ∧
    Met (.cbarSync (iCb 5)) (iCb 5) (PB (chordBad 5)) ∧
    Met (.cbarWait iCw) iCw (PB (fun _ _ p _ => !inBit p 65)) ∧ Met (.cbarWait iCw) iCw (PB (fun _ _ p _ => inBit p 65)) :=
  ⟨pb_met (wide (at_ false (.cbarSync (iCb 1)))) (by decide +kernel), pb_met (wide (at_ false (.cbarSync (iCb 4)))) (by decide +kernel),
    pb_met (wide (at_ false (.cbarArr (iCb 4)))) (by decide +kernel), pb_met (wide (at_ false (.cbarArr (iCb 5)))) (by decide +kernel),
    pb_met (wide (at_ false (.cbarSync (iCb 5)))) (by decide +kernel), pb_met (wide (at_ false (.cbarWait iCw))) (by decide +kernel),
    pb_met (tune (wide (at_ false (.cbarWait iCw))) (fun p => setIn p 65 true)) (by decide +kernel)⟩
theorem witness_ChordBarriers_arrival : (let s := at_ false (.nop iNone)
    (s.parties.get? 0).isSome && (s.chords.get? (cidOf (bidOf 0))).isSome && barDone (arriveBar Barrier.reset false 0 1 0)) = true := by
  decide +kernel

def iQ : Insn := insn .unused (.imm 1) (.s 3)
def iQpop : Insn := insnV (.s 2) (.imm 1) .unused
def iQinit (a : BitVec 9) : Insn := insn .unused (.imm 1) (.imm a)
/-- Queue 1 with `n` entries of two, and parties blocked in it. -/
def queueAt (n : Nat) (pushers : List Pusher) (poppers : List Popper) (s : State) : State :=
  tuneB s (fun b => setQueue b 1 ⟨true, 64, 2, n, 0, n % 2, pushers, poppers⟩)
def onQueue (f : Ctx → State → Queue → Bool) (k : Ctx) (s : State) (_ : Party) (b : Block) : Bool :=
  k.e != 0 && (queueOf b 1).live && f k s (queueOf b 1)
def dead (k : Ctx) (_ : State) (_ : Party) (b : Block) : Bool := k.e != 0 && !(queueOf b 1).live

theorem witness_Queues_operations : (let f : List Pusher → List Popper → Bool := fun l m =>
      (match (queueAt 1 l m (at_ false (.nop iNone))).blocks.get? 0 with | some b => (queueOf b 1).pushers == l && (queueOf b 1).poppers == m | none => false)
    f [] [] && f [⟨64, 255, 5⟩] [] && f [] [⟨64, .s 2, 255, 0⟩]) = true := by decide +kernel
/-- The region of `QINIT` is sound; a copy into it is in flight, or none is. -/
def soundFor (fl : Bool) (k : Ctx) (s : State) (_ : Party) (b : Block) : Bool :=
  k.e != 0 && operandInt k .s32 (iQinit 64).c (lowLane k.e % 8) == 64 && decide (64 + 8 * 4 ≤ b.kern.scratch) &&
    !queueOverlaps b 1 64 32 && !queueBusy (queueOf b 1) && (copyOver s (bidOf k.c.q) 64 32 || harpOver b 64 32 || !mayPerformOver s (bidOf k.c.q) 64 32) == fl
theorem witness_Queues_qinit :
    Met (.qinit 3 (iQinit 64)) (iQinit 64) (PB (soundFor false)) ∧ Met (.qinit 3 (iQinit 64)) (iQinit 64) (PB (soundFor true)) ∧
    Met (.qinit 3 (iQinit 64)) (iQinit 64) (PB (fun k _ _ b => k.e != 0 && decide ((b.kern.scratch : Int) <
      operandInt k .s32 (iQinit 64).c (lowLane k.e % 8) + 32))) ∧
    Met (.qinit 3 (iQinit 64)) (iQinit 64) (PB (fun k _ _ b => k.e != 0 && decide (64 + 8 * 4 ≤ b.kern.scratch) && queueBusy (queueOf b 1))) ∧
    Met (.qinit 3 (iQinit 4)) (iQinit 4) (PB (fun k _ _ _ => k.e != 0 && operandInt k .s32 (iQinit 4).c (lowLane k.e % 8) % 8 != 0)) ∧
    Met (.qinitOff (iQinit 0)) (iQinit 0) (PB dead) ∧
    Met (.qinitOff (iQinit 0)) (iQinit 0) (PB (onQueue (fun _ _ x => !queueBusy x))) :=
  ⟨pb_met (at_ false (.qinit 3 (iQinit 64))) (by decide +kernel),
    pb_met (tune (at_ false (.qinit 3 (iQinit 64))) (fun p => { p with copies := [⟨0, false, none, [(0x200400, 64)], 32, 0, [], [], 0, 0⟩] }))
      (by decide +kernel),
    pb_met (tuneB (at_ false (.qinit 3 (iQinit 64))) (fun b =>
      let k := { b.kern with
        scratch := 88 }
      { b with kern := k })) (by decide +kernel),
    pb_met (queueAt 1 [] [] (at_ false (.qinit 3 (iQinit 64)))) (by decide +kernel), pb_met (at_ false (.qinit 3 (iQinit 4))) (by decide +kernel),
    pb_met (at_ false (.qinitOff (iQinit 0))) (by decide +kernel), pb_met (queueAt 0 [] [] (at_ false (.qinitOff (iQinit 0)))) (by decide +kernel)⟩
theorem witness_Queues_qpush :
    Met (.qpush (offI iQ)) (offI iQ) (fun k _ => k.e = 0) ∧ Met (.qpush iQ) iQ (PB dead) ∧
    Met (.qpush iQ) iQ (PB (onQueue (fun k s x => releaseReady s k.c.q .blk && pushFits x))) ∧
    Met (.qpush iQ) iQ (PB (onQueue (fun k s x => releaseReady s k.c.q .blk && !pushFits x))) ∧
    Met (.qpush iQ) iQ (PB (onQueue (fun k s _ => !releaseReady s k.c.q .blk))) ∧
    Met (.qtryPush 2 iQ) iQ (PB (onQueue (fun k s x => !releaseReady s k.c.q .blk && pushFits x))) :=
  ⟨met_decide (at_ false (.qpush (offI iQ))) (by decide +kernel), pb_met (at_ false (.qpush iQ)) (by decide +kernel),
    pb_met (queueAt 1 [] [] (at_ false (.qpush iQ))) (by decide +kernel), pb_met (queueAt 2 [] [] (at_ false (.qpush iQ))) (by decide +kernel),
    pb_met (pendingStore (queueAt 1 [] [] (at_ false (.qpush iQ)))) (by decide +kernel),
    pb_met (pendingStore (queueAt 1 [] [] (at_ false (.qtryPush 2 iQ)))) (by decide +kernel)⟩
theorem witness_Queues_qpop :
    Met (.qpop (offI iQpop)) (offI iQpop) (fun k _ => k.e = 0) ∧ Met (.qpop iQpop) iQpop (PB dead) ∧
    Met (.qpop iQpop) iQpop (PB (onQueue (fun _ _ x => popFits x))) ∧
    Met (.qpop iQpop) iQpop (PB (onQueue (fun k _ x => entryWrites iQpop.a k.e 0 != [] && !popFits x))) :=
  ⟨met_decide (at_ false (.qpop (offI iQpop))) (by decide +kernel), pb_met (at_ false (.qpop iQpop)) (by decide +kernel),
    pb_met (queueAt 1 [] [] (at_ false (.qpop iQpop))) (by decide +kernel), pb_met (queueAt 0 [] [] (at_ false (.qpop iQpop))) (by decide +kernel)⟩
theorem witness_Queues_qtry :
    Met (.qtryPop 2 iQpop) iQpop (PB dead) ∧ Met (.qtryPop 2 iQpop) iQpop (PB (onQueue (fun _ _ x => popFits x))) ∧
    Met (.qtryPop 2 iQpop) iQpop (PB (onQueue (fun _ _ x => !popFits x))) ∧ Met (.qtryPush 2 iQ) iQ (PB dead) ∧
    Met (.qtryPush 2 iQ) iQ (PB (onQueue (fun k s x => releaseReady s k.c.q .blk && pushFits x))) ∧
    Met (.qtryPush 2 iQ) iQ (PB (onQueue (fun _ _ x => !pushFits x))) :=
  ⟨pb_met (at_ false (.qtryPop 2 iQpop)) (by decide +kernel), pb_met (queueAt 1 [] [] (at_ false (.qtryPop 2 iQpop))) (by decide +kernel),
    pb_met (queueAt 0 [] [] (at_ false (.qtryPop 2 iQpop))) (by decide +kernel), pb_met (at_ false (.qtryPush 2 iQ)) (by decide +kernel),
    pb_met (queueAt 1 [] [] (at_ false (.qtryPush 2 iQ))) (by decide +kernel), pb_met (queueAt 2 [] [] (at_ false (.qtryPush 2 iQ))) (by decide +kernel)⟩

def iWc : Insn := insn .unused (.imm 1) .unused
def copies (n : Nat) (s : State) : State := tune s (fun p => { p with ctr := { p.ctr with copy := n } })
theorem witness_Copies_waitc : Met (.waitc .copy iWc) iWc (fun k _ => k.e = 0 ∨ ctrGet .copy k.p.ctr ≤ uniform64 k iWc.b) ∧
    Met (.waitc .copy iWc) iWc (fun k _ => k.e ≠ 0 ∧ uniform64 k iWc.b < ctrGet .copy k.p.ctr) :=
  ⟨met_decide (copies 1 (at_ false (.waitc .copy iWc))) (by decide +kernel), met_decide (copies 2 (at_ false (.waitc .copy iWc))) (by decide +kernel)⟩

def mCopy : CopyMod := ⟨false, none, .dflt⟩
def iCopy : Insn := insnX .unused (.s 8) (.imm 0) (.s 10)
/-- The stages of a copy's checks, passed up to `f`. -/
def copyPre (shape : Ctx → CopyShape) (f : Ctx → CopyShape → Bool) : Ctx → State → Prop := fun k _ => (k.e ≠ 0 ∧ k.p.ctr.copy ≠ 63) ∧ f k (shape k) = true
def shape1 (k : Ctx) : CopyShape := shapeOne (uniform64 k (copyX iCopy))
def shape2 (gath : Bool) (k : Ctx) : CopyShape := shapePair (pairOf k iCopy).1 (pairOf k iCopy).2 gath
def uneven (k : Ctx) (h : CopyShape) : Bool := copyMisaligned (uniform64 k iCopy.b) (copyOff k iCopy) h
def misfit (k : Ctx) (h : CopyShape) : Bool := !uneven k h && copyBounds k.b (copyOff k iCopy) h
def inQueue (k : Ctx) (h : CopyShape) : Bool :=
  !uneven k h && !copyBounds k.b (copyOff k iCopy) h && copyQueue k.b (copyOff k iCopy).toNat h == some 1
def flies (k : Ctx) (h : CopyShape) : Bool :=
  !uneven k h && !copyBounds k.b (copyOff k iCopy) h && copyQueue k.b (copyOff k iCopy).toNat h == none
/-- s8 holds `a`, s10 and s11 a shape, and queue 1 is live at offset `q` where `q` is not 0. -/
def copying (a x y q : Nat) (s : State) : State :=
  let t := tune s (scalars [(8, a), (10, x), (11, y)])
  if q = 0 then t else tuneB t (fun b => setQueue b 1 ⟨true, q, 2, 0, 0, 0, [], []⟩)

theorem copy_met {ins : Instr} {shape : Ctx → CopyShape} {f : Ctx → CopyShape → Bool} (s : State)
    (h : meets ins iCopy s (fun k _ => k.e != 0 && k.p.ctr.copy != 63 && f k (shape k)) = true) : Met ins iCopy (copyPre shape f) :=
  met s _ (fun _ _ h => by simp only [Bool.and_eq_true, bne_iff_ne] at h; exact h) h
theorem witness_Copies_none : Met (.bcopy mCopy (offI iCopy)) (offI iCopy) (fun k _ => k.e = 0) ∧
    Met (.bcopy mCopy iCopy) iCopy (fun k _ => k.e ≠ 0 ∧ k.p.ctr.copy = 63) :=
  ⟨met_decide (at_ false (.bcopy mCopy (offI iCopy))) (by decide +kernel), met_decide (copies 63 (at_ false (.bcopy mCopy iCopy))) (by decide +kernel)⟩
theorem witness_Copies_bcopy : Met (.bcopy mCopy iCopy) iCopy (copyPre shape1 uneven) ∧ Met (.bcopy mCopy iCopy) iCopy (copyPre shape1 misfit) ∧
    Met (.bcopy mCopy iCopy) iCopy (copyPre shape1 inQueue) ∧ Met (.bcopy mCopy iCopy) iCopy (copyPre shape1 flies) :=
  ⟨copy_met (copying 8 16 0 0 (at_ false (.bcopy mCopy iCopy))) (by decide +kernel),
    copy_met (copying 0x200400 524304 0 0 (at_ false (.bcopy mCopy iCopy))) (by decide +kernel),
    copy_met (copying 0x200400 16 0 8 (at_ false (.bcopy mCopy iCopy))) (by decide +kernel),
    copy_met (copying 0x200400 524288 0 0 (at_ false (.bcopy mCopy iCopy))) (by decide +kernel)⟩
/-- Two rows of 16 bytes. -/
def pair2 : Nat := 16 + 2 * 2 ^ 32
theorem witness_Copies_bcopy2 : Met (.bcopy2 mCopy iCopy) iCopy (copyPre (shape2 false) uneven) ∧ Met (.bcopy2 mCopy iCopy) iCopy (copyPre (shape2 false) misfit) ∧
    Met (.bcopy2 mCopy iCopy) iCopy (copyPre (shape2 false) inQueue) ∧ Met (.bcopy2 mCopy iCopy) iCopy (copyPre (shape2 false) flies) :=
  ⟨copy_met (copying 0x200400 pair2 8 0 (at_ false (.bcopy2 mCopy iCopy))) (by decide +kernel),
    copy_met (copying 0x200400 (pair2 + 2 ^ 20) 64 0 (at_ false (.bcopy2 mCopy iCopy))) (by decide +kernel),
    copy_met (copying 0x200400 pair2 64 16 (at_ false (.bcopy2 mCopy iCopy))) (by decide +kernel),
    copy_met (copying 0x200400 pair2 64 0 (at_ false (.bcopy2 mCopy iCopy))) (by decide +kernel)⟩
theorem witness_Copies_bgath : Met (.bgath mCopy iCopy) iCopy (copyPre (shape2 true) uneven) ∧ Met (.bgath mCopy iCopy) iCopy (copyPre (shape2 true) misfit) ∧
    Met (.bgath mCopy iCopy) iCopy (copyPre (shape2 true) inQueue) ∧ Met (.bgath mCopy iCopy) iCopy (copyPre (shape2 true) flies) :=
  ⟨copy_met (copying 0x200400 pair2 2 0 (at_ false (.bgath mCopy iCopy))) (by decide +kernel),
    copy_met (copying 0x200400 pair2 524284 0 (at_ false (.bgath mCopy iCopy))) (by decide +kernel),
    copy_met (copying 0x200400 pair2 64 64 (at_ false (.bgath mCopy iCopy))) (by decide +kernel),
    copy_met (copying 0x200400 pair2 64 0 (at_ false (.bgath mCopy iCopy))) (by decide +kernel)⟩

/-- A copy of 32 bytes from or to `a` in flight: the reads of `issued` of its two chunks have been issued, none has landed. -/
def flying (store : Bool) (cnt : Option Nat) (a issued : Nat) : State :=
  tune (dataAt (at_ false (.nop iNone))) (fun p =>
    { p with copies := [⟨0, store, cnt, [(a, 32)], 32, issued, (List.range issued).map (fun j => (j, fetchTlb, List.replicate 16 7)), [], 0, 0⟩],
             serial := 1, ctr := ⟨1, 0, 0, 0, 0⟩ })
def chunkOk (s : State) (f : Party → Block → Copy → Bool) : Bool :=
  match s.parties.get? 0, blockOf s 0 with
  | some p, some b => (match p.copies[0]? with
    | some c => present s 0 && decide (1 < copyChunks c) && !c.landed.contains 1 && f p b c
    | none => false)
  | _, _ => false
/-- The check of the next chunk to be read, as `f` asks for it. -/
def readNext (s : State) (f : TrRes → State → Nat → Bool) : Bool :=
  chunkOk s (fun p b c => let a := (chunkAt c c.issued).1
    let r := checkVa s b.core p.ctx false a (if c.store then permW else permR)
    f r.1 r.2 a)
theorem witness_ChunkLand_reads :
    (match issueChunks 2 (flying false none 0x200400 0) 0 0 with | .landed _ => true | _ => false) = true ∧
    readNext (flying false none 0x200400 0) (fun r u a => match r with | .ok x => !poisoned u (trLoc x a) | _ => false) = true ∧
    readNext (flying false none 0x200400 0 |> fun s => { s with
      poison := [lineOf (dataLoc (locOf 1 0x200400))] }) (fun r u a => match r with | .ok x => poisoned u (trLoc x a) | _ => false) = true ∧
    readNext (flying false none (2 ^ 57) 0) (fun r _ _ => match r with | .fault _ _ => true | _ => false) = true := by decide +kernel
/-- The page at 0x600000 is not resident: the entry for it, in a table at 0x200500, has V = 0 and another bit. -/
def absent (s : State) : State :=
  let t := poke s 0x200500 [2]
  setCluster t 0 { clusterOf t 0 with walk := [⟨1, false, 2, 3, 0x200500⟩] }
theorem witness_ChunkLand_park : readNext (absent (flying false none 0x600000 0)) (fun r _ _ => match r with | .nonres _ _ => true | _ => false) = true := by
  decide +kernel
def counting (n : Int) : State := tuneB (flying false (some 3) 0x200400 2) (fun b => setBar b 3 ⟨some 2, 1, n, false, 0⟩)
theorem witness_ChunkLand_lands : (chunkOk (flying false none 0x200400 2) (fun p _ c => decide (1 < c.issued) && p.sbuf == [] &&
      c.data.find? (fun d => d.1 == 1) == some (1, fetchTlb, List.replicate 16 7) && !lockOutstanding (flying false none 0x200400 2) 0 c.n) &&
    !lockOutstanding (counting 32) 0 0 && !lockOutstanding (flying true none 0x200400 2) 0 0 &&
    lockOutstanding { flying false none 0x200400 2 with lockReqs := [⟨5, false, waiter0 (reqId 0 0) 1⟩] } 0 1 &&
    chunkOk (counting 32) (fun _ b _ => decide (-(2 ^ 23 : Int) ≤ (barOf b 3).pending - 16) &&
      !barDone { barOf b 3 with pending := (barOf b 3).pending - 16 }) &&
    chunkOk (counting (16 - 2 ^ 23 - 1)) (fun _ b _ => decide ((barOf b 3).pending - 16 < -(2 ^ 23 : Int))) &&
    chunkOk (flying true none 0x200400 2) (fun p _ c => (List.range 1).all (fun n => (chunkAt c n).1 != (chunkAt c 1).1 || c.landed.contains n) &&
      p.buf == [])) = true := by decide +kernel

/-! #### The Harp -/

/-- A Harp instruction is ready: with a Harp, no self-test queued, and `f` of the plan's check. -/
def harpPre (i : Insn) (plan : Harp → List Int → HarpPlan) (good : Bool) : Ctx → State → Prop := fun k s =>
  k.e ≠ 0 ∧ k.b.harp = some Harp.empty ∧ testQueued Harp.empty = false ∧ (harpCheck k (plan Harp.empty (harpVals k i)) s).isNone = good

theorem harp_met {ins : Instr} {i : Insn} {plan : Harp → List Int → HarpPlan} {good : Bool} (s : State)
    (h : meets ins i s (fun k u => k.e != 0 && k.b.harp == some Harp.empty && !testQueued Harp.empty &&
      (harpCheck k (plan Harp.empty (harpVals k i)) u).isNone == good) = true) : Met ins i (harpPre i plan good) :=
  met s _ (fun _ _ h => by
    simp only [Bool.and_eq_true, bne_iff_ne, beq_iff_eq, Bool.not_eq_true'] at h
    exact ⟨h.1.1.1, h.1.1.2, h.1.2, h.2⟩) h

/-- The clauses of the check, each with its values. -/
theorem witness_HarpIssue_checks : (let s := at_ true (.hzero (insn (.imm 0) (.imm 1) .unused))
    let i := insn (.imm 0) (.imm 1) .unused
    (match issueOf (.hzero i) i s with
      | some (k, u) => (coreOf u k.core).harp != .offline && k.p.ctr.harp != 63 &&
          ([⟨true, [], 16, [], 0, .g32, .ieee⟩, ⟨false, [32, 24], 16, [], 0, .g32, .ieee⟩, ⟨false, [32], 16, [(-16, 16)], 0, .g32, .ieee⟩,
            ⟨false, [32], 16, [(524272, 32)], 0, .g32, .ieee⟩] : List HarpPlan).all (fun pl => (harpCheck k pl u).isSome) &&
          (harpCheck k ⟨false, [32], 16, [(524272, 16)], 0, .g32, .ieee⟩ u).isNone
      | none => false)) = true := by decide +kernel

def iHz (r0 m : BitVec 9) : Insn := insn (.imm r0) (.imm m) .unused
def iHt (a : BitVec 9) : Insn := insn .unused (.imm a) .unused
def iAcc (a : BitVec 9) : Insn := insnX (.imm 0) (.imm 1) (.imm a) (.imm 0)
def iHal (m : BitVec 9) : Insn := insnX (.imm 0) (.imm 64) (.imm m) (.imm 0)
theorem witness_HarpIssue_zero : ∀ g : Bool,
    Met (.hzero (iHz 0 (if g then 1 else 0))) (iHz 0 (if g then 1 else 0)) (harpPre (iHz 0 (if g then 1 else 0)) (fun _ v => harpPlan (rowsBad (valAt v 0) (valAt v 1)) [] 16 []) g) := by
  intro g; cases g
  · exact harp_met (at_ true (.hzero (iHz 0 0))) (by decide +kernel)
  · exact harp_met (at_ true (.hzero (iHz 0 1))) (by decide +kernel)
theorem witness_HarpIssue_test : ∀ g : Bool,
    Met (.htest (iHt (if g then 4 else 2))) (iHt (if g then 4 else 2)) (harpPre (iHt (if g then 4 else 2)) (fun _ v => harpPlan false [valAt v 1] 4 [(valAt v 1, 4)]) g) ∧
    Met (.htestFlags (iHt (if g then 4 else 2))) (iHt (if g then 4 else 2)) (harpPre (iHt (if g then 4 else 2)) (fun _ v => harpPlan false [valAt v 1] 4 [(valAt v 1, 4)]) g) := by
  intro g; cases g
  · exact ⟨harp_met (at_ true (.htest (iHt 2))) (by decide +kernel), harp_met (at_ true (.htestFlags (iHt 2))) (by decide +kernel)⟩
  · exact ⟨harp_met (at_ true (.htest (iHt 4))) (by decide +kernel), harp_met (at_ true (.htestFlags (iHt 4))) (by decide +kernel)⟩
theorem witness_HarpIssue_acc : ∀ g : Bool,
    Met (.haccld (iAcc (if g then 16 else 8))) (iAcc (if g then 16 else 8)) (harpPre (iAcc (if g then 16 else 8)) (fun _ v => accPlan 1024 v) g) ∧
    Met (.haccst ⟨.f16, false, .rne, .ieee⟩ (iAcc (if g then 16 else 8))) (iAcc (if g then 16 else 8)) (harpPre (iAcc (if g then 16 else 8)) (fun _ v => accPlan (accPitch .f16) v) g) := by
  intro g; cases g
  · exact ⟨harp_met (at_ true (.haccld (iAcc 8))) (by decide +kernel), harp_met (at_ true (.haccst ⟨.f16, false, .rne, .ieee⟩ (iAcc 8))) (by decide +kernel)⟩
  · exact ⟨harp_met (at_ true (.haccld (iAcc 16))) (by decide +kernel), harp_met (at_ true (.haccst ⟨.f16, false, .rne, .ieee⟩ (iAcc 16))) (by decide +kernel)⟩

def mHal : HalignMod := ⟨.f16, .g32, .ieee⟩
def halPlan (v : List Int) : HarpPlan :=
  harpPlan (decide (valAt v 2 < 1) || decide (256 < valAt v 2) || pitchBad (valAt v 3) (aPitch .a16 mHal.gsel) ||
      pitchBad (valAt v 3 / 2 ^ 32) (256 * alignBytes mHal.fmt)) [valAt v 0, valAt v 1] 16
    (scratchRows (valAt v 0) (pitchOf (valAt v 3) (aPitch .a16 mHal.gsel)) (valAt v 2).toNat (aRowBytes .a16 mHal.gsel) ++
      scratchRows (valAt v 1) (pitchOf (valAt v 3 / 2 ^ 32) (256 * alignBytes mHal.fmt)) (valAt v 2).toNat (256 * alignBytes mHal.fmt))
theorem witness_HarpIssue_align : ∀ g : Bool,
    Met (.halign mHal (iHal (if g then 2 else 0))) (iHal (if g then 2 else 0)) (harpPre (iHal (if g then 2 else 0)) (fun _ v => halPlan v) g) := by
  intro g; cases g
  · exact harp_met (at_ true (.halign mHal (iHal 0))) (by decide +kernel)
  · exact harp_met (at_ true (.halign mHal (iHal 2))) (by decide +kernel)

def mHm : HmmaMod := ⟨false, .s8, .ieee, false⟩
def iHm : Insn := insnX (.imm 0) (.imm 4) (.imm 16) (.imm 0)
def tiled : Harp := { Harp.empty with slot0 := { PlaneSlot.empty with planes := 4 } }
def hmmaPlan (h : Harp) (v : List Int) : HarpPlan :=
  let sl := issueView h mHm.slot
  harpPlan (sl.1 == 0 || rowsBad (valAt v 0) (valAt v 1) || pitchBad (valAt v 3) (aPitch mHm.kind sl.2)) [valAt v 2] 16
    (scratchRows (valAt v 2) (pitchOf (valAt v 3) (aPitch mHm.kind sl.2)) (valAt v 1).toNat (aRowBytes mHm.kind sl.2))
theorem witness_HarpIssue_hmma :
    Met (.hmma mHm iHm) iHm (fun k s => k.e ≠ 0 ∧ k.b.harp = some tiled ∧ testQueued tiled = false ∧ (harpCheck k (hmmaPlan tiled (harpVals k iHm)) s).isNone = true) ∧
    Met (.hmma mHm iHm) iHm (harpPre iHm hmmaPlan false) ∧ Met (.hzero (offI (iHz 0 1))) (offI (iHz 0 1)) (fun k _ => k.e = 0) :=
  ⟨met_decide (tuneB (at_ true (.hmma mHm iHm)) (fun b => { b with harp := some tiled })) (by decide +kernel),
    harp_met (at_ true (.hmma mHm iHm)) (by decide +kernel), met_decide (at_ true (.hzero (offI (iHz 0 1)))) (by decide +kernel)⟩

/-- Window 0: Q4, G 32, K 256, from 0x200000 on (R396). -/
def windowed (s : State) : State :=
  let r := { s.regs with
    prism := [(0, BitVec.ofNat 256 (1 + 2 + 8 * 256 + 0x200 * 2 ^ 64 + 0x2FF * 2 ^ 128 + 0x300 * 2 ^ 192))], prismz := [(0, 0x340)] }
  { s with regs := r }
def iHp : Insn := insn .unused (.s 8) .unused
def mPl : PlaneMod := ⟨false, 3, .g32, .ieee⟩
def winPlan (k : Ctx) : HarpPlan := harpPlan false [valAt (harpVals k iHp) 1] 16 []
def rawPlan (k : Ctx) : HarpPlan := { harpPlan false [valAt (harpVals k iHp) 1] 128 [] with planes := mPl.pm1.toNat + 1, g := mPl.gsel, rd := mPl.rd }
def planeReady (plan : Ctx → HarpPlan) (f : Ctx → Tlb → State → Bool) : Ctx → State → Prop := fun k s => ∃ x u,
  (k.e ≠ 0 ∧ k.b.harp = some Harp.empty ∧ testQueued Harp.empty = false ∧ harpCheck k (plan k) s = none ∧
    checkVa s k.core k.p.ctx false (pat 64 (valAt (harpVals k iHp) 1)) permR = (.ok x, u)) ∧ f k x u = true
theorem plane_met {ins : Instr} {plan : Ctx → HarpPlan} {f : Ctx → Tlb → State → Bool} (s : State)
    (h : meets ins iHp s (fun k u => k.e != 0 && k.b.harp == some Harp.empty && !testQueued Harp.empty && (harpCheck k (plan k) u).isNone &&
      vaThen (checkVa u k.core k.p.ctx false (pat 64 (valAt (harpVals k iHp) 1)) permR) (f k)) = true) : Met ins iHp (planeReady plan f) :=
  met s _ (fun k u h => by
    simp only [Bool.and_eq_true, bne_iff_ne, beq_iff_eq, Bool.not_eq_true', Option.isNone_iff_eq_none] at h
    obtain ⟨x, v, h1, h2⟩ := vaThen_ok h.2
    exact ⟨x, v, ⟨h.1.1.1.1, h.1.1.1.2, h.1.1.2, h.1.2, h1⟩, h2⟩) h
def paOfTile (k : Ctx) (x : Tlb) : Nat := trPa x (pat 64 (valAt (harpVals k iHp) 1))
def heldAt (s : State) (pa : Nat) : Option Nat := (windowOf s pa).filter (fun n => !windowBad (windowAt s n) pa)
theorem witness_Planes_issue :
    Met (.hplaneWin false iHp) iHp (planeReady winPlan (fun k x u => heldAt u (paOfTile k x) == some 0)) ∧
    Met (.hplaneWin false iHp) iHp (planeReady winPlan (fun k x u => heldAt u (paOfTile k x) == none)) ∧
    Met (.hplaneRaw mPl iHp) iHp (planeReady rawPlan (fun _ _ _ => true)) ∧
    Met (.hplaneWin false (offI iHp)) (offI iHp) (fun k _ => k.e = 0) ∧ Met (.hplaneRaw mPl (offI iHp)) (offI iHp) (fun k _ => k.e = 0) :=
  ⟨plane_met (windowed (base 0x200000 (at_ true (.hplaneWin false iHp)))) (by decide +kernel), plane_met (base 0x200000 (at_ true (.hplaneWin false iHp))) (by decide +kernel),
    plane_met (base 0x200000 (at_ true (.hplaneRaw mPl iHp))) (by decide +kernel), met_decide (at_ true (.hplaneWin false (offI iHp))) (by decide +kernel),
    met_decide (at_ true (.hplaneRaw mPl (offI iHp))) (by decide +kernel)⟩
/-- The first byte of the tile lies past the addresses. -/
theorem witness_Planes_fault :
    Met (.hplaneRaw mPl iHp) iHp (fun k s => (k.e ≠ 0 ∧ k.b.harp = some Harp.empty ∧ (harpCheck k (rawPlan k) s).isNone = true) ∧
      (match (checkVa s k.core k.p.ctx false (pat 64 (valAt (harpVals k iHp) 1)) permR).1 with | .fault _ _ => true | _ => false) = true) :=
  met_decide (base (2 ^ 57) (at_ true (.hplaneRaw mPl iHp))) (by decide +kernel)
/-- A .RAW load queued at `va`: a line that lands, or one that faults. -/
def loading (va : Int) : State :=
  tuneB (at_ true (.nop iNone)) (fun b => { b with harp := some { Harp.empty with ops := [⟨0, .hplaneRaw mPl iHp, [0, va, 0, 0, 0], 4, .g32, .ieee, 0, false, [], none, [], [0, 0, 0, 0], 0, 0⟩] } })
def lineOutcome (s : State) : Nat :=
  match s.parties.get? 64, s.blocks.get? 0 with
  | some p, some b => (match b.harp with
    | some h => (match nextPlane h with
      | some (_, op) => (match rawLine s 64 b.core p.ctx op { PlaneSlot.empty with planes := op.planes, g := op.g, rd := op.rd } with
        | .landed _ _ _ _ => 1 | .fail _ _ _ _ => 2 | .miss _ _ => 3 | _ => 4)
      | none => 0)
    | none => 0)
  | _, _ => 0
theorem witness_Planes_line : (lineOutcome (loading 0x200400), lineOutcome (loading (2 ^ 57)), lineOutcome (absent (loading 0x600000)), present (loading 0) 64) = (1, 2, 3, true) := by
  decide +kernel
theorem witness_Planes_raw : (255 : Nat) < 64 * { PlaneSlot.empty with planes := 4 }.planes ∧ (List.replicate 128 (0 : Byte)).length = 128 := by decide +kernel

/-- Each of the operations at the head of the queue; an HPLANE that waits for its lines, and one whose writes alone remain. -/
theorem witness_HarpCompletion : ([.hzero (iHz 0 1), .haccld (iAcc 16), .htestFlags (iHt 4), .htest (iHt 4), .hmma mHm iHm] : List Instr).all (fun op =>
    let s := tuneB (at_ true (.nop iNone)) (fun b => { b with harp := some { Harp.empty with ops := [⟨0, op, [0, 1, 16, 0, 0], 0, .g32, .ieee, 0, false, [], none, [], [], 0, 0⟩] } })
    (match s.parties.get? 64, s.blocks.get? 0 with
      | some p, some b => present s 64 && p.sbuf == [] && (match b.harp with
        | some h => (match h.ops with | o :: _ => (planeSlot o.op).isNone || o.landed | [] => false)
        | none => false)
      | _, _ => false)) = true := by decide +kernel
/-- An HTEST before which a LOCK of the bow is outstanding. -/
theorem witness_HarpCompletion_waits : (let s := at_ true (.nop iNone)
    let op : HarpOp := ⟨1, .htest (iHt 4), [0, 1, 16, 0, 0], 0, .g32, .ieee, 0, false, [], none, [], [], 0, 0⟩
    !mustWait s 0 op && mustWait { s with lockReqs := [⟨5, false, waiter0 (reqId 64 0) 1⟩] } 0 op) = true := by decide +kernel
theorem witness_HarpCompletion_rest : (1 : Nat) ≤ 256 ∧ (coreOf (at_ true (.nop iNone)) 0).bad = 0 ∧
    (planeSlot (.hplaneRaw mPl iHp)).isSome = true ∧ (∃ o : HarpOp, o.late = some [(4, 1)]) :=
  ⟨by decide, by decide +kernel, by decide, ⟨⟨0, .htest (iHt 4), [], 0, .g32, .ieee, 0, false, [], some [(4, 1)], [], [], 0, 0⟩, rfl⟩⟩
/-- Cores with no, one, two sub-arrays, the spare, or a sub-array and the spare in error. -/
theorem witness_HarpCompletion_selftest : Core.reset.harp = .normal ∧ (List.range 16).filter (fun i => Core.reset.bad.getLsbD i) = [] ∧
    ([1, 3, 0x10000, 0x10001] : List (BitVec 17)).map (fun b => ((List.range 16).filter (fun i => b.getLsbD i), b.getLsbD 16)) =
      [([0], false), ([0, 1], false), ([], true), ([0], true)] := by decide +kernel

/-! #### Registers, results, the ordering machine -/

theorem witness_RegisterWrites : ((at_ false (.nop iNone)).parties.get? 0).isSome = true ∧ (3 : Mask) &&& (255 : Mask) ≠ 0 ∧
    (3 : Mask) &&& (255 : Mask) ≠ 255 ∧ (255 : Mask) &&& 255 = 255 := by decide +kernel

/-- Results on their way: an older load of v1, and one of the kind asked for of `r`. -/
def returning (kind : PendKind) (r : Nat) : State :=
  tune (at_ false (.nop iNone)) (fun p => { p with pend :=
    [⟨0, .load (.sr 0 1 (.v 1)), 0, 0, 0, [.v 1 0 5], []⟩, ⟨1, kind, 2, 0, 0, [.v r 0 6], []⟩] })
theorem witness_ResultsReturn : (([.compute, .deliver, .load (.sr 0 1 (.v 1))] : List PendKind).all (fun kind => [1, 2].all (fun r =>
    let s := returning kind r
    active s 0 && (match s.parties.get? 0 with
      | some p => decide (p.pend = [⟨0, .load (.sr 0 1 (.v 1)), 0, 0, 0, [.v 1 0 5], []⟩] ++ ⟨1, kind, 2, 0, 0, [.v r 0 6], []⟩ :: []) &&
          inOrder [⟨0, .load (.sr 0 1 (.v 1)), 0, 0, 0, [.v 1 0 5], []⟩] ⟨1, kind, 2, 0, 0, [.v r 0 6], []⟩ == (r == 2)
      | none => false)))) = true := by decide +kernel
theorem witness_ResultsReturn_fixed : (let s := tune (at_ false (.nop iNone)) (fun p => { p with pend := [⟨0, .fixed 4, 0, 0, 0, [.v 1 0 5], []⟩] })
    (s.parties.get? 0).map (·.pend) == some [⟨0, .fixed 4, 0, 0, 0, [.v 1 0 5], []⟩] && decide (partyClock s 0 < 4) && decide (4 ≤ partyClock { s with cycle := 4 } 0)) = true := by
  decide +kernel

/-- One entry in the general buffer. -/
def entryOf (kind : BufKind) (tags : List TagOp) : BufEntry := ⟨0, kind, [(locOf 1 0x200400, 1)], tags, none, false⟩
def buffering (e : BufEntry) : State := tune (at_ false (.nop iNone)) (fun p => { p with buf := [e], serial := 1 })
theorem witness_Performing : ([entryOf .store [.mask (tagLoc (locOf 1 0x200400)) 15 0], entryOf (.red .add .n32 (locOf 1 0x200400) 3 .die) [],
      entryOf (.object (tagLoc (locOf 1 0x200400)) 2) [.mask (tagLoc (locOf 1 0x200400)) 0 1],
      { entryOf .store [] with rel := some .die }].all (fun e => mayLeave (buffering e) 0 0 == some e)) = true := by decide +kernel
/-- A RED that R306 admits; one that it does not, at data and at poison. -/
theorem witness_Performing_red : (let one := entryOf (.red .add .n32 (locOf 1 0x200400) 3 .die) []
    let far := entryOf (.red .add .n32 (locOf 1 0x200400) 3 .blk) []
    let bad := { buffering far with poison := [lineOf (dataLoc (locOf 1 0x200400))] }
    combinable .n32 .add .die && !combinable .n32 .add .blk && mayLeave (buffering one) 0 0 == some one &&
      mayLeave (buffering far) 0 0 == some far && !poisoned (buffering far) (locOf 1 0x200400) && mayLeave bad 0 0 == some far &&
      poisoned bad (locOf 1 0x200400)) = true := by decide +kernel
theorem witness_Performing_scratch : (let e : BufEntry := ⟨0, .store, [(64, 1)], [], none, false⟩
    let s := tune (at_ false (.nop iNone)) (fun p => { p with sbuf := [e], serial := 1 })
    mayLeaveScratch s 0 0 == some e && (blockOf s 0).isSome) = true := by decide +kernel
/-- A write at GRP(0) goes up to BLK; BLK's latest goes down. -/
theorem witness_Visibility : (let s : State := { at_ false (.nop iNone) with
      vis := [] }
    let t := addVis s (.grp 0) 7
    parentOf t (.grp 0) == some (.blk 0) && decide (Point.grp 0 ≠ .blk 0) && (visAt t (.grp 0)).contains 7 && !(visAt s (.grp 0)).contains 7 &&
      (let u := (performCells s [(locOf 1 0x200400, 5)] [.blk 0]).2
       (latest u (.blk 0) (locOf 1 0x200400)).1 != 0)) = true := by decide +kernel
theorem witness_Visibility_plane : parentOf (at_ false (.nop iNone)) (.pl 0) ≠ none ∧ Point.pl 0 ≠ .die 0 := by decide +kernel
/-- Two REDs of one entry, at data and at poison; an entry that holds none any more. -/
theorem witness_CombiningDrain : (let r : Nat → BufEntry := fun n => ⟨n, .red .add .n32 (locOf 1 0x200400) 3 .die, [], [], none, true⟩
    let e : CombEntry := ⟨1, locOf 1 0x200400, .n32, .add, [(0, 0), (0, 1)], 0⟩
    let s0 := tune (at_ false (.nop iNone)) (fun p => { p with buf := [r 0, r 1], serial := 2 })
    let s := setCluster s0 0 { clusterOf s0 0 with comb := [e] }
    let bad := { s with poison := [lineOf (dataLoc (locOf 1 0x200400))] }
    (clusterOf s 0).comb[0]? == some e && combREDs s e != [] && !poisoned s e.addr &&
      (clusterOf bad 0).comb[0]? == some e && combREDs bad e != [] && poisoned bad e.addr && combREDs s { e with members := [(0, 9)] } == []) = true := by
  decide +kernel

/-! #### Collectives -/

def iCns : Insn := mem .unused (.s 8) .unused
def mCns : ConsortMod := ⟨.allreduce, .add, some .f32⟩
def descPre (f : Ctx → ColDesc → State → Bool) : Ctx → State → Prop := fun k s => ∃ d u,
  (k.e ≠ 0 ∧ k.p.ctr.consort ≠ 63 ∧ sbEa k iCns % 64 = 0 ∧ readDesc s k (sbEa k iCns) permRW = .ok d u) ∧ f k d u = true
theorem desc_met {f : Ctx → ColDesc → State → Bool} (s : State)
    (h : meets (.consort mCns iCns) iCns s (fun k u => k.e != 0 && k.p.ctr.consort != 63 && sbEa k iCns % 64 == 0 &&
      (match readDesc u k (sbEa k iCns) permRW with | .ok d v => f k d v | _ => false)) = true) : Met (.consort mCns iCns) iCns (descPre f) :=
  met s _ (fun k u h => by
    simp only [Bool.and_eq_true, bne_iff_ne, beq_iff_eq] at h
    obtain ⟨⟨⟨h1, h2⟩, h3⟩, h4⟩ := h
    split at h4
    · next d v hd => exact ⟨d, v, ⟨h1, h2, h3, hd⟩, h4⟩
    · cases h4) h
theorem witness_Consort : Met (.consort mCns (offI iCns)) (offI iCns) (fun k _ => k.e = 0) ∧
    Met (.consort mCns iCns) iCns (fun k _ => k.e ≠ 0 ∧ k.p.ctr.consort = 63) ∧
    Met (.consort mCns iCns) iCns (fun k _ => k.e ≠ 0 ∧ k.p.ctr.consort ≠ 63 ∧ sbEa k iCns % 64 ≠ 0) ∧
    Met (.consort mCns iCns) iCns (descPre (fun _ d u => colBad u mCns d)) ∧
    Met (.consort mCns iCns) iCns (descPre (fun k d u => !colBad u mCns d && !commOk u d.comm k.p.ctx)) ∧
    Met (.consort mCns iCns) iCns (descPre (fun k d u => !colBad u mCns d && commOk u d.comm k.p.ctx)) :=
  ⟨met_decide (at_ false (.consort mCns (offI iCns))) (by decide +kernel),
    met_decide (tune (at_ false (.consort mCns iCns)) (fun p => { p with ctr := ⟨0, 0, 0, 63, 0⟩ })) (by decide +kernel),
    met_decide (base 0x200420 (at_ false (.consort mCns iCns))) (by decide +kernel),
    desc_met (desc 0 (at_ false (.consort mCns iCns))) (by decide +kernel),
    desc_met (let s := desc 1 (at_ false (.consort mCns iCns)); { s with regs := { s.regs with comm := [] } }) (by decide +kernel),
    desc_met (desc 1 (at_ false (.consort mCns iCns))) (by decide +kernel)⟩
def rank0 (q : Option Nat) (done timeout : Nat) : ColRank := ⟨0, q, 1, 0, 0, 10, 1, 0, 0x200500, 0x200500, 0x200400, timeout, 0, 0, none, false, done, false, 0, 0⟩
theorem witness_Consort_enter : State.reset.cols.findIdx? (joinsCol 0 0 0) = none ∧
    (let c : Collective := ⟨0, 0, 0, [rank0 none 0 0], false, 0, false⟩
     { c with ended := true }.ended = true ∧ c.ended = false ∧ c.ranks.any (timedOut 0) = false ∧ 1 ≤ arrived c ∧ c.ranks.any (disagree { rank0 none 0 0 with rank := 1 }) = false ∧
     rankIn c 1 = none ∧ c.ranks.any (disagree { rank0 none 0 0 with rank := 1, count := 2 }) = true ∧ (rankIn c 0).isSome = true) := by
  decide +kernel
/-- A collective of the communicator of `desc`, of the ranks `l`, at tick 2. -/
def collective (l : List ColRank) (n : Nat) : State :=
  let s := desc 1 (at_ false (.nop iNone))
  let r := { s.regs with
    comm := [(0, BitVec.ofNat 64 (0x10001 + 2 * (n - 1)))] }
  { s with
    regs := r, cols := [⟨0, 0, 0, l, false, 0, false⟩], cycle := 45 }
theorem witness_CollectiveEvents_run : (let c : List ColRank → Collective := fun l => ⟨0, 0, 0, l, false, 0, false⟩
    let r := rank0 (some 0) 0 0
    let s := collective [r] 2
    let t := collective [r] 1
    s.cols.find? (fun x => x.n == 0) == some (c [r]) && decide (commSize s 0 = 2) &&
      decide (commSize t 0 = 1) && ([r].map (markReady t)).all (·.ready) && readsSource r && !readsSource { r with kind := 4 } &&
      r.data == none && !r.closed &&
      (match readElems 0 (coreIx t 0) r.ctx (tyWidth (rankTy r) / 8) r.count r.src t with | .ok _ _ => true | _ => false)) = true := by
  decide +kernel
/-- The rank of party 0, with completion state `done` or its data read; its release taken, or not. -/
def closing (done : Nat) (data : Option (List W64)) (ready : Bool) : State :=
  let s := collective [{ rank0 (some 0) done 0 with data := data, ready := ready, n := 1 }] 1
  { s with cols := s.cols.map (fun c => { c with running := data.isSome }) }
def closes (s : State) (f : Collective → ColRank → Bool) : Bool :=
  match s.cols.find? (fun x => x.n == 0), blockOf s 0 with
  | some c, some b => (match c.ranks.find? (fun r => r.rank == 0 && r.q.isSome && !r.closed) with
    | some r => r.q == some 0 && !earlierOpen s 0 r.n && b.resident && f c r
    | none => false)
  | _, _ => false
theorem witness_CollectiveEvents_complete :
    closes (closing 4 none true) (fun _ r => r.done != 0 && r.ready &&
      vaThen (checkVa (closing 4 none true) (coreIx (closing 4 none true) 0) r.ctx false (r.desc + 0x28) permW) (fun _ _ => true)) = true ∧
    closes (pendingStore (closing 4 none false)) (fun _ r => r.done != 0 && !r.ready && !rankReleased (pendingStore (closing 4 none false)) r) = true ∧
    closes (closing 0 (some [5]) true) (fun c r => r.done == 0 && c.running && c.ranks.all (fun x => x.data.isSome) &&
      (match destElems (coreIx (closing 0 (some [5]) true) 0) r.ctx (tyWidth (rankTy r) / 8) (colResult c 1 r).length r.dst
          (closing 0 (some [5]) true) with | .ok _ _ => true | _ => false)) = true := by decide +kernel
theorem witness_CollectiveEvents_timeout : (let s := collective [rank0 (some 0) 0 1] 2
    match s.cols.find? (fun x => x.n == 0) with
    | some c => !c.ended && !c.running && decide (arrived c < commSize s c.comm) && c.ranks.any (fun r => r.rank == 0 && timedOut (ticksOf s.cycle) r)
    | none => false) = true := by decide +kernel
theorem witness_CollectiveEvents_results : [0, 1, 2, 3, 4].map colKindOf =
    [some .allreduce, some .reduce, some .broadcast, some .allgather, some .barrier] := by decide

/-! #### The directory and the throttle -/

/-- Line 0 with an entry, what the dies hold, requests and victims, in cycle 5. -/
def dirS (es : List DirEntry) (held : AMap DirSt) (reqs : List DirReq) (v : List Victim) : State :=
  { State.reset with
    dir := es.map (fun x => (homeDie State.reset 0, x)), dieLine := held, dirReqs := if reqs = [] then [] else [(0, reqs)], victims := v,
    cycle := 5 }
def entry (l : List DirSt) : DirEntry := ⟨0, 16, l, 0⟩
/-- A request of die 2 that is being served. -/
def served (k : DirKind) (fwd : Option Nat) (inv ack : List Nat) (data : Bool) : DirReq := ⟨k, 2, 0, true, fwd, inv, ack, data, none, none⟩
theorem witness_DirectoryRequests : ((heldBy State.reset 3 0, heldBy (dirS [] [(3, .s)] [] []) 3 0, heldBy (dirS [] [(3, .o)] [] []) 3 0) = (.i, .s, .o)) ∧
    reqsOf (dirS [] [(3, .s)] [] []) 0 = [] ∧ (∀ l : List DirSt, l ∈ [[.i, .i, .i, .i], [.s, .i, .i, .i], [.i, .m, .i, .i]] →
      recorded (entry l) 1 ≠ .i ∨ l.getD 1 .i = .i) := by decide +kernel
def servedAt (s : State) (f : State → DirReq → Bool) : Bool := match serve s 0 with | some (u, r, _) => f u r | none => false
theorem witness_DirectoryMessages_forward : (([.e, .o, .m] : List DirSt).all (fun x => servedAt (dirS [entry [.i, x, .i, .i]] [(1, x)] [served .readS (some 1) [] [] false] [])
      (fun u r => r.fwd == some 1 && r.kind == .readS && heldBy u 1 0 != .i)) &&
    servedAt (dirS [entry [.i, .m, .i, .i]] [(1, .m)] [served .readM (some 1) [] [] false] []) (fun u r => r.fwd == some 1 && r.kind != .readS && heldBy u 1 0 != .i) &&
    servedAt (dirS [entry [.i, .m, .i, .i]] [] [served .readM (some 1) [] [] false] []) (fun u r => r.fwd == some 1 && heldBy u 1 0 == .i) &&
    servedAt (dirS [entry [.i, .m, .i, .i]] [(1, .m)] [{ served .readM (some 1) [] [] false with after := some 1 }] [])
      (fun u r => r.fwd == some 1 && r.kind != .readS && heldBy u 1 0 != .i && waitsAccess u 0 r) &&
    servedAt (dirS [entry [.i, .m, .i, .i]] [(1, .m)] [served .readM (some 1) [] [] false] []) (fun u r => !waitsAccess u 0 r)) = true := by
  decide +kernel
theorem witness_DirectoryMessages_end : (servedAt (dirS [entry [.s, .s, .i, .i]] [(0, .s), (1, .s)] [served .upgrade none [0, 1] [] true] []) (fun _ r => r.toInv.contains 1) &&
    ([.readS, .readM] : List DirKind).all (fun k => servedAt (dirS [entry [.i, .i, .i, .i]] [] [served k none [] [] true] [])
      (fun u r => r.data && r.fwd == none && r.toInv == [] && r.toAck == [] && recordFits u 0 r)) &&
    servedAt (dirS [] [] [⟨.readS, 2, 4, false, none, [], [], false, none, none⟩] []) (fun _ r => r.data)) = true := by decide +kernel
theorem witness_DirectoryMessages_lines : [Point.die 1, .pkg].all insidePoint = true ∧ dieOf 72 = 1 ∧ dieOf 71 ≠ 1 ∧
    (State.reset.cores.insert 72 Core.reset : AMap Core).get? 72 ≠ none := by decide +kernel
theorem witness_DirectoryMessages_writeback : (let s := dirS [entry [.i, .m, .i, .i]] [(1, .m)] [] []
    let t := dirS [entry [.i, .m, .i, .i]] [(1, .m)] [] [⟨1, 0, .asked⟩]
    let g := dirS [entry [.i, .m, .i, .i]] [(1, .m)] [] [⟨1, 0, .granted⟩]
    mayAsk s 1 0 && heldBy s 1 0 == .m && !pinnedHere s 1 0 &&
      pinnedHere { s with ctxs := [(1, { CtxDev.reset with pinned := [0] })] } (homeDie s 0) 0 && decide ((s.victims.filter (fun v => v.d == 1)).length < 32) &&
      quiet t 0 && isOwner t 1 0 && !isOwner { t with dir := [] } 1 0 && t.victims.any (fun v => v.d == 1 && v.line == 0 && v.st == .asked) &&
      (Machine.entryOf g 0).any (fun e => roomFor g (homeDie g 0) (some e) (splitFor 0 e)) && g.victims.any (fun v => v.st == .granted)) = true := by decide +kernel
theorem witness_EntryEvents : (let s := dirS [entry [.i, .s, .i, .i]] [] [served .readM none [] [1] true] []
    let b : BackInv := ⟨homeDie State.reset 0, 0, 16, [], [(1, 0)]⟩
    let t := { s with
      dirReqs := [], backInvs := [b] }
    let u := { t with
      backInvs := [{ b with toSend := [(1, 0)], toAck := [] }] }
    backOf s (fun b => b.toAck) 1 0 == none && (reqsOf s 0).any (fun r => r.toAck.contains 1) &&
      backOf t (fun b => b.toAck) 1 0 == some b && backing u 0 && (backOf u (fun b => b.toSend) 1 0).isSome) = true := by decide +kernel
theorem witness_EntryEvents_merge : (let a : DirEntry := ⟨0, 15, [.s, .i, .i, .i], 0⟩
    let b : DirEntry := ⟨32768, 15, [.s, .i, .i, .i], 0⟩
    let s := { State.reset with
      dir := [(0, a), (0, b)], cycle := 65536 }
    s.dir.find? (fun e => e.1 == 0 && e.2.base == 0) == some (0, a) &&
      s.dir.find? (fun e => e.1 == 0 && e.2.base == 32768 && e.2.k == 15) == some (0, b) && entryIdle s a && entryIdle s b &&
      decide (a.last + 65536 ≤ dieClock s 0) && !backing s 0 && !backing s 256 && covers a 255 && !covers a 256 && covers b 256) = true := by decide +kernel
theorem witness_IssueThrottle : (let s := { at_ false (.nop iNone) with
      cycle := 4096 }
    decide ((coreOf s 0).epochStart + 4096 ≤ coreClock s 0) && decide (coreClock (at_ false (.nop iNone)) 0 < (coreOf s 0).epochStart + 4096) &&
      (let oct : Nat → Option Nat → State := fun since last => setOct s 0 0 { octAt s 0 0 with
        mem := some [65], thr := [(0, since)], lastEntry := last }
       let ok : State → Bool := fun t => longestThrottled (octAt t 0 0).thr == some 0 && (octAt t 0 0).mem == some [65] &&
         decide (0 < (coreOf t 0).octs.length)
       let t := oct 3584 none
       ok t && decide ((octAt t 0 0).thr.getD 0 (coreClock t 0) + 512 ≤ coreClock t 0) && (octAt t 0 0).lastEntry != some (coreClock t 0) &&
         ok (oct 3585 none) && decide (coreClock (oct 3585 none) 0 < (octAt (oct 3585 none) 0 0).thr.getD 0 0 + 512) &&
         ok (oct 3584 (some 4096)) && (octAt (oct 3584 (some 4096)) 0 0).lastEntry == some (coreClock s 0))) = true := by decide +kernel

/-! #### Placement, slices, termination -/

def tiny : Kernel := { fetchKernel with scratch := 128, barriers := 1, queues := 1, vregs := 8, shade := 0, features := 0 }
def card0 : Card := ⟨1, 0, 0x200400, 1, none, none, true, none, none, none, false, 7, 0, 2, 2, 2, tiny, 2⟩
/-- A page table of one table at 0x1000, which maps the 2 MiB page at 0x200000 under key 1 (R291, R292); context 1 of partition
0 (R408); a memory range (R391). -/
def mapped (s : State) : State :=
  let t := poke s 0x1000 (bytesOf 16 (0x1001 + 2 ^ 64 * (0x20019F + 2 ^ 52)))
  let r := { t.regs with
    mrt := [(0, 0x101)] }
  let d := bytesOf 128 (1 + 0x1000 * 2 ^ 64 + 0x8000 * 2 ^ 256 + 8 * 2 ^ 512 + 0x8001 * 2 ^ 576)
  { t with
    regs := r, mem := writeBytes t.mem (locOf 0 128) d, parts := [(0, { Part.reset with v := true })] }
def queued (s : State) : State :=
  { s with
    cards := [(0, card0)], parts := [(0, { Part.reset with v := true, queues := [(0, [0])] })] }
/-- A queued chord at the head of cluster 0's queue. -/
def placing : State :=
  queued { mapped State.reset with
    chords := [(0, { fetchChord with st := .queued, cbMap := [] })], released := some 0 }
/-- The chord of `at_`, saved, with one block left. -/
def saved : State :=
  let s := mapped (at_ false (.nop iNone))
  { tuneB s (fun b => { b with resident := false }) with
    chords := [(0, { fetchChord with st := .saved, cbMap := [], blocksLeft := 1 })], released := some 0 }
theorem witness_Placement_place : (let s := placing
    match s.chords.get? 0, s.cards.get? 0 with
    | some ch, some c =>
      runner s ch.part == some ch.ctx && headChord s (partOf s ch.part) ch.cluster ch.ctx == some 0 &&
        (partClusters (partOf s ch.part)).contains ch.cluster && ch.st == .queued && decide (c.groups ≤ 64) && decide (ch.n ≤ 4) &&
        decide ((ctxBlocks s ch.ctx).length + ch.n ≤ (descOf s ch.ctx).saveBlocks) && (seatsFor s ch.cluster ch c.kern c.groups ch.n).isSome &&
        runner { s with chords := [] } ch.part == none && s.released.isSome && { s with released := none }.released == none
    | _, _ => false) = true := by decide +kernel
def offline (s : State) : State := (List.range 4).foldl (fun s c => setCore s c { coreOf s c with harp := .offline }) s
theorem witness_Placement_resume : (let s := saved
    let ok : State → Bool → Bool := fun s seats => match s.chords.get? 0, chordShape s 0 with
      | some ch, some (k, g, n) =>
        resumable s 0 ch && runner s ch.part == some ch.ctx && n == (chordBlocks s 0).length && (seatsFor s ch.cluster ch k g n).isSome == seats &&
          (clustersFrom (partOf s ch.part) ch.cluster).all (fun c => (seatsFor s c ch k g n).isSome == seats) &&
          (chordLive s 0).all (fun q => match s.parties.get? q with | some x => x.pend == [] | none => true)
      | _, _ => false
    ok s true && ok (offline s) false && !queuedSomewhere (partOf s 0) 0 && ok (queued s) true && headChord (queued s) (partOf (queued s) 0) 0 1 == some 0 &&
      (partClusters (partOf s 0)).contains 0) = true := by decide +kernel
theorem witness_BlocksLeave_retire : (let s := at_ false (.nop iNone)
    let t := { s with
      parties := s.parties.map (fun e => (e.1, { e.2 with retired := true })) }
    (match s.blocks.get? 0, s.chords.get? (cidOf 0) with
      | some b, some ch => b.resident && ch.blocksLeft == 2 && (match b.harp with | some h => h.ops == [] | none => true)
      | _, _ => false) &&
      (blockParties 0).any (fun q => !partyDone s q) && (blockParties 0).all (partyDone t)) = true := by decide +kernel
theorem witness_BlocksLeave_slice : (let s : State := { at_ false (.nop iNone) with
      parts := [(0, { Part.reset with running := some 1 })] }
    let t := { s with
      cycle := 2 ^ 22 }
    let u := { t with
      chords := t.chords ++ [(1, { fetchChord with ctx := 2, st := .queued })] }
    (partOf s 0).running == some 1 && decide (delivered s 0 < sliceOf s 1) && decide (sliceOf t 1 ≤ delivered t 0) &&
      (waitingChords t 0).all (fun e => e.2.ctx == 1) && (waitingChords u 0).any (fun e => e.2.ctx != 1)) = true := by decide +kernel
theorem witness_Termination : (let s := at_ false (.nop iNone)
    let t := setCtx s 1 { ctxOf s 1 with
      cands := [partyRec s 0 0x10, { partyRec s 0 0x11 with ticks := 0, core := 0 }] }
    (ctxOf s 1).cands == [] && (ctxOf t 1).cands != [] && !(ctxOf t 1).terminated && decide ((partOf t (descOf t 1).part).fqBuf.length < 63) &&
      AMap.sorted t.chords && (t.chords.get? 0).any (fun c => c.ctx == 1)) = true := by decide +kernel
theorem witness_FaultQueue : (let r := partyRec (at_ false (.nop iNone)) 0 0x10
    let p : Part := { Part.reset with
      fqBuf := [(r, none)], fqEn := true, fqWait := [(r, some 1)] }
    p.fqBuf == (r, none) :: [] && p.fqEn && p.fqTail - p.fqHead != BitVec.ofNat 16 (2 ^ p.fqLog) &&
      (let f : Part := { p with
        fqTail := 1 }
       f.fqTail - f.fqHead == BitVec.ofNat 16 (2 ^ f.fqLog)) &&
      decide ((p.fqTail - 0).toNat ≤ 2 ^ p.fqLog) && decide (2 ^ p.fqLog < (p.fqTail - 1).toNat)) = true := by decide +kernel

/-! #### Launches -/

def rec_ (prio : Nat) : List Byte := bytesOf 64 (prio + 2 ^ 32 + 0x200600 * 2 ^ 64)
def devOk (s : State) (va n : Nat) (f : Nat → State → Bool) : Bool := match devRead s 1 va n with | .ok w u => f w u | _ => false
/-- A launch record at 0x200400, submitted to partition 0's front end for context 1. -/
def submitting (prio : Nat) : State :=
  let s := { poke (mapped State.reset) 0x200400 (rec_ prio) with
    released := some 0 }
  setPart s 0 { partOf s 0 with feCtx := 1 }
theorem witness_Launches_submit : (let s := submitting 1
    s.released != none && (partOf s 0).v && (descOf s 1).v && (descOf s 1).part == 0 && !(ctxOf s 1).terminated && (partOf s 0).launches == [] &&
      devOk s 0x200400 64 (fun w _ => !recordBad w && fld w 32 32 == 1) && devOk (submitting 4) 0x200400 64 (fun w _ => recordBad w)) = true := by
  decide +kernel
/-- The descriptor of context 1 reads as poison; a submission before the dies are released; one whose address is no multiple of 64. -/
theorem witness_Launches_refused : (let s := submitting 1
    let t := { s with
      poison := [lineOf (dataLoc (descLoc s 1))] }
    (partOf t 0).v && (partOf t 0).feCtx == 1 && poisoned t (descLoc t 1) && !(ctxOf t 1).terminated && s.released != none &&
      !poisoned s (descLoc s 1) && decide ((0x200404 : W64).toNat % 64 ≠ 0) && State.reset.released == none) = true := by decide +kernel
def header (extra : Nat) : List Byte :=
  bytesOf 128 (0x31564D55 + 2 ^ 32 + 128 * 2 ^ 48 + extra * 2 ^ 64 + 128 * 2 ^ 192 + 12 * 2 ^ 224 + 8 * 2 ^ 320 + 256 * 2 ^ 512)
/-- A card at 0x200400 that names the kernel at 0x200000: two blocks of one group. -/
def examining (dep extra : Nat) : State :=
  let s := poke (poke (mapped State.reset) 0x200000 (header extra)) 0x200400
    (bytesOf 64 (0x200000 + 9 * 2 ^ 64 + 2 * 2 ^ 192 + 2 ^ 224 + 2 ^ 232 + dep * 2 ^ 256))
  { s with
    cards := [(0, { card0 with taken := false })], nextCard := 1 }
/-- What comes of the examination: the DEP words do not read 0; the checks pass; they fail. -/
def verdict (s : State) : Nat :=
  match s.cards.get? 0, devRead s 1 0x200400 64 with
  | some c, .ok v u =>
    if fld v 256 256 ≠ 0 then 1
    else match earlyChecks u c v, devRead u c.ctx (fld v 0 64) 128 with
      | none, .ok h u2 => (match lateChecks u2 c v h with | none => 2 | some _ => 3)
      | some _, _ => 4
      | _, _ => 5
  | _, _ => 6
/-- The card has been read, and its header is read from now on alone. -/
def kept (extra : Nat) : State :=
  let s := examining 0 extra
  { s with cards := s.cards.map (fun e => (e.1, { e.2 with snap := some (2 ^ 21 + 9 * 2 ^ 64 + 2 * 2 ^ 192 + 2 ^ 224 + 2 ^ 232) })) }
theorem witness_Launches_card : (verdict (examining 1 0), verdict (examining 0 0), verdict (examining 0 0x1000),
      verdict (poke (examining 0 0) 0x20041C [65])) = (1, 2, 3, 4) ∧
    ([0, 0x1000].map (fun x => match (kept x).cards.get? 0 with
      | some c => (match c.snap, devRead (kept x) 1 0x200000 128 with
        | some v, .ok h u => (lateChecks u c v h).isNone
        | _, _ => false)
      | none => false)) = [true, false] := by decide +kernel
theorem witness_Launches_card_waits : (State.reset.cards.get? 0 = none) ∧ ({ card0 with waits := some (0, 4096) } : Card).waits ≠ none := by decide +kernel

def iPost : Insn := mem .unused (.s 8) .unused
def postReady (k : Ctx) (x : Tlb) (u : State) : Bool :=
  releaseReady u k.c.q .sys && decide ((partOf u (descOf u k.p.ctx).part).waitList.length < 4096) && x.r
theorem witness_Launches_post : ∀ tg : PostTarget,
    Met (.post tg (offI iPost)) (offI iPost) (fun k _ => k.e = 0) ∧ Met (.post tg iPost) iPost (fun k _ => k.e ≠ 0 ∧ sbEa k iPost % 64 ≠ 0) ∧
    Met (.post tg iPost) iPost (fun k s => ∃ x u, (k.e ≠ 0 ∧ sbEa k iPost % 64 = 0 ∧
      checkVa s k.core k.p.ctx false (sbEa k iPost) permRW = (.ok x, u)) ∧ postReady k x u = true) := by
  intro tg
  refine ⟨met_decide (at_ false (.post tg (offI iPost))) ?_, met_decide (base 0x200420 (at_ false (.post tg iPost))) ?_,
    met (base 0x200400 (at_ false (.post tg iPost))) (fun k u => k.e != 0 && sbEa k iPost % 64 == 0 &&
      vaThen (checkVa u k.core k.p.ctx false (sbEa k iPost) permRW) (postReady k)) (fun k s h => ?_) ?_⟩
  · cases tg <;> decide +kernel
  · cases tg <;> decide +kernel
  · simp only [Bool.and_eq_true, bne_iff_ne, beq_iff_eq] at h
    obtain ⟨x, u, h1, h2⟩ := vaThen_ok h.2
    exact ⟨x, u, ⟨h.1.1, h.1.2, h1⟩, h2⟩
  · cases tg <;> decide +kernel

/-! #### Management, the host, errors, power -/

/-- A command at HEAD of a queue at 0x10000. -/
def commanded (op : Nat) (v : Nat) (s : State) : State :=
  let r := { s.regs with
    dcqEn := true, dcqLog := 1, dcqBase := 16, dcqTail := 1, dcqHead := 0 }
  { s with
    regs := r, mem := writeBytes s.mem (locOf 0 0x10000) (bytesOf 64 (op + v)), owner := s.owner.insert (lineOf (locOf 0 0x10000)) (ownerCode s 0) }
def takes (op v : Nat) (f : State → Command → Bool) : Bool :=
  let s := commanded op v (mapped State.reset)
  match nextCommand s with | some c => c.op == op && f s c | none => false
def plain (c : Command) : Bool := decide (c.flags < 2) && decide (c.ctx < 4096) && c.zero == 0 && !cplBad c
def cmd (ctx addr len arg : Nat) : Nat := ctx * 2 ^ 16 + addr * 2 ^ 64 + len * 2 ^ 128 + arg * 2 ^ 192
theorem witness_ManagementRegisters : (let s := mapped State.reset
    partBad s 0 1 == false && partBad s 0 0 == false && partBad s 0 (1 + 2 * 127) && (partOf { s with parts := [(0, { Part.reset with waybusy := true })] } 0).waybusy &&
      !(partOf s 0).waybusy && decide (4 % 8 ≠ 0) &&
      (partBad s 0 (1 + 2 ^ 16) == false) && decide (73 ≤ 288) &&
      (setRegs s (fun r => { r with staged := [(0x5000, 1)] })).regs.staged.get? 0x5000 == some 1) = true := by decide +kernel
theorem witness_Commands_invalid : nextCommand State.reset = none ∧
    (takes 1 (cmd 1 0 4096 0 + 2 ^ 32) (fun _ c => c.zero != 0) && takes 12 0 (fun _ c => c.op != 1) && cplBad { commandOf 1 with cpl := 4 }) = true := by decide +kernel
theorem witness_Commands_ranges : ([1, 6, 7, 8].all (fun op => takes op (cmd 1 0x200000 4096 1) (fun s c => plain c && (descOf s c.ctx).v && rangeOk c (2 ^ 52)) &&
      takes op (cmd 2 0x200001 4096 1) (fun s c => plain c && !(descOf s c.ctx).v && !rangeOk c (2 ^ 57))) &&
    [2, 3].all (fun op => takes op (cmd 1 0x200000 0 0) (fun s c => plain c && (descOf s c.ctx).v && decide (c.addr < 2 ^ 57)) &&
      takes op (cmd 1 (2 ^ 57) 0 0) (fun _ c => plain c && !decide (c.addr < 2 ^ 57)))) = true := by decide +kernel
theorem witness_Commands_retired : (takes 7 (cmd 1 0x200000 4096 1) (fun s c => plain c && !retiredIn s c.addr c.len) &&
    takes 7 (cmd 1 0x200000 4096 1) (fun s c =>
      retiredIn { s with regs := { s.regs with retired := [c.addr / 65536] } } c.addr c.len)) = true := by decide +kernel
def pinned (bytes pages : Nat) : State :=
  let s := commanded 4 (cmd 1 0 0 0) (mapped State.reset)
  { s with mem := writeBytes (writeBytes s.mem (locOf 0 (128 + 0x28)) (bytesOf 16 (pages + bytes * 2 ^ 64))) (locOf 0 (128 + 0x24)) (bytesOf 4 0) }
theorem witness_Commands_pin : ((regionLines (pinned 128 0x400000) 1 (descOf (pinned 128 0x400000) 1)).isNone &&
    (regionLines (pinned 128 0x200000) 1 (descOf (pinned 128 0x200000) 1)).any (fun l => slicesOver (pinned 128 0x200000) (descOf (pinned 128 0x200000) 1) l) &&
    (regionLines (pinned 0 0x200000) 1 (descOf (pinned 0 0x200000) 1)).any (fun l => !slicesOver (pinned 0 0x200000) (descOf (pinned 0 0x200000) 1) l) &&
    takes 4 (cmd 1 0 0 0) (fun _ c => plain c) && takes 5 (cmd 1 0 0 0) (fun s c => plain c && (descOf s c.ctx).v) &&
    takes 5 (cmd 2 0 0 0) (fun s c => plain c && !(descOf s c.ctx).v)) = true := by decide +kernel
theorem witness_Commands_rest : (takes 9 (cmd 0 0 0 0) (fun _ c => plain c && c.arg % 4096 == 0) && takes 9 (cmd 0 0 0 1) (fun s c => plain c && keyOwned s (c.arg % 4096)) &&
    takes 9 (cmd 0 0 0 2) (fun s c => plain c && c.arg % 4096 != 0 && !keyOwned s (c.arg % 4096)) &&
    takes 10 (cmd 1 0 0 0) (fun s c => plain c && (descOf s c.ctx).v && !(ctxOf s c.ctx).terminated) && takes 10 (cmd 2 0 0 0) (fun s c => plain c && !(descOf s c.ctx).v) &&
    takes 11 (cmd 0 0 0 288) (fun _ c => plain c && decide (288 ≤ c.arg % 512)) && takes 11 (cmd 0 0 0 287) (fun s c => plain c && !harpHeld s (c.arg % 512)) &&
    takes 11 (cmd 0 0 0 0) (fun _ c => plain c) && harpHeld (at_ false (.nop iNone)) 0) = true := by decide +kernel
theorem witness_Commands_completion : (let s := mapped State.reset
    writable s 0x20000 && !writable State.reset 0x20000) = true := by decide +kernel

def asking (l : List (Nat × Byte)) : State :=
  let m := { Mailbox.reset with
    busy := true, asked := true, ready := true, req := l }
  { State.reset with
    mbx := m }
theorem witness_MailboxRequests : (let a := asking [(0, 1), (8, 68)]
    let b := asking [(0, 1), (8, 68), (16, 1), (18, 72)]
    let c := asking [(0, 2), (8, 4), (16, 71), (18, 127)]
    let d := asking [(0, 2), (8, 4), (16, 72), (18, 127)]
    reqCode a == 1 && reqLen a == 68 && reqField a 16 2 == 0 && reqField b 16 2 == 1 && reqField b 18 2 == 72 &&
      reqCode c == 2 && reqLen c == 4 && reqField c 16 2 == 71 && reqField c 18 2 == 127 && reqField d 16 2 == 72 && a.mbx.asked && a.mbx.ready &&
      !State.reset.mbx.asked) = true := by decide +kernel
theorem witness_ErrorsAndLinks : (let s := { mapped State.reset with
      sliceBad := [(0x4000, 3)], owner := [(0x4000, 1)] }
    s.sliceBad.find? (fun e => e.1 == 0x4000) == some (0x4000, 3) && s.owner.get? 0x4000 == some 1 && (descOf s 1).v && !(ctxOf s 1).terminated &&
      decide (s.regs.retired.length < 512) && !s.portsDown.contains 23 && !s.linksDown.contains 7 && portOf s 0 == some 0 && s.cols == []) = true := by
  decide +kernel
theorem witness_PowerStates : State.reset.v48 = true ∧ ({ State.reset with v48 := false } : State).v48 = false ∧
    (at_ false (.nop iNone)).power = .on ∧ ({ State.reset with bootReady := true } : State).bootReady = true ∧ State.reset.bootReady = false := by decide +kernel

/-! #### The step, decoding, memory -/

/-- What the second part of `StepRunsDecoded` asks for of the group's first slot, where it fetches `w`, and of the decoding `f`. -/
def issues (w : Nat) (f : Party → Except Illegal Instr → Bool) : Bool :=
  let s := fetchState State.reset false w
  let a : State := advance { s with schedule := s.schedule.drop 1 } 1
  mayIssue a 0 && (match a.parties.get? 0, blockOf a 0 with
    | some p, some b => (match fragAt p (slotIx false) with
      | some g => isRun g && (match fetchWord a ⟨0, false, g.mask, g.pc, 0, []⟩ p b with
        | .ok w u => (match u.parties.get? 0, blockOf u 0 with
          | some p1, some b1 => tokensOk p1 (hintsOf (fld w 80 16)) && !throttled u 0 p1 b1 w && f p1 (decodeNat (envOf u p1 b1 0) w) &&
              f p1 (decodeNat (envOf a p b 0) w) &&
              (let p3 := converge p1 false g
               let v := setParty u 0 p3
               reconverged p3 && (match convergePc p3 with
                | some pc => (match fetchWord v ⟨0, false, joinMask p3 (2 + p3.spill.length) pc, pc, 0, []⟩ p3 b1 with
                  | .ok w2 u2 => (match u2.parties.get? 0, blockOf u2 0 with
                    | some p2, some b2 => f p2 (decodeNat (envOf u2 p2 b2 0) w2) && tokensOk p2 (hintsOf (fld w2 80 16)) && !throttled u2 0 p2 b2 w2
                    | _, _ => false)
                  | _ => false)
                | none => false))
          | _, _ => false)
        | _ => false)
      | none => false)
    | _, _ => false)
/-- The issue that is tried goes through. -/
def goes (i : Instr) : Bool :=
  let s := fetchState State.reset false (encode i).toNat
  let a : State := advance { s with schedule := s.schedule.drop 1 } 1
  match prepare a 0 false with
  | .run j v => j == i && (match exec i (withPeers i (fun _ => []) v) with | .next t => issuedNow a 0 t && !tooMany t 0 | _ => false)
  | _ => false
def votes : Instr := .vote ⟨.ballot, false⟩ (insn (.v 2) (.p 1) .unused)
theorem witness_StepRunsDecoded_issue : (issues (encode (.nop iNone)).toNat (fun _ r => match r with | .ok i => i == .nop iNone && !groupWide i | .error _ => false) &&
    issues 0x3FF (fun _ r => match r with | .ok _ => false | .error _ => true) && goes (.nop iNone)) = true := by decide +kernel
theorem witness_StepRunsDecoded_wide : (issues (encode votes).toNat (fun _ r => match r with | .ok i => i == votes && groupWide i | .error _ => false) &&
    goes votes) = true := by decide +kernel
/-- What the first part asks for of a move that is an issue of the group's octant. -/
def moves (tuneIt : Party → Party) (f : State → Option Issued → Bool) : Bool :=
  let s := modParty (fetchState State.reset false (encode (.nop iNone)).toNat) 0 tuneIt
  let r := takeMove s
  let a := advance r.2 r.1.after
  (dueBefore s r.1.after).isEmpty && a.power == .on && r.1.move == .issue 0 false && (reaches a 0 false).isNone &&
    f a (octantIssue a (octMates a (coreIx a 0) (partyOct a 0)))
theorem witness_StepRunsDecoded_octant :
    moves id (fun a x => match x with | some x => (match inQueueOrder a x with | .next t => !t.undone | _ => false) | none => false) = true ∧
    moves (fun p => { p with nextIssue := 99 }) (fun _ x => x.isNone) = true := by decide +kernel
/-- The ready candidates: none; one, with its hint; the group with its hint, before the bow. -/
theorem witness_StepRunsDecoded_ready : (let s := fetchState State.reset false (encode (.nop iNone)).toNat
    let a := advance { s with schedule := [] } 1
    let h := modParty a 0 (fun p => { p with yieldHint := true })
    (List.filter (ready (modParty a 0 (fun p => { p with nextIssue := 99 }))) [0]).isEmpty && List.filter (ready h) [0] == [] ++ 0 :: [] && hinted h 0 &&
      List.filter (ready h) [0, 64] == [0] ++ 64 :: [] && !hinted h 64 &&
      (slotOrder h 0).find? (fun k => (tryIssue (fun _ => []) h 0 k).isSome) == some false) = true := by decide +kernel
/-- A QPUSH of the group: the bow of its block, which is older and in another octant, would issue one on its queue, or on another. -/
theorem witness_StepRunsDecoded_queues : ([3, 4] : List (BitVec 9)).map (fun n =>
    let s := fetchState State.reset true (encode (.qpush (insn .unused (.imm n) (.s 8)))).toNat
    let a := advance { s with schedule := [] } 1
    let x : Issued := ⟨0, some (.qpush (insn .unused (.imm 3) (.s 8))), .next a⟩
    (x.ins.bind queueNo == some 3 && (byAge (bidOf x.q)).takeWhile (fun r => r != x.q) == [64] && mayIssue a 64 && partyOct a 64 != partyOct a x.q,
      (octantIssue a (octMates a (coreIx a 64) (partyOct a 64))).map (fun y => (y.q, y.ins.bind queueNo)))) =
    [(true, some (64, some 3)), (true, some (64, some 4))] := by decide +kernel
theorem witness_StepRunsDecoded_due : (let s := { at_ false (.nop iNone) with
      cycle := 4090, schedule := [⟨9, .issue 0 false⟩] }
    let r := takeMove s
    match dueBefore s r.1.after with
    | (d, .epochEnd c) :: _ =>
      decide (d ≤ r.1.after) && decide (0 < d) && (tryDue r.2 r.1 d (.epochEnd c)).isSome &&
        (match exec (.epochEnd c) { advance { r.2 with schedule := [⟨r.1.after - d, r.1.move⟩] } d with cur := none } with
         | .next t => !t.undone | _ => false)
    | _ => false) = true := by decide +kernel
theorem witness_StepRunsDecoded_event : (advance { State.reset with schedule := [] } 0).power = .on ∧ insnOf .boot = none ∧
    State.reset.schedule = ⟨0, .event .boot⟩ :: [] ∧ dueBefore State.reset 0 = [] := by decide +kernel
theorem witness_DecodeEncode : (intSamples ++ memSamples).all (WellFormed (envMax false)) = true ∧ bowSamples.all (WellFormed (envMax true)) = true := by
  decide +kernel
/-- A memory in its canonical form from which a step, a store's performance, goes on. -/
theorem witness_StepKeepsMemory : (let s := (tune (at_ false (.nop iNone)) (fun p => { p with
      buf := [⟨0, .store, [(locOf 1 0x200400, 7)], [], none, false⟩], serial := 1 }))
    let m := { s with
      cur := none, schedule := [⟨0, .event (.perform 0 0 false)⟩] }
    (match step m with | .next t => readByte t.mem (locOf 1 0x200400) == 7 | _ => false)) = true := by decide +kernel

end Sys2Proof.Tests
end

section
/-!
PROOFS. The system registers that no instruction changes: CAPS0 to CAPS3 (spec/01 R45) and CORE_ID (spec/08 R189).
-/
namespace Sys2Proof.Machine

/-! ### CAPS0 to CAPS3 -/

/-- The twelve features of R45, and the reserved bits above them. -/
theorem sysRead_caps0_testBit (s : State) (p : Party) (b : Block) (j : Nat) :
    (sysRead s p b 0x000).testBit j = decide (j < 12) :=
  Nat.testBit_two_pow_sub_one 12 j

theorem sysRead_caps1 (s : State) (p : Party) (b : Block) : sysRead s p b 0x001 = 0 := rfl

theorem sysRead_caps2 (s : State) (p : Party) (b : Block) : sysRead s p b 0x002 = 0 := rfl

theorem sysRead_caps3 (s : State) (p : Party) (b : Block) : sysRead s p b 0x003 = 0 := rfl

/-- %caps0 to %caps3 are these registers (R45). -/
theorem special_caps (s : State) (p : Party) (b : Block) (k : Ctx) (l : Nat) :
    special k l .caps0 = sysRead s p b 0x000 ∧ special k l .caps1 = sysRead s p b 0x001 ∧
      special k l .caps2 = sysRead s p b 0x002 ∧ special k l .caps3 = sysRead s p b 0x003 :=
  ⟨rfl, rfl, rfl, rfl⟩

/-! ### CORE_ID -/

theorem sysRead_coreId (s : State) (p : Party) (b : Block) : sysRead s p b 0x008 = coreIdReg b.core (octOf b p) := rfl

/-- A core of the package lies in one of its 72 clusters (R5). -/
theorem cluOf_lt {core : Nat} (h : core < 288) : cluOf core < 72 := by
  unfold cluOf; omega

/-- A core of the package lies on one of its four compute dies (R5). -/
theorem dieOf_lt {core : Nat} (h : core < 288) : dieOf core < 4 := by
  unfold dieOf; omega

/-- On a core of the package no field of CORE_ID but OCTANT is cut to its width. -/
theorem coreIdReg_eq {core : Nat} (oct : Nat) (h : core < 288) :
    coreIdReg core oct = core + cluOf core * 512 + dieOf core * 65536 + oct % 8 * 2 ^ 18 := by
  have hcore : core % 512 = core := Nat.mod_eq_of_lt (by omega)
  have hclu : cluOf core % 128 = cluOf core := Nat.mod_eq_of_lt (Nat.lt_trans (cluOf_lt h) (by decide))
  have hdie : dieOf core % 4 = dieOf core := Nat.mod_eq_of_lt (dieOf_lt h)
  calc coreIdReg core oct
      = core % 512 + cluOf core % 128 * 512 + dieOf core % 4 * 65536 + oct % 8 * 2 ^ 18 := rfl
    _ = core + cluOf core * 512 + dieOf core * 65536 + oct % 8 * 2 ^ 18 := by rw [hcore, hclu, hdie]

/-- Each field of CORE_ID lies below the weight of the next one, so division and remainder give it back (R189). -/
theorem coreIdReg_fields {core : Nat} (oct : Nat) (h : core < 288) :
    coreIdReg core oct % 512 = core ∧ coreIdReg core oct / 512 % 128 = cluOf core ∧
      coreIdReg core oct / 65536 % 4 = dieOf core ∧ coreIdReg core oct / 2 ^ 18 % 8 = oct % 8 ∧
      coreIdReg core oct / 2 ^ 21 = 0 := by
  have hclu := cluOf_lt h
  have hdie := dieOf_lt h
  have hoct : oct % 8 < 8 := Nat.mod_lt _ (by decide)
  rw [coreIdReg_eq oct h]
  generalize cluOf core = clu at hclu
  generalize dieOf core = die at hdie
  generalize oct % 8 = o at hoct
  refine ⟨?core, ?cluster, ?die, ?octant, ?reserved⟩ <;> omega

/-- Settles O15: CAPS0 is twelve ones, CAPS1 to CAPS3 are 0, the special registers are these words, and the fields of CORE_ID
do not overlap. -/
theorem fixedSystemRegisters : Obligations.FixedSystemRegisters := by
  intro s p b
  refine ⟨sysRead_caps0_testBit s p b, ?capsRest, special_caps s p b, ?coreId⟩
  case capsRest =>
    rintro n (rfl | rfl | rfl)
    · exact sysRead_caps1 s p b
    · exact sysRead_caps2 s p b
    · exact sysRead_caps3 s p b
  case coreId =>
    intro hcore
    obtain ⟨core, cluster, die, octant, reserved⟩ := coreIdReg_fields (octOf b p) hcore
    exact ⟨core, cluster, die, octant, reserved, rfl, rfl⟩

end Sys2Proof.Machine
end

section
/-!
PROOFS. Rounding and overflow (spec/04 R103, R104): the table of R104, and what a rounding can give.
-/
namespace Sys2Proof.Machine

/-! ### Codes: a sign above a magnitude -/

/-- Max lies below the sign bit under every reading, so a magnitude up to Max never reaches the sign. -/
theorem fmtMax_lt_fmtSign (f : Fmt) (rd : Reading) : fmtMax f rd < fmtSign f := by
  have hpos : 0 < 2 ^ (f.eb + f.m) := Nat.two_pow_pos _
  cases rd with
  | ieee =>
    calc fmtInf f - 1
        ≤ (2 ^ f.eb - 1) * 2 ^ f.m := Nat.sub_le _ _
      _ < 2 ^ f.eb * 2 ^ f.m :=
        Nat.mul_lt_mul_of_pos_right (Nat.sub_lt (Nat.two_pow_pos _) Nat.one_pos) (Nat.two_pow_pos _)
      _ = fmtSign f := (Nat.pow_add 2 f.eb f.m).symm
  | finite => exact Nat.sub_lt hpos (by decide)
  | nanOnly => exact Nat.sub_lt hpos (by decide)

theorem signed_mod_fmtSign {f : Fmt} {mag : Nat} (neg : Bool) (h : mag < fmtSign f) :
    signed f neg mag % fmtSign f = mag := by
  cases neg <;> simp [signed, Nat.mod_eq_of_lt h]

theorem signed_div_fmtSign {f : Fmt} {mag : Nat} (neg : Bool) (h : mag < fmtSign f) :
    signed f neg mag / fmtSign f = if neg then 1 else 0 := by
  have hpos : 0 < fmtSign f := Nat.zero_lt_of_lt h
  cases neg <;> simp [signed, Nat.add_div_left _ hpos, Nat.div_eq_of_lt h]

/-! ### The table of R104 -/

section
variable (f : Fmt) (neg : Bool)

theorem overflow_ieee_rne : overflow f .rne .ieee neg = ⟨signed f neg (fmtInf f), flOF ||| flNX⟩ := rfl

theorem overflow_ieee_rna : overflow f .rna .ieee neg = ⟨signed f neg (fmtInf f), flOF ||| flNX⟩ := rfl

theorem overflow_ieee_rtz : overflow f .rtz .ieee neg = ⟨signed f neg (fmtMax f .ieee), flOF ||| flNX⟩ := rfl

theorem overflow_ieee_rdn :
    overflow f .rdn .ieee neg = ⟨signed f neg (if neg then fmtInf f else fmtMax f .ieee), flOF ||| flNX⟩ := rfl

theorem overflow_ieee_rup :
    overflow f .rup .ieee neg = ⟨signed f neg (if neg then fmtMax f .ieee else fmtInf f), flOF ||| flNX⟩ := by
  cases neg <;> rfl

/-- A reading without infinities gives Max in every mode. -/
theorem overflow_of_ne_ieee (mode : Rnd) {rd : Reading} (h : rd ≠ .ieee) :
    overflow f mode rd neg = ⟨signed f neg (fmtMax f rd), flOF ||| flNX⟩ := by
  cases rd with
  | ieee => exact absurd rfl h
  | finite => rfl
  | nanOnly => rfl

end

/-! ### What a rounding can give -/

/-- NX and UF, raised each where its condition holds, are not OF. -/
theorem nx_or_uf_and_flOF (exact tiny : Prop) [Decidable exact] [Decidable tiny] :
    ((if exact then flNone else flNX) ||| (if tiny then flUF else flNone)) &&& flOF = 0 := by
  by_cases hexact : exact
  · by_cases htiny : tiny
    · rw [if_pos hexact, if_pos htiny]; decide
    · rw [if_pos hexact, if_neg htiny]; decide
  · by_cases htiny : tiny
    · rw [if_neg hexact, if_pos htiny]; decide
    · rw [if_neg hexact, if_neg htiny]; decide

/-- A rounding either overflows, or gives a magnitude up to Max under the sign of the number and raises no OF. -/
theorem roundWith_cases (f : Fmt) (mode : Rnd) (rd : Reading) (ftz neg : Bool) (e : Int) (at_ : Int → Halves) :
    roundWith f mode rd ftz neg e at_ = overflow f mode rd neg ∨
      ∃ mag fl, roundWith f mode rd ftz neg e at_ = ⟨signed f neg mag, fl⟩ ∧ mag ≤ fmtMax f rd ∧ fl &&& flOF = 0 := by
  unfold roundWith
  extract_lets q h n mag nx uf
  by_cases hover : fmtMax f rd < mag
  · exact .inl (if_pos hover)
  · rw [if_neg hover]
    by_cases hflush : ftz ∧ 0 < mag ∧ mag < 2 ^ f.m
    · exact .inr ⟨0, flUF ||| flNX, if_pos hflush, Nat.zero_le _, by decide⟩
    · exact .inr ⟨mag, nx ||| uf, if_neg hflush, Nat.le_of_not_lt hover, nx_or_uf_and_flOF _ _⟩

/-- OF is raised by overflow alone. -/
theorem roundWith_eq_overflow_of_flOF {f : Fmt} {mode : Rnd} {rd : Reading} {ftz neg : Bool} {e : Int} {at_ : Int → Halves}
    (hof : (roundWith f mode rd ftz neg e at_).fl &&& flOF ≠ 0) :
    roundWith f mode rd ftz neg e at_ = overflow f mode rd neg := by
  obtain hover | ⟨mag, fl, hr, -, hfl⟩ := roundWith_cases f mode rd ftz neg e at_
  · exact hover
  · rw [hr] at hof
    exact absurd hfl hof

/-- Under a reading without infinities every rounding, overflow included, gives a magnitude up to Max under the number's sign. -/
theorem roundWith_code_of_ne_ieee (f : Fmt) (mode : Rnd) {rd : Reading} (ftz neg : Bool) (e : Int) (at_ : Int → Halves)
    (hrd : rd ≠ .ieee) : ∃ mag ≤ fmtMax f rd, (roundWith f mode rd ftz neg e at_).code = signed f neg mag := by
  obtain hover | ⟨mag, fl, hr, hmag, -⟩ := roundWith_cases f mode rd ftz neg e at_
  · exact ⟨fmtMax f rd, Nat.le_refl _, by rw [hover, overflow_of_ne_ieee f neg mode hrd]⟩
  · exact ⟨mag, hmag, by rw [hr]⟩

/-- Settles O7: the table of R104 row by row, and the two outcomes of a rounding, of which overflow alone raises OF and, without
infinities, none exceeds Max. (The name `overflow` is that of the model's function.) -/
theorem overflow_holds : Obligations.Overflow := by
  intro f _ neg ftz mode rd
  refine ⟨⟨overflow_ieee_rne f neg, overflow_ieee_rna f neg, overflow_ieee_rtz f neg, overflow_ieee_rdn f neg,
    overflow_ieee_rup f neg, overflow_of_ne_ieee f neg mode⟩, fun e at_ => ⟨roundWith_eq_overflow_of_flOF, ?noWrap⟩⟩
  case noWrap =>
    intro hrd
    obtain ⟨mag, hmag, hcode⟩ := roundWith_code_of_ne_ieee f mode ftz neg e at_ hrd
    have hlt : mag < fmtSign f := Nat.lt_of_le_of_lt hmag (fmtMax_lt_fmtSign f rd)
    rw [hcode, signed_mod_fmtSign neg hlt, signed_div_fmtSign neg hlt]
    exact ⟨hmag, rfl⟩

end Sys2Proof.Machine
end
